-- ==== Sys2Proof/Word.lean ====
section
/-! DEFINITION. The two word types of the block: bytes of memory and of the stream, and the 32-bit
words of addresses, lengths and control registers (spec/00_scope.md R10, R14). -/

namespace Sys2Proof

/-- One byte of system memory or of a compressed stream (R14). -/
abbrev Byte := BitVec 8

/-- One 32-bit word: CSR_WIDTH = ADDR_WIDTH = LEN_WIDTH = 32 (R10). -/
abbrev Word := BitVec 32

end Sys2Proof
end

