-- ==== Sys2Proof/Syntax.lean ====
section
/-! DEFINITION. The instruction set as data: the ten stream instructions and the two host commands
(spec/00_scope.md R2, spec/30_encoding.md R90 and R103), one constructor per row of
spec/opcode_table.json. -/

namespace Sys2Proof

/-- The stream level, 1 or 2 (R3). It is not recorded in a stream (R91). -/
inductive Level where
  | one
  | two
  deriving DecidableEq, Repr

/-- One instruction. A stream instruction carries the values its fields stand for (a literal run its
bytes, a match its length and distance); a host command carries CMD.LEVEL and the ignored bits
[31:4] of the CMD word, so that no bit of an encoding is lost. -/
inductive Instr where
  /-- LIT: a literal run of 1 to 32 bytes (R93, R180). -/
  | lit (bytes : List Byte)
  /-- MS3: short match of length 3 (R94, R181). -/
  | ms3 (dist : Nat)
  /-- MS4: short match of length 4 (R94, R182). -/
  | ms4 (dist : Nat)
  /-- MS5: short match of length 5 (R94, R183). -/
  | ms5 (dist : Nat)
  /-- MS6: short match of length 6 (R94, R184). -/
  | ms6 (dist : Nat)
  /-- MS7: short match of length 7 (R94, R185). -/
  | ms7 (dist : Nat)
  /-- MS8: short match of length 8 (R94, R186). -/
  | ms8 (dist : Nat)
  /-- MX1: extended match, level 1 (R97, R187). -/
  | mx1 (len dist : Nat)
  /-- MX2N: extended match, level 2, near form (R98, R188). -/
  | mx2n (len dist : Nat)
  /-- MX2F: extended match, level 2, far form (R98, R189). -/
  | mx2f (len dist : Nat)
  /-- COMPRESS: a CMD word with START = 1 and OP = 0 (R107, R206). -/
  | compress (level : BitVec 2) (ignored : BitVec 28)
  /-- DECOMPRESS: a CMD word with START = 1 and OP = 1 (R107, R209). -/
  | decompress (level : BitVec 2) (ignored : BitVec 28)
  deriving DecidableEq, Repr

/-- True for the instructions of the stream encoding domain, false for the host commands (R90). -/
def Instr.isStream : Instr → Bool
  | .lit _ | .ms3 _ | .ms4 _ | .ms5 _ | .ms6 _ | .ms7 _ | .ms8 _
  | .mx1 _ _ | .mx2n _ _ | .mx2f _ _ => true
  | .compress _ _ | .decompress _ _ => false

end Sys2Proof
end

