-- ==== Sys2Proof/Config.lean ====
section
/-! DEFINITION. What an implementation fixes: the constants of spec/00_scope.md R8, R9 and R17, and the
free values, for which the spec says that a model treats them as any value
(spec/93_implementation_defined.md U1 to U4, U12, U13). -/

namespace Sys2Proof.Config

/-- MAX_COPY: the largest literal run in one opcode (R8). -/
abbrev maxCopy : Nat := 32

/-- MIN_MATCH: the shortest match (R8). -/
abbrev minMatch : Nat := 3

/-- SHORT_MAX_LEN: the longest match in a short-match opcode (R8). -/
abbrev shortMaxLen : Nat := 8

/-- EXT_MIN_LEN: the shortest match in an extended-match opcode (R8). -/
abbrev extMinLen : Nat := 9

/-- SHORT_MAX_DIST: the largest distance in a short-match opcode (R8). -/
abbrev shortMaxDist : Nat := 8192

/-- L2_NEAR_EXT_MAX_DIST: the largest distance of a level-2 near extended match (R8). -/
abbrev nearMaxDist : Nat := 8191

/-- FAR_BASE: the distance of a level-2 far offset of 0 (R8). -/
abbrev farBase : Nat := 8192

/-- MAX_DIST_1: the largest distance at level 1 (R8). -/
abbrev maxDist1 : Nat := 8192

/-- MAX_DIST_2: the largest distance at level 2 (R8). -/
abbrev maxDist2 : Nat := 73727

/-- MAX_LEN_1: the longest match the level-1 finder emits in one token (R8). -/
abbrev maxLen1 : Nat := 263

/-- FAR_MIN_LEN: the shortest level-2 match with distance above 8192 the finder accepts (R8). -/
abbrev farMinLen : Nat := 9

/-- HEAD_LITERALS: positions 0 and 1 are never searched (R8). -/
abbrev headLiterals : Nat := 2

/-- SEARCH_GUARD: no search at a position p with p + 12 ≥ n (R8). -/
abbrev searchGuard : Nat := 12

/-- TAIL_LITERALS: a match never covers the last 3 input bytes (R8). -/
abbrev tailLiterals : Nat := 3

/-- AUTO_THRESHOLD: AUTO selects level 2 when the length exceeds this (R8, R205). -/
abbrev autoThreshold : Nat := 65536

/-- MAX_DIST(L): 8192 at level 1 and 73727 at level 2 (R17). -/
def maxDist : Level → Nat
  | .one => maxDist1
  | .two => maxDist2

/-- len < MAX_LEN(L): MAX_LEN is 263 at level 1 and unbounded at level 2 (R8, R17). -/
def belowMaxLen : Level → Nat → Bool
  | .one, len => decide (len < maxLen1)
  | .two, _ => true

/-- The largest hash log: HTAB_PHYS = 2^16 entries (R9). -/
abbrev maxHashLog : Nat := 16

/-- A free byte: what a byte reads as where the spec says "any value" (U1, U2, U4, U12, U13). The first
argument is a seed drawn from State.freeCtr, the second the byte's address. Nothing is known of it
(notes/assumptions/1). -/
opaque freeByte : Nat → Nat → Byte

/-- A free 32-bit word: ERR_POS after BUS_ERROR is "any 32-bit value" (R37, R230, U3). The argument is a
seed drawn from State.freeCtr. Nothing is known of it (notes/assumptions/1). -/
opaque freeWord : Nat → Word

end Sys2Proof.Config
end

