-- ==== Sys2Proof/WellFormed.lean ====
section
/-! DEFINITION. Which instructions have an encoding: the operand ranges of spec/30_encoding.md R93 to
R98. A well-formed instruction is one that some words of the spec encode. -/

namespace Sys2Proof

/-- Why an instruction term has no encoding. -/
inductive IllFormed where
  /-- A literal run of no byte: 1 ≤ count (R93). -/
  | literalEmpty
  /-- A literal run of more than 32 bytes: count ≤ 32 (R93). -/
  | literalTooLong
  /-- A distance of 0: the fields hold distance − 1 (R94, R97, R98). -/
  | distanceZero
  /-- A distance above what the form's fields can hold (R94, R97, R98). -/
  | distanceTooFar
  /-- A far-form distance below 8192 (R98). -/
  | distanceTooNear
  /-- An extended match shorter than 9 (R95). -/
  | lengthTooShort
  deriving DecidableEq, Repr

/-- The distance check shared by the near forms: 1 ≤ dist ≤ most. -/
def distanceProblem (most dist : Nat) : Option IllFormed :=
  if dist = 0 then some .distanceZero
  else if most < dist then some .distanceTooFar
  else none

/-- The first thing that keeps an instruction from having an encoding, if there is one. -/
def Instr.problem : Instr → Option IllFormed
  | .lit bytes =>
    if bytes.length = 0 then some .literalEmpty
    else if Config.maxCopy < bytes.length then some .literalTooLong
    else none
  | .ms3 dist => distanceProblem Config.shortMaxDist dist
  | .ms4 dist => distanceProblem Config.shortMaxDist dist
  | .ms5 dist => distanceProblem Config.shortMaxDist dist
  | .ms6 dist => distanceProblem Config.shortMaxDist dist
  | .ms7 dist => distanceProblem Config.shortMaxDist dist
  | .ms8 dist => distanceProblem Config.shortMaxDist dist
  | .mx1 len dist =>
    if len < Config.extMinLen then some .lengthTooShort
    else distanceProblem Config.maxDist1 dist
  | .mx2n len dist =>
    if len < Config.extMinLen then some .lengthTooShort
    else distanceProblem Config.nearMaxDist dist
  | .mx2f len dist =>
    if len < Config.extMinLen then some .lengthTooShort
    else if dist < Config.farBase then some .distanceTooNear
    else if Config.maxDist2 < dist then some .distanceTooFar
    else none
  | .compress _ _ => none
  | .decompress _ _ => none

/-- An instruction is well formed when it has an encoding. -/
abbrev Instr.wf (i : Instr) : Prop := i.problem = none

/-- The level at which a stream instruction exists: MX1 only at level 1, MX2N and MX2F only at level 2,
every other one at both (R172). -/
def Instr.atLevel : Level → Instr → Bool
  | .one, .mx2n _ _ | .one, .mx2f _ _ => false
  | .two, .mx1 _ _ => false
  | _, _ => true

end Sys2Proof
end

