-- ==== Sys2Proof/Decode.lean ====
section
/-! DEFINITION. The decoder of the two encoding domains and the encoder written from the same tables
(spec/30_encoding.md R92 to R101 and R107; spec/42_block_decoder.md R172). The stream decoder reads a
list of bytes and answers an instruction with the bytes after it, or says by name why the bytes hold
no whole instruction. -/

namespace Sys2Proof

/-- Why bytes do not begin with a whole stream instruction. No opcode byte is illegal (R104): a stream
instruction can only be cut off by the end of the stream. -/
inductive DecodeError where
  /-- There is no opcode byte: the stream is exhausted (R171). -/
  | noOpcode
  /-- A literal run extends past the end (R180). -/
  | truncLiteral
  /-- The bytes end inside a match's length, distance or offset bytes (R173). -/
  | truncMatch
  deriving DecidableEq, Repr

/-- The first n elements and the rest, if there are n. -/
def splitExact {α : Type} : Nat → List α → Option (List α × List α)
  | 0, xs => some ([], xs)
  | _ + 1, [] => none
  | n + 1, x :: xs =>
    match splitExact n xs with
    | none => none
    | some (front, rest) => some (x :: front, rest)

/-- The shape field T = b[7:5] (R92). -/
def opcodeT (b : Byte) : Nat := b.toNat / 32

/-- The payload field F = b[4:0] (R92). -/
def opcodeF (b : Byte) : Nat := b.toNat % 32

/-- The opcode byte with shape T and payload F. -/
def opcodeByte (t f : Nat) : Byte := BitVec.ofNat 8 (t * 32 + f)

/-- A length-byte sequence's value X and the bytes after it: bytes of 255 up to and with the first byte
below 255, summed (R96). -/
def lengthBytes : List Byte → Option (Nat × List Byte)
  | [] => none
  | c :: rest =>
    if c = 255#8 then
      match lengthBytes rest with
      | none => none
      | some (x, after) => some (255 + x, after)
    else some (c.toNat, rest)

/-- LENBYTES(X): the one length-byte sequence of value X (R96, R161). -/
def lenBytes (x : Nat) : List Byte :=
  List.replicate (x / 255) 255#8 ++ [BitVec.ofNat 8 (x % 255)]

/-- The near distance of the fields F and B: ((F << 8) | B) + 1 (R94, R97, R98). -/
def nearDistance (f : Nat) (b : Byte) : Nat := f * 256 + b.toNat + 1

/-- The far distance of the offset bytes OH and OL: 8192 + ((OH << 8) | OL), high byte first (R98). -/
def farDistance (oh ol : Byte) : Nat := Config.farBase + (oh.toNat * 256 + ol.toNat)

/-- The short match that shape T = 1 to 6 selects: its length is T + 2 (R94, R172). -/
def shortInstr (t dist : Nat) : Instr :=
  match t with
  | 1 => .ms3 dist
  | 2 => .ms4 dist
  | 3 => .ms5 dist
  | 4 => .ms6 dist
  | 5 => .ms7 dist
  | _ => .ms8 dist

/-- Format LIT after its opcode: F + 1 literal bytes (R93). -/
def decodeLiteral (f : Nat) (rest : List Byte) : Except DecodeError (Instr × List Byte) :=
  match splitExact (f + 1) rest with
  | none => .error .truncLiteral
  | some (bytes, after) => .ok (.lit bytes, after)

/-- Format SHORT after its opcode: one distance byte (R94). -/
def decodeShort (t f : Nat) (rest : List Byte) : Except DecodeError (Instr × List Byte) :=
  match rest with
  | [] => .error .truncMatch
  | b :: after => .ok (shortInstr t (nearDistance f b), after)

/-- Format EXT after its opcode: the length bytes, then the level's distance part (R95 to R98). -/
def decodeExtended (level : Level) (f : Nat) (rest : List Byte) :
    Except DecodeError (Instr × List Byte) :=
  match lengthBytes rest with
  | none => .error .truncMatch
  | some (_, []) => .error .truncMatch
  | some (x, b :: after) =>
    match level with
    | .one => .ok (.mx1 (Config.extMinLen + x) (nearDistance f b), after)
    | .two =>
      if f = 31 ∧ b = 255#8 then
        match after with
        | oh :: ol :: after' => .ok (.mx2f (Config.extMinLen + x) (farDistance oh ol), after')
        | _ => .error .truncMatch
      else .ok (.mx2n (Config.extMinLen + x) (nearDistance f b), after)

/-- The stream decoder: the instruction at the head of the bytes and the bytes after it (R101, R172). -/
def decode (level : Level) : List Byte → Except DecodeError (Instr × List Byte)
  | [] => .error .noOpcode
  | b :: rest =>
    if opcodeT b = 0 then decodeLiteral (opcodeF b) rest
    else if opcodeT b < 7 then decodeShort (opcodeT b) (opcodeF b) rest
    else decodeExtended level (opcodeF b) rest

/-- The host command a value written to CMD stands for: START = v[0], OP = v[1], LEVEL = v[3:2], v[31:4]
ignored. A word with START = 0 is no command (R22, R107). -/
def decodeCommand (v : Word) : Option Instr :=
  if v.extractLsb' 0 1 = 1#1 then
    if v.extractLsb' 1 1 = 1#1 then some (.decompress (v.extractLsb' 2 2) (v.extractLsb' 4 28))
    else some (.compress (v.extractLsb' 2 2) (v.extractLsb' 4 28))
  else none

/-- The two opcode bytes' worth of format SHORT: T = length − 2, then the 13 bits of distance − 1 (R94). -/
def encodeShort (t dist : Nat) : List Byte :=
  [opcodeByte t ((dist - 1) / 256), BitVec.ofNat 8 ((dist - 1) % 256)]

/-- The near forms of format EXT: opcode with F, length bytes, B (R97, R98). -/
def encodeNear (len dist : Nat) : List Byte :=
  [opcodeByte 7 ((dist - 1) / 256)] ++ lenBytes (len - Config.extMinLen) ++
    [BitVec.ofNat 8 ((dist - 1) % 256)]

/-- The far form of format EXT: opcode 0xFF, length bytes, B = 255, OH, OL (R98). -/
def encodeFar (len dist : Nat) : List Byte :=
  [opcodeByte 7 31] ++ lenBytes (len - Config.extMinLen) ++
    [255#8, BitVec.ofNat 8 ((dist - Config.farBase) / 256),
      BitVec.ofNat 8 ((dist - Config.farBase) % 256)]

/-- The bytes of a stream instruction (R93 to R98); a host command has none (R90). -/
def encodeStream : Instr → List Byte
  | .lit bytes => opcodeByte 0 (bytes.length - 1) :: bytes
  | .ms3 dist => encodeShort 1 dist
  | .ms4 dist => encodeShort 2 dist
  | .ms5 dist => encodeShort 3 dist
  | .ms6 dist => encodeShort 4 dist
  | .ms7 dist => encodeShort 5 dist
  | .ms8 dist => encodeShort 6 dist
  | .mx1 len dist => encodeNear len dist
  | .mx2n len dist => encodeNear len dist
  | .mx2f len dist => encodeFar len dist
  | .compress _ _ => []
  | .decompress _ _ => []

/-- The CMD word of a host command (R107); a stream instruction has none (R90). -/
def encodeCommand : Instr → Option Word
  | .compress level ignored => some (ignored ++ level ++ 0#1 ++ 1#1)
  | .decompress level ignored => some (ignored ++ level ++ 1#1 ++ 1#1)
  | _ => none

/-- An encoding in one of the two domains, which share none (R90). -/
inductive Encoding where
  | stream (bytes : List Byte)
  | command (word : Word)
  deriving DecidableEq, Repr

/-- The encoding of an instruction: its stream bytes or its CMD word. -/
def encode (i : Instr) : Encoding :=
  match encodeCommand i with
  | some w => .command w
  | none => .stream (encodeStream i)

/-- The instruction an encoding stands for at a level, whole: a stream encoding is exactly one
instruction's bytes. -/
def decodeEncoding (level : Level) : Encoding → Option Instr
  | .command w => decodeCommand w
  | .stream bytes =>
    match decode level bytes with
    | .ok (i, []) => some i
    | _ => none

/-- The length in bytes of an instruction (R100). A host command is one 32-bit word. -/
def Instr.size : Instr → Nat
  | .lit bytes => 1 + bytes.length
  | .ms3 _ | .ms4 _ | .ms5 _ | .ms6 _ | .ms7 _ | .ms8 _ => 2
  | .mx1 len _ => (len - Config.extMinLen) / 255 + 1 + 2
  | .mx2n len _ => (len - Config.extMinLen) / 255 + 1 + 2
  | .mx2f len _ => (len - Config.extMinLen) / 255 + 1 + 4
  | .compress _ _ | .decompress _ _ => 4

/-- The bytes of an opcode-table word: nbits of it, first byte in the low bits, then operand bytes of
zero, more than any instruction with that opcode and zero operands has. -/
def tableBytes (nbits w : Nat) : List Byte :=
  (List.range (nbits / 8)).map (fun j => BitVec.ofNat 8 (w >>> (8 * j))) ++ List.replicate 40 0#8

/-- The instruction the decoder reads from an opcode-table word. A 32-bit row is a CMD word, every other
row the bytes of a stream instruction (R90). A stream word does not record its level (R91): it is read
at level 1 (notes/assumptions/13). -/
def decodeTableWord (nbits w : Nat) : Option Instr :=
  if nbits = 32 then decodeCommand (BitVec.ofNat 32 w)
  else
    match decode .one (tableBytes nbits w) with
    | .ok (i, _) => some i
    | .error _ => none

end Sys2Proof
end

