-- ==== Sys2Proof/Machine/State.lean ====
section
/-! DEFINITION. The state of the block as plain data (spec/10_state.md R20): the control and status
registers, the engine working registers with the engine state, the hash table RAM, system memory, the
platform around the block, and the host's actions that are still to come. State.reset is the block as
reset leaves it (spec/70_reset_and_hazards.md R260, R261). -/

namespace Sys2Proof.Machine

/-- A byte range of system memory: addresses lo to lo + len − 1. -/
structure Span where
  lo : Nat
  len : Nat
  deriving DecidableEq, Repr

/-- A byte range whose bytes read as free values, drawn with the seed (U1, U2, U12). -/
structure FreeSpan where
  span : Span
  seed : Nat
  deriving DecidableEq, Repr

/-- System memory: address and byte pairs in one canonical form (Memory.wf in Machine/Ops.lean). -/
abbrev Memory := List Host.Cell

/-- The hash table RAM HT: index and position pairs in the same canonical form; an unlisted entry holds
0 (R44, R45). -/
abbrev HashTable := List (Nat × Nat)

/-- The engine state `fsm` (R43). -/
inductive Fsm where
  | idle
  | check
  | htInit
  | cSearch
  | cExtend
  | cEmit
  | cLiteral
  | cFlush
  | dFetch
  | dOperand
  | dCheck
  | dCopy
  | dEnd
  | complete
  deriving DecidableEq, Repr

/-- CMD.OP: 0 = COMPRESS, 1 = DECOMPRESS (R22). -/
inductive Op where
  | compress
  | decompress
  deriving DecidableEq, Repr

/-- The errors a command can end with, by cause (R230). -/
inductive Cause where
  | truncLiteral
  | truncMatch
  | overrun
  | distBeforeStart
  | exhausted
  | trailing
  | badLevel
  | badHtabSize
  | srcWrap
  | dstWrap
  | regionOverlap
  | dstTooSmall
  | matchNotRepresentable
  | srcRead
  | dstWrite
  | dstRead
  deriving DecidableEq, Repr

/-- The control and status registers with storage (R21 to R37). CMD has none: it reads 0. STATUS.BUSY is
fsm ≠ IDLE (R23) and STATUS.ERR is ERR_CODE ≠ 0 (R25): Machine/Flags.lean computes both. -/
structure Csr where
  /-- STATUS.DONE (R24). -/
  done : Bool
  /-- STATUS.ERR_CODE (R26). -/
  errCode : BitVec 4
  /-- STATUS.ERR_CAUSE (R27). -/
  errCause : BitVec 8
  /-- STATUS.LEVEL_USED (R28). -/
  levelUsed : BitVec 2
  /-- IRQ_EN.DONE_IE (R30). -/
  doneIe : Bool
  /-- SRC_ADDR (R31). -/
  srcAddr : Word
  /-- SRC_LEN (R32). -/
  srcLen : Word
  /-- DST_ADDR (R33). -/
  dstAddr : Word
  /-- DST_LEN (R34). -/
  dstLen : Word
  /-- HTAB_SIZE (R35). -/
  htabSize : Word
  /-- RESULT_LEN (R36). -/
  resultLen : Word
  /-- ERR_POS (R37). -/
  errPos : Word
  deriving DecidableEq, Repr

/-- The engine working registers (R41) and the engine state (R43). Positions, offsets and lengths are
numbers: none of them wraps (R40), and the widths of R41 are bounds that Safety.lean states. -/
structure Engine where
  /-- The engine state (R43). -/
  fsm : Fsm
  /-- Latched CMD.OP. -/
  lop : Op
  /-- L: the resolved level. -/
  level : Level
  /-- Latched CMD.LEVEL. -/
  llevel : BitVec 2
  /-- Latched HTAB_SIZE. -/
  lhtab : Word
  /-- log2 of the latched HTAB_SIZE. -/
  k : Nat
  /-- Latched SRC_ADDR. -/
  lsrc : Word
  /-- Latched SRC_LEN: n of COMPRESS, m of DECOMPRESS. -/
  lslen : Word
  /-- Latched DST_ADDR. -/
  ldst : Word
  /-- Latched DST_LEN. -/
  ldlen : Word
  /-- Finder position. -/
  p : Nat
  /-- Stream offset. -/
  ip : Nat
  /-- Next output offset. -/
  o : Nat
  /-- Candidate position. -/
  r : Nat
  /-- Hash value. -/
  h : Nat
  /-- Match distance; 0 while a literal run is executed (notes/assumptions/10). -/
  d : Nat
  /-- Match length, or the count of a literal run in the decoder. -/
  len : Nat
  /-- Start position of the pending literals. -/
  litBase : Nat
  /-- Count of the pending literals. -/
  litCnt : Nat
  /-- Offset of the current stream instruction's opcode byte. -/
  start : Nat
  deriving DecidableEq, Repr

/-- How the memory system answers the engine's accesses to a byte range, where it does not simply
answer them: with an error (answered = true), or never (R71, R232, R272). -/
structure BusRule where
  span : Span
  onRead : Bool
  onWrite : Bool
  answered : Bool
  deriving DecidableEq, Repr

/-- A region of a command that another block of the platform is running (R12, R215). -/
structure OtherRegion where
  span : Span
  writes : Bool
  deriving DecidableEq, Repr

/-- The platform around the block: the parameters of R13 and what the spec makes depend on the platform. -/
structure Platform where
  /-- BASE[31:6]: BASE is 64-byte aligned (R13, R70). -/
  baseBlock : BitVec 26
  /-- PLATFORM_COHERENT (R13, R74). -/
  coherent : Bool
  /-- BUS_ERRORS_POSSIBLE (R13, R232). -/
  busErrors : Bool
  /-- Where memory has read or write side effects (R69). -/
  devices : List Span
  /-- The regions of commands running on other blocks (R215). -/
  others : List OtherRegion
  /-- How accesses are answered where they are not simply answered (R232, R272). -/
  bus : List BusRule
  deriving DecidableEq, Repr

/-- One action from outside the engine, or one turn of the engine. The list of them in State says which
of the agents of R20 moves next. -/
inductive Input where
  /-- The engine takes one step. -/
  | engine
  /-- A host read of the given width in bytes at a bus address in the register window (R200). -/
  | csrRead (addr : Word) (bytes : Nat)
  /-- A host write of the given width in bytes at a bus address in the register window (R200). -/
  | csrWrite (addr : Word) (bytes : Nat) (value : Word)
  /-- A host read of one byte of system memory. -/
  | memRead (addr : Word)
  /-- A write of one byte of system memory by the host or any other agent. -/
  | memWrite (addr : Word) (value : Byte)
  /-- The host cleans a byte range from its caches (R74). -/
  | cacheClean (lo : Word) (len : Nat)
  /-- The host invalidates a byte range in its caches (R74). -/
  | cacheInvalidate (lo : Word) (len : Nat)
  /-- The memory system's answers change (R232, R272). -/
  | setBus (rules : List BusRule)
  /-- The commands running on other blocks change (R215). -/
  | setOthers (regions : List OtherRegion)
  /-- The host looks at the interrupt output (R30, R241). -/
  | irqSample
  /-- The platform asserts reset and holds it (R260). -/
  | resetAssert
  /-- The platform releases reset (R260). -/
  | resetRelease
  deriving DecidableEq, Repr

/-- What the block or memory answered to the last host access. -/
inductive Response where
  /-- No access yet. -/
  | none
  /-- A register read returned this word. -/
  | word (value : Word)
  /-- A memory read returned this byte. -/
  | byte (value : Byte)
  /-- The interrupt output was at this level. -/
  | level (asserted : Bool)
  /-- The access was performed. -/
  | done
  /-- A bus error response (R66). -/
  | busError
  /-- The address lies outside the block's window: the block is not addressed (R70). -/
  | notAddressed
  deriving DecidableEq, Repr

/-- The whole state. -/
structure State where
  /-- Control and status registers. -/
  csr : Csr
  /-- Engine working registers and engine state. -/
  eng : Engine
  /-- Hash table RAM. -/
  ht : HashTable
  /-- System memory. -/
  mem : Memory
  /-- Ranges of system memory whose bytes are free values: no byte of them is in `mem`. -/
  unspec : List FreeSpan
  /-- Bytes the host wrote and has not cleaned from its caches (R74). -/
  dirty : List Span
  /-- The bytes that were dirty at the CMD write of the last command started: what was not cleaned before
  it (R74). -/
  uncleaned : List Span
  /-- Destination bytes of commands that have ended, while the host has not observed DONE = 1 since: an
  invalidation of them is too early (R74). -/
  unseen : List Span
  /-- Destination bytes of commands whose DONE = 1 the host has observed, and which it has not invalidated
  in its caches since (R74). -/
  stale : List Span
  /-- The reset input is asserted (R260). -/
  resetHeld : Bool
  /-- The platform. -/
  plat : Platform
  /-- The actions still to come, first one first; none left: the engine moves. -/
  inputs : List Input
  /-- The answer to the last host access. -/
  resp : Response
  /-- The model's own: the seed of the next free value. -/
  freeCtr : Nat
  /-- The model's own: the seed of the free bytes the running command reads from lines not cleaned. -/
  seed : Nat
  deriving DecidableEq, Repr

/-- The faults of a step: there is none. Every error the spec describes is either an error completion
in STATUS (R230, R236), an error response to the host (R66), or an engine that waits for memory (R272);
each of these is a next state. -/
inductive Fault where
  deriving DecidableEq, Repr

/-- Why a step has no meaning. Each of the last four is a launch that the spec tells a model to refuse. -/
inductive Refusal where
  /-- Raised by exec's arms that have no meaning; no arm is left. Safe: the run stops. -/
  | notModelled (mnemonic : String)
  /-- Raised by a write to the source region of a running command (R266, U5). Safe: the run stops where
  the results are unspecified. -/
  | sourceWrittenWhileBusy
  /-- Raised by a write to the destination region of a running command (R267, U5). Safe: the run stops
  where the results are unspecified. -/
  | destinationWrittenWhileBusy
  /-- Raised by the start of a command whose regions meet memory with side effects (R69, U6). Safe: the
  run stops where the results are unspecified. -/
  | regionHasSideEffects
  /-- Raised by the start of a command, here or on another block, whose regions race with those of a
  command on the other (R215, U7). Safe: the run stops where the results are unspecified. -/
  | raceWithOtherBlock
  deriving DecidableEq, Repr

/-- The control and status registers after reset (R21, R261). -/
def Csr.reset : Csr where
  done := false
  errCode := 0
  errCause := 0
  levelUsed := 0
  doneIe := false
  srcAddr := 0
  srcLen := 0
  dstAddr := 0
  dstLen := 0
  htabSize := 0x00002000
  resultLen := 0
  errPos := 0

/-- The engine after reset: fsm is IDLE (R261). The working registers are unspecified there and cannot
be observed (R42, U11); the values are a DESIGN CHOICE (notes/assumptions/2). -/
def Engine.reset : Engine where
  fsm := .idle
  lop := .compress
  level := .one
  llevel := 0
  lhtab := 0
  k := 0
  lsrc := 0
  lslen := 0
  ldst := 0
  ldlen := 0
  p := 0
  ip := 0
  o := 0
  r := 0
  h := 0
  d := 0
  len := 0
  litBase := 0
  litCnt := 0
  start := 0

/-- A platform for State.reset; statements hold for every platform (DESIGN CHOICE,
notes/assumptions/3). -/
def Platform.plain : Platform where
  baseBlock := 0
  coherent := true
  busErrors := true
  devices := []
  others := []
  bus := []

namespace State

/-- The machine right after reset (R260, R261), the reset input released: the block idle, its registers at
their reset values, memory with nothing listed. What the spec leaves open here is named in notes/assumptions/2, 3 and 4. -/
def reset : State where
  csr := Csr.reset
  eng := Engine.reset
  ht := []
  mem := []
  unspec := []
  dirty := []
  uncleaned := []
  unseen := []
  stale := []
  resetHeld := false
  plat := Platform.plain
  inputs := []
  resp := .none
  freeCtr := 0
  seed := 0

end State

end Sys2Proof.Machine
end

