-- ==== Sys2Proof/Machine/Flags.lean ====
section
/-! DEFINITION. The flags and the error report: STATUS.BUSY, STATUS.ERR and irq, none of which has
storage of its own (spec/10_state.md R23, R25, R30, R39), the code and cause numbers of each error
(spec/60_exceptions.md R230), and the STATUS word (R23 to R29). -/

namespace Sys2Proof.Machine

/-- STATUS.BUSY = 1 exactly when fsm ≠ IDLE (R23). -/
def State.busy (s : State) : Bool := decide (s.eng.fsm ≠ .idle)

/-- STATUS.ERR = 1 exactly when ERR_CODE ≠ 0 (R25). -/
def Csr.err (c : Csr) : Bool := decide (c.errCode ≠ 0)

/-- The interrupt output: irq = STATUS.DONE & IRQ_EN.DONE_IE (R30, R241). -/
def State.irq (s : State) : Bool := s.csr.done && s.csr.doneIe

/-- ERR_CODE of an error (R230): 1 CORRUPT_STREAM, 2 INVALID_CONFIGURATION, 3 INTERNAL_INVARIANT,
4 BUS_ERROR. -/
def Cause.code : Cause → BitVec 4
  | .truncLiteral | .truncMatch | .overrun | .distBeforeStart | .exhausted | .trailing => 1
  | .badLevel | .badHtabSize | .srcWrap | .dstWrap | .regionOverlap | .dstTooSmall => 2
  | .matchNotRepresentable => 3
  | .srcRead | .dstWrite | .dstRead => 4

/-- ERR_CAUSE of an error (R230). -/
def Cause.number : Cause → BitVec 8
  | .truncLiteral => 1
  | .truncMatch => 2
  | .overrun => 3
  | .distBeforeStart => 4
  | .exhausted => 5
  | .trailing => 6
  | .badLevel => 1
  | .badHtabSize => 2
  | .srcWrap => 3
  | .dstWrap => 4
  | .regionOverlap => 5
  | .dstTooSmall => 6
  | .matchNotRepresentable => 1
  | .srcRead => 1
  | .dstWrite => 2
  | .dstRead => 3

/-- The STATUS word: BUSY [0], DONE [1], ERR [2], ERR_CODE [7:4], ERR_CAUSE [15:8], LEVEL_USED [17:16],
every other bit 0 (R23 to R29). -/
def State.statusWord (s : State) : Word :=
  0#14 ++ s.csr.levelUsed ++ s.csr.errCause ++ s.csr.errCode ++ 0#1 ++
    BitVec.ofBool s.csr.err ++ BitVec.ofBool s.csr.done ++ BitVec.ofBool s.busy

/-- LEVEL_USED of a level (R28). -/
def levelField : Level → BitVec 2
  | .one => 1
  | .two => 2

end Sys2Proof.Machine
end

