-- ==== Sys2Proof/Machine/Ops.lean ====
section
/-! DEFINITION. The named operations over memory, the hash table, the free values, the engine's bus and
the completion of a command (spec/20_memory.md, spec/60_exceptions.md R230 to R240). Every read and
write of memory goes through them. Ending a command with an error is ONE operation, State.raise; its
acknowledgement by the host is State.clearDone. -/

namespace Sys2Proof.Machine

/-! ### Sparse tables in canonical form -/

/-- The value at a key; an unlisted key has the value `dflt`. -/
def Sparse.get {α : Type} (dflt : α) : List (Nat × α) → Nat → α
  | [], _ => dflt
  | (k, v) :: rest, a => if k = a then v else Sparse.get dflt rest a

/-- The table with a value put in at a key, in rising order of the keys. -/
def Sparse.insert {α : Type} : List (Nat × α) → Nat → α → List (Nat × α)
  | [], a, v => [(a, v)]
  | (k, w) :: rest, a, v =>
    if a < k then (a, v) :: (k, w) :: rest
    else if a = k then (a, v) :: rest
    else (k, w) :: Sparse.insert rest a v

/-- The table with a key's entry taken out. -/
def Sparse.erase {α : Type} : List (Nat × α) → Nat → List (Nat × α)
  | [], _ => []
  | (k, w) :: rest, a => if k = a then Sparse.erase rest a else (k, w) :: Sparse.erase rest a

/-- The table with a key set to a value: writing `dflt` takes the entry out, so that equal tables are
equal lists. -/
def Sparse.set {α : Type} [DecidableEq α] (dflt : α) (m : List (Nat × α)) (a : Nat) (v : α) :
    List (Nat × α) :=
  if v = dflt then Sparse.erase m a else Sparse.insert m a v

/-- Every key of the table is above a bound, the keys rise strictly and stay below `top`, and no value
is `dflt`. The bound is the key before, if there is one. -/
def Sparse.wfAbove {α : Type} [DecidableEq α] (dflt : α) (top : Nat) :
    Option Nat → List (Nat × α) → Bool
  | _, [] => true
  | before, (k, v) :: rest =>
    (match before with
      | none => true
      | some b => decide (b < k)) &&
      (decide (k < top) && (decide (v ≠ dflt) && Sparse.wfAbove dflt top (some k) rest))

/-! ### Memory -/

/-- What a byte of memory that nothing has written reads as (DESIGN CHOICE, notes/assumptions/4). -/
def Memory.unwritten : Byte := 0#8

/-- The byte the list holds for an address. -/
def Memory.get (m : Memory) (a : Nat) : Byte := Sparse.get Memory.unwritten m a

/-- The list with one byte set. -/
def Memory.set (m : Memory) (a : Nat) (v : Byte) : Memory := Sparse.set Memory.unwritten m a v

/-- The list without the bytes of a range. -/
def Memory.without (m : Memory) (lo len : Nat) : Memory :=
  m.filter (fun c => !(decide (lo ≤ c.1) && decide (c.1 < lo + len)))

/-- The canonical form: addresses of the 32-bit space, strictly rising, and no entry equal to what an
unlisted address reads as. -/
def Memory.wf (m : Memory) : Bool := Sparse.wfAbove Memory.unwritten (2 ^ 32) none m

/-! ### Byte ranges -/

/-- The address lies in the range. -/
def Span.has (sp : Span) (a : Nat) : Bool := decide (sp.lo ≤ a) && decide (a < sp.lo + sp.len)

/-- The two ranges share a byte; an empty range shares none. -/
def Span.meets (x y : Span) : Bool :=
  decide (0 < x.len) && decide (0 < y.len) &&
    (decide (x.lo < y.lo + y.len) && decide (y.lo < x.lo + x.len))

/-- What is left of a range when [lo, lo + len) is taken out: the part below and the part above. -/
def Span.cut (sp : Span) (lo len : Nat) : List Span :=
  [⟨sp.lo, min (sp.lo + sp.len) lo - sp.lo⟩,
    ⟨max sp.lo (lo + len), sp.lo + sp.len - max sp.lo (lo + len)⟩].filter
      (fun x => decide (0 < x.len))

/-- The address lies in one of the ranges. -/
def Spans.has (sps : List Span) (a : Nat) : Bool := sps.any (fun sp => sp.has a)

/-- The ranges with [lo, lo + len) taken out. -/
def Spans.cut (sps : List Span) (lo len : Nat) : List Span :=
  sps.flatMap (fun sp => sp.cut lo len)

/-- The ranges with [lo, lo + len) added; an empty range adds nothing. -/
def Spans.add (sps : List Span) (lo len : Nat) : List Span :=
  if len = 0 then sps else ⟨lo, len⟩ :: Spans.cut sps lo len

/-- The seed of the free range an address lies in, if it lies in one. -/
def FreeSpans.seedAt : List FreeSpan → Nat → Option Nat
  | [], _ => none
  | f :: rest, a => if f.span.has a then some f.seed else FreeSpans.seedAt rest a

/-- The free ranges with [lo, lo + len) taken out. -/
def FreeSpans.cut (fs : List FreeSpan) (lo len : Nat) : List FreeSpan :=
  fs.flatMap (fun f => (f.span.cut lo len).map (fun sp => ⟨sp, f.seed⟩))

/-! ### Reading and writing one byte -/

namespace State

/-- The state with other control and status registers. -/
def withCsr (s : State) (c : Csr) : State := { s with csr := c }

/-- The state with another engine. -/
def withEng (s : State) (e : Engine) : State := { s with eng := e }

/-- The state with the engine in another engine state. -/
def withFsm (s : State) (f : Fsm) : State := s.withEng { s.eng with fsm := f }

/-- The byte system memory holds at an address: a free value in a range whose bytes are unspecified
(U1, U2, U12), else what was last written there. -/
def readByte (s : State) (a : Nat) : Byte :=
  match FreeSpans.seedAt s.unspec a with
  | some seed => Config.freeByte seed a
  | none => Memory.get s.mem a

/-- One byte of system memory written. -/
def writeByte (s : State) (a : Nat) (v : Byte) : State :=
  { s with mem := Memory.set s.mem a v, unspec := FreeSpans.cut s.unspec a 1 }

/-- The bytes of a range become free values: "a model treats each such byte as any value". -/
def forget (s : State) (lo len : Nat) : State :=
  if len = 0 then s
  else
    { s with
      mem := Memory.without s.mem lo len
      unspec := ⟨⟨lo, len⟩, s.freeCtr⟩ :: FreeSpans.cut s.unspec lo len
      freeCtr := s.freeCtr + 1 }

/-- HT[j] (R16). -/
def htGet (s : State) (j : Nat) : Nat := Sparse.get 0 s.ht j

/-- HT[j] ← v (R16). -/
def htSet (s : State) (j v : Nat) : State := { s with ht := Sparse.set 0 s.ht j v }

/-- HT[j] ← 0 for 0 ≤ j < n (R45). -/
def htClear (s : State) (n : Nat) : State :=
  { s with ht := s.ht.filter (fun e => decide (n ≤ e.1)) }

/-! ### The engine's two regions -/

/-- The source region [lsrc, lsrc + lslen) (R61). -/
def srcSpan (s : State) : Span := ⟨s.eng.lsrc.toNat, s.eng.lslen.toNat⟩

/-- The destination region [ldst, ldst + ldlen) (R61). -/
def dstSpan (s : State) : Span := ⟨s.eng.ldst.toNat, s.eng.ldlen.toNat⟩

/-- The address SRC_ADDR + i on the 32 address bits of the master port (R10, R71). The checks of R204
keep the sum below 2^32 for every i below SRC_LEN (notes/assumptions/5). -/
def srcAddr (s : State) (i : Nat) : Nat := (s.eng.lsrc + BitVec.ofNat 32 i).toNat

/-- The address DST_ADDR + i on the 32 address bits of the master port (R10, R71). -/
def dstAddr (s : State) (i : Nat) : Nat := (s.eng.ldst + BitVec.ofNat 32 i).toNat

/-- in[i], as the engine reads it (R16). A byte the host wrote and had not cleaned from its caches before
the CMD write, on a platform that is not coherent, is a free value, the same for all of one command,
whatever the host cleans meanwhile (R72, R74, U13; notes/assumptions/8). -/
def inByte (s : State) (i : Nat) : Byte :=
  if !s.plat.coherent && Spans.has s.uncleaned (s.srcAddr i) then
    Config.freeByte s.seed (s.srcAddr i)
  else s.readByte (s.srcAddr i)

/-- out[i], as the decoder reads it (R16, R178). -/
def outByte (s : State) (i : Nat) : Byte := s.readByte (s.dstAddr i)

/-- out[i] ← v (R16). -/
def setOut (s : State) (i : Nat) (v : Byte) : State := s.writeByte (s.dstAddr i) v

/-- The source bytes in[i], in[i + 1], …, n of them. -/
def inBytes (s : State) : Nat → Nat → List Byte
  | _, 0 => []
  | i, n + 1 => s.inByte i :: inBytes s (i + 1) n

/-- out[i + j] ← the bytes, j = 0, 1, … (R150, R180). -/
def setOutBytes : State → Nat → List Byte → State
  | s, _, [] => s
  | s, i, b :: rest => setOutBytes (s.setOut i b) (i + 1) rest

end State

/-! ### The engine's bus -/

/-- One byte access of the engine (R67): a source read, a destination write or a destination read. -/
inductive Access where
  | srcRead (addr : Nat)
  | dstWrite (addr : Nat)
  | dstRead (addr : Nat)
  deriving DecidableEq, Repr

/-- The answer to an access. -/
inductive Answer where
  /-- The access is performed. -/
  | performed
  /-- The access is answered with an error, of this cause (R232). -/
  | failed (cause : Cause)
  /-- The access is not answered (R272). -/
  | pending
  deriving DecidableEq, Repr

/-- The address of an access. -/
def Access.addr : Access → Nat
  | .srcRead a | .dstWrite a | .dstRead a => a

/-- The access is a write. -/
def Access.isWrite : Access → Bool
  | .dstWrite _ => true
  | .srcRead _ | .dstRead _ => false

/-- The BUS_ERROR cause of an access (R230, R232). -/
def Access.cause : Access → Cause
  | .srcRead _ => .srcRead
  | .dstWrite _ => .dstWrite
  | .dstRead _ => .dstRead

/-- The rule is about the access. -/
def BusRule.covers (rule : BusRule) (acc : Access) : Bool :=
  rule.span.has acc.addr && (if acc.isWrite then rule.onWrite else rule.onRead)

/-- How the memory system answers an access: the first rule about it decides, and an access no rule is
about is performed. An error answer counts only where BUS_ERRORS_POSSIBLE is true (R232). -/
def answerBy (busErrors : Bool) : List BusRule → Access → Answer
  | [], _ => .performed
  | rule :: rest, acc =>
    if rule.covers acc then
      if rule.answered then
        if busErrors then .failed acc.cause else .performed
      else .pending
    else answerBy busErrors rest acc

/-- How the platform answers an access. -/
def Platform.answer (pl : Platform) (acc : Access) : Answer := answerBy pl.busErrors pl.bus acc

/-- The first of the accesses, in order, that is not performed, by its answer; performed if all are. -/
def Platform.answers (pl : Platform) : List Access → Answer
  | [] => .performed
  | acc :: rest =>
    match pl.answer acc with
    | .performed => Platform.answers pl rest
    | other => other

/-! ### Completion -/

namespace State

/-- The part of COMPLETE that every ending shares (R236): the report is written, BUSY falls, DONE rises.
irq follows from its inputs (R30). DESIGN CHOICE: the working registers, but for fsm, and the hash table stay
as the command left them, where R42 and R46 leave them unspecified (notes/assumptions/2). -/
def report (s : State) (code : BitVec 4) (cause : BitVec 8) (resultLen errPos : Word) : State :=
  (s.withFsm .idle).withCsr
    { s.csr with
      resultLen := resultLen
      errCode := code
      errCause := cause
      errPos := errPos
      done := true }

/-- On a platform that is not coherent, the host's caches may hold old copies of a range the engine may
have written, and an invalidation of it counts only once the host has observed DONE = 1 (R74). -/
def markStale (s : State) (sp : Span) : State :=
  if s.plat.coherent then s else { s with unseen := Spans.add s.unseen sp.lo sp.len }

/-- Every byte of the destination region becomes a free value (R179, R232, R236, R260). -/
def loseDestination (s : State) : State :=
  (s.forget s.dstSpan.lo s.dstSpan.len).markStale s.dstSpan

/-- The destination after an error (R236): unchanged by an INVALID_CONFIGURATION, since no write was made,
and unspecified after every other one. -/
def afterError (s : State) (cause : Cause) : State :=
  if cause.code = 2 then s else s.loseDestination

/-- ERR_POS of a bus error is unspecified: a free word (R37, R230, U3). -/
def drawPosition (s : State) : Word × State :=
  (Config.freeWord s.freeCtr, { s with freeCtr := s.freeCtr + 1 })

/-- raise E(cause, pos): the command ends with an error (R16, R236). RESULT_LEN becomes 0. -/
def raise (s : State) (cause : Cause) (pos : Nat) : State :=
  (s.afterError cause).report cause.code cause.number 0 (BitVec.ofNat 32 pos)

/-- The command ends with BUS_ERROR (R232): as raise, with a position that is a free word. -/
def raiseBus (s : State) (cause : Cause) : State :=
  (s.drawPosition.2.afterError cause).report cause.code cause.number 0 s.drawPosition.1

/-- The engine makes the accesses, in order, and goes on to `after` if all are performed. At one that is
answered with an error the command ends with BUS_ERROR (R232); at one that is not answered the engine
waits, in the state `waiting` (R272, U8; notes/assumptions/6). DESIGN CHOICE: a command that ends at an
access leaves the hash table and the working registers as they were before the turn, without the HT[h] ← p
that R127 makes before the access; they are unspecified from then on (R42, R46; notes/assumptions/2). -/
def access (s : State) (accs : List Access) (waiting after : State) : State :=
  match s.plat.answers accs with
  | .performed => after
  | .failed cause => s.raiseBus cause
  | .pending => waiting

/-- The successful end of a command (R208, R209, R236). After a COMPRESS the destination bytes from
RESULT_LEN on are unspecified (R158, U1). -/
def succeed (s : State) : State :=
  match s.eng.lop with
  | .compress =>
    ((s.forget (s.eng.ldst.toNat + s.eng.o) (s.eng.ldlen.toNat - s.eng.o)).markStale
      s.dstSpan).report 0 0 (BitVec.ofNat 32 s.eng.o) 0
  | .decompress => (s.markStale s.dstSpan).report 0 0 s.eng.ldlen 0

/-- The host's acknowledgement of a completion, a W1C of DONE (R210, R240). -/
def clearDone (s : State) : State := s.withCsr { s.csr with done := false }

/-- Reset is asserted and held (R260, R261). The registers take their reset values and the engine is idle;
a command in progress is abandoned, and every destination byte of it is then a free value. DESIGN CHOICE:
that holds also of bytes its source shares with its destination, in a command still in CHECK whose regions
overlap, though R260 calls the source region unchanged (notes/assumptions/29). Memory is not reset; the hash
table RAM and the working registers keep what they hold, where R260 leaves them unspecified
(notes/assumptions/2). While it is held no write changes a register and no command starts
(notes/assumptions/19). -/
def resetAssert (s : State) : State :=
  { ((if s.busy then s.loseDestination else s).withFsm .idle).withCsr Csr.reset with
    resetHeld := true }

/-- Reset is released (R260): the registers keep their reset values, and a command can be started (R262). -/
def resetRelease (s : State) : State := { s with resetHeld := false }

end State

end Sys2Proof.Machine
end

