-- ==== Sys2Proof/Machine/Finder.lean ====
section
/-! DEFINITION. The hash match finder's computations (spec/40_match_finder.md R121 to R130, R135). Each is
written over a reader of the input bytes, `rd i` for in[i], so that the engine's steps
(Machine/Compress.lean) and the composed scan of R134 (Machine/Reference.lean) share them. -/

namespace Sys2Proof.Machine

/-- p is a search position: 2 ≤ p and p + 12 < n (R121). -/
def isSearch (n p : Nat) : Bool :=
  decide (Config.headLiterals ≤ p) && decide (p + Config.searchGuard < n)

/-- zext_16(lo) | (zext_16(hi) << 8) (R122). -/
def pairWord (lo hi : Byte) : BitVec 16 :=
  lo.setWidth 16 ||| (hi.setWidth 16 <<< 8)

/-- hash(q): (v ^ w ^ (v >> (16 − k))) & (2^k − 1), over the bytes in[q], in[q+1], in[q+2] (R122). -/
def hashAt (k : Nat) (rd : Nat → Byte) (q : Nat) : Nat :=
  let v := pairWord (rd q) (rd (q + 1))
  let w := pairWord (rd (q + 1)) (rd (q + 2))
  ((v ^^^ w ^^^ (v >>> (16 - k))) &&& BitVec.ofNat 16 (2 ^ k - 1)).toNat

/-- INSERT(q) on a hash table: the entry of q's hash becomes q if the hash can be computed (R125). -/
def insertAt (k n : Nat) (rd : Nat → Byte) (ht : HashTable) (q : Nat) : HashTable :=
  if q + 2 < n then Sparse.set 0 ht (hashAt k rd q) q else ht

/-- INSERT(q), INSERT(q + 1), …, count of them (R132). -/
def insertRange (k n : Nat) (rd : Nat → Byte) : HashTable → Nat → Nat → HashTable
  | ht, _, 0 => ht
  | ht, q, count + 1 => insertRange k n rd (insertAt k n rd ht q) (q + 1) count

/-- CANDIDATE_OK(p, r, d) (R128). -/
def candidateOk (level : Level) (rd : Nat → Byte) (p r d : Nat) : Bool :=
  (decide (1 ≤ d) && decide (d ≤ Config.maxDist level)) &&
    (rd r == rd p && (rd (r + 1) == rd (p + 1) && rd (r + 2) == rd (p + 2)))

/-- EXTEND's loop from a length of len, at most fuel rounds of it (R129). -/
def extendLoop (level : Level) (n : Nat) (rd : Nat → Byte) (p r : Nat) : Nat → Nat → Nat
  | 0, len => len
  | fuel + 1, len =>
    if p + len < n - Config.tailLiterals ∧ Config.belowMaxLen level len = true ∧
        rd (r + len) = rd (p + len) then
      extendLoop level n rd p r fuel (len + 1)
    else len

/-- EXTEND(p, r) (R129). The loop ends because p + len stays below n. -/
def extend (level : Level) (n : Nat) (rd : Nat → Byte) (p r : Nat) : Nat :=
  extendLoop level n rd p r n Config.minMatch

/-- ACCEPT(d, len) (R130). -/
def accept (level : Level) (d len : Nat) : Bool :=
  !(decide (level = .two) && (decide (Config.shortMaxDist < d) && decide (len < Config.farMinLen)))

/-- REPRESENTABLE(len, d, L) (R135). -/
def representable (level : Level) (len d : Nat) : Bool :=
  decide (Config.minMatch ≤ len) && (decide (1 ≤ d) && decide (d ≤ Config.maxDist level)) &&
    (decide (Config.shortMaxLen < len) || decide (d ≤ Config.shortMaxDist)) &&
    (decide (level = .two) || decide (len ≤ Config.maxLen1))

end Sys2Proof.Machine
end

