-- ==== Sys2Proof/Machine/Encoder.lean ====
section
/-! DEFINITION. The block encoder's serialisation (spec/41_block_encoder.md R151 to R157, R161). -/

namespace Sys2Proof.Machine

/-- A pending literal run as one LIT instruction; no run, no instruction (R153). -/
def literalRun (bytes : List Byte) : List Byte :=
  match bytes with
  | [] => []
  | b :: rest => BitVec.ofNat 8 rest.length :: b :: rest

/-- SHORT(len, d): ((len − 2) << 5) | e[12:8], e[7:0], with e = d − 1 (R155). -/
def shortBytes (len d : Nat) : List Byte :=
  let e := d - 1
  [BitVec.ofNat 8 ((len - 2) * 32 + e / 256), BitVec.ofNat 8 (e % 256)]

/-- EXT1(len, d), and the near form of EXT2: 0xE0 | e[12:8], LENBYTES(len − 9), e[7:0] (R156, R157). -/
def extNearBytes (len d : Nat) : List Byte :=
  let e := d - 1
  BitVec.ofNat 8 (0xE0 + e / 256) ::
    (lenBytes (len - Config.extMinLen) ++ [BitVec.ofNat 8 (e % 256)])

/-- The far form of EXT2: 0xFF, LENBYTES(len − 9), 0xFF, x[15:8], x[7:0], with x = d − 8192 (R157). -/
def extFarBytes (len d : Nat) : List Byte :=
  let x := d - Config.farBase
  0xFF#8 :: (lenBytes (len - Config.extMinLen) ++
    [0xFF#8, BitVec.ofNat 8 (x / 256), BitVec.ofNat 8 (x % 256)])

/-- The one instruction a match token is serialised as (R152, R155 to R157). -/
def matchBytes (level : Level) (len d : Nat) : List Byte :=
  if len ≤ Config.shortMaxLen then shortBytes len d
  else
    match level with
    | .one => extNearBytes len d
    | .two => if d ≤ Config.nearMaxDist then extNearBytes len d else extFarBytes len d

end Sys2Proof.Machine
end

