-- ==== Sys2Proof/Machine/Compress.lean ====
section
/-! DEFINITION. The engine's steps during COMPRESS: initialisation (spec/40_match_finder.md R124), the step
selection and the steps SEARCH, EXTEND, MATCH and LITERAL (R126 to R132), FINISH (R133), with the encoder's
emissions (spec/41_block_encoder.md R150 to R154). One function per engine state of
spec/10_state.md R43. -/

namespace Sys2Proof.Machine

namespace State

/-- n, the input length. -/
def inputLen (s : State) : Nat := s.eng.lslen.toNat

/-- emit(bytes): the bytes go to the next output offsets and o moves past them (R150). -/
def emit (s : State) (bytes : List Byte) : State :=
  (s.setOutBytes s.eng.o bytes).withEng { s.eng with o := s.eng.o + bytes.length }

/-- The accesses of emit for bytes the engine holds (R150). -/
def emitAccesses (s : State) (o count : Nat) : List Access :=
  (List.range count).map (fun i => .dstWrite (s.dstAddr (o + i)))

/-- The accesses of a literal run's emission from output offset o: the opcode byte, then each literal
byte read and written (notes/assumptions/7). -/
def runAccesses (s : State) (base count o : Nat) : List Access :=
  .dstWrite (s.dstAddr o) ::
    (List.range count).flatMap (fun i =>
      [.srcRead (s.srcAddr (base + i)), .dstWrite (s.dstAddr (o + 1 + i))])

/-- The reads of the three bytes a hash is computed from (R122). -/
def hashAccesses (s : State) (q : Nat) : List Access :=
  [.srcRead (s.srcAddr q), .srcRead (s.srcAddr (q + 1)), .srcRead (s.srcAddr (q + 2))]

/-- The reads of INSERT(q) (R125). -/
def insertAccesses (s : State) (q : Nat) : List Access :=
  if q + 2 < s.inputLen then s.hashAccesses q else []

/-- The reads of one comparison in[i] == in[j]. -/
def pairAccesses (s : State) (i j : Nat) : List Access :=
  [.srcRead (s.srcAddr i), .srcRead (s.srcAddr j)]

/-- The reads of comparing in[r + i] with in[p + i] for i = i, i + 1, … (count of them), up to and with the
first pair that differs (R128, R129). -/
def compareAccesses (s : State) (r p : Nat) : Nat → Nat → List Access
  | _, 0 => []
  | i, count + 1 =>
    s.pairAccesses (r + i) (p + i) ++
      (if s.inByte (r + i) = s.inByte (p + i) then compareAccesses s r p (i + 1) count else [])

/-- The reads of CANDIDATE_OK: none if the distance test fails (R128). -/
def candidateAccesses (s : State) (p r d : Nat) : List Access :=
  if 1 ≤ d ∧ d ≤ Config.maxDist s.eng.level then s.compareAccesses r p 0 3 else []

/-- The reads of EXTEND from a length of len: the loop's bounds are tested before its bytes are read
(R129). -/
def extendAccesses (s : State) (p r : Nat) : Nat → Nat → List Access
  | 0, _ => []
  | fuel + 1, len =>
    if p + len < s.inputLen - Config.tailLiterals ∧ Config.belowMaxLen s.eng.level len = true then
      s.pairAccesses (r + len) (p + len) ++
        (if s.inByte (r + len) = s.inByte (p + len) then
          extendAccesses s p r fuel (len + 1) else [])
    else []

/-- INSERT(q) (R125). -/
def insert (s : State) (q : Nat) : State :=
  { s with ht := insertAt s.eng.k s.inputLen s.inByte s.ht q }

/-- INSERT(q), INSERT(q + 1), …, count of them (R132). -/
def insertMany (s : State) (q count : Nat) : State :=
  { s with ht := insertRange s.eng.k s.inputLen s.inByte s.ht q count }

/-- The pending literal bytes (R151). -/
def pending (s : State) : List Byte := s.inBytes s.eng.litBase s.eng.litCnt

/-- PENDING_FLUSH (R153). -/
def pendingFlush (s : State) : State :=
  if s.eng.litCnt = 0 then s
  else
    (s.emit (literalRun s.pending)).withEng
      { (s.emit (literalRun s.pending)).eng with litCnt := 0 }

/-- The accesses of PENDING_FLUSH (R153). -/
def flushAccesses (s : State) : List Access :=
  if s.eng.litCnt = 0 then [] else s.runAccesses s.eng.litBase s.eng.litCnt s.eng.o

/-- LIT_TOKEN(p): the byte joins the pending run, which is emitted as soon as it has 32 (R151). -/
def litToken (s : State) (p : Nat) : State :=
  let t := s.withEng
    { s.eng with
      litBase := if s.eng.litCnt = 0 then p else s.eng.litBase
      litCnt := s.eng.litCnt + 1 }
  if s.eng.litCnt + 1 = Config.maxCopy then t.pendingFlush else t

/-- The accesses of LIT_TOKEN(p) (R151). -/
def litAccesses (s : State) (p : Nat) : List Access :=
  if s.eng.litCnt + 1 = Config.maxCopy then
    s.runAccesses (if s.eng.litCnt = 0 then p else s.eng.litBase) Config.maxCopy s.eng.o
  else []

/-- The reads of SEARCH at p: the hash, then the candidate it finds (R127, R128). -/
def searchAccesses (s : State) : List Access :=
  let p := s.eng.p
  let r := s.htGet (hashAt s.eng.k s.inByte p)
  s.hashAccesses p ++ s.candidateAccesses p r (p - r)

/-- C_SEARCH, the step selection (R126): FINISH at p = n; at a search position the lookup, update and
verification of SEARCH (R127, R128); LITERAL elsewhere. -/
def stepSearch (s : State) : State :=
  if s.inputLen ≤ s.eng.p then s.withFsm .cFlush
  else if isSearch s.inputLen s.eng.p then
    let p := s.eng.p
    let h := hashAt s.eng.k s.inByte p
    let r := s.htGet h
    let d := p - r
    let found := candidateOk s.eng.level s.inByte p r d
    s.access s.searchAccesses s
      ((s.htSet h p).withEng
        { s.eng with h := h, r := r, d := d, fsm := if found then .cExtend else .cLiteral })
  else s.withFsm .cLiteral

/-- C_EXTEND: EXTEND (R129), then ACCEPT (R130). -/
def stepExtend (s : State) : State :=
  let len := extend s.eng.level s.inputLen s.inByte s.eng.p s.eng.r
  s.access (s.extendAccesses s.eng.p s.eng.r s.inputLen Config.minMatch) s
    (s.withEng
      { s.eng with
        len := len
        fsm := if accept s.eng.level s.eng.d len then .cEmit else .cLiteral })

/-- The accesses of MATCH(p, len, d) after the pending run is flushed: the token's instruction is written,
then INSERT reads at each covered position (R132, R152). -/
def tokenAccesses (s : State) : List Access :=
  s.emitAccesses s.eng.o (matchBytes s.eng.level s.eng.len s.eng.d).length ++
    (List.range (s.eng.len - 1)).flatMap (fun j => s.insertAccesses (s.eng.p + 1 + j))

/-- MATCH(p, len, d) after the pending run is flushed (R132, R152): the encoder's self-check (R135), the
token's instruction, the covered positions inserted, p moved past the match. -/
def matchToken (s : State) : State :=
  if representable s.eng.level s.eng.len s.eng.d then
    let t := (s.emit (matchBytes s.eng.level s.eng.len s.eng.d)).insertMany (s.eng.p + 1)
      (s.eng.len - 1)
    s.access s.tokenAccesses s
      (t.withEng { t.eng with p := s.eng.p + s.eng.len, fsm := .cSearch })
  else s.raise .matchNotRepresentable s.eng.p

/-- C_EMIT: PENDING_FLUSH, then the match token (R152, R132). -/
def stepEmit (s : State) : State :=
  s.access s.flushAccesses s s.pendingFlush.matchToken

/-- The accesses of LITERAL at p: INSERT's at a head or tail position, then the token's (R131). -/
def literalTurnAccesses (s : State) : List Access :=
  (if isSearch s.inputLen s.eng.p then [] else s.insertAccesses s.eng.p) ++ s.litAccesses s.eng.p

/-- C_LITERAL: at a head or tail position INSERT, then the literal token; at a search position SEARCH has
updated the table (R131). -/
def stepLiteral (s : State) : State :=
  let p := s.eng.p
  let search := isSearch s.inputLen p
  let t := (if search then s else s.insert p).litToken p
  s.access s.literalTurnAccesses s
    (t.withEng { t.eng with p := p + 1, fsm := .cSearch })

/-- C_FLUSH: FLUSH, and the command completes (R133, R154, R208). -/
def stepFlush (s : State) : State :=
  s.access s.flushAccesses s (s.pendingFlush.withFsm .complete)

/-- HT_INIT: the initialisation of R124. -/
def stepHtInit (s : State) : State :=
  (s.htClear (2 ^ s.eng.k)).withEng
    { s.eng with p := 0, o := 0, litCnt := 0, litBase := 0, fsm := .cSearch }

end State

end Sys2Proof.Machine
end

