-- ==== Sys2Proof/Machine/Operands.lean ====
section
/-! DEFINITION. The three phases every stream instruction shares: its bytes are fetched, its length and
distance are checked, its bytes are produced (spec/42_block_decoder.md R171 to R178). The engine
rests in a phase only while it waits for an access that memory has not answered. -/

namespace Sys2Proof.Machine

namespace State

/-- in[ip ..) as the decoder reads it: the stream bytes from ip to m (R170, R171). -/
def streamFrom (s : State) : List Byte := s.inBytes s.eng.ip (s.eng.lslen.toNat - s.eng.ip)

/-- The reads of n stream bytes from offset i (R173). -/
def srcReads (s : State) (i n : Nat) : List Access :=
  (List.range n).map (fun j => .srcRead (s.srcAddr (i + j)))

/-- The instruction begins: start ← ip (R171). -/
def beginAt (s : State) : State :=
  s.withEng { s.eng with start := s.eng.ip, fsm := .dOperand }

/-- The instruction is complete in the stream: ip moves past the bytes fetched, and its length and
distance are known (R173). A literal run has distance 0 (notes/assumptions/10). -/
def operands (s : State) (fetched len d : Nat) : State :=
  s.withEng { s.eng with ip := s.eng.ip + fetched, len := len, d := d, fsm := .dCheck }

/-- The accesses of COPY(len, d), byte by byte: read out[o − d], write out[o] (R178). DESIGN CHOICE: the engine
reads the byte from memory, over the bus; R178 and R63 let it read an internal copy instead, which memory
could neither fail nor keep waiting (notes/assumptions/28). -/
def copyAccesses (s : State) (d : Nat) : Nat → Nat → List Access
  | _, 0 => []
  | o, n + 1 =>
    .dstRead (s.dstAddr (o - d)) :: .dstWrite (s.dstAddr o) :: copyAccesses s d (o + 1) n

/-- The accesses of a literal run, byte by byte: read in[ip + i], write out[o + i] (R180). -/
def literalAccesses (s : State) : Nat → Nat → Nat → List Access
  | _, _, 0 => []
  | i, o, n + 1 =>
    .srcRead (s.srcAddr i) :: .dstWrite (s.dstAddr o) :: literalAccesses s (i + 1) (o + 1) n

/-- The destination after COPY(len, d) from output offset o: one byte at a time, at rising addresses, so
that an overlapping match repeats what it writes (R178). -/
def copyBytes (d : Nat) : Nat → Nat → State → State
  | _, 0, s => s
  | o, n + 1, s => copyBytes d (o + 1) n (s.setOut o (s.outByte (o - d)))

/-- The end of an instruction: o has moved on and the engine fetches the next one (R171). -/
def produced (s : State) (ip n : Nat) : State :=
  s.withEng { s.eng with ip := ip, o := s.eng.o + n, fsm := .dFetch }

/-- COPY(len, d) (R178): o advances by len. -/
def copyMatch (s : State) : State :=
  s.access (copyAccesses s s.eng.d s.eng.o s.eng.len) s
    ((copyBytes s.eng.d s.eng.o s.eng.len s).produced s.eng.ip s.eng.len)

/-- A literal run's bytes go out (R180): ip and o advance by the count. -/
def copyLiteral (s : State) (bytes : List Byte) : State :=
  s.access (literalAccesses s s.eng.ip s.eng.o bytes.length) s
    ((s.setOutBytes s.eng.o bytes).produced (s.eng.ip + bytes.length) bytes.length)

/-- The checks after the fetch, in the order of R174: OVERRUN (R175), then DIST_BEFORE_START (R177). The
first that fails ends the command at the offset of the opcode byte. -/
def checkProblem (s : State) : Option Cause :=
  if s.eng.ldlen.toNat < s.eng.o + s.eng.len then some .overrun
  else if s.eng.o < s.eng.d then some .distBeforeStart
  else none

/-- The check phase, with what follows if every check passes. -/
def checked (s : State) (copy : State → State) : State :=
  match s.checkProblem with
  | some cause => s.raise cause s.eng.start
  | none => copy (s.withFsm .dCopy)

/-- The stream ends inside an instruction: the bytes that are there are fetched, then the command ends at
the offset of the opcode byte (R173, R180). -/
def truncated (s : State) (cause : Cause) (fetched : Nat) : State :=
  s.beginAt.access (s.srcReads s.eng.ip fetched) s.beginAt (s.beginAt.raise cause s.eng.ip)

/-- A match instruction of `size` bytes, of length len and distance d (R181 to R189): every byte fetched
or found missing (TRUNC_MATCH), then checked, then copied. -/
def runMatch (s : State) (size len d : Nat) : State :=
  if s.eng.lslen.toNat < s.eng.ip + size then
    s.truncated .truncMatch (s.eng.lslen.toNat - s.eng.ip)
  else
    s.beginAt.access (s.srcReads s.eng.ip size) s.beginAt
      ((s.beginAt.operands size len d).checked copyMatch)

/-- A literal run (R180): the opcode is fetched, the presence of the literal bytes (TRUNC_LITERAL) and the
room for them (OVERRUN) are checked, then they are copied. -/
def runLiteral (s : State) (bytes : List Byte) : State :=
  if s.eng.lslen.toNat < s.eng.ip + (1 + bytes.length) then s.truncated .truncLiteral 1
  else
    s.beginAt.access (s.srcReads s.eng.ip 1) s.beginAt
      ((s.beginAt.operands 1 bytes.length 0).checked (fun t => t.copyLiteral bytes))

/-- The copy phase of an instruction that waited for an access (R178, R180): a literal run is the one with
distance 0, its bytes those of the stream at ip. -/
def resumeCopy (s : State) : State :=
  if s.eng.d = 0 then s.copyLiteral (s.inBytes s.eng.ip s.eng.len) else s.copyMatch

end State

end Sys2Proof.Machine
end

