-- ==== Sys2Proof/Machine/Commands.lean ====
section
/-! DEFINITION. The two host commands: the start of a command by a CMD write (spec/43_host_commands.md R202,
R203), the configuration checks (R204), level resolution (R205), and the launches a model refuses
(spec/20_memory.md R69, spec/43_host_commands.md R215). -/

namespace Sys2Proof.Machine

/-- CBOUND(n) = n + ceil(n / 32) (R11). -/
def cbound (n : Nat) : Nat := n + (n + 31) / 32

/-- log2 of a hash-table size that is 2^k with 0 ≤ k ≤ 16; none for any other size (R9, R35). -/
def hashLog (size : Word) : Option Nat :=
  (List.range (Config.maxHashLog + 1)).find? (fun k => size.toNat == 2 ^ k)

/-- The level a command resolves to (R205): the explicit one, or by size for AUTO. LEVEL = 3 does not get
here (R204, check 1). -/
def resolveLevel (e : Engine) : Level :=
  if e.llevel = 1 then .one
  else if e.llevel = 2 then .two
  else
    let size := match e.lop with
      | .compress => e.lslen.toNat
      | .decompress => e.ldlen.toNat
    if Config.autoThreshold < size then .two else .one

/-- CHECK's checks 2 to 6, in order (R204). -/
def regionError (e : Engine) : Option Cause :=
  if e.lop = .compress ∧ hashLog e.lhtab = none then some .badHtabSize
  else if 2 ^ 32 < e.lsrc.toNat + e.lslen.toNat then some .srcWrap
  else if 2 ^ 32 < e.ldst.toNat + e.ldlen.toNat then some .dstWrap
  else if 0 < e.lslen.toNat ∧ 0 < e.ldlen.toNat ∧
      e.lsrc.toNat < e.ldst.toNat + e.ldlen.toNat ∧
      e.ldst.toNat < e.lsrc.toNat + e.lslen.toNat then some .regionOverlap
  else if e.lop = .compress ∧ e.ldlen.toNat < cbound e.lslen.toNat then some .dstTooSmall
  else none

/-- The first configuration check that fails, if one does (R204). -/
def configError (e : Engine) : Option Cause :=
  if e.llevel = 3 then some .badLevel else regionError e

namespace State

/-- START(OP, LEVEL) (R203): the report cleared, the configuration latched, fsm ← CHECK. What the host has
not cleaned by now stays hidden from this command, as free bytes of a new seed (R74;
notes/assumptions/8). -/
def start (s : State) (op : Op) (level : BitVec 2) : State :=
  { s with
    csr := { s.csr with done := false, errCode := 0, errCause := 0, levelUsed := 0,
                        resultLen := 0, errPos := 0 }
    eng := { s.eng with fsm := .check, lop := op, llevel := level,
                        lsrc := s.csr.srcAddr, lslen := s.csr.srcLen,
                        ldst := s.csr.dstAddr, ldlen := s.csr.dstLen, lhtab := s.csr.htabSize }
    uncleaned := s.dirty
    seed := s.freeCtr
    freeCtr := s.freeCtr + 1 }

/-- A region of the command meets memory with read or write side effects (R69). -/
def meetsDevice (s : State) : Bool :=
  s.plat.devices.any (fun dev => s.srcSpan.meets dev || s.dstSpan.meets dev)

/-- A region of the command overlaps one of a command on another block, and one of the two writes it
(R215). -/
def meetsOther (s : State) : Bool :=
  s.plat.others.any (fun other =>
    s.dstSpan.meets other.span || (other.writes && s.srcSpan.meets other.span))

/-- The command that is running makes memory accesses and races with one on another block (R215). A
command that fails a configuration check makes none (R204). -/
def races (s : State) : Bool := decide (configError s.eng = none) && s.meetsOther

/-- Why a model refuses the command that is running, if it does (R69, R215). A command that fails a
configuration check makes no memory access (R204), so it is not refused. -/
def launchRefusal (s : State) : Option Refusal :=
  if configError s.eng = none ∧ s.meetsDevice = true then some .regionHasSideEffects
  else if s.races then some .raceWithOtherBlock
  else none

/-- A host write of a command word to CMD (R202): ignored while a command runs, and while reset holds fsm
at IDLE (R260), else the start of one. -/
def launch (s : State) (op : Op) (level : BitVec 2) : Host.Outcome State Fault Refusal :=
  if s.busy || s.resetHeld then .next s
  else
    match (s.start op level).launchRefusal with
    | some why => .refused why
    | none => .next (s.start op level)

/-- CHECK (R204, R205): the first failing check ends the command with INVALID_CONFIGURATION at position 0;
else the level is resolved and the command runs. -/
def stepCheck (s : State) : State :=
  if s.eng.llevel = 3 then s.raise .badLevel 0
  else
    let level := resolveLevel s.eng
    let t := (s.withCsr { s.csr with levelUsed := levelField level }).withEng
      { s.eng with level := level }
    match regionError s.eng with
    | some cause => t.raise cause 0
    | none =>
      match s.eng.lop with
      | .compress =>
        t.withEng { t.eng with k := (hashLog s.eng.lhtab).getD 0, fsm := .htInit }
      | .decompress => t.withEng { t.eng with ip := 0, o := 0, fsm := .dFetch }

end State

/-- COMPRESS (R202, R203, R206): the CMD write that starts it. The engine's steps then carry it out
(Machine/Engine.lean). CMD[31:4] is ignored. -/
def execCompress (level : BitVec 2) (_ignored : BitVec 28) (s : State) :
    Host.Outcome State Fault Refusal :=
  s.launch .compress level

/-- DECOMPRESS (R202, R203, R209): the CMD write that starts it. The engine's steps then carry it out
(Machine/Engine.lean). CMD[31:4] is ignored. -/
def execDecompress (level : BitVec 2) (_ignored : BitVec 28) (s : State) :
    Host.Outcome State Fault Refusal :=
  s.launch .decompress level

end Sys2Proof.Machine
end

