-- ==== Sys2Proof/Machine/Stream.lean ====
section
/-! DEFINITION. The meanings of the ten stream instructions (spec/42_block_decoder.md R180 to R189). Each
answers a next state: the instruction's bytes produced, or the command ended with the error its rule
names. No stream instruction reads or writes a flag (spec/10_state.md R39). -/

namespace Sys2Proof.Machine

/-- LIT (R180). -/
def execLit (bytes : List Byte) (s : State) : Host.Outcome State Fault Refusal :=
  .next (s.runLiteral bytes)

/-- MS3 (R181). -/
def execMs3 (dist : Nat) (s : State) : Host.Outcome State Fault Refusal :=
  .next (s.runMatch 2 3 dist)

/-- MS4 (R182). -/
def execMs4 (dist : Nat) (s : State) : Host.Outcome State Fault Refusal :=
  .next (s.runMatch 2 4 dist)

/-- MS5 (R183). -/
def execMs5 (dist : Nat) (s : State) : Host.Outcome State Fault Refusal :=
  .next (s.runMatch 2 5 dist)

/-- MS6 (R184). -/
def execMs6 (dist : Nat) (s : State) : Host.Outcome State Fault Refusal :=
  .next (s.runMatch 2 6 dist)

/-- MS7 (R185). -/
def execMs7 (dist : Nat) (s : State) : Host.Outcome State Fault Refusal :=
  .next (s.runMatch 2 7 dist)

/-- MS8 (R186). -/
def execMs8 (dist : Nat) (s : State) : Host.Outcome State Fault Refusal :=
  .next (s.runMatch 2 8 dist)

/-- MX1 (R187): the length bytes and B follow the opcode. -/
def execMx1 (len dist : Nat) (s : State) : Host.Outcome State Fault Refusal :=
  .next (s.runMatch (Instr.mx1 len dist).size len dist)

/-- MX2N (R188): the length bytes and B follow the opcode. -/
def execMx2n (len dist : Nat) (s : State) : Host.Outcome State Fault Refusal :=
  .next (s.runMatch (Instr.mx2n len dist).size len dist)

/-- MX2F (R189): the length bytes, B, OH and OL follow the opcode. -/
def execMx2f (len dist : Nat) (s : State) : Host.Outcome State Fault Refusal :=
  .next (s.runMatch (Instr.mx2f len dist).size len dist)

end Sys2Proof.Machine
end

