-- ==== Sys2Proof/Machine/Dispatch.lean ====
section
/-! DEFINITION. exec: one instruction's meaning, one arm per constructor of Instr. -/

namespace Sys2Proof.Machine

def exec (i : Instr) (s : State) : Host.Outcome State Fault Refusal :=
  match i with
  -- stream instructions (spec/42_block_decoder.md R180 to R189)
  | .lit bytes => Sys2Proof.Machine.execLit bytes s
  | .ms3 dist => Sys2Proof.Machine.execMs3 dist s
  | .ms4 dist => Sys2Proof.Machine.execMs4 dist s
  | .ms5 dist => Sys2Proof.Machine.execMs5 dist s
  | .ms6 dist => Sys2Proof.Machine.execMs6 dist s
  | .ms7 dist => Sys2Proof.Machine.execMs7 dist s
  | .ms8 dist => Sys2Proof.Machine.execMs8 dist s
  | .mx1 len dist => Sys2Proof.Machine.execMx1 len dist s
  | .mx2n len dist => Sys2Proof.Machine.execMx2n len dist s
  | .mx2f len dist => Sys2Proof.Machine.execMx2f len dist s
  -- host commands (spec/43_host_commands.md R202 to R209)
  | .compress level ignored => Sys2Proof.Machine.execCompress level ignored s
  | .decompress level ignored => Sys2Proof.Machine.execDecompress level ignored s

end Sys2Proof.Machine
end

