-- ==== Sys2Proof/Machine/Engine.lean ====
section
/-! DEFINITION. One step of the engine, by its state (spec/10_state.md R43): CHECK, the COMPRESS states
(Machine/Compress.lean), the decoder's main loop (spec/42_block_decoder.md R171, R172) and COMPLETE
(spec/60_exceptions.md R236). -/

namespace Sys2Proof.Machine

namespace State

/-- The instruction at ip is read and executed (R171, R172). An instruction cut off by the end of the
stream ends the command (R173, R180), and so does the end of the stream itself (R171: EXHAUSTED, at
offset m). -/
def fetchExec (s : State) : Host.Outcome State Fault Refusal :=
  match decode s.eng.level s.streamFrom with
  | .ok (i, _) => exec i s
  | .error .noOpcode => .next (s.raise .exhausted s.eng.lslen.toNat)
  | .error .truncLiteral => .next (s.truncated .truncLiteral 1)
  | .error .truncMatch => .next (s.truncated .truncMatch (s.eng.lslen.toNat - s.eng.ip))

/-- D_FETCH, the head of the main loop: while o < orig the next instruction, else the end of the stream is
checked (R171). -/
def stepFetch (s : State) : Host.Outcome State Fault Refusal :=
  if s.eng.o < s.eng.ldlen.toNat then s.fetchExec else .next (s.withFsm .dEnd)

/-- D_END: stream bytes left over are TRAILING, at the offset of the first of them (R171). -/
def stepEnd (s : State) : State :=
  if s.eng.ip < s.eng.lslen.toNat then s.raise .trailing s.eng.ip else s.withFsm .complete

/-- One step of the engine. An idle engine does nothing (R262). -/
def engineStep (s : State) : Host.Outcome State Fault Refusal :=
  match s.eng.fsm with
  | .idle => .next s
  | .check => .next s.stepCheck
  | .htInit => .next s.stepHtInit
  | .cSearch => .next s.stepSearch
  | .cExtend => .next s.stepExtend
  | .cEmit => .next s.stepEmit
  | .cLiteral => .next s.stepLiteral
  | .cFlush => .next s.stepFlush
  | .dFetch => s.stepFetch
  | .dOperand => s.fetchExec
  | .dCheck => .next (s.checked resumeCopy)
  | .dCopy => .next s.resumeCopy
  | .dEnd => .next s.stepEnd
  | .complete => .next s.succeed

end State

end Sys2Proof.Machine
end

