-- ==== Sys2Proof/Machine/HostAccess.lean ====
section
/-! DEFINITION. What the host and the platform do to the block: register accesses
(spec/43_host_commands.md R200 to R202, R210), memory accesses with the hazards of a running command
(spec/70_reset_and_hazards.md R266, R267), cache maintenance (spec/20_memory.md R74), changes of the
platform, the interrupt output as the host sees it (R241), and reset (R260). -/

namespace Sys2Proof.Machine

/-- BASE, 64-byte aligned (R13, R70). -/
def Platform.base (pl : Platform) : Word := pl.baseBlock ++ 0#6

/-- The offset of a bus address in the register window, if it lies there (R21, R70). DESIGN CHOICE: an access
is to the window if its first byte lies there; one that starts below BASE and reaches into the window (4
bytes at BASE − 2) does not address the block, a case R66 does not settle (notes/assumptions/26). -/
def Platform.windowOffset (pl : Platform) (addr : Word) : Option Nat :=
  if (addr - pl.base).toNat < 64 then some (addr - pl.base).toNat else none

namespace State

/-- The value a register reads as, by word offset (R21, R200). CMD and the reserved offsets read 0
(R22, R38). -/
def csrValue (s : State) (off : Nat) : Word :=
  match off with
  | 0x04 => s.statusWord
  | 0x08 => if s.csr.doneIe then 1 else 0
  | 0x0C => s.csr.srcAddr
  | 0x10 => s.csr.srcLen
  | 0x14 => s.csr.dstAddr
  | 0x18 => s.csr.dstLen
  | 0x1C => s.csr.htabSize
  | 0x20 => s.csr.resultLen
  | 0x24 => s.csr.errPos
  | _ => 0

/-- A host write to CMD (R202): the command it stands for; START = 0 has no effect. -/
def writeCmd (s : State) (v : Word) : Host.Outcome State Fault Refusal :=
  match decodeCommand v with
  | some i => exec i s
  | none => .next s

/-- A host write of a value to the register at a word offset (R200, R210). Writes to RESULT_LEN, ERR_POS
and the reserved offsets are ignored, and so is every write while reset holds the registers at their
reset values (R260; notes/assumptions/19). -/
def writeReg (s : State) (off : Nat) (v : Word) : Host.Outcome State Fault Refusal :=
  if s.resetHeld then .next s
  else
    match off with
    | 0x00 => s.writeCmd v
    | 0x04 => .next (if v.getLsbD 1 then s.clearDone else s)
    | 0x08 => .next (s.withCsr { s.csr with doneIe := v.getLsbD 0 })
    | 0x0C => .next (s.withCsr { s.csr with srcAddr := v })
    | 0x10 => .next (s.withCsr { s.csr with srcLen := v })
    | 0x14 => .next (s.withCsr { s.csr with dstAddr := v })
    | 0x18 => .next (s.withCsr { s.csr with dstLen := v })
    | 0x1C => .next (s.withCsr { s.csr with htabSize := v })
    | _ => .next s

/-- The state with an answer to the host. -/
def answered (s : State) (r : Response) : State := { s with resp := r }

/-- A register access is a 32-bit access at a multiple of 4 (R66). -/
def accessLegal (off bytes : Nat) : Bool := decide (bytes = 4) && decide (off % 4 = 0)

/-- The host has observed STATUS.DONE, in STATUS itself or by irq (R73, R75). If it is 1, an invalidation of
what the engine wrote counts from here on (R74; that these two are the ways to observe it is a DESIGN CHOICE,
notes/assumptions/15). Nothing of the block changes. -/
def observeDone (s : State) : State :=
  if s.csr.done then { s with unseen := [], stale := s.unseen ++ s.stale } else s

/-- A host read in the register window (R66, R200): the register's value; a bus error response to any
other width or alignment. A read changes nothing in the block; the host that reads STATUS observes
DONE. -/
def hostCsrRead (s : State) (addr : Word) (bytes : Nat) : State :=
  match s.plat.windowOffset addr with
  | none => s.answered .notAddressed
  | some off =>
    if accessLegal off bytes then
      (if off = 0x04 then s.observeDone else s).answered (.word (s.csrValue off))
    else s.answered .busError

/-- The host looks at irq (R241): asserted, it says that DONE = 1 (R30). -/
def sampleIrq (s : State) : State :=
  (if s.irq then s.observeDone else s).answered (.level s.irq)

/-- A host write in the register window (R66, R200): a bus error response, and nothing changed, for any
access that is not a 32-bit access at a multiple of 4. -/
def hostCsrWrite (s : State) (addr : Word) (bytes : Nat) (v : Word) :
    Host.Outcome State Fault Refusal :=
  match s.plat.windowOffset addr with
  | none => .next (s.answered .notAddressed)
  | some off =>
    if accessLegal off bytes then (s.answered .done).writeReg off v
    else .next (s.answered .busError)

/-- A host read of a memory byte returns a free value: while the byte belongs to the destination of the
running command (R72, R267, U4), or while the host's caches may hold an old copy of it (R74, U13). -/
def readIsFree (s : State) (a : Nat) : Bool :=
  (s.busy && s.dstSpan.has a) ||
    (!s.plat.coherent && (Spans.has s.unseen a || Spans.has s.stale a))

/-- A host read of one byte of system memory. It disturbs no command (R266, R267). -/
def hostMemRead (s : State) (addr : Word) : State :=
  if s.readIsFree addr.toNat then
    { s with resp := .byte (Config.freeByte s.freeCtr addr.toNat), freeCtr := s.freeCtr + 1 }
  else s.answered (.byte (s.readByte addr.toNat))

/-- On a platform that is not coherent, a byte the host wrote is in its caches and the engine may not see it
(R74); the host itself sees it. -/
def markDirty (s : State) (a : Nat) : State :=
  if s.plat.coherent then s
  else
    { s with
      dirty := Spans.add s.dirty a 1
      unseen := Spans.cut s.unseen a 1
      stale := Spans.cut s.stale a 1 }

/-- A write of one byte of system memory by the host or another agent. While a command runs, a write to
its source or destination region is refused (R266, R267, U5). -/
def hostMemWrite (s : State) (addr : Word) (v : Byte) : Host.Outcome State Fault Refusal :=
  if s.busy && s.srcSpan.has addr.toNat then .refused .sourceWrittenWhileBusy
  else if s.busy && s.dstSpan.has addr.toNat then .refused .destinationWrittenWhileBusy
  else .next (((s.writeByte addr.toNat v).markDirty addr.toNat).answered .done)

/-- The host cleans a range from its caches: the commands it starts from here on see those bytes (R74). A
command that is running does not: the clean comes after its CMD write. DESIGN CHOICE: a clean writes no byte
of memory. So the clean of a byte the host wrote before a command, in the regions of that command, during
the command or after it, is not the write of R266 and R267, and a destination byte keeps what the engine
wrote; the spec does not say (notes/assumptions/27). -/
def cacheClean (s : State) (lo len : Nat) : State := { s with dirty := Spans.cut s.dirty lo len }

/-- The host invalidates a range in its caches: it sees the bytes memory holds (R74). That counts only for
what a command wrote whose DONE = 1 the host has observed: the caches may fetch the rest again before. -/
def cacheInvalidate (s : State) (lo len : Nat) : State :=
  { s with stale := Spans.cut s.stale lo len }

/-- The commands running on other blocks change (R215): refused if that makes a race with the command
running here. -/
def setOthers (s : State) (regions : List OtherRegion) : Host.Outcome State Fault Refusal :=
  let t := { s with plat := { s.plat with others := regions } }
  if t.busy && t.races then .refused .raceWithOtherBlock
  else .next t

/-- One action of the host or the platform, or one turn of the engine. -/
def inputStep (s : State) (i : Input) : Host.Outcome State Fault Refusal :=
  match i with
  | .engine => s.engineStep
  | .csrRead addr bytes => .next (s.hostCsrRead addr bytes)
  | .csrWrite addr bytes v => s.hostCsrWrite addr bytes v
  | .memRead addr => .next (s.hostMemRead addr)
  | .memWrite addr v => s.hostMemWrite addr v
  | .cacheClean lo len => .next (s.cacheClean lo.toNat len)
  | .cacheInvalidate lo len => .next (s.cacheInvalidate lo.toNat len)
  | .setBus rules => .next { s with plat := { s.plat with bus := rules } }
  | .setOthers regions => s.setOthers regions
  | .irqSample => .next s.sampleIrq
  | .resetAssert => .next s.resetAssert
  | .resetRelease => .next s.resetRelease

end State

end Sys2Proof.Machine
end

