-- ==== Sys2Proof/Machine/Step.lean ====
section
/-! DEFINITION. One step of the machine: the next of the actions that are still to come, or a turn of the
engine when none is left (spec/10_state.md R20); and the placing of an opcode-table word where the next step
runs it. -/

namespace Sys2Proof.Machine

/-- One step: the first input is taken off the list and performed; with no input left the engine moves. -/
def step (s : State) : Host.Outcome State Fault Refusal :=
  match s.inputs with
  | [] => s.engineStep
  | i :: rest => { s with inputs := rest }.inputStep i

namespace State

/-- The engine at the start of a stream instruction of a level-1 DECOMPRESS whose stream has m bytes at
0x1000, with 8192 bytes already produced and room for 8192 more at 0x8000 (notes/assumptions/13). -/
def fetchingEngine (e : Engine) (m : Nat) : Engine :=
  { e with
    fsm := .dFetch
    lop := .decompress
    level := .one
    lsrc := 0x1000
    lslen := BitVec.ofNat 32 m
    ldst := 0x8000
    ldlen := 0x4000
    ip := 0
    o := 0x2000 }

/-- The bytes written to memory from an address on. -/
def placeBytes : State → Nat → List Byte → State
  | s, _, [] => s
  | s, a, b :: rest => placeBytes (s.writeByte a b) (a + 1) rest

/-- The state in which the next step runs an opcode-table word: a CMD word is the host's next action, a
32-bit write to BASE; a stream instruction's bytes stand at the decoder's ip, visible and with memory
answering, and it is the engine's turn; reset is not held (notes/assumptions/13). -/
def withFetchWord (s : State) (nbits w : Nat) : State :=
  if nbits = 32 then
    { s with
      inputs := .csrWrite s.plat.base 4 (BitVec.ofNat 32 w) :: s.inputs
      resetHeld := false }
  else
    { s.placeBytes 0x1000 (tableBytes nbits w) with
      eng := fetchingEngine s.eng (tableBytes nbits w).length
      uncleaned := Spans.cut s.uncleaned 0x1000 (tableBytes nbits w).length
      plat := { s.plat with bus := [] }
      inputs := .engine :: s.inputs
      resetHeld := false }

end State

end Sys2Proof.Machine
end

