-- ==== Sys2Proof/Machine/Reference.lean ====
section
/-! DEFINITION. The two commands as functions of byte lists, as the spec composes them: the finder's scan
(spec/40_match_finder.md R134) with the serialisation of its tokens (spec/41_block_encoder.md R151 to R158),
and the decoder's main loop (spec/42_block_decoder.md R171 to R189). The machine does not call them: claims
compare its runs with them. -/

namespace Sys2Proof.Machine

/-- A token of the finder: a literal byte or a match (R120). -/
inductive Token where
  | literal (byte : Byte)
  | copy (len dist : Nat)
  deriving DecidableEq, Repr

/-- in[i] of a list of input bytes. -/
def byteAt (inp : List Byte) (i : Nat) : Byte := inp.getD i 0

/-- The scan of R134 from position p with the hash table as it stands; `fuel` bounds the steps, of which
there are at most n (R126). -/
def scan (level : Level) (k : Nat) (inp : List Byte) : Nat → HashTable → Nat → List Token
  | 0, _, _ => []
  | fuel + 1, ht, p =>
    let n := inp.length
    let rd := byteAt inp
    if n ≤ p then []
    else if isSearch n p then
      let h := hashAt k rd p
      let r := Sparse.get 0 ht h
      let d := p - r
      let ht' := Sparse.set 0 ht h p
      let len := extend level n rd p r
      if candidateOk level rd p r d && accept level d len then
        .copy len d ::
          scan level k inp fuel (insertRange k n rd ht' (p + 1) (len - 1)) (p + len)
      else .literal (rd p) :: scan level k inp fuel ht' (p + 1)
    else .literal (rd p) :: scan level k inp fuel (insertAt k n rd ht p) (p + 1)

/-- FIND: the token sequence of an input (R134, R141). -/
def findTokens (level : Level) (k : Nat) (inp : List Byte) : List Token :=
  scan level k inp inp.length [] 0

/-- The serialisation of tokens after some pending literal bytes (R151 to R154). -/
def serialise (level : Level) : List Token → List Byte → List Byte
  | [], run => literalRun run
  | .literal b :: rest, run =>
    if run.length + 1 = Config.maxCopy then literalRun (run ++ [b]) ++ serialise level rest []
    else serialise level rest (run ++ [b])
  | .copy len d :: rest, run =>
    literalRun run ++ (matchBytes level len d ++ serialise level rest [])

/-- The compressed bytes of an input at a level, with a hash table of 2^k entries (R158). -/
def compressBytes (level : Level) (k : Nat) (inp : List Byte) : List Byte :=
  serialise level (findTokens level k inp) []

/-- COPY(len, d) on the bytes produced so far (R178). -/
def copyList (d : Nat) : Nat → List Byte → List Byte
  | 0, out => out
  | n + 1, out => copyList d n (out ++ [byteAt out (out.length - d)])

/-- A match's length and distance. -/
def matchOf : Instr → Option (Nat × Nat)
  | .ms3 d => some (3, d)
  | .ms4 d => some (4, d)
  | .ms5 d => some (5, d)
  | .ms6 d => some (6, d)
  | .ms7 d => some (7, d)
  | .ms8 d => some (8, d)
  | .mx1 len d => some (len, d)
  | .mx2n len d => some (len, d)
  | .mx2f len d => some (len, d)
  | .lit _ => none
  | .compress _ _ => none
  | .decompress _ _ => none

/-- One instruction on the bytes produced so far: its checks in the order of R174, then its bytes. -/
def produce (orig : Nat) (i : Instr) (out : List Byte) : Except Cause (List Byte) :=
  match i with
  | .lit bytes =>
    if orig < out.length + bytes.length then .error .overrun else .ok (out ++ bytes)
  | _ =>
    match matchOf i with
    | none => .ok out
    | some (len, d) =>
      if orig < out.length + len then .error .overrun
      else if out.length < d then .error .distBeforeStart
      else .ok (copyList d len out)

/-- DECODE from the bytes of the stream still to come and the bytes produced so far (R171): the output, or
the error and its position. `fuel` bounds the instructions, each of which takes a byte. -/
def decodeLoop (level : Level) (orig m : Nat) :
    Nat → List Byte → List Byte → Except (Cause × Nat) (List Byte)
  | 0, rest, _ => .error (.exhausted, m - rest.length)
  | fuel + 1, rest, out =>
    if out.length < orig then
      match decode level rest with
      | .error .noOpcode => .error (.exhausted, m)
      | .error .truncLiteral => .error (.truncLiteral, m - rest.length)
      | .error .truncMatch => .error (.truncMatch, m - rest.length)
      | .ok (i, after) =>
        match produce orig i out with
        | .error cause => .error (cause, m - rest.length)
        | .ok out' => decodeLoop level orig m fuel after out'
    else
      match rest with
      | [] => .ok out
      | _ :: _ => .error (.trailing, m - rest.length)

/-- DECODE: the output of a stream at a level with a declared original length, or the error it ends with and
its position (R171). -/
def decompressBytes (level : Level) (stream : List Byte) (orig : Nat) :
    Except (Cause × Nat) (List Byte) :=
  decodeLoop level orig stream.length (stream.length + 1) stream []

end Sys2Proof.Machine
end

