-- ==== Sys2Proof/Safety.lean ====
section
/-! DEFINITION. The terms claims are stated in: when memory answers, what a command's report is, and the
invariant of the machine, part by part (spec/10_state.md R23, R41, R44; spec/60_exceptions.md R230, R236;
spec/40_match_finder.md R123, R136; spec/41_block_encoder.md R160; spec/42_block_decoder.md R171, R191). -/

namespace Sys2Proof.Machine

/-- Every access of the engine is performed: memory answers, without an error (R232, R272). -/
def Platform.Answers (pl : Platform) : Prop := ∀ acc, pl.answer acc = .performed

/-- The command sees what the host wrote to its source: the platform is coherent, or the host had cleaned
every source byte from its caches before the CMD write (R74). -/
def State.Visible (s : State) : Prop :=
  s.plat.coherent = true ∨ ∀ i, i < s.eng.lslen.toNat → Spans.has s.uncleaned (s.srcAddr i) = false

/-- The latched regions lie in the 32-bit space and are disjoint (R61). -/
def Engine.RegionsApart (e : Engine) : Prop :=
  e.lsrc.toNat + e.lslen.toNat ≤ 2 ^ 32 ∧ e.ldst.toNat + e.ldlen.toNat ≤ 2 ^ 32 ∧
    (e.lslen.toNat = 0 ∨ e.ldlen.toNat = 0 ∨
      e.ldst.toNat + e.ldlen.toNat ≤ e.lsrc.toNat ∨ e.lsrc.toNat + e.lslen.toNat ≤ e.ldst.toNat)

/-- A legal (ERR_CODE, ERR_CAUSE) pair of R230, other than INTERNAL_INVARIANT (R136). -/
def Csr.ReportLegal (c : Csr) : Prop :=
  (c.errCode = 0 ∧ c.errCause = 0) ∨
    ∃ cause : Cause, cause ≠ .matchNotRepresentable ∧
      c.errCode = cause.code ∧ c.errCause = cause.number

/-- While a command runs, nothing of it is reported (R203, R269). -/
def Csr.Unreported (c : Csr) : Prop :=
  c.done = false ∧ c.errCode = 0 ∧ c.errCause = 0 ∧ c.resultLen = 0 ∧ c.errPos = 0

/-- The registers that the start of a command and its end leave alone (R203, R236). -/
def Csr.SameConfig (c c' : Csr) : Prop :=
  c'.doneIe = c.doneIe ∧ c'.srcAddr = c.srcAddr ∧ c'.srcLen = c.srcLen ∧
    c'.dstAddr = c.dstAddr ∧ c'.dstLen = c.dstLen ∧ c'.htabSize = c.htabSize

/-- t is s after its command ended with an error (R236), whatever the destination holds: the report is
written, the engine is idle, the configuration registers and every byte outside the destination region
are unchanged. That the hash table is unchanged too is the model's choice: R46 leaves it unspecified once a
command has ended (notes/assumptions/2). So is what it says of the host's caches (notes/assumptions/15). -/
def State.EndedWith (s t : State) (cause : Cause) (pos : Word) : Prop :=
  t.eng.fsm = .idle ∧ t.csr.done = true ∧ t.csr.errCode = cause.code ∧
    t.csr.errCause = cause.number ∧ t.csr.errPos = pos ∧ t.csr.resultLen = 0 ∧
    t.csr.levelUsed = s.csr.levelUsed ∧ s.csr.SameConfig t.csr ∧ t.ht = s.ht ∧
    t.plat = s.plat ∧ t.inputs = s.inputs ∧ t.resp = s.resp ∧ t.resetHeld = s.resetHeld ∧
    t.dirty = s.dirty ∧ t.stale = s.stale ∧
    ∀ a, s.dstSpan.has a = false → t.readByte a = s.readByte a

/-- Everything but the engine, memory and the free ranges is as before: the frame of a stream instruction
that runs (R39). -/
def State.SameAround (s t : State) : Prop :=
  t.csr = s.csr ∧ t.ht = s.ht ∧ t.dirty = s.dirty ∧ t.uncleaned = s.uncleaned ∧
    t.unseen = s.unseen ∧ t.stale = s.stale ∧ t.resetHeld = s.resetHeld ∧ t.plat = s.plat ∧
    t.inputs = s.inputs ∧ t.resp = s.resp ∧ t.freeCtr = s.freeCtr ∧ t.seed = s.seed

/-! ### The invariant -/

/-- The engine state belongs to COMPRESS. -/
def Fsm.ofCompress : Fsm → Bool
  | .htInit | .cSearch | .cExtend | .cEmit | .cLiteral | .cFlush => true
  | _ => false

/-- The engine state belongs to DECOMPRESS. -/
def Fsm.ofDecompress : Fsm → Bool
  | .dFetch | .dOperand | .dCheck | .dCopy | .dEnd => true
  | _ => false

/-- Past CHECK the configuration is valid, the level resolved and reported, and the engine state one of
its own command (R204, R205). -/
def State.Configured (s : State) : Prop :=
  configError s.eng = none ∧ s.eng.level = resolveLevel s.eng ∧
    s.csr.levelUsed = levelField s.eng.level ∧
    (s.eng.fsm.ofCompress = true → s.eng.lop = .compress) ∧
    (s.eng.fsm.ofDecompress = true → s.eng.lop = .decompress) ∧
    (s.eng.lop = .compress → hashLog s.eng.lhtab = some s.eng.k)

/-- What the hash table holds while the finder is at p: positions before p, or 0 (R123, R127). `most` is the
largest position that may have been stored. -/
def State.TableBelow (s : State) (most : Nat) : Prop :=
  ∀ j, j < 2 ^ s.eng.k → s.htGet j = 0 ∨ s.htGet j ≤ most

/-- The position up to which the input is emitted. -/
def Engine.emitted (e : Engine) : Nat := e.p - e.litCnt

/-- The finder's scan is inside the input and its pending run is what R151 says. -/
def Engine.ScanOk (e : Engine) : Prop :=
  e.p ≤ e.lslen.toNat ∧ e.litCnt < Config.maxCopy ∧
    (e.litCnt = 0 ∨ e.litBase + e.litCnt = e.p)

/-- The output so far is within the bound of R160 for what is emitted. -/
def Engine.OutputOk (e : Engine) : Prop := e.o ≤ e.emitted + e.emitted / 32

/-- What holds in each engine state. -/
def State.Progressing (s : State) : Prop :=
  let e := s.eng
  let n := e.lslen.toNat
  match e.fsm with
  | .idle | .check | .htInit => True
  | .cSearch => e.ScanOk ∧ e.OutputOk ∧ s.TableBelow (e.p - 1)
  | .cExtend =>
    e.ScanOk ∧ e.OutputOk ∧ s.TableBelow e.p ∧ isSearch n e.p = true ∧
      e.r < e.p ∧ e.d = e.p - e.r ∧ e.d ≤ Config.maxDist e.level
  | .cEmit =>
    e.ScanOk ∧ (e.OutputOk ∨ (e.litCnt = 0 ∧ e.o ≤ e.p + e.p / 32 + 1)) ∧ s.TableBelow e.p ∧
      representable e.level e.len e.d = true ∧ e.d ≤ e.p ∧ e.p + e.len ≤ n - Config.tailLiterals
  | .cLiteral => e.ScanOk ∧ e.OutputOk ∧ s.TableBelow e.p ∧ e.p < n
  | .cFlush => e.ScanOk ∧ e.OutputOk ∧ e.p = n
  | .dFetch => e.ip ≤ n ∧ e.o ≤ e.ldlen.toNat
  | .dOperand => e.ip ≤ n ∧ e.o < e.ldlen.toNat
  | .dCheck => e.ip ≤ n ∧ e.o ≤ e.ldlen.toNat ∧ 0 < e.len ∧ (e.d = 0 → e.ip + e.len ≤ n)
  | .dCopy =>
    e.ip ≤ n ∧ e.o + e.len ≤ e.ldlen.toNat ∧ 0 < e.len ∧ e.d ≤ e.o ∧
      (e.d = 0 → e.ip + e.len ≤ n)
  | .dEnd => e.ip ≤ n ∧ e.o = e.ldlen.toNat
  | .complete =>
    e.o ≤ e.ldlen.toNat ∧ (e.lop = .decompress → e.ip = n ∧ e.o = e.ldlen.toNat)

/-- The invariant of the machine: memory and the hash table in their canonical form, a legal report that is
empty while a command runs, a valid configuration past CHECK, the engine within its bounds, and the block in
its reset values while reset is held. -/
structure State.Inv (s : State) : Prop where
  memory : Memory.wf s.mem = true
  table : Sparse.wfAbove 0 (2 ^ 16) none s.ht = true
  legal : s.csr.ReportLegal
  level : s.csr.levelUsed ≠ 3
  unreported : s.busy = true → s.csr.Unreported
  unresolved : s.eng.fsm = .check → s.csr.levelUsed = 0
  configured : s.eng.fsm ≠ .idle → s.eng.fsm ≠ .check → s.Configured
  progressing : s.Progressing
  held : s.resetHeld = true → s.csr = Csr.reset ∧ s.eng.fsm = .idle

/-! ### Terms of the statements -/

/-- In t the bytes stand at out[s.o ..), and nothing else but the engine differs from s (R180, R39). -/
def State.ProducedBytes (s t : State) (bytes : List Byte) : Prop :=
  s.SameAround t ∧
    (∀ j, j < bytes.length → t.readByte (s.dstAddr (s.eng.o + j)) = byteAt bytes j) ∧
    ∀ a, (∀ j, j < bytes.length → s.dstAddr (s.eng.o + j) ≠ a) → t.readByte a = s.readByte a

/-- In t each of the len bytes at out[s.o ..) equals the one the distance d before it, and nothing else but
the engine differs from s (R178, R39). -/
def State.ProducedMatch (s t : State) (len d : Nat) : Prop :=
  s.SameAround t ∧
    (∀ j, j < len → t.readByte (s.dstAddr (s.eng.o + j)) =
      t.readByte (s.dstAddr (s.eng.o + j - d))) ∧
    ∀ a, (∀ j, j < len → s.dstAddr (s.eng.o + j) ≠ a) → t.readByte a = s.readByte a

/-- t is s after a match of a size in bytes, with a length and a distance, ran (R178): the engine has moved
on, each byte produced equals the one the distance before it, and nothing else has changed. -/
def State.RanMatch (s t : State) (size len d : Nat) : Prop :=
  t.eng = { s.eng with start := s.eng.ip, ip := s.eng.ip + size, o := s.eng.o + len,
                       len := len, d := d, fsm := .dFetch } ∧
    s.ProducedMatch t len d

/-- It is the turn of the decoder at an instruction: at the head of the main loop with bytes still to be
produced (R171), or in D_OPERAND, at an instruction that waits for its bytes. -/
def State.AtInstruction (s : State) : Prop :=
  s.eng.fsm = .dFetch ∧ s.eng.o < s.eng.ldlen.toNat ∨ s.eng.fsm = .dOperand

/-- An instruction whose bytes are read is waiting to produce its output, in D_CHECK or D_COPY. -/
def State.AtCopy (s : State) : Prop := s.eng.fsm = .dCheck ∨ s.eng.fsm = .dCopy

/-- The number of bytes a stream instruction produces. -/
def produces : Instr → Nat
  | .lit bytes => bytes.length
  | i => ((matchOf i).getD (0, 0)).1

/-- The distance a stream instruction reaches back; 0 for a literal run, which reaches nowhere. -/
def reaches (i : Instr) : Nat := ((matchOf i).getD (0, 0)).2

/-- The reads of a stream instruction's own bytes, as they are made before its checks: every byte of a match
(R173), the opcode byte of a literal run (R180). -/
def State.fetchAccesses (s : State) (i : Instr) : List Access :=
  (List.range (match i with
    | .lit _ => 1
    | _ => i.size)).map (fun j => .srcRead (s.srcAddr (s.eng.ip + j)))

/-- The accesses that produce a stream instruction's bytes, one byte at a time: the literal byte read, or the
byte the distance before, then the byte written (R178, R180). That the byte the distance before is read over
the bus is the model's choice (notes/assumptions/28). -/
def State.dataAccesses (s : State) (i : Instr) : List Access :=
  (List.range (produces i)).flatMap (fun j =>
    [match i with
      | .lit _ => .srcRead (s.srcAddr (s.eng.ip + 1 + j))
      | _ => .dstRead (s.dstAddr (s.eng.o + j - reaches i)),
      .dstWrite (s.dstAddr (s.eng.o + j))])

/-- The accesses of a turn of the decoder at an instruction (R171): those that fetch it, and if its checks pass
(R174) those that produce its bytes; of an instruction the stream cuts off, the bytes of it that are there,
or its opcode byte alone if it is a LIT (R173, R180). -/
def State.instructionAccesses (s : State) : List Access :=
  match decode s.eng.level s.streamFrom with
  | .ok (i, _) =>
    s.fetchAccesses i ++
      (if s.eng.o + produces i ≤ s.eng.ldlen.toNat ∧ reaches i ≤ s.eng.o then s.dataAccesses i
      else [])
  | .error .noOpcode => []
  | .error .truncLiteral => s.srcReads s.eng.ip 1
  | .error .truncMatch => s.srcReads s.eng.ip (s.eng.lslen.toNat - s.eng.ip)

/-- The accesses of an instruction that waited to produce its bytes: as dataAccesses, from the working
registers (R178, R180; d = 0 is a literal run, notes/assumptions/10). -/
def State.resumeAccesses (s : State) : List Access :=
  if s.eng.d = 0 then s.literalAccesses s.eng.ip s.eng.o s.eng.len
  else s.copyAccesses s.eng.d s.eng.o s.eng.len

/-- The access is in the list, every access before it is performed, and it is answered with an error. -/
def Platform.FirstFailure (pl : Platform) (accs : List Access) (acc : Access) : Prop :=
  ∃ before after cause, accs = before ++ acc :: after ∧
    (∀ a, a ∈ before → pl.answer a = .performed) ∧ pl.answer acc = .failed cause

/-- Some access of the list is not answered, and every access before it is performed. -/
def Platform.FirstPending (pl : Platform) (accs : List Access) : Prop :=
  ∃ before acc after, accs = before ++ acc :: after ∧
    (∀ a, a ∈ before → pl.answer a = .performed) ∧ pl.answer acc = .pending

/-- The accesses of one turn of the engine, in their order. In COMPRESS: those of SEARCH at a search position,
of EXTEND, of PENDING_FLUSH and the match token, of LITERAL, and of FLUSH (R126 to R133, R152 to R154; the
order is the model's choice, notes/assumptions/7). In DECOMPRESS: those of the instruction at ip, or of the
one that waited. In every other engine state none. -/
def State.turnAccesses (s : State) : List Access :=
  match s.eng.fsm with
  | .cSearch => if isSearch s.inputLen s.eng.p then s.searchAccesses else []
  | .cExtend => s.extendAccesses s.eng.p s.eng.r s.inputLen Config.minMatch
  | .cEmit => s.flushAccesses ++ s.pendingFlush.tokenAccesses
  | .cLiteral => s.literalTurnAccesses
  | .cFlush => s.flushAccesses
  | .dFetch => if s.eng.o < s.eng.ldlen.toNat then s.instructionAccesses else []
  | .dOperand => s.instructionAccesses
  | .dCheck => if s.checkProblem = none then s.resumeAccesses else []
  | .dCopy => s.resumeAccesses
  | .idle | .check | .htInit | .dEnd | .complete => []

/-- The state with another way for memory to answer (notes/assumptions/16). -/
def State.withBus (s : State) (rules : List BusRule) : State :=
  { s with plat := { s.plat with bus := rules } }

/-- How many positions, from 0 on, COMPRESS has inserted into the hash table: those before p, and p itself
once SEARCH has stored it (R123, R125, R127, R131, R132). -/
def State.inserted (s : State) : Option Nat :=
  match s.eng.fsm with
  | .cSearch | .cFlush => some s.eng.p
  | .cExtend | .cEmit => some (s.eng.p + 1)
  | .cLiteral => some (if isSearch s.inputLen s.eng.p then s.eng.p + 1 else s.eng.p)
  | .idle | .check | .htInit | .dFetch | .dOperand | .dCheck | .dCopy | .dEnd | .complete => none

/-- While the finder runs, the table it holds is the one that INSERT of every position before makes, also of
the positions inside matches (R123, R132, R138). -/
def State.TableComplete (s : State) : Prop :=
  ∀ count, s.inserted = some count → ∀ j, j < 2 ^ s.eng.k →
    s.htGet j = Sparse.get 0 (insertRange s.eng.k s.inputLen s.inByte [] 0 count) j

/-- The level-1 reading of a level-2 instruction: MX2N is read as MX1 (R106). -/
def asLevelOne : Instr → Instr
  | .mx2n len d => .mx1 len d
  | i => i

/-- The bytes of a region of memory. -/
def State.region (s : State) (lo len : Word) : List Byte :=
  (List.range len.toNat).map (fun i => s.readByte (lo.toNat + i))

/-- k steps of the machine, stopping at the first refusal. -/
def run : Nat → State → Host.Outcome State Fault Refusal
  | 0, s => .next s
  | k + 1, s =>
    match step s with
    | .next t => run k t
    | .fault why => .fault why
    | .refused why => .refused why

/-- No region of the command meets memory with side effects or races with a command on another block
(R69, R215). -/
def State.Unopposed (s : State) : Prop := s.meetsDevice = false ∧ s.meetsOther = false

/-- The tokens tile the input from position p on, and each match copies bytes already seen (R136, R142). -/
def Tiles (level : Level) (inp : List Byte) : Nat → List Token → Prop
  | p, [] => p = inp.length
  | p, .literal b :: rest => p < inp.length ∧ b = byteAt inp p ∧ Tiles level inp (p + 1) rest
  | p, .copy len d :: rest =>
    representable level len d = true ∧ d ≤ p ∧ p + len ≤ inp.length - Config.tailLiterals ∧
      (∀ j, j < len → byteAt inp (p + j) = byteAt inp (p + j - d)) ∧
      Tiles level inp (p + len) rest

/-- Outcomes that are a next state with a property. -/
def NextWith (o : Host.Outcome State Fault Refusal) (P : State → Prop) : Prop :=
  ∃ t, o = .next t ∧ P t

end Sys2Proof.Machine
end

