-- ==== Sys2Proof/Certificates/Slice0/Obligations.lean ====
section
/-! DEFINITION. The statements for the provers, from the numbered rules of spec/. -/

open Sys2Proof Sys2Proof.Machine

/-! ### Encoding -/

/-- Decoding the encoding of any well-formed instruction gives it back, with every operand at every value
its encoding admits, whatever bytes follow (R93 to R98, R107). -/
def Obligations.DecodeOfEncode : Prop :=
  (∀ (level : Level) (i : Instr) (rest : List Byte), i.isStream = true → i.wf →
      i.atLevel level = true → decode level (encodeStream i ++ rest) = .ok (i, rest)) ∧
    ∀ (level : Level) (i : Instr), i.wf → i.atLevel level = true →
      decodeEncoding level (encode i) = some i

/-- What the decoder reads is a well-formed instruction of the level, and its encoding is exactly the bytes
read: every byte sequence has one meaning (R92 to R98); a CMD word with START = 1 is exactly the encoding
of its command (R107). -/
def Obligations.EncodeOfDecode : Prop :=
  (∀ (level : Level) (bytes rest : List Byte) (i : Instr), decode level bytes = .ok (i, rest) →
      i.isStream = true ∧ i.wf ∧ i.atLevel level = true ∧ encodeStream i ++ rest = bytes) ∧
    ∀ (v : Word) (i : Instr), decodeCommand v = some i → encodeCommand i = some v

/-- Words written out from the formats of R93, R94, R97, R98 and R107 decode to their instructions. -/
def Obligations.TableWordsDecode : Prop :=
  decode .one [0x01#8, 0x61#8, 0x62#8] = .ok (.lit [0x61#8, 0x62#8], []) ∧
    decode .one [0x41#8, 0x01#8] = .ok (.ms4 258, []) ∧
    decode .two [0xDF#8, 0xFF#8] = .ok (.ms8 8192, []) ∧
    decode .one [0xFF#8, 0xFE#8, 0xFF#8] = .ok (.mx1 263 8192, []) ∧
    decode .two [0xE1#8, 0xFF#8, 0x00#8, 0x2B#8] = .ok (.mx2n 264 300, []) ∧
    decode .two [0xFF#8, 0xFF#8, 0xFF#8, 0x01#8, 0xFF#8, 0x07#8, 0x10#8] =
      .ok (.mx2f 520 10000, []) ∧
    decodeCommand 0x00000009 = some (.compress 2 0) ∧
    decodeCommand 0x0000000F = some (.decompress 3 0) ∧
    decodeCommand 0x00000008 = none

/-- Every byte value is the opcode of an instruction at both levels: whatever bytes come after it, some
more of them complete an instruction (R92, R104). -/
def Obligations.EveryByteBeginsAnInstruction : Prop :=
  ∀ (level : Level) (b : Byte) (rest : List Byte),
    ∃ (more : List Byte) (i : Instr) (after : List Byte),
      decode level (b :: rest ++ more) = .ok (i, after)

/-- The two levels read the same instruction from the same bytes unless level 2 reads the far form: there
level 1 reads MX1 at distance 8192 and stops two bytes earlier. Bytes that level 2 does not read whole are
cut off in the same way at level 1, unless they are a far form that ends before OH and OL are both there: of
it level 1 reads MX1 at distance 8192 (R106). -/
def Obligations.LevelsDifferOnlyAtTheEscape : Prop :=
  (∀ (bytes rest : List Byte) (i : Instr), decode .two bytes = .ok (i, rest) →
    (∀ len d, i ≠ .mx2f len d) ∧ decode .one bytes = .ok (asLevelOne i, rest) ∨
      ∃ len d oh ol, i = .mx2f len d ∧
        decode .one bytes = .ok (.mx1 len 8192, oh :: ol :: rest)) ∧
    ∀ (bytes : List Byte) (why : DecodeError), decode .two bytes = .error why →
      decode .one bytes = .error why ∨
        why = .truncMatch ∧ ∃ len rest,
          decode .one bytes = .ok (.mx1 len 8192, rest) ∧ rest.length ≤ 1

/-- A length-byte sequence of value X is exactly LENBYTES(X): floor(X / 255) bytes of 255, then the byte
X mod 255 (R96, R161). -/
def Obligations.LengthBytesAreUnique : Prop :=
  ∀ (bytes rest : List Byte) (x : Nat), lengthBytes bytes = some (x, rest) ↔
    bytes = List.replicate (x / 255) 255#8 ++ BitVec.ofNat 8 (x % 255) :: rest

/-- A stream instruction takes as many bytes as R100 says, and at least two (R192). -/
def Obligations.InstructionLength : Prop :=
  ∀ (level : Level) (bytes rest : List Byte) (i : Instr), decode level bytes = .ok (i, rest) →
    bytes.length = i.size + rest.length ∧ 2 ≤ i.size ∧
      (∀ len d, i = .mx1 len d ∨ i = .mx2n len d → 3 ≤ i.size) ∧
      (∀ len d, i = .mx2f len d → 5 ≤ i.size)

/-! ### A step runs the decoded instruction -/

/-- When it is the engine's turn and the bytes at ip decode to an instruction, at the head of the main loop
while fewer than orig bytes have been produced, or in D_OPERAND, where an instruction has waited for its
bytes, the step is exec of it; the turn is taken off the inputs if it stood there (R171, R172; that an
instruction which waited is read again is the model's choice, notes/assumptions/6). -/
def Obligations.StepRunsDecodedStream : Prop :=
  ∀ (s : State) (i : Instr) (rest : List Byte), s.AtInstruction →
    decode s.eng.level s.streamFrom = .ok (i, rest) →
    (s.inputs = [] → step s = exec i s) ∧
      ∀ later, s.inputs = .engine :: later → step s = exec i { s with inputs := later }

/-- A 32-bit host write of a command word to BASE is exec of the command, with the access answered and taken
off the inputs (R202; that it is answered also while reset is held is the model's choice,
notes/assumptions/25). -/
def Obligations.StepRunsDecodedCommand : Prop :=
  ∀ (s : State) (v : Word) (i : Instr) (later : List Input),
    s.inputs = .csrWrite s.plat.base 4 v :: later → decodeCommand v = some i →
    step s = exec i { s with inputs := later, resp := .done }

/-! ### Stream instructions -/

/-- LIT runs: its bytes are the next output bytes, ip moves past the instruction and o by the count; no
flag, control or status register or other byte changes (R180, R39). So does one that waited to produce its
bytes, once memory answers: they are the bytes in[ip ..), count of them, and the engine goes on after them.
That the working register d holds 0 and len the count, then and meanwhile, is the model's choice (DESIGN
CHOICE, notes/assumptions/10), since R180 names neither; so is where the engine waits
(notes/assumptions/6). -/
def Obligations.LiteralRuns : Prop :=
  (∀ (s : State) (bytes : List Byte), s.plat.Answers →
    s.eng.ip + (1 + bytes.length) ≤ s.eng.lslen.toNat →
    s.eng.o + bytes.length ≤ s.eng.ldlen.toNat →
    NextWith (exec (.lit bytes) s) (fun t =>
      t.eng = { s.eng with start := s.eng.ip, ip := s.eng.ip + (1 + bytes.length),
                           o := s.eng.o + bytes.length, len := bytes.length, d := 0,
                           fsm := .dFetch } ∧
        s.ProducedBytes t bytes)) ∧
  ∀ s : State, s.inputs = [] → s.AtCopy → s.plat.Answers → s.eng.d = 0 →
    s.eng.o + s.eng.len ≤ s.eng.ldlen.toNat →
    NextWith (step s) (fun t =>
      t.eng = { s.eng with ip := s.eng.ip + s.eng.len, o := s.eng.o + s.eng.len,
                           fsm := .dFetch } ∧
        s.ProducedBytes t (s.inBytes s.eng.ip s.eng.len))

/-- MS3 to MS8 run: each of the next len output bytes equals the one the distance before it, also where the
match overlaps itself; ip moves by 2 and o by len; nothing else changes (R178, R181 to R186). So does one
that waited to produce its bytes, once memory answers, from the length and the distance it has read (where
the engine waits is the model's choice, notes/assumptions/6). -/
def Obligations.ShortMatchesRun : Prop :=
  (∀ (s : State) (i : Instr) (len d : Nat),
    (len, i) ∈ [(3, Instr.ms3 d), (4, .ms4 d), (5, .ms5 d), (6, .ms6 d), (7, .ms7 d), (8, .ms8 d)] →
    s.plat.Answers → s.eng.ip + 2 ≤ s.eng.lslen.toNat → 1 ≤ d → d ≤ s.eng.o →
    s.eng.o + len ≤ s.eng.ldlen.toNat →
    NextWith (exec i s) (fun t => s.RanMatch t 2 len d)) ∧
  ∀ s : State, s.inputs = [] → s.AtCopy → s.plat.Answers → 3 ≤ s.eng.len → s.eng.len ≤ 8 →
    1 ≤ s.eng.d → s.eng.d ≤ s.eng.o → s.eng.o + s.eng.len ≤ s.eng.ldlen.toNat →
    NextWith (step s) (fun t =>
      t.eng = { s.eng with o := s.eng.o + s.eng.len, fsm := .dFetch } ∧
        s.ProducedMatch t s.eng.len s.eng.d)

/-- MX1, MX2N and MX2F run: as the short matches, with ip moving past the opcode, the
floor((len − 9) / 255) + 1 length bytes and the distance part of 1 byte, or of 3 in the far form (R178,
R187 to R189, R100). So does one that waited to produce its bytes, as there (where the engine waits is the
model's choice, notes/assumptions/6). -/
def Obligations.ExtendedMatchesRun : Prop :=
  (∀ (s : State) (i : Instr) (len d size : Nat),
    (i = .mx1 len d ∨ i = .mx2n len d) ∧ size = (len - 9) / 255 + 1 + 2 ∨
      i = .mx2f len d ∧ size = (len - 9) / 255 + 1 + 4 →
    s.plat.Answers → s.eng.ip + size ≤ s.eng.lslen.toNat → 1 ≤ d → d ≤ s.eng.o →
    s.eng.o + len ≤ s.eng.ldlen.toNat →
    NextWith (exec i s) (fun t => s.RanMatch t size len d)) ∧
  ∀ s : State, s.inputs = [] → s.AtCopy → s.plat.Answers → 9 ≤ s.eng.len →
    1 ≤ s.eng.d → s.eng.d ≤ s.eng.o → s.eng.o + s.eng.len ≤ s.eng.ldlen.toNat →
    NextWith (step s) (fun t =>
      t.eng = { s.eng with o := s.eng.o + s.eng.len, fsm := .dFetch } ∧
        s.ProducedMatch t s.eng.len s.eng.d)

/-- A turn of the decoder at an instruction that the end of the stream cuts off ends the command with
TRUNC_LITERAL (LIT) or TRUNC_MATCH (every match) at the offset of its opcode byte (R173, R180). An
instruction is cut off exactly so: at least its opcode byte is there and at least its last byte is not. That
the hash table is kept when a command ends is the model's choice (notes/assumptions/2). -/
def Obligations.TruncationIsReported : Prop :=
  (∀ s : State, s.inputs = [] → s.plat.Answers → s.AtInstruction →
    (decode s.eng.level s.streamFrom = .error .truncLiteral →
      NextWith (step s) (fun t => s.EndedWith t .truncLiteral (BitVec.ofNat 32 s.eng.ip))) ∧
    (decode s.eng.level s.streamFrom = .error .truncMatch →
      NextWith (step s) (fun t => s.EndedWith t .truncMatch (BitVec.ofNat 32 s.eng.ip)))) ∧
  ∀ (level : Level) (i : Instr) (there missing : List Byte), i.isStream = true → i.wf →
    i.atLevel level = true → encodeStream i = there ++ missing → there ≠ [] → missing ≠ [] →
    decode level there = .error (if (matchOf i).isSome then .truncMatch else .truncLiteral)

/-- A whole stream instruction that would produce bytes beyond the original length ends the command with
OVERRUN at the offset of its opcode byte, also when its distance is bad (R174, R175); so does a turn in
D_CHECK. That the hash table is kept when a command ends is the model's choice (notes/assumptions/2). -/
def Obligations.OverrunIsReported : Prop :=
  (∀ (s : State) (i : Instr), i.isStream = true → s.plat.Answers →
    s.eng.ip + i.size ≤ s.eng.lslen.toNat → s.eng.ldlen.toNat < s.eng.o + produces i →
    NextWith (exec i s) (fun t => s.EndedWith t .overrun (BitVec.ofNat 32 s.eng.ip))) ∧
  ∀ s : State, s.inputs = [] → s.eng.fsm = .dCheck → s.eng.ldlen.toNat < s.eng.o + s.eng.len →
    NextWith (step s) (fun t => s.EndedWith t .overrun (BitVec.ofNat 32 s.eng.start))

/-- A whole match that fits but reaches before the start of the output ends the command with
DIST_BEFORE_START at the offset of its opcode byte (R174, R177); so does a turn in D_CHECK. That the hash
table is kept when a command ends is the model's choice (notes/assumptions/2). -/
def Obligations.DistanceBeforeStartIsReported : Prop :=
  (∀ (s : State) (i : Instr), i.isStream = true → s.plat.Answers →
    s.eng.ip + i.size ≤ s.eng.lslen.toNat → s.eng.o + produces i ≤ s.eng.ldlen.toNat →
    s.eng.o < reaches i →
    NextWith (exec i s) (fun t => s.EndedWith t .distBeforeStart (BitVec.ofNat 32 s.eng.ip))) ∧
  ∀ s : State, s.inputs = [] → s.eng.fsm = .dCheck →
    s.eng.o + s.eng.len ≤ s.eng.ldlen.toNat → s.eng.o < s.eng.d →
    NextWith (step s) (fun t => s.EndedWith t .distBeforeStart (BitVec.ofNat 32 s.eng.start))

/-- The first access of a stream instruction that memory answers with an error ends the command with
BUS_ERROR and the cause of that access: a stream byte or a literal byte read (SRC_READ), a destination byte
written (DST_WRITE), a back-reference read (DST_READ). So does the first failing access of any turn of the
decoder, also at an instruction the stream cuts off, where the bytes that are there are read, and at one that
waited to produce its bytes. ERR_POS is a free word (R232, R230; that it is drawn with the next seed
is the model's form of it, notes/assumptions/1). That a back-reference is read from memory, so that its read
can fail, and that the hash table is kept when a command ends are the model's choices (notes/assumptions/28
and 2). -/
def Obligations.BusErrorIsReported : Prop :=
  (∀ (s : State) (i : Instr) (acc : Access), i.isStream = true →
    s.eng.ip + i.size ≤ s.eng.lslen.toNat →
    (s.plat.FirstFailure (s.fetchAccesses i) acc →
      NextWith (exec i s) (fun t => s.EndedWith t acc.cause (Config.freeWord s.freeCtr))) ∧
    ((∀ a, a ∈ s.fetchAccesses i → s.plat.answer a = .performed) →
      s.eng.o + produces i ≤ s.eng.ldlen.toNat → reaches i ≤ s.eng.o →
      s.plat.FirstFailure (s.dataAccesses i) acc →
      NextWith (exec i s) (fun t => s.EndedWith t acc.cause (Config.freeWord s.freeCtr)))) ∧
  ∀ (s : State) (acc : Access), s.inputs = [] → s.AtInstruction ∨ s.AtCopy →
    s.plat.FirstFailure s.turnAccesses acc →
    NextWith (step s) (fun t => s.EndedWith t acc.cause (Config.freeWord s.freeCtr))

/-- While memory does not answer an access of a stream instruction, the engine waits: the command does not
complete, nothing is produced and the engine's next turn is at the same access. That holds of the opcode
read, of the other reads of its bytes, and of the accesses that produce its bytes; also in a turn at an
instruction the stream cuts off, and in one that has waited before. When memory answers otherwise, a turn of
the waiting engine does what the instruction would have done had memory answered so at once, as long as its
own bytes can be read (R272; that the engine waits in D_OPERAND and in D_COPY, and that a phase that waits has
changed nothing else, is the model's choice, notes/assumptions/6; so is that a back-reference is read from
memory, so that its read can stay unanswered, notes/assumptions/28). -/
def Obligations.UnansweredReadWaits : Prop :=
  (∀ (s : State) (i : Instr), i.isStream = true →
    (s.eng.ip < s.eng.lslen.toNat ∧ s.plat.answer (.srcRead (s.srcAddr s.eng.ip)) = .pending ∨
        s.eng.ip + i.size ≤ s.eng.lslen.toNat ∧ s.plat.FirstPending (s.fetchAccesses i) →
      NextWith (exec i s) (fun t =>
        t.eng = { s.eng with start := s.eng.ip, fsm := .dOperand } ∧ s.SameAround t ∧
          t.mem = s.mem ∧ t.unspec = s.unspec ∧ t.busy = true ∧ exec i t = .next t)) ∧
    (i.wf → s.eng.ip + i.size ≤ s.eng.lslen.toNat →
      (∀ a, a ∈ s.fetchAccesses i → s.plat.answer a = .performed) →
      s.eng.o + produces i ≤ s.eng.ldlen.toNat → reaches i ≤ s.eng.o →
      s.plat.FirstPending (s.dataAccesses i) →
      NextWith (exec i s) (fun t =>
        t.eng.fsm = .dCopy ∧ t.eng.start = s.eng.ip ∧ t.eng.o = s.eng.o ∧ s.SameAround t ∧
          t.mem = s.mem ∧ t.unspec = s.unspec ∧ t.busy = true ∧ t.engineStep = .next t))) ∧
  (∀ s : State, s.inputs = [] → s.AtInstruction ∨ s.AtCopy → s.plat.FirstPending s.turnAccesses →
    NextWith (step s) (fun t =>
      (t.eng.fsm = .dOperand ∨ t.eng.fsm = .dCopy) ∧ t.eng.o = s.eng.o ∧ s.SameAround t ∧
        t.mem = s.mem ∧ t.unspec = s.unspec ∧ t.busy = true ∧ step t = .next t)) ∧
  ∀ (s t : State) (i : Instr) (rest : List Byte) (rules : List BusRule), s.inputs = [] →
    s.AtInstruction → decode s.eng.level s.streamFrom = .ok (i, rest) →
    s.plat.FirstPending s.turnAccesses → step s = .next t →
    (∀ a, a ∈ s.fetchAccesses i → (s.withBus rules).plat.answer a = .performed) →
    step (t.withBus rules) = step (s.withBus rules)

/-- Memory and the engine during COMPRESS. In a state of the invariant every access of a turn in C_SEARCH,
C_EXTEND, C_EMIT, C_LITERAL and C_FLUSH is a read of a source byte or a write of a destination byte, inside
the two regions (R62), and a turn changes only bytes it makes a write to. The first access that memory
answers with an error ends the command with BUS_ERROR and the cause of that access (R232); ERR_POS is a free
word. While an access is not answered the command does not complete: the engine stays where it is, at the
same position, and nothing outside the destination has changed (R272). The order of the accesses within a
turn, where the engine waits, the form of the free word, and that the hash table is as before the turn when
the command ends in it are the model's choices (notes/assumptions/7, 6, 1 and 2). -/
def Obligations.CompressMemoryAnswers : Prop :=
  ∀ s : State, s.Inv → s.inputs = [] →
    s.eng.fsm ∈ [Fsm.cSearch, .cExtend, .cEmit, .cLiteral, .cFlush] →
    (∀ acc, acc ∈ s.turnAccesses →
      (∃ i, i < s.eng.lslen.toNat ∧ acc = .srcRead (s.eng.lsrc.toNat + i)) ∨
        ∃ j, j < s.eng.ldlen.toNat ∧ acc = .dstWrite (s.eng.ldst.toNat + j)) ∧
    (∀ t, step s = .next t → t.busy = true →
      ∀ a, Access.dstWrite a ∉ s.turnAccesses → t.readByte a = s.readByte a) ∧
    (∀ acc, s.plat.FirstFailure s.turnAccesses acc →
      NextWith (step s) (fun t => s.EndedWith t acc.cause (Config.freeWord s.freeCtr))) ∧
    (s.plat.FirstPending s.turnAccesses →
      NextWith (step s) (fun t => t.eng.fsm = s.eng.fsm ∧ t.eng.p = s.eng.p ∧
        t.csr = s.csr ∧ t.ht = s.ht ∧ t.plat = s.plat ∧
        ∀ a, s.dstSpan.has a = false → t.readByte a = s.readByte a))

/-- The ends of the main loop (R171): EXHAUSTED at offset m when the stream ends too soon, D_END when the
original length is reached, there TRAILING at the first byte left over, and success when none is. That the
hash table is kept when a command ends is the model's choice (notes/assumptions/2). -/
def Obligations.EndsOfTheStream : Prop :=
  ∀ s : State, s.inputs = [] →
    (s.eng.fsm = .dFetch → s.eng.o < s.eng.ldlen.toNat → s.eng.ip = s.eng.lslen.toNat →
      NextWith (step s) (fun t => s.EndedWith t .exhausted s.eng.lslen)) ∧
    (s.eng.fsm = .dFetch → s.eng.o = s.eng.ldlen.toNat →
      step s = .next (s.withFsm .dEnd)) ∧
    (s.eng.fsm = .dEnd → s.eng.ip < s.eng.lslen.toNat →
      NextWith (step s) (fun t => s.EndedWith t .trailing (BitVec.ofNat 32 s.eng.ip))) ∧
    (s.eng.fsm = .dEnd → s.eng.ip = s.eng.lslen.toNat →
      step s = .next (s.withFsm .complete))

/-- The zero lengths of R193. -/
def Obligations.ZeroLengthStreams : Prop :=
  ∀ (level : Level) (b : Byte) (rest : List Byte) (orig : Nat),
    decompressBytes level [] 0 = .ok [] ∧
      decompressBytes level (b :: rest) 0 = .error (.trailing, 0) ∧
      decompressBytes level [] (orig + 1) = .error (.exhausted, 0)

/-! ### Host commands: start, checks, level -/

/-- COMPRESS and DECOMPRESS start when the engine is idle, reset is not held and the launch is not one a model
refuses: the report is cleared, BUSY rises, the configuration is latched; memory, the hash table and the
configuration registers are as before, and CMD[31:4] does not matter (R202, R203, R262). The host's cache
lines are as before too, and those not cleaned by now are the ones hidden from the command (R74). Three of
these are the model's choices: that a command which will fail a configuration check starts also where R69 or
R215 tells a model to refuse a launch (DEDUCED, notes/assumptions/17); that what is hidden is fixed here, for
the whole command (DESIGN CHOICE, notes/assumptions/8); and that the hash table and the working registers
that are not latched keep what they held (DESIGN CHOICE, notes/assumptions/2). -/
def Obligations.CommandStarts : Prop :=
  ∀ (s : State) (op : Op) (level : BitVec 2) (ignored : BitVec 28), s.eng.fsm = .idle →
    s.resetHeld = false →
    ((s.start op level).Unopposed ∨ configError (s.start op level).eng ≠ none) →
    NextWith (exec (match op with
        | .compress => .compress level ignored
        | .decompress => .decompress level ignored) s) (fun t =>
      t.busy = true ∧ t.csr.Unreported ∧ t.csr.levelUsed = 0 ∧ s.csr.SameConfig t.csr ∧
        t.eng = { s.eng with fsm := .check, lop := op, llevel := level,
                             lsrc := s.csr.srcAddr, lslen := s.csr.srcLen,
                             ldst := s.csr.dstAddr, ldlen := s.csr.dstLen,
                             lhtab := s.csr.htabSize } ∧
        t.mem = s.mem ∧ t.unspec = s.unspec ∧ t.ht = s.ht ∧ t.dirty = s.dirty ∧
        t.uncleaned = s.dirty ∧ t.unseen = s.unseen ∧ t.stale = s.stale ∧
        t.resetHeld = s.resetHeld ∧ t.plat = s.plat ∧ t.inputs = s.inputs ∧ t.resp = s.resp)

/-- A command word written while a command runs changes nothing (R202, R268). -/
def Obligations.CommandIgnoredWhileBusy : Prop :=
  ∀ (s : State) (level : BitVec 2) (ignored : BitVec 28), s.busy = true →
    exec (.compress level ignored) s = .next s ∧ exec (.decompress level ignored) s = .next s

/-- The launches a model refuses, and no others: a command that would run on regions that meet memory with
side effects, or that race with a command on another block; and a command that appears on another block
whose regions race with those of the command running here (R69, R215). That the refusal falls at the CMD
write or at the appearance of the other command, and that a command which fails a configuration check is
never refused, also where R69 or R215 is met, is the model's choice (DEDUCED, notes/assumptions/17); so is
that a CMD write while reset is held starts nothing and is not refused (notes/assumptions/19). -/
def Obligations.RefusedLaunches : Prop :=
  (∀ (s : State) (level : BitVec 2) (ignored : BitVec 28) (op : Op), s.eng.fsm = .idle →
    ((∃ why, exec (match op with
        | .compress => .compress level ignored
        | .decompress => .decompress level ignored) s = .refused why) ↔
      s.resetHeld = false ∧ configError (s.start op level).eng = none ∧
        ¬(s.start op level).Unopposed)) ∧
  ∀ (s : State) (regions : List OtherRegion) (later : List Input),
    s.inputs = .setOthers regions :: later →
    (s.busy = true ∧ configError s.eng = none ∧
        (∃ other, other ∈ regions ∧ (s.dstSpan.meets other.span = true ∨
          other.writes = true ∧ s.srcSpan.meets other.span = true)) →
      step s = .refused .raceWithOtherBlock) ∧
    (s.busy = false ∨ configError s.eng ≠ none ∨
        (∀ other, other ∈ regions → s.dstSpan.meets other.span = false ∧
          (other.writes = true → s.srcSpan.meets other.span = false)) →
      step s = .next { s with inputs := later, plat := { s.plat with others := regions } })

/-- CHECK ends a command that fails a configuration check with INVALID_CONFIGURATION, the cause of the
first failing check in the order of R204, position 0, LEVEL_USED 0 for BAD_LEVEL and the resolved level
else; no byte of memory and no hash table entry changes (R204, R234, R236; that the entries also stay once
the command has ended, where R46 leaves them unspecified, is the model's choice, notes/assumptions/2). -/
def Obligations.CheckRejects : Prop :=
  ∀ (s : State) (cause : Cause), s.inputs = [] → s.eng.fsm = .check → s.csr.levelUsed = 0 →
    configError s.eng = some cause →
    NextWith (step s) (fun t =>
      t.eng.fsm = .idle ∧ t.csr.done = true ∧ t.csr.errCode = 2 ∧ t.csr.errCause = cause.number ∧
        t.csr.errPos = 0 ∧ t.csr.resultLen = 0 ∧ s.csr.SameConfig t.csr ∧
        t.csr.levelUsed = (if cause = .badLevel then 0 else levelField (resolveLevel s.eng)) ∧
        t.mem = s.mem ∧ t.unspec = s.unspec ∧ t.ht = s.ht)

/-- The order and the meaning of the configuration checks: what each cause means, given that every check
before it passes (R204). -/
def Obligations.ChecksInOrder : Prop :=
  ∀ e : Engine,
    (configError e = some .badLevel ↔ e.llevel = 3) ∧
    (configError e = some .badHtabSize ↔ e.llevel ≠ 3 ∧ e.lop = .compress ∧
      ¬∃ k, k ≤ 16 ∧ e.lhtab.toNat = 2 ^ k) ∧
    (e.llevel ≠ 3 → e.lop = .decompress ∨ (∃ k, k ≤ 16 ∧ e.lhtab.toNat = 2 ^ k) →
      (configError e = some .srcWrap ↔ 2 ^ 32 < e.lsrc.toNat + e.lslen.toNat) ∧
      (e.lsrc.toNat + e.lslen.toNat ≤ 2 ^ 32 →
        (configError e = some .dstWrap ↔ 2 ^ 32 < e.ldst.toNat + e.ldlen.toNat) ∧
        (e.ldst.toNat + e.ldlen.toNat ≤ 2 ^ 32 →
          (configError e = some .regionOverlap ↔ 0 < e.lslen.toNat ∧ 0 < e.ldlen.toNat ∧
            e.lsrc.toNat < e.ldst.toNat + e.ldlen.toNat ∧
            e.ldst.toNat < e.lsrc.toNat + e.lslen.toNat) ∧
          (e.RegionsApart →
            (configError e = some .dstTooSmall ↔
              e.lop = .compress ∧ e.ldlen.toNat < e.lslen.toNat + (e.lslen.toNat + 31) / 32) ∧
            (configError e = none ↔
              e.lop = .decompress ∨
                e.lslen.toNat + (e.lslen.toNat + 31) / 32 ≤ e.ldlen.toNat)))))

/-- CHECK lets a valid command run: the level is resolved and reported; COMPRESS goes on to the hash table
initialisation with k = log2 of the latched size, DECOMPRESS to the decoder at ip = o = 0; memory and the
hash table are as before (R204, R205, R170). -/
def Obligations.CheckPasses : Prop :=
  ∀ s : State, s.inputs = [] → s.eng.fsm = .check → configError s.eng = none →
    NextWith (step s) (fun t =>
      t.eng.level = resolveLevel s.eng ∧
        t.csr = { s.csr with levelUsed := levelField (resolveLevel s.eng) } ∧
        t.mem = s.mem ∧ t.unspec = s.unspec ∧ t.ht = s.ht ∧
        (s.eng.lop = .compress → t.eng.fsm = .htInit ∧ s.eng.lhtab.toNat = 2 ^ t.eng.k) ∧
        (s.eng.lop = .decompress → t.eng.fsm = .dFetch ∧ t.eng.ip = 0 ∧ t.eng.o = 0))

/-- Level resolution (R205): LEVEL = 1 and 2 are explicit; AUTO takes level 2 exactly if SRC_LEN
(COMPRESS) or the original length (DECOMPRESS) exceeds 65536. -/
def Obligations.LevelResolution : Prop :=
  ∀ e : Engine,
    (e.llevel = 1 → resolveLevel e = .one) ∧ (e.llevel = 2 → resolveLevel e = .two) ∧
      (e.llevel = 0 → (resolveLevel e = .two ↔
        65536 < (if e.lop = .compress then e.lslen.toNat else e.ldlen.toNat)))

/-- The hash table initialisation (R45, R124): entries 0 to 2^k − 1 become 0, the others and memory are as
before; p, o and the pending run start at 0. -/
def Obligations.HashTableIsCleared : Prop :=
  ∀ s : State, s.inputs = [] → s.eng.fsm = .htInit →
    NextWith (step s) (fun t =>
      (∀ j, t.htGet j = if j < 2 ^ s.eng.k then 0 else s.htGet j) ∧
        t.eng = { s.eng with p := 0, o := 0, litCnt := 0, litBase := 0, fsm := .cSearch } ∧
        t.csr = s.csr ∧ t.mem = s.mem ∧ t.unspec = s.unspec)

/-! ### The match finder and the encoder -/

/-- The hashes of the spec's table, all four rows of it (R122, spec/95_test_vectors.md section 2). -/
def Obligations.HashVectors : Prop :=
  (∀ k h, (k, h) ∈ [(0, 0), (1, 1), (4, 0x5), (8, 0x61), (13, 0xD4F), (16, 0x6362)] →
      hashAt k (byteAt [0x61#8, 0x62#8, 0x63#8]) 0 = h) ∧
    (∀ k h, (k, h) ∈ [(0, 0), (1, 1), (4, 0x3), (8, 0x01), (13, 0x143), (16, 0x302)] →
      hashAt k (byteAt [0x01#8, 0x02#8, 0x03#8]) 0 = h) ∧
    (∀ k h, (k, h) ∈ [(0, 0), (1, 1), (4, 0xF), (8, 0xFF), (13, 0x1FFF), (16, 0xFFFF)] →
      hashAt k (byteAt [0xFF#8, 0xFF#8, 0xFF#8]) 0 = h) ∧
    ∀ k, k ∈ [0, 1, 4, 8, 13, 16] → hashAt k (byteAt [0x00#8, 0x00#8, 0x00#8]) 0 = 0

/-- A hash has k bits (R122). -/
def Obligations.HashHasKBits : Prop :=
  ∀ (k : Nat) (rd : Nat → Byte) (q : Nat), k ≤ 16 → hashAt k rd q < 2 ^ k

/-- After INSERT of the positions 0 to p − 1, the entry of a hash is the most recent of them with that hash,
or 0 if there is none (R125, R138). The table the finder holds at p is that one, on the entries it uses:
every step keeps it so, whatever the host does meanwhile, since every position is inserted, also those inside
a match (R123, R127, R131, R132). So at a search position the candidate is the most recent earlier position
with the same hash, or 0. -/
def Obligations.TableHoldsMostRecent : Prop :=
  (∀ (k n : Nat) (rd : Nat → Byte) (p h : Nat),
    (∀ q, q < p → q + 2 < n → hashAt k rd q = h →
        q ≤ Sparse.get 0 (insertRange k n rd [] 0 p) h) ∧
      (Sparse.get 0 (insertRange k n rd [] 0 p) h = 0 ∨
        (Sparse.get 0 (insertRange k n rd [] 0 p) h < p ∧
          Sparse.get 0 (insertRange k n rd [] 0 p) h + 2 < n ∧
          hashAt k rd (Sparse.get 0 (insertRange k n rd [] 0 p) h) = h))) ∧
  (∀ s t : State, s.Inv → s.TableComplete → step s = .next t → t.TableComplete) ∧
  ∀ s : State, s.Inv → s.TableComplete → s.eng.fsm = .cSearch →
    isSearch s.inputLen s.eng.p = true →
    let h := hashAt s.eng.k s.inByte s.eng.p
    (∀ q, q < s.eng.p → hashAt s.eng.k s.inByte q = h → q ≤ s.htGet h) ∧
      (s.htGet h = 0 ∨ (s.htGet h < s.eng.p ∧ hashAt s.eng.k s.inByte (s.htGet h) = h))

/-- EXTEND grows a verified match to the longest that the tail limit, the level's cap and the bytes allow
(R129). -/
def Obligations.ExtendIsLongest : Prop :=
  ∀ (level : Level) (n : Nat) (rd : Nat → Byte) (p r : Nat), p + 12 < n →
    let len := extend level n rd p r
    3 ≤ len ∧ p + len ≤ n - 3 ∧ (level = .one → len ≤ 263) ∧
      (∀ j, 3 ≤ j → j < len → rd (r + j) = rd (p + j)) ∧
      (p + len = n - 3 ∨ (level = .one ∧ len = 263) ∨ rd (r + len) ≠ rd (p + len))

/-- The finder's tokens tile the input: each byte is a literal or covered by one match, each match is
representable at the level, ends before the last three bytes and repeats bytes already seen (R136,
R142). -/
def Obligations.TokensTileTheInput : Prop :=
  ∀ (level : Level) (k : Nat) (inp : List Byte), k ≤ 16 →
    Tiles level inp 0 (findTokens level k inp)

/-- An input of at most 14 bytes has no search position and compresses to one literal run (R139). -/
def Obligations.ShortInputIsLiteral : Prop :=
  ∀ (level : Level) (k : Nat) (inp : List Byte), inp.length ≤ 14 →
    (∀ p, isSearch inp.length p = false) ∧ compressBytes level k inp = literalRun inp

/-- An input in which no three consecutive bytes repeat within the level's distance gives literal tokens
only (R140). -/
def Obligations.NoRepeatNoMatch : Prop :=
  ∀ (level : Level) (k : Nat) (inp : List Byte), k ≤ 16 →
    (∀ p r, r < p → p + 3 ≤ inp.length → p - r ≤ Config.maxDist level →
      ¬(∀ j, j < 3 → byteAt inp (r + j) = byteAt inp (p + j))) →
    findTokens level k inp = inp.map Token.literal

/-- A representable match token is emitted as exactly one instruction, well formed at the level, with the
token's length and distance; a literal run of 1 to 32 bytes as one LIT (R152 to R157). -/
def Obligations.EncoderEmitsOneInstruction : Prop :=
  (∀ (level : Level) (len d : Nat), representable level len d = true →
    ∃ i : Instr, i.wf ∧ i.atLevel level = true ∧ matchOf i = some (len, d) ∧
      matchBytes level len d = encodeStream i) ∧
    ∀ bytes : List Byte, 1 ≤ bytes.length → bytes.length ≤ 32 →
      literalRun bytes = encodeStream (.lit bytes)

/-- The compressed length never exceeds CBOUND(n) = n + ceil(n / 32) (R160). -/
def Obligations.OutputWithinBound : Prop :=
  ∀ (level : Level) (k : Nat) (inp : List Byte), k ≤ 16 →
    (compressBytes level k inp).length ≤ inp.length + (inp.length + 31) / 32

/-- Round trip (R163): decompressing the compressed bytes of an input, at the same level and with its length
as the original length, gives the input back without an error. -/
def Obligations.RoundTrip : Prop :=
  ∀ (level : Level) (k : Nat) (inp : List Byte), k ≤ 16 →
    decompressBytes level (compressBytes level k inp) inp.length = .ok inp

/-! ### Whole commands on the machine -/

/-- COMPRESS, from its start to its completion: an idle block that meets the invariant and is not held in
reset, whose configuration is valid, whose launch is not refused, whose source is visible to the engine and
whose memory answers starts the command, and after
finitely many steps DONE is set with no error, RESULT_LEN is the length of the compressed bytes of the source
region at the resolved level, the destination holds those bytes, and every byte outside the destination
region is as before (R206, R208, R158, R236, R134). -/
def Obligations.CompressCompletes : Prop :=
  ∀ (s : State) (level : BitVec 2) (ignored : BitVec 28) (k : Nat), s.Inv → s.eng.fsm = .idle →
    s.resetHeld = false → s.inputs = [] → s.plat.Answers → (s.start .compress level).Visible →
    (s.start .compress level).Unopposed →
    configError (s.start .compress level).eng = none → hashLog s.csr.htabSize = some k →
    NextWith (exec (.compress level ignored) s) (fun s1 =>
      let lvl := resolveLevel (s.start .compress level).eng
      let out := compressBytes lvl k (s.region s.csr.srcAddr s.csr.srcLen)
      ∃ steps, NextWith (run steps s1) (fun t =>
        t.eng.fsm = .idle ∧ t.csr.done = true ∧ t.csr.errCode = 0 ∧ t.csr.errCause = 0 ∧
          t.csr.errPos = 0 ∧ t.csr.levelUsed = levelField lvl ∧
          t.csr.resultLen.toNat = out.length ∧ s.csr.SameConfig t.csr ∧
          (∀ j, j < out.length → t.readByte (s.csr.dstAddr.toNat + j) = byteAt out j) ∧
          ∀ a, Span.has ⟨s.csr.dstAddr.toNat, s.csr.dstLen.toNat⟩ a = false →
            t.readByte a = s.readByte a))

/-- DECOMPRESS, from its start to its completion, as CompressCompletes: the outcome is that of DECODE on the
bytes of the source region (R209, R171, R179, R236). DECOMPRESS neither reads nor writes the hash table (R46);
that the table of the idle block before the command is also that of the idle block after it is the model's
choice, since R46 leaves it unspecified once a command has ended (DESIGN CHOICE, notes/assumptions/2). -/
def Obligations.DecompressCompletes : Prop :=
  ∀ (s : State) (level : BitVec 2) (ignored : BitVec 28), s.Inv → s.eng.fsm = .idle →
    s.resetHeld = false → s.inputs = [] → s.plat.Answers → (s.start .decompress level).Visible →
    (s.start .decompress level).Unopposed →
    configError (s.start .decompress level).eng = none →
    NextWith (exec (.decompress level ignored) s) (fun s1 =>
      let lvl := resolveLevel (s.start .decompress level).eng
      ∃ steps, NextWith (run steps s1) (fun t =>
        t.eng.fsm = .idle ∧ t.csr.done = true ∧ t.csr.levelUsed = levelField lvl ∧
          s.csr.SameConfig t.csr ∧ t.ht = s.ht ∧
          (match decompressBytes lvl (s.region s.csr.srcAddr s.csr.srcLen)
              s.csr.dstLen.toNat with
            | .ok out => t.csr.errCode = 0 ∧ t.csr.errCause = 0 ∧ t.csr.errPos = 0 ∧
                t.csr.resultLen = s.csr.dstLen ∧ out.length = s.csr.dstLen.toNat ∧
                ∀ j, j < out.length → t.readByte (s.csr.dstAddr.toNat + j) = byteAt out j
            | .error (cause, pos) => t.csr.errCode = cause.code ∧
                t.csr.errCause = cause.number ∧ t.csr.errPos.toNat = pos ∧
                t.csr.resultLen = 0) ∧
          ∀ a, Span.has ⟨s.csr.dstAddr.toNat, s.csr.dstLen.toNat⟩ a = false →
            t.readByte a = s.readByte a))

/-- Progress (R272): from every state of the invariant in which a command runs, if memory answers every
access the command completes in finitely many steps. -/
def Obligations.CommandsTerminate : Prop :=
  ∀ s : State, s.Inv → s.busy = true → s.inputs = [] → s.plat.Answers →
    ∃ steps, NextWith (run steps s) (fun t => t.eng.fsm = .idle ∧ t.csr.done = true)

/-! ### Invariants and whole-machine rules -/

/-- The invariant holds at reset. -/
def Obligations.ResetMeetsInvariant : Prop := State.reset.Inv

/-- Every step, whatever the host or the platform does, keeps the invariant. -/
def Obligations.StepKeepsInvariant : Prop :=
  ∀ s t : State, s.Inv → step s = .next t → t.Inv

/-- INTERNAL_INVARIANT is never reported (R136, R233). -/
def Obligations.InternalInvariantIsUnreachable : Prop :=
  ∀ s t : State, s.Inv → step s = .next t → t.csr.errCode ≠ 3

/-- No BUS_ERROR is reported where BUS_ERRORS_POSSIBLE is false (R232). -/
def Obligations.NoBusErrorWhereImpossible : Prop :=
  ∀ s t : State, s.Inv → s.plat.busErrors = false → step s = .next t →
    t.csr.errCode = 4 → s.csr.errCode = 4

/-- The engine never leaves its two regions (R62, R63, R191). It changes no byte outside the destination
region. Every access of a turn, in every engine state, reads in[i] with i < lslen (no stream byte at or
beyond m), writes out[j] with j < ldlen, or, in DECOMPRESS alone, reads out[j] with j below the output offset
the engine has reached: below o, or written earlier in the turn. And a turn makes no other access: what it
does depends on nothing memory would answer to one. The list of a turn's accesses follows the model's choices
of their order and of reading back-references from memory (notes/assumptions/7 and 28). -/
def Obligations.EngineWritesOnlyDestination : Prop :=
  (∀ s t : State, s.Inv → s.engineStep = .next t →
    ∀ a, s.dstSpan.has a = false → t.readByte a = s.readByte a) ∧
  (∀ (s : State) (before after : List Access) (acc : Access), s.Inv →
    s.turnAccesses = before ++ acc :: after →
    (∃ i, i < s.eng.lslen.toNat ∧ acc = .srcRead (s.eng.lsrc.toNat + i)) ∨
      (∃ j, j < s.eng.ldlen.toNat ∧ acc = .dstWrite (s.eng.ldst.toNat + j)) ∨
      ∃ j, j < s.eng.ldlen.toNat ∧ acc = .dstRead (s.eng.ldst.toNat + j) ∧
        s.eng.lop = .decompress ∧
        (j < s.eng.o ∨ Access.dstWrite (s.eng.ldst.toNat + j) ∈ before)) ∧
  ∀ (s t : State) (rules : List BusRule),
    (∀ acc, acc ∈ s.turnAccesses → (s.withBus rules).plat.answer acc = s.plat.answer acc) →
    s.engineStep = .next t → (s.withBus rules).engineStep = .next (t.withBus rules)

/-- While a command runs, every read of a source byte gives the value it had: no step changes the latched
source region or what the engine reads there (R72 item 3, R76). On a platform that is not coherent that
holds also of a byte the host had not cleaned: that it is one free byte for the whole command is the model's
choice (notes/assumptions/8). -/
def Obligations.SourceIsHeldWhileBusy : Prop :=
  ∀ s t : State, s.Inv → configError s.eng = none → s.busy = true →
    step s = .next t → t.busy = true →
    t.eng.lsrc = s.eng.lsrc ∧ t.eng.lslen = s.eng.lslen ∧
      ∀ i, i < s.eng.lslen.toNat → t.inByte i = s.inByte i

/-- The only engine states whose step can change the hash table are HT_INIT, C_SEARCH, C_EMIT and C_LITERAL:
no state of DECOMPRESS, and not CHECK, changes it (R46, R234). That it stays also in a turn that ends a
command, and while the engine is idle, is the model's choice (notes/assumptions/2). -/
def Obligations.HashTableOwnedByCompress : Prop :=
  ∀ s t : State, s.engineStep = .next t →
    s.eng.fsm ∉ [Fsm.htInit, .cSearch, .cEmit, .cLiteral] → t.ht = s.ht

/-! ### Completion, report and interrupt -/

/-- The successful completion (R208, R209, R236): one step sets DONE, clears BUSY, and writes RESULT_LEN (o
after COMPRESS, the original length after DECOMPRESS) with no error; the configuration registers,
LEVEL_USED and every byte of the result are as before. -/
def Obligations.SuccessfulCompletion : Prop :=
  ∀ s : State, s.inputs = [] → s.eng.fsm = .complete → s.eng.o ≤ s.eng.ldlen.toNat →
    NextWith (step s) (fun t =>
      t.busy = false ∧ t.csr.done = true ∧ t.csr.errCode = 0 ∧ t.csr.errCause = 0 ∧
        t.csr.errPos = 0 ∧ t.csr.levelUsed = s.csr.levelUsed ∧ s.csr.SameConfig t.csr ∧
        t.csr.resultLen = (match s.eng.lop with
          | .compress => BitVec.ofNat 32 s.eng.o
          | .decompress => s.eng.ldlen) ∧
        t.irq = s.csr.doneIe ∧
        ∀ a, (s.eng.lop = .compress → Span.has ⟨s.eng.ldst.toNat + s.eng.o,
            s.eng.ldlen.toNat - s.eng.o⟩ a = false) → t.readByte a = s.readByte a)

/-- The STATUS word (R23 to R29): each field in its bits, every reserved bit 0. -/
def Obligations.StatusWordLayout : Prop :=
  ∀ s : State,
    s.statusWord.getLsbD 0 = decide (s.eng.fsm ≠ .idle) ∧ s.statusWord.getLsbD 1 = s.csr.done ∧
      s.statusWord.getLsbD 2 = decide (s.csr.errCode ≠ 0) ∧
      s.statusWord.getLsbD 3 = false ∧
      s.statusWord.extractLsb' 4 4 = s.csr.errCode ∧
      s.statusWord.extractLsb' 8 8 = s.csr.errCause ∧
      s.statusWord.extractLsb' 16 2 = s.csr.levelUsed ∧ s.statusWord.extractLsb' 18 14 = 0

/-- The interrupt output (R30, R241): DONE and DONE_IE together; it falls on a W1C of DONE, on a command
start, on clearing DONE_IE and at reset, follows DONE_IE while DONE = 1, and a host that looks at it sees it
and changes nothing of the block (that it does so by an input of its own is the model's form,
notes/assumptions/15). -/
def Obligations.InterruptFollowsDone : Prop :=
  ∀ (s : State) (v : Word) (op : Op) (level : BitVec 2) (later : List Input),
    (s.irq = true ↔ s.csr.done = true ∧ s.csr.doneIe = true) ∧
      s.clearDone.irq = false ∧ (s.start op level).irq = false ∧ s.resetAssert.irq = false ∧
      (s.resetHeld = false →
        NextWith (s.writeReg 0x08 v) (fun t => t.irq = (s.csr.done && v.getLsbD 0) ∧
          t.csr.done = s.csr.done)) ∧
      (s.inputs = .irqSample :: later →
        NextWith (step s) (fun t => t.resp = .level s.irq ∧ t.csr = s.csr ∧ t.eng = s.eng ∧
          t.ht = s.ht ∧ t.mem = s.mem ∧ t.unspec = s.unspec ∧ t.resetHeld = s.resetHeld))

/-! ### Register access -/

/-- A 32-bit read at a word of the window returns the register's value and has no side effect in the block
(R200, R21, R38). Two clauses are the model's choices: that the host which reads STATUS has then observed
DONE = 1, which changes what is recorded of its own caches and nothing of the block (DESIGN CHOICE,
notes/assumptions/15; R74 does not say how DONE is observed), and that a read is answered in this way also
while reset is held (DESIGN CHOICE, notes/assumptions/25). -/
def Obligations.RegisterReads : Prop :=
  ∀ (s : State) (off : Nat) (value : Word) (later : List Input),
    (off, value) ∈ [(0x00, 0), (0x04, s.statusWord), (0x08, if s.csr.doneIe then 1 else 0),
      (0x0C, s.csr.srcAddr), (0x10, s.csr.srcLen), (0x14, s.csr.dstAddr), (0x18, s.csr.dstLen),
      (0x1C, s.csr.htabSize), (0x20, s.csr.resultLen), (0x24, s.csr.errPos), (0x28, 0),
      (0x2C, 0), (0x30, 0), (0x34, 0), (0x38, 0), (0x3C, 0)] →
    s.inputs = .csrRead (s.plat.base + BitVec.ofNat 32 off) 4 :: later →
    step s = .next { (if off = 0x04 then s.observeDone else s) with
      inputs := later, resp := .word value }

/-- A 32-bit write to a configuration register, while reset is not held, changes it at once, also while a
command runs, and changes nothing else: no other register, nothing of the engine and no memory; it reads
back as written (R200, R201). -/
def Obligations.ConfigurationWrites : Prop :=
  ∀ (s : State) (off : Nat) (v : Word) (c : Csr) (later : List Input),
    (off, c) ∈ [(0x0C, { s.csr with srcAddr := v }), (0x10, { s.csr with srcLen := v }),
      (0x14, { s.csr with dstAddr := v }), (0x18, { s.csr with dstLen := v }),
      (0x1C, { s.csr with htabSize := v }), (0x08, { s.csr with doneIe := v.getLsbD 0 })] →
    s.resetHeld = false → s.inputs = .csrWrite (s.plat.base + BitVec.ofNat 32 off) 4 v :: later →
    NextWith (step s) (fun t =>
      t = { s with inputs := later, resp := .done, csr := c } ∧
        t.csrValue off = (if off = 0x08 then v &&& 1 else v))

/-- A write of STATUS clears DONE if bit [1] of the value is 1 and changes nothing else; writes to RESULT_LEN,
ERR_POS and the reserved offsets are ignored, and so is a CMD write with START = 0 (R210, R200, R38, R202).
Two clauses are the model's choices: that a STATUS write while reset is held changes nothing at all (DEDUCED
from R260, notes/assumptions/19), and that a write while reset is held is answered as any other (DESIGN
CHOICE, notes/assumptions/25). -/
def Obligations.StatusAndReadOnlyWrites : Prop :=
  ∀ (s : State) (v : Word) (off : Nat) (later : List Input),
    s.inputs = .csrWrite (s.plat.base + BitVec.ofNat 32 off) 4 v :: later →
    (off = 0x04 → step s = .next { s with
        inputs := later, resp := .done
        csr := { s.csr with done := s.csr.done && !(v.getLsbD 1 && !s.resetHeld) } }) ∧
      (off ∈ [0x20, 0x24, 0x28, 0x2C, 0x30, 0x34, 0x38, 0x3C] ∨ (off = 0 ∧ v.getLsbD 0 = false) →
        step s = .next { s with inputs := later, resp := .done })

/-- An access to the window of any other width or alignment than a 32-bit one at a multiple of 4 gets a bus
error response and changes no state of the block (R66; that it is a next state with that response is the
model's form, notes/assumptions/12, and that it is answered so also while reset is held is the model's
choice, notes/assumptions/25). -/
def Obligations.BadAccessChangesNothing : Prop :=
  ∀ (s : State) (off bytes : Nat) (v : Word) (later : List Input), off < 64 →
    bytes ≠ 4 ∨ off % 4 ≠ 0 →
    s.inputs = .csrRead (s.plat.base + BitVec.ofNat 32 off) bytes :: later ∨
      s.inputs = .csrWrite (s.plat.base + BitVec.ofNat 32 off) bytes v :: later →
    step s = .next { s with inputs := later, resp := .busError }

/-! ### Hazards, memory, reset -/

/-- A write of memory: refused if a command runs and the byte is in its source or destination region, else
the byte is written and no other one, and the command is not disturbed (R266, R267). That it is so also while
reset is held, and that the hash table and the working registers of an idle block keep what they hold, are
the model's choices (notes/assumptions/25 and 2). -/
def Obligations.MemoryWrites : Prop :=
  ∀ (s : State) (addr : Word) (v : Byte) (later : List Input),
    s.inputs = .memWrite addr v :: later →
    (s.busy = true ∧ (s.srcSpan.has addr.toNat || s.dstSpan.has addr.toNat) = true →
      ∃ why, step s = .refused why) ∧
    (s.busy = false ∨ (s.srcSpan.has addr.toNat || s.dstSpan.has addr.toNat) = false →
      NextWith (step s) (fun t => t.csr = s.csr ∧ t.eng = s.eng ∧ t.ht = s.ht ∧
        t.resp = .done ∧
        ∀ a, t.readByte a = if a = addr.toNat then v else s.readByte a))

/-- A host read of memory disturbs nothing. It returns the byte that is there, or a free value, drawn with
the next seed: of the destination of a running command (R72 item 4, R266, R267), and, on a platform that is
not coherent, of a byte a command wrote which the host has not invalidated in its caches since it observed
DONE = 1 (R74). So: a command that ends, other than by INVALID_CONFIGURATION, makes its destination such
bytes; observing DONE = 1, in STATUS or by irq, lets an invalidation of them count; an invalidation takes
out exactly its range; and a byte the host writes itself is no such byte. The form of the free value, the
byte ranges of the maintenance and what counts as observing are the model's choices (notes/assumptions/1 and
15); so is that memory answers also while reset is held, and that an idle block's hash table and working
registers keep what they hold (notes/assumptions/25 and 2). -/
def Obligations.MemoryReads : Prop :=
  (∀ (s : State) (addr : Word) (later : List Input), s.inputs = .memRead addr :: later →
    NextWith (step s) (fun t => t.csr = s.csr ∧ t.eng = s.eng ∧ t.ht = s.ht ∧ t.mem = s.mem ∧
      t.unspec = s.unspec ∧ t.dirty = s.dirty ∧ t.uncleaned = s.uncleaned ∧
      t.unseen = s.unseen ∧ t.stale = s.stale ∧
      t.resp = .byte (if s.busy = true ∧ s.dstSpan.has addr.toNat = true ∨
          s.plat.coherent = false ∧
            (Spans.has s.unseen addr.toNat = true ∨ Spans.has s.stale addr.toNat = true) then
        Config.freeByte s.freeCtr addr.toNat else s.readByte addr.toNat))) ∧
  (∀ s t : State, s.engineStep = .next t → s.busy = true → t.busy = false →
    t.stale = s.stale ∧ ∀ a, Spans.has t.unseen a =
      (Spans.has s.unseen a ||
        (!s.plat.coherent && (decide (t.csr.errCode ≠ 2) && s.dstSpan.has a)))) ∧
  (∀ (s : State) (later : List Input), s.csr.done = true →
    s.inputs = .csrRead (s.plat.base + 0x04) 4 :: later ∨
      s.csr.doneIe = true ∧ s.inputs = .irqSample :: later →
    NextWith (step s) (fun t => ∀ a, Spans.has t.unseen a = false ∧
      Spans.has t.stale a = (Spans.has s.unseen a || Spans.has s.stale a))) ∧
  (∀ (s : State) (lo : Word) (len : Nat) (later : List Input),
    s.inputs = .cacheInvalidate lo len :: later →
    NextWith (step s) (fun t => t = { s with inputs := later, stale := t.stale } ∧
      ∀ a, Spans.has t.stale a = (Spans.has s.stale a && !Span.has ⟨lo.toNat, len⟩ a))) ∧
  ∀ (s t : State) (addr : Word) (v : Byte) (later : List Input),
    s.inputs = .memWrite addr v :: later → s.plat.coherent = false → step s = .next t →
    ∀ a, Spans.has t.unseen a = (Spans.has s.unseen a && decide (a ≠ addr.toNat)) ∧
      Spans.has t.stale a = (Spans.has s.stale a && decide (a ≠ addr.toNat))

/-- Caches on a platform that is not coherent, as a command's source reads see them (R74). A byte of the source
that the host wrote and had not cleaned before the CMD write reads as a free byte of the command's own seed
as long as the command runs, also if the host cleans it meanwhile; every other source byte reads as memory
holds it. A host write makes exactly its byte dirty, a clean takes exactly its range out, and the start of a
command fixes what is hidden from it: the bytes dirty then. That the free byte is one for the whole command,
its form, and the byte ranges of the maintenance are the model's choices (notes/assumptions/1, 8 and 15), and
so is that a clean while a command runs writes nothing and is not refused (notes/assumptions/27). -/
def Obligations.UncleanedBytesAreFree : Prop :=
  ∀ s : State, s.plat.coherent = false →
    (∀ i, s.busy = true → i < s.eng.lslen.toNat →
      s.inByte i = if Spans.has s.uncleaned (s.srcAddr i) = true then
        Config.freeByte s.seed (s.srcAddr i) else s.readByte (s.srcAddr i)) ∧
    (∀ t : State, s.busy = true → step s = .next t → t.busy = true →
      t.uncleaned = s.uncleaned ∧ t.seed = s.seed) ∧
    (∀ (t : State) (addr : Word) (v : Byte) (later : List Input),
      s.inputs = .memWrite addr v :: later → step s = .next t →
      ∀ a, Spans.has t.dirty a = (decide (a = addr.toNat) || Spans.has s.dirty a)) ∧
    (∀ (lo : Word) (len : Nat) (later : List Input), s.inputs = .cacheClean lo len :: later →
      NextWith (step s) (fun t => (∀ i, t.inByte i = s.inByte i) ∧
        ∀ a, Spans.has t.dirty a = (Spans.has s.dirty a && !Span.has ⟨lo.toNat, len⟩ a))) ∧
    ∀ (op : Op) (level : BitVec 2) (ignored : BitVec 28) (t : State), s.eng.fsm = .idle →
      s.resetHeld = false →
      exec (match op with
        | .compress => .compress level ignored
        | .decompress => .decompress level ignored) s = .next t →
      t.uncleaned = s.dirty ∧ t.dirty = s.dirty ∧ t.seed = s.freeCtr ∧
        ∀ i, i < t.eng.lslen.toNat → t.inByte i =
          if Spans.has s.dirty (t.srcAddr i) = true then Config.freeByte s.freeCtr (t.srcAddr i)
          else s.readByte (t.srcAddr i)

/-- Reset (R260, R261, R262). When it is asserted every register takes its reset value, the engine is idle, irq
is 0 and a running command reports nothing; every destination byte of that command is a free value, and
every other byte of memory is as before. While it is held that stays so, whatever the host or the platform
does: no register write changes anything, no command starts, and the engine does nothing. When it is
released nothing else changes. Much of it is the model's choice: that the working registers (but for fsm) and
the hash table are left unchanged, where R260 leaves them unspecified (DESIGN CHOICE, unsafe,
notes/assumptions/2); that a destination byte is a free value also where the regions of a command still in
CHECK overlap and the byte is a source byte too (DESIGN CHOICE, notes/assumptions/29); that a register write
while reset is held has no effect (DEDUCED, notes/assumptions/19); how the bus answers an access meanwhile
(DESIGN CHOICE, notes/assumptions/25); and the form of the free value (notes/assumptions/1). -/
def Obligations.ResetTakesEffect : Prop :=
  (∀ (s : State) (later : List Input), s.inputs = .resetAssert :: later →
    NextWith (step s) (fun t =>
      t.csr = State.reset.csr ∧ t.eng = { s.eng with fsm := .idle } ∧ t.irq = false ∧
        t.resetHeld = true ∧ t.inputs = later ∧ t.plat = s.plat ∧ t.ht = s.ht ∧
        ∀ a, t.readByte a = if s.busy = true ∧ s.dstSpan.has a = true then
          Config.freeByte s.freeCtr a else s.readByte a)) ∧
  (∀ s t : State, s.Inv → s.resetHeld = true → step s = .next t →
    (∀ later, s.inputs ≠ .resetRelease :: later) →
    t.resetHeld = true ∧ t.csr = State.reset.csr ∧ t.eng = s.eng ∧ t.eng.fsm = .idle ∧
      t.irq = false ∧ t.ht = s.ht) ∧
  (∀ s : State, s.Inv → s.resetHeld = true → s.inputs = [] → step s = .next s) ∧
  (∀ (s : State) (off : Nat) (v : Word) (later : List Input), s.resetHeld = true →
    off < 64 → off % 4 = 0 →
    s.inputs = .csrWrite (s.plat.base + BitVec.ofNat 32 off) 4 v :: later →
    step s = .next { s with inputs := later, resp := .done }) ∧
  (∀ (s : State) (level : BitVec 2) (ignored : BitVec 28), s.resetHeld = true →
    exec (.compress level ignored) s = .next s ∧ exec (.decompress level ignored) s = .next s) ∧
  ∀ (s : State) (later : List Input), s.inputs = .resetRelease :: later →
    step s = .next { s with inputs := later, resetHeld := false }

/-- The reset values of R261, as the registers read: 0 everywhere but HTAB_SIZE, which reads 0x2000. -/
def Obligations.ResetValues : Prop :=
  State.reset.busy = false ∧ State.reset.irq = false ∧ State.reset.statusWord = 0 ∧
    State.reset.csrValue 0x1C = 0x00002000 ∧
    ∀ off, off ∈ [0x00, 0x04, 0x08, 0x0C, 0x10, 0x14, 0x18, 0x20, 0x24, 0x28, 0x2C, 0x30, 0x34,
      0x38, 0x3C] → State.reset.csrValue off = 0
end

