-- ==== Sys2Proof/Laws/Encoding.lean ====
section
/-! SUPPORT. The laws of the decoder's and the encoder's parts: splitting a byte list, the opcode byte and its
two fields, the distance ranges, and how many bytes an encoding has. -/

namespace Sys2Proof

/-! ### Splitting a list -/

theorem splitExact_append {α : Type} (xs ys : List α) :
    splitExact xs.length (xs ++ ys) = some (xs, ys) := by
  induction xs with
  | nil => rfl
  | cons x xs ih => simp [splitExact, ih]

/-- A split that answers gives the first n elements and the rest, and n elements are there; one that does
not answer says that there are fewer. -/
theorem splitExact_cases {α : Type} (n : Nat) : ∀ zs : List α,
    (∃ xs ys, splitExact n zs = some (xs, ys) ∧ xs.length = n ∧ xs ++ ys = zs) ∨
      (splitExact n zs = none ∧ zs.length < n) := by
  induction n with
  | zero => intro zs; exact .inl ⟨[], zs, rfl, rfl, rfl⟩
  | succ n ih =>
    intro zs
    cases zs with
    | nil => exact .inr ⟨rfl, Nat.succ_pos n⟩
    | cons z zs =>
      rcases ih zs with ⟨xs, ys, h, hl, ha⟩ | ⟨h, hl⟩
      · exact .inl ⟨z :: xs, ys, by simp [splitExact, h], by simp [hl], by simp [ha]⟩
      · exact .inr ⟨by simp [splitExact, h], by simp; omega⟩

/-! ### The opcode byte -/

theorem opcodeT_lt (b : Byte) : opcodeT b < 8 := by
  unfold opcodeT; have := b.isLt; omega

theorem opcodeF_lt (b : Byte) : opcodeF b < 32 := by
  unfold opcodeF; omega

theorem opcodeT_opcodeByte {t f : Nat} (ht : t < 8) (hf : f < 32) : opcodeT (opcodeByte t f) = t := by
  unfold opcodeT opcodeByte; simp; omega

theorem opcodeF_opcodeByte {t f : Nat} (hf : f < 32) : opcodeF (opcodeByte t f) = f := by
  unfold opcodeF opcodeByte; simp; omega

theorem opcodeByte_eta (b : Byte) : opcodeByte (opcodeT b) (opcodeF b) = b := by
  unfold opcodeF opcodeByte opcodeT
  apply BitVec.eq_of_toNat_eq; have := b.isLt; simp; omega

/-! ### Ranges and lengths -/

theorem distanceProblem_none {most d : Nat} :
    distanceProblem most d = none ↔ 1 ≤ d ∧ d ≤ most := by
  unfold distanceProblem
  split
  · simp; omega
  · split <;> simp <;> omega

theorem length_lenBytes (x : Nat) : (lenBytes x).length = x / 255 + 1 := by
  simp [lenBytes]

/-- A well-formed match has a length of at least 3 and a distance of at least 1, in the form's range. -/
theorem wf_mx1 {len d : Nat} : (Instr.mx1 len d).wf ↔ 9 ≤ len ∧ 1 ≤ d ∧ d ≤ 8192 := by
  unfold Instr.wf Instr.problem
  simp only [Config.extMinLen, Config.maxDist1]
  split
  · simp; omega
  · rw [distanceProblem_none]; omega

theorem wf_mx2n {len d : Nat} : (Instr.mx2n len d).wf ↔ 9 ≤ len ∧ 1 ≤ d ∧ d ≤ 8191 := by
  unfold Instr.wf Instr.problem
  simp only [Config.extMinLen, Config.nearMaxDist]
  split
  · simp; omega
  · rw [distanceProblem_none]; omega

theorem wf_mx2f {len d : Nat} : (Instr.mx2f len d).wf ↔ 9 ≤ len ∧ 8192 ≤ d ∧ d ≤ 73727 := by
  unfold Instr.wf Instr.problem
  simp only [Config.extMinLen, Config.farBase, Config.maxDist2]
  split
  · simp; omega
  · split
    · simp; omega
    · split <;> simp <;> omega

end Sys2Proof
end

