-- ==== Sys2Proof/Laws/State.lean ====
section
/-! SUPPORT. What each update of the state leaves alone and what it sets, field by field, so that no proof
unfolds a record update. -/

namespace Sys2Proof.Machine.State

/-! ### withCsr -/

@[simp] theorem withCsr_csr (s : State) (c : Csr) : (s.withCsr c).csr = c := rfl

@[simp] theorem withCsr_eng (s : State) (c : Csr) : (s.withCsr c).eng = s.eng := rfl

@[simp] theorem withCsr_ht (s : State) (c : Csr) : (s.withCsr c).ht = s.ht := rfl

@[simp] theorem withCsr_mem (s : State) (c : Csr) : (s.withCsr c).mem = s.mem := rfl

@[simp] theorem withCsr_unspec (s : State) (c : Csr) : (s.withCsr c).unspec = s.unspec := rfl

@[simp] theorem withCsr_dirty (s : State) (c : Csr) : (s.withCsr c).dirty = s.dirty := rfl

@[simp] theorem withCsr_uncleaned (s : State) (c : Csr) : (s.withCsr c).uncleaned = s.uncleaned := rfl

@[simp] theorem withCsr_unseen (s : State) (c : Csr) : (s.withCsr c).unseen = s.unseen := rfl

@[simp] theorem withCsr_resetHeld (s : State) (c : Csr) : (s.withCsr c).resetHeld = s.resetHeld := rfl

@[simp] theorem withCsr_stale (s : State) (c : Csr) : (s.withCsr c).stale = s.stale := rfl

@[simp] theorem withCsr_plat (s : State) (c : Csr) : (s.withCsr c).plat = s.plat := rfl

@[simp] theorem withCsr_inputs (s : State) (c : Csr) : (s.withCsr c).inputs = s.inputs := rfl

@[simp] theorem withCsr_resp (s : State) (c : Csr) : (s.withCsr c).resp = s.resp := rfl

@[simp] theorem withCsr_freeCtr (s : State) (c : Csr) : (s.withCsr c).freeCtr = s.freeCtr := rfl

@[simp] theorem withCsr_seed (s : State) (c : Csr) : (s.withCsr c).seed = s.seed := rfl

/-! ### withEng -/

@[simp] theorem withEng_csr (s : State) (e : Engine) : (s.withEng e).csr = s.csr := rfl

@[simp] theorem withEng_eng (s : State) (e : Engine) : (s.withEng e).eng = e := rfl

@[simp] theorem withEng_ht (s : State) (e : Engine) : (s.withEng e).ht = s.ht := rfl

@[simp] theorem withEng_mem (s : State) (e : Engine) : (s.withEng e).mem = s.mem := rfl

@[simp] theorem withEng_unspec (s : State) (e : Engine) : (s.withEng e).unspec = s.unspec := rfl

@[simp] theorem withEng_dirty (s : State) (e : Engine) : (s.withEng e).dirty = s.dirty := rfl

@[simp] theorem withEng_uncleaned (s : State) (e : Engine) : (s.withEng e).uncleaned = s.uncleaned := rfl

@[simp] theorem withEng_unseen (s : State) (e : Engine) : (s.withEng e).unseen = s.unseen := rfl

@[simp] theorem withEng_resetHeld (s : State) (e : Engine) : (s.withEng e).resetHeld = s.resetHeld := rfl

@[simp] theorem withEng_stale (s : State) (e : Engine) : (s.withEng e).stale = s.stale := rfl

@[simp] theorem withEng_plat (s : State) (e : Engine) : (s.withEng e).plat = s.plat := rfl

@[simp] theorem withEng_inputs (s : State) (e : Engine) : (s.withEng e).inputs = s.inputs := rfl

@[simp] theorem withEng_resp (s : State) (e : Engine) : (s.withEng e).resp = s.resp := rfl

@[simp] theorem withEng_freeCtr (s : State) (e : Engine) : (s.withEng e).freeCtr = s.freeCtr := rfl

@[simp] theorem withEng_seed (s : State) (e : Engine) : (s.withEng e).seed = s.seed := rfl

/-! ### withFsm -/

@[simp] theorem withFsm_csr (s : State) (f : Fsm) : (s.withFsm f).csr = s.csr := rfl

@[simp] theorem withFsm_eng (s : State) (f : Fsm) : (s.withFsm f).eng = { s.eng with fsm := f } := rfl

@[simp] theorem withFsm_ht (s : State) (f : Fsm) : (s.withFsm f).ht = s.ht := rfl

@[simp] theorem withFsm_mem (s : State) (f : Fsm) : (s.withFsm f).mem = s.mem := rfl

@[simp] theorem withFsm_unspec (s : State) (f : Fsm) : (s.withFsm f).unspec = s.unspec := rfl

@[simp] theorem withFsm_dirty (s : State) (f : Fsm) : (s.withFsm f).dirty = s.dirty := rfl

@[simp] theorem withFsm_uncleaned (s : State) (f : Fsm) : (s.withFsm f).uncleaned = s.uncleaned := rfl

@[simp] theorem withFsm_unseen (s : State) (f : Fsm) : (s.withFsm f).unseen = s.unseen := rfl

@[simp] theorem withFsm_resetHeld (s : State) (f : Fsm) : (s.withFsm f).resetHeld = s.resetHeld := rfl

@[simp] theorem withFsm_stale (s : State) (f : Fsm) : (s.withFsm f).stale = s.stale := rfl

@[simp] theorem withFsm_plat (s : State) (f : Fsm) : (s.withFsm f).plat = s.plat := rfl

@[simp] theorem withFsm_inputs (s : State) (f : Fsm) : (s.withFsm f).inputs = s.inputs := rfl

@[simp] theorem withFsm_resp (s : State) (f : Fsm) : (s.withFsm f).resp = s.resp := rfl

@[simp] theorem withFsm_freeCtr (s : State) (f : Fsm) : (s.withFsm f).freeCtr = s.freeCtr := rfl

@[simp] theorem withFsm_seed (s : State) (f : Fsm) : (s.withFsm f).seed = s.seed := rfl

/-! ### writeByte -/

@[simp] theorem writeByte_csr (s : State) (a : Nat) (v : Byte) : (s.writeByte a v).csr = s.csr := rfl

@[simp] theorem writeByte_eng (s : State) (a : Nat) (v : Byte) : (s.writeByte a v).eng = s.eng := rfl

@[simp] theorem writeByte_ht (s : State) (a : Nat) (v : Byte) : (s.writeByte a v).ht = s.ht := rfl

@[simp] theorem writeByte_mem (s : State) (a : Nat) (v : Byte) : (s.writeByte a v).mem = Memory.set s.mem a v := rfl

@[simp] theorem writeByte_unspec (s : State) (a : Nat) (v : Byte) : (s.writeByte a v).unspec = FreeSpans.cut s.unspec a 1 := rfl

@[simp] theorem writeByte_dirty (s : State) (a : Nat) (v : Byte) : (s.writeByte a v).dirty = s.dirty := rfl

@[simp] theorem writeByte_uncleaned (s : State) (a : Nat) (v : Byte) : (s.writeByte a v).uncleaned = s.uncleaned := rfl

@[simp] theorem writeByte_unseen (s : State) (a : Nat) (v : Byte) : (s.writeByte a v).unseen = s.unseen := rfl

@[simp] theorem writeByte_resetHeld (s : State) (a : Nat) (v : Byte) : (s.writeByte a v).resetHeld = s.resetHeld := rfl

@[simp] theorem writeByte_stale (s : State) (a : Nat) (v : Byte) : (s.writeByte a v).stale = s.stale := rfl

@[simp] theorem writeByte_plat (s : State) (a : Nat) (v : Byte) : (s.writeByte a v).plat = s.plat := rfl

@[simp] theorem writeByte_inputs (s : State) (a : Nat) (v : Byte) : (s.writeByte a v).inputs = s.inputs := rfl

@[simp] theorem writeByte_resp (s : State) (a : Nat) (v : Byte) : (s.writeByte a v).resp = s.resp := rfl

@[simp] theorem writeByte_freeCtr (s : State) (a : Nat) (v : Byte) : (s.writeByte a v).freeCtr = s.freeCtr := rfl

@[simp] theorem writeByte_seed (s : State) (a : Nat) (v : Byte) : (s.writeByte a v).seed = s.seed := rfl

/-! ### setOut -/

@[simp] theorem setOut_csr (s : State) (i : Nat) (v : Byte) : (s.setOut i v).csr = s.csr := rfl

@[simp] theorem setOut_eng (s : State) (i : Nat) (v : Byte) : (s.setOut i v).eng = s.eng := rfl

@[simp] theorem setOut_ht (s : State) (i : Nat) (v : Byte) : (s.setOut i v).ht = s.ht := rfl

@[simp] theorem setOut_mem (s : State) (i : Nat) (v : Byte) : (s.setOut i v).mem = Memory.set s.mem (s.dstAddr i) v := rfl

@[simp] theorem setOut_unspec (s : State) (i : Nat) (v : Byte) : (s.setOut i v).unspec = FreeSpans.cut s.unspec (s.dstAddr i) 1 := rfl

@[simp] theorem setOut_dirty (s : State) (i : Nat) (v : Byte) : (s.setOut i v).dirty = s.dirty := rfl

@[simp] theorem setOut_uncleaned (s : State) (i : Nat) (v : Byte) : (s.setOut i v).uncleaned = s.uncleaned := rfl

@[simp] theorem setOut_unseen (s : State) (i : Nat) (v : Byte) : (s.setOut i v).unseen = s.unseen := rfl

@[simp] theorem setOut_resetHeld (s : State) (i : Nat) (v : Byte) : (s.setOut i v).resetHeld = s.resetHeld := rfl

@[simp] theorem setOut_stale (s : State) (i : Nat) (v : Byte) : (s.setOut i v).stale = s.stale := rfl

@[simp] theorem setOut_plat (s : State) (i : Nat) (v : Byte) : (s.setOut i v).plat = s.plat := rfl

@[simp] theorem setOut_inputs (s : State) (i : Nat) (v : Byte) : (s.setOut i v).inputs = s.inputs := rfl

@[simp] theorem setOut_resp (s : State) (i : Nat) (v : Byte) : (s.setOut i v).resp = s.resp := rfl

@[simp] theorem setOut_freeCtr (s : State) (i : Nat) (v : Byte) : (s.setOut i v).freeCtr = s.freeCtr := rfl

@[simp] theorem setOut_seed (s : State) (i : Nat) (v : Byte) : (s.setOut i v).seed = s.seed := rfl

/-! ### htSet -/

@[simp] theorem htSet_csr (s : State) (j v : Nat) : (s.htSet j v).csr = s.csr := rfl

@[simp] theorem htSet_eng (s : State) (j v : Nat) : (s.htSet j v).eng = s.eng := rfl

@[simp] theorem htSet_ht (s : State) (j v : Nat) : (s.htSet j v).ht = Sparse.set 0 s.ht j v := rfl

@[simp] theorem htSet_mem (s : State) (j v : Nat) : (s.htSet j v).mem = s.mem := rfl

@[simp] theorem htSet_unspec (s : State) (j v : Nat) : (s.htSet j v).unspec = s.unspec := rfl

@[simp] theorem htSet_dirty (s : State) (j v : Nat) : (s.htSet j v).dirty = s.dirty := rfl

@[simp] theorem htSet_uncleaned (s : State) (j v : Nat) : (s.htSet j v).uncleaned = s.uncleaned := rfl

@[simp] theorem htSet_unseen (s : State) (j v : Nat) : (s.htSet j v).unseen = s.unseen := rfl

@[simp] theorem htSet_resetHeld (s : State) (j v : Nat) : (s.htSet j v).resetHeld = s.resetHeld := rfl

@[simp] theorem htSet_stale (s : State) (j v : Nat) : (s.htSet j v).stale = s.stale := rfl

@[simp] theorem htSet_plat (s : State) (j v : Nat) : (s.htSet j v).plat = s.plat := rfl

@[simp] theorem htSet_inputs (s : State) (j v : Nat) : (s.htSet j v).inputs = s.inputs := rfl

@[simp] theorem htSet_resp (s : State) (j v : Nat) : (s.htSet j v).resp = s.resp := rfl

@[simp] theorem htSet_freeCtr (s : State) (j v : Nat) : (s.htSet j v).freeCtr = s.freeCtr := rfl

@[simp] theorem htSet_seed (s : State) (j v : Nat) : (s.htSet j v).seed = s.seed := rfl

/-! ### htClear -/

@[simp] theorem htClear_csr (s : State) (n : Nat) : (s.htClear n).csr = s.csr := rfl

@[simp] theorem htClear_eng (s : State) (n : Nat) : (s.htClear n).eng = s.eng := rfl

@[simp] theorem htClear_mem (s : State) (n : Nat) : (s.htClear n).mem = s.mem := rfl

@[simp] theorem htClear_unspec (s : State) (n : Nat) : (s.htClear n).unspec = s.unspec := rfl

@[simp] theorem htClear_dirty (s : State) (n : Nat) : (s.htClear n).dirty = s.dirty := rfl

@[simp] theorem htClear_uncleaned (s : State) (n : Nat) : (s.htClear n).uncleaned = s.uncleaned := rfl

@[simp] theorem htClear_unseen (s : State) (n : Nat) : (s.htClear n).unseen = s.unseen := rfl

@[simp] theorem htClear_resetHeld (s : State) (n : Nat) : (s.htClear n).resetHeld = s.resetHeld := rfl

@[simp] theorem htClear_stale (s : State) (n : Nat) : (s.htClear n).stale = s.stale := rfl

@[simp] theorem htClear_plat (s : State) (n : Nat) : (s.htClear n).plat = s.plat := rfl

@[simp] theorem htClear_inputs (s : State) (n : Nat) : (s.htClear n).inputs = s.inputs := rfl

@[simp] theorem htClear_resp (s : State) (n : Nat) : (s.htClear n).resp = s.resp := rfl

@[simp] theorem htClear_freeCtr (s : State) (n : Nat) : (s.htClear n).freeCtr = s.freeCtr := rfl

@[simp] theorem htClear_seed (s : State) (n : Nat) : (s.htClear n).seed = s.seed := rfl

/-! ### answered -/

@[simp] theorem answered_csr (s : State) (r : Response) : (s.answered r).csr = s.csr := rfl

@[simp] theorem answered_eng (s : State) (r : Response) : (s.answered r).eng = s.eng := rfl

@[simp] theorem answered_ht (s : State) (r : Response) : (s.answered r).ht = s.ht := rfl

@[simp] theorem answered_mem (s : State) (r : Response) : (s.answered r).mem = s.mem := rfl

@[simp] theorem answered_unspec (s : State) (r : Response) : (s.answered r).unspec = s.unspec := rfl

@[simp] theorem answered_dirty (s : State) (r : Response) : (s.answered r).dirty = s.dirty := rfl

@[simp] theorem answered_uncleaned (s : State) (r : Response) : (s.answered r).uncleaned = s.uncleaned := rfl

@[simp] theorem answered_unseen (s : State) (r : Response) : (s.answered r).unseen = s.unseen := rfl

@[simp] theorem answered_resetHeld (s : State) (r : Response) : (s.answered r).resetHeld = s.resetHeld := rfl

@[simp] theorem answered_stale (s : State) (r : Response) : (s.answered r).stale = s.stale := rfl

@[simp] theorem answered_plat (s : State) (r : Response) : (s.answered r).plat = s.plat := rfl

@[simp] theorem answered_inputs (s : State) (r : Response) : (s.answered r).inputs = s.inputs := rfl

@[simp] theorem answered_resp (s : State) (r : Response) : (s.answered r).resp = r := rfl

@[simp] theorem answered_freeCtr (s : State) (r : Response) : (s.answered r).freeCtr = s.freeCtr := rfl

@[simp] theorem answered_seed (s : State) (r : Response) : (s.answered r).seed = s.seed := rfl

/-! ### insert -/

@[simp] theorem insert_csr (s : State) (q : Nat) : (s.insert q).csr = s.csr := rfl

@[simp] theorem insert_eng (s : State) (q : Nat) : (s.insert q).eng = s.eng := rfl

@[simp] theorem insert_ht (s : State) (q : Nat) : (s.insert q).ht = insertAt s.eng.k s.inputLen s.inByte s.ht q := rfl

@[simp] theorem insert_mem (s : State) (q : Nat) : (s.insert q).mem = s.mem := rfl

@[simp] theorem insert_unspec (s : State) (q : Nat) : (s.insert q).unspec = s.unspec := rfl

@[simp] theorem insert_dirty (s : State) (q : Nat) : (s.insert q).dirty = s.dirty := rfl

@[simp] theorem insert_uncleaned (s : State) (q : Nat) : (s.insert q).uncleaned = s.uncleaned := rfl

@[simp] theorem insert_unseen (s : State) (q : Nat) : (s.insert q).unseen = s.unseen := rfl

@[simp] theorem insert_resetHeld (s : State) (q : Nat) : (s.insert q).resetHeld = s.resetHeld := rfl

@[simp] theorem insert_stale (s : State) (q : Nat) : (s.insert q).stale = s.stale := rfl

@[simp] theorem insert_plat (s : State) (q : Nat) : (s.insert q).plat = s.plat := rfl

@[simp] theorem insert_inputs (s : State) (q : Nat) : (s.insert q).inputs = s.inputs := rfl

@[simp] theorem insert_resp (s : State) (q : Nat) : (s.insert q).resp = s.resp := rfl

@[simp] theorem insert_freeCtr (s : State) (q : Nat) : (s.insert q).freeCtr = s.freeCtr := rfl

@[simp] theorem insert_seed (s : State) (q : Nat) : (s.insert q).seed = s.seed := rfl

/-! ### insertMany -/

@[simp] theorem insertMany_csr (s : State) (q n : Nat) : (s.insertMany q n).csr = s.csr := rfl

@[simp] theorem insertMany_eng (s : State) (q n : Nat) : (s.insertMany q n).eng = s.eng := rfl

@[simp] theorem insertMany_ht (s : State) (q n : Nat) : (s.insertMany q n).ht = insertRange s.eng.k s.inputLen s.inByte s.ht q n := rfl

@[simp] theorem insertMany_mem (s : State) (q n : Nat) : (s.insertMany q n).mem = s.mem := rfl

@[simp] theorem insertMany_unspec (s : State) (q n : Nat) : (s.insertMany q n).unspec = s.unspec := rfl

@[simp] theorem insertMany_dirty (s : State) (q n : Nat) : (s.insertMany q n).dirty = s.dirty := rfl

@[simp] theorem insertMany_uncleaned (s : State) (q n : Nat) : (s.insertMany q n).uncleaned = s.uncleaned := rfl

@[simp] theorem insertMany_unseen (s : State) (q n : Nat) : (s.insertMany q n).unseen = s.unseen := rfl

@[simp] theorem insertMany_resetHeld (s : State) (q n : Nat) : (s.insertMany q n).resetHeld = s.resetHeld := rfl

@[simp] theorem insertMany_stale (s : State) (q n : Nat) : (s.insertMany q n).stale = s.stale := rfl

@[simp] theorem insertMany_plat (s : State) (q n : Nat) : (s.insertMany q n).plat = s.plat := rfl

@[simp] theorem insertMany_inputs (s : State) (q n : Nat) : (s.insertMany q n).inputs = s.inputs := rfl

@[simp] theorem insertMany_resp (s : State) (q n : Nat) : (s.insertMany q n).resp = s.resp := rfl

@[simp] theorem insertMany_freeCtr (s : State) (q n : Nat) : (s.insertMany q n).freeCtr = s.freeCtr := rfl

@[simp] theorem insertMany_seed (s : State) (q n : Nat) : (s.insertMany q n).seed = s.seed := rfl

/-! ### clearDone -/

@[simp] theorem clearDone_csr (s : State) : (s.clearDone).csr = { s.csr with done := false } := rfl

@[simp] theorem clearDone_eng (s : State) : (s.clearDone).eng = s.eng := rfl

@[simp] theorem clearDone_ht (s : State) : (s.clearDone).ht = s.ht := rfl

@[simp] theorem clearDone_mem (s : State) : (s.clearDone).mem = s.mem := rfl

@[simp] theorem clearDone_unspec (s : State) : (s.clearDone).unspec = s.unspec := rfl

@[simp] theorem clearDone_dirty (s : State) : (s.clearDone).dirty = s.dirty := rfl

@[simp] theorem clearDone_uncleaned (s : State) : (s.clearDone).uncleaned = s.uncleaned := rfl

@[simp] theorem clearDone_unseen (s : State) : (s.clearDone).unseen = s.unseen := rfl

@[simp] theorem clearDone_resetHeld (s : State) : (s.clearDone).resetHeld = s.resetHeld := rfl

@[simp] theorem clearDone_stale (s : State) : (s.clearDone).stale = s.stale := rfl

@[simp] theorem clearDone_plat (s : State) : (s.clearDone).plat = s.plat := rfl

@[simp] theorem clearDone_inputs (s : State) : (s.clearDone).inputs = s.inputs := rfl

@[simp] theorem clearDone_resp (s : State) : (s.clearDone).resp = s.resp := rfl

@[simp] theorem clearDone_freeCtr (s : State) : (s.clearDone).freeCtr = s.freeCtr := rfl

@[simp] theorem clearDone_seed (s : State) : (s.clearDone).seed = s.seed := rfl

/-! ### cacheClean -/

@[simp] theorem cacheClean_csr (s : State) (lo n : Nat) : (s.cacheClean lo n).csr = s.csr := rfl

@[simp] theorem cacheClean_eng (s : State) (lo n : Nat) : (s.cacheClean lo n).eng = s.eng := rfl

@[simp] theorem cacheClean_ht (s : State) (lo n : Nat) : (s.cacheClean lo n).ht = s.ht := rfl

@[simp] theorem cacheClean_mem (s : State) (lo n : Nat) : (s.cacheClean lo n).mem = s.mem := rfl

@[simp] theorem cacheClean_unspec (s : State) (lo n : Nat) : (s.cacheClean lo n).unspec = s.unspec := rfl

@[simp] theorem cacheClean_dirty (s : State) (lo n : Nat) : (s.cacheClean lo n).dirty = Spans.cut s.dirty lo n := rfl

@[simp] theorem cacheClean_uncleaned (s : State) (lo n : Nat) : (s.cacheClean lo n).uncleaned = s.uncleaned := rfl

@[simp] theorem cacheClean_unseen (s : State) (lo n : Nat) : (s.cacheClean lo n).unseen = s.unseen := rfl

@[simp] theorem cacheClean_resetHeld (s : State) (lo n : Nat) : (s.cacheClean lo n).resetHeld = s.resetHeld := rfl

@[simp] theorem cacheClean_stale (s : State) (lo n : Nat) : (s.cacheClean lo n).stale = s.stale := rfl

@[simp] theorem cacheClean_plat (s : State) (lo n : Nat) : (s.cacheClean lo n).plat = s.plat := rfl

@[simp] theorem cacheClean_inputs (s : State) (lo n : Nat) : (s.cacheClean lo n).inputs = s.inputs := rfl

@[simp] theorem cacheClean_resp (s : State) (lo n : Nat) : (s.cacheClean lo n).resp = s.resp := rfl

@[simp] theorem cacheClean_freeCtr (s : State) (lo n : Nat) : (s.cacheClean lo n).freeCtr = s.freeCtr := rfl

@[simp] theorem cacheClean_seed (s : State) (lo n : Nat) : (s.cacheClean lo n).seed = s.seed := rfl

/-! ### cacheInvalidate -/

@[simp] theorem cacheInvalidate_csr (s : State) (lo n : Nat) : (s.cacheInvalidate lo n).csr = s.csr := rfl

@[simp] theorem cacheInvalidate_eng (s : State) (lo n : Nat) : (s.cacheInvalidate lo n).eng = s.eng := rfl

@[simp] theorem cacheInvalidate_ht (s : State) (lo n : Nat) : (s.cacheInvalidate lo n).ht = s.ht := rfl

@[simp] theorem cacheInvalidate_mem (s : State) (lo n : Nat) : (s.cacheInvalidate lo n).mem = s.mem := rfl

@[simp] theorem cacheInvalidate_unspec (s : State) (lo n : Nat) : (s.cacheInvalidate lo n).unspec = s.unspec := rfl

@[simp] theorem cacheInvalidate_dirty (s : State) (lo n : Nat) : (s.cacheInvalidate lo n).dirty = s.dirty := rfl

@[simp] theorem cacheInvalidate_uncleaned (s : State) (lo n : Nat) : (s.cacheInvalidate lo n).uncleaned = s.uncleaned := rfl

@[simp] theorem cacheInvalidate_unseen (s : State) (lo n : Nat) : (s.cacheInvalidate lo n).unseen = s.unseen := rfl

@[simp] theorem cacheInvalidate_resetHeld (s : State) (lo n : Nat) : (s.cacheInvalidate lo n).resetHeld = s.resetHeld := rfl

@[simp] theorem cacheInvalidate_stale (s : State) (lo n : Nat) : (s.cacheInvalidate lo n).stale = Spans.cut s.stale lo n := rfl

@[simp] theorem cacheInvalidate_plat (s : State) (lo n : Nat) : (s.cacheInvalidate lo n).plat = s.plat := rfl

@[simp] theorem cacheInvalidate_inputs (s : State) (lo n : Nat) : (s.cacheInvalidate lo n).inputs = s.inputs := rfl

@[simp] theorem cacheInvalidate_resp (s : State) (lo n : Nat) : (s.cacheInvalidate lo n).resp = s.resp := rfl

@[simp] theorem cacheInvalidate_freeCtr (s : State) (lo n : Nat) : (s.cacheInvalidate lo n).freeCtr = s.freeCtr := rfl

@[simp] theorem cacheInvalidate_seed (s : State) (lo n : Nat) : (s.cacheInvalidate lo n).seed = s.seed := rfl

/-! ### report -/

@[simp] theorem report_csr (s : State) (c : BitVec 4) (z : BitVec 8) (l p : Word) : (s.report c z l p).csr = { s.csr with resultLen := l, errCode := c, errCause := z, errPos := p, done := true } := rfl

@[simp] theorem report_eng (s : State) (c : BitVec 4) (z : BitVec 8) (l p : Word) : (s.report c z l p).eng = { s.eng with fsm := .idle } := rfl

@[simp] theorem report_ht (s : State) (c : BitVec 4) (z : BitVec 8) (l p : Word) : (s.report c z l p).ht = s.ht := rfl

@[simp] theorem report_mem (s : State) (c : BitVec 4) (z : BitVec 8) (l p : Word) : (s.report c z l p).mem = s.mem := rfl

@[simp] theorem report_unspec (s : State) (c : BitVec 4) (z : BitVec 8) (l p : Word) : (s.report c z l p).unspec = s.unspec := rfl

@[simp] theorem report_dirty (s : State) (c : BitVec 4) (z : BitVec 8) (l p : Word) : (s.report c z l p).dirty = s.dirty := rfl

@[simp] theorem report_uncleaned (s : State) (c : BitVec 4) (z : BitVec 8) (l p : Word) : (s.report c z l p).uncleaned = s.uncleaned := rfl

@[simp] theorem report_unseen (s : State) (c : BitVec 4) (z : BitVec 8) (l p : Word) : (s.report c z l p).unseen = s.unseen := rfl

@[simp] theorem report_resetHeld (s : State) (c : BitVec 4) (z : BitVec 8) (l p : Word) : (s.report c z l p).resetHeld = s.resetHeld := rfl

@[simp] theorem report_stale (s : State) (c : BitVec 4) (z : BitVec 8) (l p : Word) : (s.report c z l p).stale = s.stale := rfl

@[simp] theorem report_plat (s : State) (c : BitVec 4) (z : BitVec 8) (l p : Word) : (s.report c z l p).plat = s.plat := rfl

@[simp] theorem report_inputs (s : State) (c : BitVec 4) (z : BitVec 8) (l p : Word) : (s.report c z l p).inputs = s.inputs := rfl

@[simp] theorem report_resp (s : State) (c : BitVec 4) (z : BitVec 8) (l p : Word) : (s.report c z l p).resp = s.resp := rfl

@[simp] theorem report_freeCtr (s : State) (c : BitVec 4) (z : BitVec 8) (l p : Word) : (s.report c z l p).freeCtr = s.freeCtr := rfl

@[simp] theorem report_seed (s : State) (c : BitVec 4) (z : BitVec 8) (l p : Word) : (s.report c z l p).seed = s.seed := rfl

/-! ### forget -/

@[simp] theorem forget_csr (s : State) (lo n : Nat) : (s.forget lo n).csr = s.csr := by unfold forget; split <;> rfl

@[simp] theorem forget_eng (s : State) (lo n : Nat) : (s.forget lo n).eng = s.eng := by unfold forget; split <;> rfl

@[simp] theorem forget_ht (s : State) (lo n : Nat) : (s.forget lo n).ht = s.ht := by unfold forget; split <;> rfl

@[simp] theorem forget_dirty (s : State) (lo n : Nat) : (s.forget lo n).dirty = s.dirty := by unfold forget; split <;> rfl

@[simp] theorem forget_uncleaned (s : State) (lo n : Nat) : (s.forget lo n).uncleaned = s.uncleaned := by unfold forget; split <;> rfl

@[simp] theorem forget_unseen (s : State) (lo n : Nat) : (s.forget lo n).unseen = s.unseen := by unfold forget; split <;> rfl

@[simp] theorem forget_resetHeld (s : State) (lo n : Nat) : (s.forget lo n).resetHeld = s.resetHeld := by unfold forget; split <;> rfl

@[simp] theorem forget_stale (s : State) (lo n : Nat) : (s.forget lo n).stale = s.stale := by unfold forget; split <;> rfl

@[simp] theorem forget_plat (s : State) (lo n : Nat) : (s.forget lo n).plat = s.plat := by unfold forget; split <;> rfl

@[simp] theorem forget_inputs (s : State) (lo n : Nat) : (s.forget lo n).inputs = s.inputs := by unfold forget; split <;> rfl

@[simp] theorem forget_resp (s : State) (lo n : Nat) : (s.forget lo n).resp = s.resp := by unfold forget; split <;> rfl

@[simp] theorem forget_seed (s : State) (lo n : Nat) : (s.forget lo n).seed = s.seed := by unfold forget; split <;> rfl

/-! ### markStale -/

@[simp] theorem markStale_csr (s : State) (sp : Span) : (s.markStale sp).csr = s.csr := by unfold markStale; split <;> rfl

@[simp] theorem markStale_eng (s : State) (sp : Span) : (s.markStale sp).eng = s.eng := by unfold markStale; split <;> rfl

@[simp] theorem markStale_ht (s : State) (sp : Span) : (s.markStale sp).ht = s.ht := by unfold markStale; split <;> rfl

@[simp] theorem markStale_mem (s : State) (sp : Span) : (s.markStale sp).mem = s.mem := by unfold markStale; split <;> rfl

@[simp] theorem markStale_unspec (s : State) (sp : Span) : (s.markStale sp).unspec = s.unspec := by unfold markStale; split <;> rfl

@[simp] theorem markStale_dirty (s : State) (sp : Span) : (s.markStale sp).dirty = s.dirty := by unfold markStale; split <;> rfl

@[simp] theorem markStale_uncleaned (s : State) (sp : Span) : (s.markStale sp).uncleaned = s.uncleaned := by unfold markStale; split <;> rfl

@[simp] theorem markStale_resetHeld (s : State) (sp : Span) : (s.markStale sp).resetHeld = s.resetHeld := by unfold markStale; split <;> rfl

@[simp] theorem markStale_stale (s : State) (sp : Span) : (s.markStale sp).stale = s.stale := by unfold markStale; split <;> rfl

@[simp] theorem markStale_unseen (s : State) (sp : Span) : (s.markStale sp).unseen = if s.plat.coherent then s.unseen else Spans.add s.unseen sp.lo sp.len := by unfold markStale; split <;> rfl

@[simp] theorem markStale_plat (s : State) (sp : Span) : (s.markStale sp).plat = s.plat := by unfold markStale; split <;> rfl

@[simp] theorem markStale_inputs (s : State) (sp : Span) : (s.markStale sp).inputs = s.inputs := by unfold markStale; split <;> rfl

@[simp] theorem markStale_resp (s : State) (sp : Span) : (s.markStale sp).resp = s.resp := by unfold markStale; split <;> rfl

@[simp] theorem markStale_freeCtr (s : State) (sp : Span) : (s.markStale sp).freeCtr = s.freeCtr := by unfold markStale; split <;> rfl

@[simp] theorem markStale_seed (s : State) (sp : Span) : (s.markStale sp).seed = s.seed := by unfold markStale; split <;> rfl

/-! ### loseDestination -/

@[simp] theorem loseDestination_csr (s : State) : (s.loseDestination).csr = s.csr := by simp [loseDestination]

@[simp] theorem loseDestination_eng (s : State) : (s.loseDestination).eng = s.eng := by simp [loseDestination]

@[simp] theorem loseDestination_ht (s : State) : (s.loseDestination).ht = s.ht := by simp [loseDestination]

@[simp] theorem loseDestination_dirty (s : State) : (s.loseDestination).dirty = s.dirty := by simp [loseDestination]

@[simp] theorem loseDestination_uncleaned (s : State) : (s.loseDestination).uncleaned = s.uncleaned := by simp [loseDestination]

@[simp] theorem loseDestination_resetHeld (s : State) : (s.loseDestination).resetHeld = s.resetHeld := by simp [loseDestination]

@[simp] theorem loseDestination_stale (s : State) : (s.loseDestination).stale = s.stale := by simp [loseDestination]

@[simp] theorem loseDestination_unseen (s : State) : (s.loseDestination).unseen = if s.plat.coherent then s.unseen else Spans.add s.unseen s.dstSpan.lo s.dstSpan.len := by simp [loseDestination]

@[simp] theorem loseDestination_plat (s : State) : (s.loseDestination).plat = s.plat := by simp [loseDestination]

@[simp] theorem loseDestination_inputs (s : State) : (s.loseDestination).inputs = s.inputs := by simp [loseDestination]

@[simp] theorem loseDestination_resp (s : State) : (s.loseDestination).resp = s.resp := by simp [loseDestination]

@[simp] theorem loseDestination_seed (s : State) : (s.loseDestination).seed = s.seed := by simp [loseDestination]

/-! ### afterError -/

@[simp] theorem afterError_csr (s : State) (z : Cause) : (s.afterError z).csr = s.csr := by unfold afterError; split <;> simp

@[simp] theorem afterError_eng (s : State) (z : Cause) : (s.afterError z).eng = s.eng := by unfold afterError; split <;> simp

@[simp] theorem afterError_ht (s : State) (z : Cause) : (s.afterError z).ht = s.ht := by unfold afterError; split <;> simp

@[simp] theorem afterError_dirty (s : State) (z : Cause) : (s.afterError z).dirty = s.dirty := by unfold afterError; split <;> simp

@[simp] theorem afterError_uncleaned (s : State) (z : Cause) : (s.afterError z).uncleaned = s.uncleaned := by unfold afterError; split <;> simp

@[simp] theorem afterError_resetHeld (s : State) (z : Cause) : (s.afterError z).resetHeld = s.resetHeld := by unfold afterError; split <;> simp

@[simp] theorem afterError_stale (s : State) (z : Cause) : (s.afterError z).stale = s.stale := by unfold afterError; split <;> simp

@[simp] theorem afterError_plat (s : State) (z : Cause) : (s.afterError z).plat = s.plat := by unfold afterError; split <;> simp

@[simp] theorem afterError_inputs (s : State) (z : Cause) : (s.afterError z).inputs = s.inputs := by unfold afterError; split <;> simp

@[simp] theorem afterError_resp (s : State) (z : Cause) : (s.afterError z).resp = s.resp := by unfold afterError; split <;> simp

@[simp] theorem afterError_seed (s : State) (z : Cause) : (s.afterError z).seed = s.seed := by unfold afterError; split <;> simp

/-! ### raise -/

@[simp] theorem raise_csr (s : State) (z : Cause) (p : Nat) : (s.raise z p).csr = { s.csr with resultLen := 0, errCode := z.code, errCause := z.number, errPos := BitVec.ofNat 32 p, done := true } := by simp [raise]

@[simp] theorem raise_eng (s : State) (z : Cause) (p : Nat) : (s.raise z p).eng = { s.eng with fsm := .idle } := by simp [raise]

@[simp] theorem raise_ht (s : State) (z : Cause) (p : Nat) : (s.raise z p).ht = s.ht := by simp [raise]

@[simp] theorem raise_dirty (s : State) (z : Cause) (p : Nat) : (s.raise z p).dirty = s.dirty := by simp [raise]

@[simp] theorem raise_uncleaned (s : State) (z : Cause) (p : Nat) : (s.raise z p).uncleaned = s.uncleaned := by simp [raise]

@[simp] theorem raise_resetHeld (s : State) (z : Cause) (p : Nat) : (s.raise z p).resetHeld = s.resetHeld := by simp [raise]

@[simp] theorem raise_stale (s : State) (z : Cause) (p : Nat) : (s.raise z p).stale = s.stale := by simp [raise]

@[simp] theorem raise_plat (s : State) (z : Cause) (p : Nat) : (s.raise z p).plat = s.plat := by simp [raise]

@[simp] theorem raise_inputs (s : State) (z : Cause) (p : Nat) : (s.raise z p).inputs = s.inputs := by simp [raise]

@[simp] theorem raise_resp (s : State) (z : Cause) (p : Nat) : (s.raise z p).resp = s.resp := by simp [raise]

@[simp] theorem raise_seed (s : State) (z : Cause) (p : Nat) : (s.raise z p).seed = s.seed := by simp [raise]

/-! ### raiseBus -/

@[simp] theorem raiseBus_csr (s : State) (z : Cause) : (s.raiseBus z).csr = { s.csr with resultLen := 0, errCode := z.code, errCause := z.number, errPos := Config.freeWord s.freeCtr, done := true } := by simp [raiseBus, drawPosition]

@[simp] theorem raiseBus_eng (s : State) (z : Cause) : (s.raiseBus z).eng = { s.eng with fsm := .idle } := by simp [raiseBus, drawPosition]

@[simp] theorem raiseBus_ht (s : State) (z : Cause) : (s.raiseBus z).ht = s.ht := by simp [raiseBus, drawPosition]

@[simp] theorem raiseBus_dirty (s : State) (z : Cause) : (s.raiseBus z).dirty = s.dirty := by simp [raiseBus, drawPosition]

@[simp] theorem raiseBus_uncleaned (s : State) (z : Cause) : (s.raiseBus z).uncleaned = s.uncleaned := by simp [raiseBus, drawPosition]

@[simp] theorem raiseBus_resetHeld (s : State) (z : Cause) : (s.raiseBus z).resetHeld = s.resetHeld := by simp [raiseBus, drawPosition]

@[simp] theorem raiseBus_stale (s : State) (z : Cause) : (s.raiseBus z).stale = s.stale := by simp [raiseBus, drawPosition]

@[simp] theorem raiseBus_plat (s : State) (z : Cause) : (s.raiseBus z).plat = s.plat := by simp [raiseBus, drawPosition]

@[simp] theorem raiseBus_inputs (s : State) (z : Cause) : (s.raiseBus z).inputs = s.inputs := by simp [raiseBus, drawPosition]

@[simp] theorem raiseBus_resp (s : State) (z : Cause) : (s.raiseBus z).resp = s.resp := by simp [raiseBus, drawPosition]

@[simp] theorem raiseBus_seed (s : State) (z : Cause) : (s.raiseBus z).seed = s.seed := by simp [raiseBus, drawPosition]

/-! ### Sequences of bytes -/

@[simp] theorem setOutBytes_csr (bytes : List Byte) :
    ∀ (s : State) (i : Nat), (s.setOutBytes i bytes).csr = s.csr := by
  induction bytes with
  | nil => intro s i; rfl
  | cons b rest ih => intro s i; simp [setOutBytes, ih]

@[simp] theorem copyBytes_csr (d n : Nat) :
    ∀ (o : Nat) (s : State), (copyBytes d o n s).csr = s.csr := by
  induction n with
  | zero => intro o s; rfl
  | succ n ih => intro o s; simp [copyBytes, ih]

@[simp] theorem setOutBytes_eng (bytes : List Byte) :
    ∀ (s : State) (i : Nat), (s.setOutBytes i bytes).eng = s.eng := by
  induction bytes with
  | nil => intro s i; rfl
  | cons b rest ih => intro s i; simp [setOutBytes, ih]

@[simp] theorem copyBytes_eng (d n : Nat) :
    ∀ (o : Nat) (s : State), (copyBytes d o n s).eng = s.eng := by
  induction n with
  | zero => intro o s; rfl
  | succ n ih => intro o s; simp [copyBytes, ih]

@[simp] theorem setOutBytes_ht (bytes : List Byte) :
    ∀ (s : State) (i : Nat), (s.setOutBytes i bytes).ht = s.ht := by
  induction bytes with
  | nil => intro s i; rfl
  | cons b rest ih => intro s i; simp [setOutBytes, ih]

@[simp] theorem copyBytes_ht (d n : Nat) :
    ∀ (o : Nat) (s : State), (copyBytes d o n s).ht = s.ht := by
  induction n with
  | zero => intro o s; rfl
  | succ n ih => intro o s; simp [copyBytes, ih]

@[simp] theorem setOutBytes_dirty (bytes : List Byte) :
    ∀ (s : State) (i : Nat), (s.setOutBytes i bytes).dirty = s.dirty := by
  induction bytes with
  | nil => intro s i; rfl
  | cons b rest ih => intro s i; simp [setOutBytes, ih]

@[simp] theorem setOutBytes_uncleaned (bytes : List Byte) :
    ∀ (s : State) (i : Nat), (s.setOutBytes i bytes).uncleaned = s.uncleaned := by
  induction bytes with
  | nil => intro s i; rfl
  | cons b rest ih => intro s i; simp [setOutBytes, ih]

@[simp] theorem setOutBytes_unseen (bytes : List Byte) :
    ∀ (s : State) (i : Nat), (s.setOutBytes i bytes).unseen = s.unseen := by
  induction bytes with
  | nil => intro s i; rfl
  | cons b rest ih => intro s i; simp [setOutBytes, ih]

@[simp] theorem setOutBytes_resetHeld (bytes : List Byte) :
    ∀ (s : State) (i : Nat), (s.setOutBytes i bytes).resetHeld = s.resetHeld := by
  induction bytes with
  | nil => intro s i; rfl
  | cons b rest ih => intro s i; simp [setOutBytes, ih]

@[simp] theorem copyBytes_dirty (d n : Nat) :
    ∀ (o : Nat) (s : State), (copyBytes d o n s).dirty = s.dirty := by
  induction n with
  | zero => intro o s; rfl
  | succ n ih => intro o s; simp [copyBytes, ih]

@[simp] theorem copyBytes_uncleaned (d n : Nat) :
    ∀ (o : Nat) (s : State), (copyBytes d o n s).uncleaned = s.uncleaned := by
  induction n with
  | zero => intro o s; rfl
  | succ n ih => intro o s; simp [copyBytes, ih]

@[simp] theorem copyBytes_unseen (d n : Nat) :
    ∀ (o : Nat) (s : State), (copyBytes d o n s).unseen = s.unseen := by
  induction n with
  | zero => intro o s; rfl
  | succ n ih => intro o s; simp [copyBytes, ih]

@[simp] theorem copyBytes_resetHeld (d n : Nat) :
    ∀ (o : Nat) (s : State), (copyBytes d o n s).resetHeld = s.resetHeld := by
  induction n with
  | zero => intro o s; rfl
  | succ n ih => intro o s; simp [copyBytes, ih]

@[simp] theorem setOutBytes_stale (bytes : List Byte) :
    ∀ (s : State) (i : Nat), (s.setOutBytes i bytes).stale = s.stale := by
  induction bytes with
  | nil => intro s i; rfl
  | cons b rest ih => intro s i; simp [setOutBytes, ih]

@[simp] theorem copyBytes_stale (d n : Nat) :
    ∀ (o : Nat) (s : State), (copyBytes d o n s).stale = s.stale := by
  induction n with
  | zero => intro o s; rfl
  | succ n ih => intro o s; simp [copyBytes, ih]

@[simp] theorem setOutBytes_plat (bytes : List Byte) :
    ∀ (s : State) (i : Nat), (s.setOutBytes i bytes).plat = s.plat := by
  induction bytes with
  | nil => intro s i; rfl
  | cons b rest ih => intro s i; simp [setOutBytes, ih]

@[simp] theorem copyBytes_plat (d n : Nat) :
    ∀ (o : Nat) (s : State), (copyBytes d o n s).plat = s.plat := by
  induction n with
  | zero => intro o s; rfl
  | succ n ih => intro o s; simp [copyBytes, ih]

@[simp] theorem setOutBytes_inputs (bytes : List Byte) :
    ∀ (s : State) (i : Nat), (s.setOutBytes i bytes).inputs = s.inputs := by
  induction bytes with
  | nil => intro s i; rfl
  | cons b rest ih => intro s i; simp [setOutBytes, ih]

@[simp] theorem copyBytes_inputs (d n : Nat) :
    ∀ (o : Nat) (s : State), (copyBytes d o n s).inputs = s.inputs := by
  induction n with
  | zero => intro o s; rfl
  | succ n ih => intro o s; simp [copyBytes, ih]

@[simp] theorem setOutBytes_resp (bytes : List Byte) :
    ∀ (s : State) (i : Nat), (s.setOutBytes i bytes).resp = s.resp := by
  induction bytes with
  | nil => intro s i; rfl
  | cons b rest ih => intro s i; simp [setOutBytes, ih]

@[simp] theorem copyBytes_resp (d n : Nat) :
    ∀ (o : Nat) (s : State), (copyBytes d o n s).resp = s.resp := by
  induction n with
  | zero => intro o s; rfl
  | succ n ih => intro o s; simp [copyBytes, ih]

@[simp] theorem setOutBytes_freeCtr (bytes : List Byte) :
    ∀ (s : State) (i : Nat), (s.setOutBytes i bytes).freeCtr = s.freeCtr := by
  induction bytes with
  | nil => intro s i; rfl
  | cons b rest ih => intro s i; simp [setOutBytes, ih]

@[simp] theorem copyBytes_freeCtr (d n : Nat) :
    ∀ (o : Nat) (s : State), (copyBytes d o n s).freeCtr = s.freeCtr := by
  induction n with
  | zero => intro o s; rfl
  | succ n ih => intro o s; simp [copyBytes, ih]

@[simp] theorem setOutBytes_seed (bytes : List Byte) :
    ∀ (s : State) (i : Nat), (s.setOutBytes i bytes).seed = s.seed := by
  induction bytes with
  | nil => intro s i; rfl
  | cons b rest ih => intro s i; simp [setOutBytes, ih]

@[simp] theorem copyBytes_seed (d n : Nat) :
    ∀ (o : Nat) (s : State), (copyBytes d o n s).seed = s.seed := by
  induction n with
  | zero => intro o s; rfl
  | succ n ih => intro o s; simp [copyBytes, ih]

/-! ### emit -/

@[simp] theorem emit_csr (s : State) (bytes : List Byte) : (s.emit bytes).csr = s.csr := by simp [emit]

@[simp] theorem emit_eng (s : State) (bytes : List Byte) : (s.emit bytes).eng = { s.eng with o := s.eng.o + bytes.length } := by simp [emit]

@[simp] theorem emit_ht (s : State) (bytes : List Byte) : (s.emit bytes).ht = s.ht := by simp [emit]

@[simp] theorem emit_dirty (s : State) (bytes : List Byte) : (s.emit bytes).dirty = s.dirty := by simp [emit]

@[simp] theorem emit_uncleaned (s : State) (bytes : List Byte) : (s.emit bytes).uncleaned = s.uncleaned := by simp [emit]

@[simp] theorem emit_unseen (s : State) (bytes : List Byte) : (s.emit bytes).unseen = s.unseen := by simp [emit]

@[simp] theorem emit_resetHeld (s : State) (bytes : List Byte) : (s.emit bytes).resetHeld = s.resetHeld := by simp [emit]

@[simp] theorem emit_stale (s : State) (bytes : List Byte) : (s.emit bytes).stale = s.stale := by simp [emit]

@[simp] theorem emit_plat (s : State) (bytes : List Byte) : (s.emit bytes).plat = s.plat := by simp [emit]

@[simp] theorem emit_inputs (s : State) (bytes : List Byte) : (s.emit bytes).inputs = s.inputs := by simp [emit]

@[simp] theorem emit_resp (s : State) (bytes : List Byte) : (s.emit bytes).resp = s.resp := by simp [emit]

@[simp] theorem emit_freeCtr (s : State) (bytes : List Byte) : (s.emit bytes).freeCtr = s.freeCtr := by simp [emit]

@[simp] theorem emit_seed (s : State) (bytes : List Byte) : (s.emit bytes).seed = s.seed := by simp [emit]

/-! ### observeDone -/

@[simp] theorem observeDone_csr (s : State) : (s.observeDone).csr = s.csr := by unfold observeDone; split <;> rfl

@[simp] theorem observeDone_eng (s : State) : (s.observeDone).eng = s.eng := by unfold observeDone; split <;> rfl

@[simp] theorem observeDone_ht (s : State) : (s.observeDone).ht = s.ht := by unfold observeDone; split <;> rfl

@[simp] theorem observeDone_mem (s : State) : (s.observeDone).mem = s.mem := by unfold observeDone; split <;> rfl

@[simp] theorem observeDone_unspec (s : State) : (s.observeDone).unspec = s.unspec := by unfold observeDone; split <;> rfl

@[simp] theorem observeDone_dirty (s : State) : (s.observeDone).dirty = s.dirty := by unfold observeDone; split <;> rfl

@[simp] theorem observeDone_uncleaned (s : State) : (s.observeDone).uncleaned = s.uncleaned := by unfold observeDone; split <;> rfl

@[simp] theorem observeDone_unseen (s : State) : (s.observeDone).unseen = if s.csr.done then [] else s.unseen := by unfold observeDone; split <;> rfl

@[simp] theorem observeDone_stale (s : State) : (s.observeDone).stale = if s.csr.done then s.unseen ++ s.stale else s.stale := by unfold observeDone; split <;> rfl

@[simp] theorem observeDone_resetHeld (s : State) : (s.observeDone).resetHeld = s.resetHeld := by unfold observeDone; split <;> rfl

@[simp] theorem observeDone_plat (s : State) : (s.observeDone).plat = s.plat := by unfold observeDone; split <;> rfl

@[simp] theorem observeDone_inputs (s : State) : (s.observeDone).inputs = s.inputs := by unfold observeDone; split <;> rfl

@[simp] theorem observeDone_resp (s : State) : (s.observeDone).resp = s.resp := by unfold observeDone; split <;> rfl

@[simp] theorem observeDone_freeCtr (s : State) : (s.observeDone).freeCtr = s.freeCtr := by unfold observeDone; split <;> rfl

@[simp] theorem observeDone_seed (s : State) : (s.observeDone).seed = s.seed := by unfold observeDone; split <;> rfl

/-! ### resetAssert -/

@[simp] theorem resetAssert_csr (s : State) : (s.resetAssert).csr = Csr.reset := rfl

@[simp] theorem resetAssert_eng (s : State) : (s.resetAssert).eng = { s.eng with fsm := .idle } := by unfold resetAssert; split <;> simp

@[simp] theorem resetAssert_ht (s : State) : (s.resetAssert).ht = s.ht := by unfold resetAssert; split <;> simp

@[simp] theorem resetAssert_dirty (s : State) : (s.resetAssert).dirty = s.dirty := by unfold resetAssert; split <;> simp

@[simp] theorem resetAssert_uncleaned (s : State) : (s.resetAssert).uncleaned = s.uncleaned := by unfold resetAssert; split <;> simp

@[simp] theorem resetAssert_stale (s : State) : (s.resetAssert).stale = s.stale := by unfold resetAssert; split <;> simp

@[simp] theorem resetAssert_resetHeld (s : State) : (s.resetAssert).resetHeld = true := rfl

@[simp] theorem resetAssert_plat (s : State) : (s.resetAssert).plat = s.plat := by unfold resetAssert; split <;> simp

@[simp] theorem resetAssert_inputs (s : State) : (s.resetAssert).inputs = s.inputs := by unfold resetAssert; split <;> simp

@[simp] theorem resetAssert_resp (s : State) : (s.resetAssert).resp = s.resp := by unfold resetAssert; split <;> simp

@[simp] theorem resetAssert_seed (s : State) : (s.resetAssert).seed = s.seed := by unfold resetAssert; split <;> simp

/-! ### resetRelease -/

@[simp] theorem resetRelease_csr (s : State) : (s.resetRelease).csr = s.csr := rfl

@[simp] theorem resetRelease_eng (s : State) : (s.resetRelease).eng = s.eng := rfl

@[simp] theorem resetRelease_ht (s : State) : (s.resetRelease).ht = s.ht := rfl

@[simp] theorem resetRelease_mem (s : State) : (s.resetRelease).mem = s.mem := rfl

@[simp] theorem resetRelease_unspec (s : State) : (s.resetRelease).unspec = s.unspec := rfl

@[simp] theorem resetRelease_dirty (s : State) : (s.resetRelease).dirty = s.dirty := rfl

@[simp] theorem resetRelease_uncleaned (s : State) : (s.resetRelease).uncleaned = s.uncleaned := rfl

@[simp] theorem resetRelease_unseen (s : State) : (s.resetRelease).unseen = s.unseen := rfl

@[simp] theorem resetRelease_stale (s : State) : (s.resetRelease).stale = s.stale := rfl

@[simp] theorem resetRelease_resetHeld (s : State) : (s.resetRelease).resetHeld = false := rfl

@[simp] theorem resetRelease_plat (s : State) : (s.resetRelease).plat = s.plat := rfl

@[simp] theorem resetRelease_inputs (s : State) : (s.resetRelease).inputs = s.inputs := rfl

@[simp] theorem resetRelease_resp (s : State) : (s.resetRelease).resp = s.resp := rfl

@[simp] theorem resetRelease_freeCtr (s : State) : (s.resetRelease).freeCtr = s.freeCtr := rfl

@[simp] theorem resetRelease_seed (s : State) : (s.resetRelease).seed = s.seed := rfl

/-! ### markDirty -/

@[simp] theorem markDirty_csr (s : State) (a : Nat) : (s.markDirty a).csr = s.csr := by unfold markDirty; split <;> rfl

@[simp] theorem markDirty_eng (s : State) (a : Nat) : (s.markDirty a).eng = s.eng := by unfold markDirty; split <;> rfl

@[simp] theorem markDirty_ht (s : State) (a : Nat) : (s.markDirty a).ht = s.ht := by unfold markDirty; split <;> rfl

@[simp] theorem markDirty_mem (s : State) (a : Nat) : (s.markDirty a).mem = s.mem := by unfold markDirty; split <;> rfl

@[simp] theorem markDirty_unspec (s : State) (a : Nat) : (s.markDirty a).unspec = s.unspec := by unfold markDirty; split <;> rfl

@[simp] theorem markDirty_uncleaned (s : State) (a : Nat) : (s.markDirty a).uncleaned = s.uncleaned := by unfold markDirty; split <;> rfl

@[simp] theorem markDirty_resetHeld (s : State) (a : Nat) : (s.markDirty a).resetHeld = s.resetHeld := by unfold markDirty; split <;> rfl

@[simp] theorem markDirty_plat (s : State) (a : Nat) : (s.markDirty a).plat = s.plat := by unfold markDirty; split <;> rfl

@[simp] theorem markDirty_inputs (s : State) (a : Nat) : (s.markDirty a).inputs = s.inputs := by unfold markDirty; split <;> rfl

@[simp] theorem markDirty_resp (s : State) (a : Nat) : (s.markDirty a).resp = s.resp := by unfold markDirty; split <;> rfl

@[simp] theorem markDirty_freeCtr (s : State) (a : Nat) : (s.markDirty a).freeCtr = s.freeCtr := by unfold markDirty; split <;> rfl

@[simp] theorem markDirty_seed (s : State) (a : Nat) : (s.markDirty a).seed = s.seed := by unfold markDirty; split <;> rfl

/-! ### start -/

@[simp] theorem start_ht (s : State) (op : Op) (level : BitVec 2) : (s.start op level).ht = s.ht := rfl

@[simp] theorem start_mem (s : State) (op : Op) (level : BitVec 2) : (s.start op level).mem = s.mem := rfl

@[simp] theorem start_unspec (s : State) (op : Op) (level : BitVec 2) : (s.start op level).unspec = s.unspec := rfl

@[simp] theorem start_dirty (s : State) (op : Op) (level : BitVec 2) : (s.start op level).dirty = s.dirty := rfl

@[simp] theorem start_uncleaned (s : State) (op : Op) (level : BitVec 2) : (s.start op level).uncleaned = s.dirty := rfl

@[simp] theorem start_unseen (s : State) (op : Op) (level : BitVec 2) : (s.start op level).unseen = s.unseen := rfl

@[simp] theorem start_stale (s : State) (op : Op) (level : BitVec 2) : (s.start op level).stale = s.stale := rfl

@[simp] theorem start_resetHeld (s : State) (op : Op) (level : BitVec 2) : (s.start op level).resetHeld = s.resetHeld := rfl

@[simp] theorem start_plat (s : State) (op : Op) (level : BitVec 2) : (s.start op level).plat = s.plat := rfl

@[simp] theorem start_inputs (s : State) (op : Op) (level : BitVec 2) : (s.start op level).inputs = s.inputs := rfl

@[simp] theorem start_resp (s : State) (op : Op) (level : BitVec 2) : (s.start op level).resp = s.resp := rfl

@[simp] theorem start_freeCtr (s : State) (op : Op) (level : BitVec 2) : (s.start op level).freeCtr = s.freeCtr + 1 := rfl

@[simp] theorem start_seed (s : State) (op : Op) (level : BitVec 2) : (s.start op level).seed = s.freeCtr := rfl

/-! ### hostCsrRead -/

@[simp] theorem hostCsrRead_csr (s : State) (addr : Word) (n : Nat) : (s.hostCsrRead addr n).csr = s.csr := by unfold hostCsrRead; split <;> (try split) <;> (try split) <;> simp

@[simp] theorem hostCsrRead_eng (s : State) (addr : Word) (n : Nat) : (s.hostCsrRead addr n).eng = s.eng := by unfold hostCsrRead; split <;> (try split) <;> (try split) <;> simp

@[simp] theorem hostCsrRead_ht (s : State) (addr : Word) (n : Nat) : (s.hostCsrRead addr n).ht = s.ht := by unfold hostCsrRead; split <;> (try split) <;> (try split) <;> simp

@[simp] theorem hostCsrRead_mem (s : State) (addr : Word) (n : Nat) : (s.hostCsrRead addr n).mem = s.mem := by unfold hostCsrRead; split <;> (try split) <;> (try split) <;> simp

@[simp] theorem hostCsrRead_unspec (s : State) (addr : Word) (n : Nat) : (s.hostCsrRead addr n).unspec = s.unspec := by unfold hostCsrRead; split <;> (try split) <;> (try split) <;> simp

@[simp] theorem hostCsrRead_dirty (s : State) (addr : Word) (n : Nat) : (s.hostCsrRead addr n).dirty = s.dirty := by unfold hostCsrRead; split <;> (try split) <;> (try split) <;> simp

@[simp] theorem hostCsrRead_uncleaned (s : State) (addr : Word) (n : Nat) : (s.hostCsrRead addr n).uncleaned = s.uncleaned := by unfold hostCsrRead; split <;> (try split) <;> (try split) <;> simp

@[simp] theorem hostCsrRead_resetHeld (s : State) (addr : Word) (n : Nat) : (s.hostCsrRead addr n).resetHeld = s.resetHeld := by unfold hostCsrRead; split <;> (try split) <;> (try split) <;> simp

@[simp] theorem hostCsrRead_plat (s : State) (addr : Word) (n : Nat) : (s.hostCsrRead addr n).plat = s.plat := by unfold hostCsrRead; split <;> (try split) <;> (try split) <;> simp

@[simp] theorem hostCsrRead_inputs (s : State) (addr : Word) (n : Nat) : (s.hostCsrRead addr n).inputs = s.inputs := by unfold hostCsrRead; split <;> (try split) <;> (try split) <;> simp

@[simp] theorem hostCsrRead_freeCtr (s : State) (addr : Word) (n : Nat) : (s.hostCsrRead addr n).freeCtr = s.freeCtr := by unfold hostCsrRead; split <;> (try split) <;> (try split) <;> simp

@[simp] theorem hostCsrRead_seed (s : State) (addr : Word) (n : Nat) : (s.hostCsrRead addr n).seed = s.seed := by unfold hostCsrRead; split <;> (try split) <;> (try split) <;> simp

/-! ### sampleIrq -/

@[simp] theorem sampleIrq_csr (s : State) : (s.sampleIrq).csr = s.csr := by unfold sampleIrq; split <;> simp

@[simp] theorem sampleIrq_eng (s : State) : (s.sampleIrq).eng = s.eng := by unfold sampleIrq; split <;> simp

@[simp] theorem sampleIrq_ht (s : State) : (s.sampleIrq).ht = s.ht := by unfold sampleIrq; split <;> simp

@[simp] theorem sampleIrq_mem (s : State) : (s.sampleIrq).mem = s.mem := by unfold sampleIrq; split <;> simp

@[simp] theorem sampleIrq_unspec (s : State) : (s.sampleIrq).unspec = s.unspec := by unfold sampleIrq; split <;> simp

@[simp] theorem sampleIrq_dirty (s : State) : (s.sampleIrq).dirty = s.dirty := by unfold sampleIrq; split <;> simp

@[simp] theorem sampleIrq_uncleaned (s : State) : (s.sampleIrq).uncleaned = s.uncleaned := by unfold sampleIrq; split <;> simp

@[simp] theorem sampleIrq_resetHeld (s : State) : (s.sampleIrq).resetHeld = s.resetHeld := by unfold sampleIrq; split <;> simp

@[simp] theorem sampleIrq_plat (s : State) : (s.sampleIrq).plat = s.plat := by unfold sampleIrq; split <;> simp

@[simp] theorem sampleIrq_inputs (s : State) : (s.sampleIrq).inputs = s.inputs := by unfold sampleIrq; split <;> simp

@[simp] theorem sampleIrq_resp (s : State) : (s.sampleIrq).resp = .level s.irq := rfl

@[simp] theorem sampleIrq_freeCtr (s : State) : (s.sampleIrq).freeCtr = s.freeCtr := by unfold sampleIrq; split <;> simp

@[simp] theorem sampleIrq_seed (s : State) : (s.sampleIrq).seed = s.seed := by unfold sampleIrq; split <;> simp

/-! ### hostMemRead -/

@[simp] theorem hostMemRead_csr (s : State) (addr : Word) : (s.hostMemRead addr).csr = s.csr := by unfold hostMemRead; split <;> rfl

@[simp] theorem hostMemRead_eng (s : State) (addr : Word) : (s.hostMemRead addr).eng = s.eng := by unfold hostMemRead; split <;> rfl

@[simp] theorem hostMemRead_ht (s : State) (addr : Word) : (s.hostMemRead addr).ht = s.ht := by unfold hostMemRead; split <;> rfl

@[simp] theorem hostMemRead_mem (s : State) (addr : Word) : (s.hostMemRead addr).mem = s.mem := by unfold hostMemRead; split <;> rfl

@[simp] theorem hostMemRead_unspec (s : State) (addr : Word) : (s.hostMemRead addr).unspec = s.unspec := by unfold hostMemRead; split <;> rfl

@[simp] theorem hostMemRead_dirty (s : State) (addr : Word) : (s.hostMemRead addr).dirty = s.dirty := by unfold hostMemRead; split <;> rfl

@[simp] theorem hostMemRead_uncleaned (s : State) (addr : Word) : (s.hostMemRead addr).uncleaned = s.uncleaned := by unfold hostMemRead; split <;> rfl

@[simp] theorem hostMemRead_unseen (s : State) (addr : Word) : (s.hostMemRead addr).unseen = s.unseen := by unfold hostMemRead; split <;> rfl

@[simp] theorem hostMemRead_stale (s : State) (addr : Word) : (s.hostMemRead addr).stale = s.stale := by unfold hostMemRead; split <;> rfl

@[simp] theorem hostMemRead_resetHeld (s : State) (addr : Word) : (s.hostMemRead addr).resetHeld = s.resetHeld := by unfold hostMemRead; split <;> rfl

@[simp] theorem hostMemRead_plat (s : State) (addr : Word) : (s.hostMemRead addr).plat = s.plat := by unfold hostMemRead; split <;> rfl

@[simp] theorem hostMemRead_inputs (s : State) (addr : Word) : (s.hostMemRead addr).inputs = s.inputs := by unfold hostMemRead; split <;> rfl

@[simp] theorem hostMemRead_seed (s : State) (addr : Word) : (s.hostMemRead addr).seed = s.seed := by unfold hostMemRead; split <;> rfl

/-! ### Regions and addresses depend on the engine alone -/

@[simp] theorem srcAddr_writeByte (s : State) (a : Nat) (v : Byte) (i : Nat) :
    (s.writeByte a v).srcAddr i = s.srcAddr i := rfl

@[simp] theorem dstAddr_writeByte (s : State) (a : Nat) (v : Byte) (i : Nat) :
    (s.writeByte a v).dstAddr i = s.dstAddr i := rfl

@[simp] theorem srcAddr_setOut (s : State) (j : Nat) (v : Byte) (i : Nat) :
    (s.setOut j v).srcAddr i = s.srcAddr i := rfl

@[simp] theorem dstAddr_setOut (s : State) (j : Nat) (v : Byte) (i : Nat) :
    (s.setOut j v).dstAddr i = s.dstAddr i := rfl

@[simp] theorem dstAddr_setOutBytes (bytes : List Byte) (s : State) (j i : Nat) :
    (s.setOutBytes j bytes).dstAddr i = s.dstAddr i := by simp [dstAddr]

@[simp] theorem srcAddr_setOutBytes (bytes : List Byte) (s : State) (j i : Nat) :
    (s.setOutBytes j bytes).srcAddr i = s.srcAddr i := by simp [srcAddr]

@[simp] theorem readByte_withEng (s : State) (e : Engine) (a : Nat) :
    (s.withEng e).readByte a = s.readByte a := rfl

@[simp] theorem readByte_withFsm (s : State) (f : Fsm) (a : Nat) :
    (s.withFsm f).readByte a = s.readByte a := rfl

@[simp] theorem readByte_withCsr (s : State) (c : Csr) (a : Nat) :
    (s.withCsr c).readByte a = s.readByte a := rfl

@[simp] theorem readByte_report (s : State) (c : BitVec 4) (z : BitVec 8) (l p : Word) (a : Nat) :
    (s.report c z l p).readByte a = s.readByte a := rfl

@[simp] theorem readByte_insert (s : State) (q a : Nat) :
    (s.insert q).readByte a = s.readByte a := rfl

@[simp] theorem readByte_insertMany (s : State) (q n a : Nat) :
    (s.insertMany q n).readByte a = s.readByte a := rfl

@[simp] theorem readByte_htSet (s : State) (j v a : Nat) :
    (s.htSet j v).readByte a = s.readByte a := rfl

@[simp] theorem readByte_htClear (s : State) (n a : Nat) :
    (s.htClear n).readByte a = s.readByte a := rfl

@[simp] theorem readByte_markStale (s : State) (sp : Span) (a : Nat) :
    (s.markStale sp).readByte a = s.readByte a := by
  unfold markStale; split <;> rfl

@[simp] theorem readByte_observeDone (s : State) (a : Nat) :
    s.observeDone.readByte a = s.readByte a := by
  unfold observeDone; split <;> rfl

@[simp] theorem readByte_resetRelease (s : State) (a : Nat) :
    s.resetRelease.readByte a = s.readByte a := rfl

@[simp] theorem readByte_markDirty (s : State) (b a : Nat) :
    (s.markDirty b).readByte a = s.readByte a := by
  unfold markDirty; split <;> rfl

@[simp] theorem readByte_start (s : State) (op : Op) (level : BitVec 2) (a : Nat) :
    (s.start op level).readByte a = s.readByte a := rfl

@[simp] theorem readByte_answered (s : State) (r : Response) (a : Nat) :
    (s.answered r).readByte a = s.readByte a := rfl

end Sys2Proof.Machine.State
end

