-- ==== Sys2Proof/Laws/Memory.lean ====
section
/-! SUPPORT. The laws of memory and of the hash table RAM: a read after a write, the canonical form that
every operation keeps, and which bytes become free values. -/

namespace Sys2Proof.Machine

/-! ### Sparse tables -/

section Sparse
variable {α : Type} (dflt : α)

theorem Sparse.get_insert (m : List (Nat × α)) (a b : Nat) (v : α) :
    Sparse.get dflt (Sparse.insert m a v) b = if a = b then v else Sparse.get dflt m b := by
  induction m with
  | nil => simp [Sparse.insert, Sparse.get]
  | cons e rest ih =>
    obtain ⟨k, w⟩ := e
    unfold Sparse.insert
    split
    · simp [Sparse.get]
    · split
      · rename_i h1 h2; subst h2
        by_cases hb : a = b <;> simp [Sparse.get, hb]
      · rename_i h1 h2
        by_cases hk : k = b
        · subst hk; simp [Sparse.get, h2]
        · simp [Sparse.get, hk, ih]

theorem Sparse.get_erase (m : List (Nat × α)) (a b : Nat) :
    Sparse.get dflt (Sparse.erase m a) b = if a = b then dflt else Sparse.get dflt m b := by
  induction m with
  | nil => simp [Sparse.erase, Sparse.get]
  | cons e rest ih =>
    obtain ⟨k, w⟩ := e
    unfold Sparse.erase
    split
    · rename_i h; subst h
      by_cases hb : k = b
      · subst hb; simp [ih]
      · simp [Sparse.get, ih, hb]
    · rename_i h
      by_cases hk : k = b
      · subst hk; simp [Sparse.get, Ne.symm h]
      · simp [Sparse.get, hk, ih]

theorem Sparse.get_filter (m : List (Nat × α)) (keep : Nat → Bool) (b : Nat) :
    Sparse.get dflt (m.filter (fun e => keep e.1)) b =
      if keep b then Sparse.get dflt m b else dflt := by
  induction m with
  | nil => simp [Sparse.get]
  | cons e rest ih =>
    obtain ⟨k, w⟩ := e
    by_cases hkeep : keep k <;> by_cases hk : k = b
    · subst hk; simp [Sparse.get, hkeep]
    · simp [Sparse.get, hkeep, hk, ih]
    · subst hk; simp [hkeep, ih]
    · simp [Sparse.get, hkeep, hk, ih]

theorem Sparse.erase_eq_filter (m : List (Nat × α)) (a : Nat) :
    Sparse.erase m a = m.filter (fun e => decide (e.1 ≠ a)) := by
  induction m with
  | nil => rfl
  | cons e rest ih =>
    obtain ⟨k, w⟩ := e
    by_cases h : k = a <;> simp [Sparse.erase, h, ih]

variable [DecidableEq α]

/-- A read after a write gives the value written, and every other key is left alone. -/
theorem Sparse.get_set (m : List (Nat × α)) (a b : Nat) (v : α) :
    Sparse.get dflt (Sparse.set dflt m a v) b = if a = b then v else Sparse.get dflt m b := by
  unfold Sparse.set
  split
  · rename_i h; rw [Sparse.get_erase, h]
  · rw [Sparse.get_insert]

theorem Sparse.wfAbove_cons (top : Nat) (b : Option Nat) (k : Nat) (v : α) (rest : List (Nat × α)) :
    Sparse.wfAbove dflt top b ((k, v) :: rest) = true ↔
      (∀ x ∈ b, x < k) ∧ k < top ∧ v ≠ dflt ∧ Sparse.wfAbove dflt top (some k) rest = true := by
  cases b <;> simp [Sparse.wfAbove]

theorem Sparse.wfAbove_weaken {top : Nat} {b b' : Option Nat} {m : List (Nat × α)}
    (hb : ∀ x ∈ b', ∃ y ∈ b, x ≤ y) (h : Sparse.wfAbove dflt top b m = true) :
    Sparse.wfAbove dflt top b' m = true := by
  cases m with
  | nil => cases b' <;> rfl
  | cons e rest =>
    obtain ⟨k, v⟩ := e
    rw [Sparse.wfAbove_cons] at h ⊢
    refine ⟨fun x hx => ?_, h.2⟩
    obtain ⟨y, hy, hxy⟩ := hb x hx
    exact lt_of_le_of_lt hxy (h.1 y hy)

theorem Sparse.wfAbove_insert {top a : Nat} {v : α} (ha : a < top) (hv : v ≠ dflt)
    (m : List (Nat × α)) : ∀ b : Option Nat, (∀ x ∈ b, x < a) →
      Sparse.wfAbove dflt top b m = true →
      Sparse.wfAbove dflt top b (Sparse.insert m a v) = true := by
  induction m with
  | nil =>
    intro b hb _
    rw [Sparse.insert, Sparse.wfAbove_cons]
    exact ⟨hb, ha, hv, rfl⟩
  | cons e rest ih =>
    obtain ⟨k, w⟩ := e
    intro b hb h
    have hc := (Sparse.wfAbove_cons dflt top b k w rest).1 h
    unfold Sparse.insert
    split
    · rename_i hlt
      rw [Sparse.wfAbove_cons]
      refine ⟨hb, ha, hv, ?_⟩
      rw [Sparse.wfAbove_cons]
      exact ⟨by simpa using hlt, hc.2⟩
    · split
      · rename_i heq; subst heq
        rw [Sparse.wfAbove_cons]
        exact ⟨hb, ha, hv, hc.2.2.2⟩
      · rename_i hlt heq
        rw [Sparse.wfAbove_cons]
        refine ⟨hc.1, hc.2.1, hc.2.2.1, ih (some k) ?_ hc.2.2.2⟩
        intro x hx; simp at hx; omega

theorem Sparse.wfAbove_filter {top : Nat} (keep : Nat × α → Bool) (m : List (Nat × α)) :
    ∀ b : Option Nat, Sparse.wfAbove dflt top b m = true →
      Sparse.wfAbove dflt top b (m.filter keep) = true := by
  induction m with
  | nil => intro b h; exact h
  | cons e rest ih =>
    obtain ⟨k, w⟩ := e
    intro b h
    have hc := (Sparse.wfAbove_cons dflt top b k w rest).1 h
    rw [List.filter_cons]
    split
    · rw [Sparse.wfAbove_cons]
      exact ⟨hc.1, hc.2.1, hc.2.2.1, ih _ hc.2.2.2⟩
    · refine ih b (Sparse.wfAbove_weaken dflt ?_ hc.2.2.2)
      intro x hx
      exact ⟨k, rfl, le_of_lt (hc.1 x hx)⟩

/-- A write keeps the canonical form. -/
theorem Sparse.wfAbove_set {top a : Nat} {m : List (Nat × α)} (v : α) (ha : a < top)
    (h : Sparse.wfAbove dflt top none m = true) :
    Sparse.wfAbove dflt top none (Sparse.set dflt m a v) = true := by
  unfold Sparse.set
  split
  · rw [Sparse.erase_eq_filter]; exact Sparse.wfAbove_filter dflt _ m none h
  · rename_i hv
    exact Sparse.wfAbove_insert dflt ha hv m none (by simp) h

end Sparse

/-! ### The canonical form of memory -/

theorem Memory.wf_set {m : Memory} {a : Nat} (v : Byte) (ha : a < 2 ^ 32)
    (h : Memory.wf m = true) : Memory.wf (Memory.set m a v) = true :=
  Sparse.wfAbove_set Memory.unwritten v ha h

theorem Memory.wf_without {m : Memory} (lo len : Nat) (h : Memory.wf m = true) :
    Memory.wf (Memory.without m lo len) = true :=
  Sparse.wfAbove_filter Memory.unwritten _ m none h

theorem Memory.get_set (m : Memory) (a b : Nat) (v : Byte) :
    Memory.get (Memory.set m a v) b = if a = b then v else Memory.get m b :=
  Sparse.get_set Memory.unwritten m a b v

theorem Memory.get_without (m : Memory) (lo len b : Nat) (hb : Span.has ⟨lo, len⟩ b = false) :
    Memory.get (Memory.without m lo len) b = Memory.get m b := by
  unfold Memory.get Memory.without
  rw [Sparse.get_filter Memory.unwritten m
    (fun k => !(decide (lo ≤ k) && decide (k < lo + len)))]
  simp [Span.has] at hb ⊢
  intro h1 h2; exact absurd (hb h1) (by omega)

/-! ### Ranges -/

theorem Span.has_iff (sp : Span) (a : Nat) : sp.has a = true ↔ sp.lo ≤ a ∧ a < sp.lo + sp.len := by
  simp [Span.has]

theorem Span.cut_has (sp : Span) (lo len a : Nat) :
    (sp.cut lo len).any (fun x => x.has a) = true ↔
      sp.has a = true ∧ Span.has ⟨lo, len⟩ a = false := by
  simp only [Span.cut, List.any_filter, List.any_cons, List.any_nil, Bool.or_false,
    Bool.or_eq_true, Bool.and_eq_true, decide_eq_true_eq, Span.has,
    Bool.and_eq_false_iff, decide_eq_false_iff_not]
  omega

theorem Spans.has_cut (sps : List Span) (lo len a : Nat) :
    Spans.has (Spans.cut sps lo len) a = true ↔
      Spans.has sps a = true ∧ Span.has ⟨lo, len⟩ a = false := by
  induction sps with
  | nil => simp [Spans.cut, Spans.has]
  | cons sp rest ih =>
    have h : Spans.has (Spans.cut (sp :: rest) lo len) a =
        ((sp.cut lo len).any (fun x => x.has a) || Spans.has (Spans.cut rest lo len) a) := by
      simp [Spans.cut, Spans.has, List.any_append]
    have h2 : Spans.has (sp :: rest) a = (sp.has a || Spans.has rest a) := rfl
    rw [h, h2, Bool.or_eq_true, Bool.or_eq_true, Span.cut_has, ih]
    tauto

theorem Spans.has_add (sps : List Span) (lo len a : Nat) :
    Spans.has (Spans.add sps lo len) a = true ↔
      Spans.has sps a = true ∨ Span.has ⟨lo, len⟩ a = true := by
  unfold Spans.add
  split
  · rename_i h; subst h
    simp [Span.has]
  · have h2 : Spans.has (⟨lo, len⟩ :: Spans.cut sps lo len) a =
        (Span.has ⟨lo, len⟩ a || Spans.has (Spans.cut sps lo len) a) := rfl
    rw [h2, Bool.or_eq_true, Spans.has_cut]
    cases hh : Span.has ⟨lo, len⟩ a <;> simp

/-- Spans.has_cut as an equation. -/
theorem Spans.has_cut_eq (sps : List Span) (lo len a : Nat) :
    Spans.has (Spans.cut sps lo len) a = (Spans.has sps a && !Span.has ⟨lo, len⟩ a) := by
  rw [Bool.eq_iff_iff, Spans.has_cut]; simp

/-- Spans.has_add as an equation. -/
theorem Spans.has_add_eq (sps : List Span) (lo len a : Nat) :
    Spans.has (Spans.add sps lo len) a = (Spans.has sps a || Span.has ⟨lo, len⟩ a) := by
  rw [Bool.eq_iff_iff, Spans.has_add]; simp

/-- A range of one byte holds that byte. -/
theorem Span.has_byte (b a : Nat) : Span.has ⟨b, 1⟩ a = decide (a = b) := by
  rw [Bool.eq_iff_iff, Span.has_iff]; simp; omega

theorem FreeSpans.seedAt_append (xs ys : List FreeSpan) (a : Nat) :
    FreeSpans.seedAt (xs ++ ys) a = (FreeSpans.seedAt xs a).or (FreeSpans.seedAt ys a) := by
  induction xs with
  | nil => simp [FreeSpans.seedAt]
  | cons f rest ih =>
    simp only [List.cons_append, FreeSpans.seedAt]
    split <;> simp [ih]

theorem FreeSpans.seedAt_map (sps : List Span) (seed a : Nat) :
    FreeSpans.seedAt (sps.map (fun sp => ⟨sp, seed⟩)) a =
      if sps.any (fun x => x.has a) then some seed else none := by
  induction sps with
  | nil => rfl
  | cons sp rest ih =>
    simp only [List.map_cons, FreeSpans.seedAt, ih, List.any_cons, Bool.or_eq_true]
    by_cases h : sp.has a = true <;> simp [h]

/-- Taking a range out of the free ranges makes its bytes ordinary and leaves every other byte alone. -/
theorem FreeSpans.seedAt_cut (fs : List FreeSpan) (lo len a : Nat) :
    FreeSpans.seedAt (FreeSpans.cut fs lo len) a =
      if Span.has ⟨lo, len⟩ a then none else FreeSpans.seedAt fs a := by
  induction fs with
  | nil => simp [FreeSpans.cut, FreeSpans.seedAt]
  | cons f rest ih =>
    have h : FreeSpans.cut (f :: rest) lo len =
        (f.span.cut lo len).map (fun sp => ⟨sp, f.seed⟩) ++ FreeSpans.cut rest lo len := rfl
    rw [h, FreeSpans.seedAt_append, FreeSpans.seedAt_map, ih]
    have hc := Span.cut_has f.span lo len a
    have hb : (f.span.cut lo len).any (fun x => x.has a) =
        (f.span.has a && !Span.has ⟨lo, len⟩ a) := by
      rw [Bool.eq_iff_iff, hc]; simp
    rw [hb, FreeSpans.seedAt]
    cases Span.has ⟨lo, len⟩ a <;> cases f.span.has a <;> rfl

/-! ### One byte of memory -/

namespace State

theorem dstAddr_lt (s : State) (i : Nat) : s.dstAddr i < 2 ^ 32 := by
  unfold dstAddr; exact BitVec.isLt _

theorem srcAddr_lt (s : State) (i : Nat) : s.srcAddr i < 2 ^ 32 := by
  unfold srcAddr; exact BitVec.isLt _

/-- A byte read after a byte written. -/
theorem readByte_writeByte (s : State) (a b : Nat) (v : Byte) :
    (s.writeByte a v).readByte b = if a = b then v else s.readByte b := by
  unfold readByte
  have hs : Span.has ⟨a, 1⟩ b = decide (a = b) := by
    rw [Bool.eq_iff_iff, Span.has_iff]; simp; omega
  simp only [writeByte_unspec, writeByte_mem, FreeSpans.seedAt_cut, Memory.get_set, hs]
  by_cases h : a = b <;> simp [h]

theorem readByte_setOut (s : State) (i b : Nat) (v : Byte) :
    (s.setOut i v).readByte b = if s.dstAddr i = b then v else s.readByte b :=
  readByte_writeByte s (s.dstAddr i) b v

/-- A byte outside a range that becomes free is left alone. -/
theorem readByte_forget (s : State) (lo len b : Nat) (h : Span.has ⟨lo, len⟩ b = false) :
    (s.forget lo len).readByte b = s.readByte b := by
  unfold forget
  split
  · rfl
  · have h0 : FreeSpans.seedAt (⟨⟨lo, len⟩, s.freeCtr⟩ :: FreeSpans.cut s.unspec lo len) b =
        FreeSpans.seedAt s.unspec b := by
      rw [FreeSpans.seedAt, FreeSpans.seedAt_cut, h]
      simp
    unfold readByte
    simp only [h0, Memory.get_without s.mem lo len b h]

/-- A byte inside a range that becomes free is a free value. -/
theorem readByte_forget_inside (s : State) (lo len b : Nat) (h : Span.has ⟨lo, len⟩ b = true) :
    (s.forget lo len).readByte b = Config.freeByte s.freeCtr b := by
  have hl : len ≠ 0 := by
    intro h0; rw [Span.has_iff] at h; simp only at h; omega
  simp [forget, hl, readByte, FreeSpans.seedAt, h]

theorem readByte_loseDestination (s : State) (b : Nat) (h : s.dstSpan.has b = false) :
    s.loseDestination.readByte b = s.readByte b := by
  rw [loseDestination, readByte_markStale]; exact readByte_forget _ _ _ _ h

/-- Reset leaves every byte that is not in the destination of a running command (R260). -/
theorem readByte_resetAssert (s : State) (b : Nat)
    (h : s.busy = false ∨ s.dstSpan.has b = false) :
    s.resetAssert.readByte b = s.readByte b := by
  show (if s.busy then s.loseDestination else s).readByte b = _
  split
  · rename_i hb
    exact readByte_loseDestination s b (by simpa [hb] using h)
  · rfl

theorem readByte_afterError (s : State) (cause : Cause) (b : Nat) (h : s.dstSpan.has b = false) :
    (s.afterError cause).readByte b = s.readByte b := by
  unfold afterError; split
  · rfl
  · exact readByte_loseDestination s b h

theorem readByte_raise (s : State) (cause : Cause) (pos b : Nat) (h : s.dstSpan.has b = false) :
    (s.raise cause pos).readByte b = s.readByte b := by
  rw [raise, readByte_report, readByte_afterError s cause b h]

theorem readByte_raiseBus (s : State) (cause : Cause) (b : Nat) (h : s.dstSpan.has b = false) :
    (s.raiseBus cause).readByte b = s.readByte b := by
  rw [raiseBus, readByte_report]
  exact readByte_afterError s.drawPosition.2 cause b h

/-! ### Canonical memory after each operation -/

theorem wf_writeByte {s : State} {a : Nat} (v : Byte) (ha : a < 2 ^ 32)
    (h : Memory.wf s.mem = true) : Memory.wf (s.writeByte a v).mem = true :=
  Memory.wf_set v ha h

theorem wf_setOut {s : State} (i : Nat) (v : Byte) (h : Memory.wf s.mem = true) :
    Memory.wf (s.setOut i v).mem = true :=
  wf_writeByte v (s.dstAddr_lt i) h

theorem wf_forget {s : State} (lo len : Nat) (h : Memory.wf s.mem = true) :
    Memory.wf (s.forget lo len).mem = true := by
  unfold forget; split
  · exact h
  · exact Memory.wf_without lo len h

theorem wf_loseDestination {s : State} (h : Memory.wf s.mem = true) :
    Memory.wf s.loseDestination.mem = true := by
  rw [loseDestination, markStale_mem]; exact wf_forget _ _ h

theorem wf_resetAssert {s : State} (h : Memory.wf s.mem = true) :
    Memory.wf s.resetAssert.mem = true := by
  show Memory.wf (if s.busy then s.loseDestination else s).mem = true
  split
  · exact wf_loseDestination h
  · exact h

theorem wf_raise {s : State} (cause : Cause) (pos : Nat) (h : Memory.wf s.mem = true) :
    Memory.wf (s.raise cause pos).mem = true := by
  simp only [raise, report_mem, afterError]
  split
  · exact h
  · exact wf_loseDestination h

theorem wf_raiseBus {s : State} (cause : Cause) (h : Memory.wf s.mem = true) :
    Memory.wf (s.raiseBus cause).mem = true := by
  simp only [raiseBus, report_mem, afterError, drawPosition]
  split
  · exact h
  · exact wf_loseDestination h

theorem wf_setOutBytes (bytes : List Byte) : ∀ (s : State) (i : Nat),
    Memory.wf s.mem = true → Memory.wf (s.setOutBytes i bytes).mem = true := by
  induction bytes with
  | nil => intro s i h; exact h
  | cons b rest ih => intro s i h; exact ih _ _ (wf_setOut i b h)

theorem wf_copyBytes (d n : Nat) : ∀ (o : Nat) (s : State),
    Memory.wf s.mem = true → Memory.wf (copyBytes d o n s).mem = true := by
  induction n with
  | zero => intro o s h; exact h
  | succ n ih => intro o s h; exact ih _ _ (wf_setOut o _ h)

theorem wf_emit {s : State} (bytes : List Byte) (h : Memory.wf s.mem = true) :
    Memory.wf (s.emit bytes).mem = true :=
  wf_setOutBytes bytes s s.eng.o h

end State

end Sys2Proof.Machine
end

