-- ==== Sys2Proof/Laws/Operations.lean ====
section
/-! SUPPORT. One specification per shared operation of the machine, for proofs to cite instead of unfolding
it: the engine's bus, the two regions, reads after many writes, the phases of a stream instruction, the
endings of a command, the configuration checks, the finder's and the encoder's parts, the register window. -/

namespace Sys2Proof.Machine

/-! ### The engine's bus -/

theorem Platform.answers_all {pl : Platform} (h : pl.Answers) (accs : List Access) :
    pl.answers accs = .performed := by
  induction accs with
  | nil => rfl
  | cons a as ih => simp [Platform.answers, h a, ih]

/-- An error answer carries the cause of its access, and BUS_ERRORS_POSSIBLE is true. -/
theorem Platform.answer_failed {pl : Platform} {acc : Access} {c : Cause}
    (h : pl.answer acc = .failed c) : c = acc.cause ∧ pl.busErrors = true := by
  unfold Platform.answer at h
  generalize pl.bus = l at h
  induction l with
  | nil => simp [answerBy] at h
  | cons r rs ih =>
    unfold answerBy at h
    by_cases hc : r.covers acc = true
    · cases ha : r.answered <;> cases hb : pl.busErrors <;> simp [hc, ha, hb] at h
      exact ⟨h.symm, rfl⟩
    · exact ih (by simpa [hc] using h)

/-- The first access that is not performed decides the answer to a list of accesses. -/
theorem Platform.answers_failed {pl : Platform} {accs : List Access} {c : Cause}
    (h : pl.answers accs = .failed c) :
    (∃ acc ∈ accs, c = acc.cause) ∧ pl.busErrors = true := by
  induction accs with
  | nil => cases h
  | cons a as ih =>
    simp only [Platform.answers] at h
    split at h
    · obtain ⟨⟨x, hx, hc⟩, hb⟩ := ih h
      exact ⟨⟨x, List.mem_cons_of_mem _ hx, hc⟩, hb⟩
    · obtain ⟨hc, hb⟩ := Platform.answer_failed h
      exact ⟨⟨a, List.mem_cons_self, hc⟩, hb⟩

theorem Platform.answers_of_performed {pl : Platform} {accs : List Access}
    (h : ∀ a, a ∈ accs → pl.answer a = .performed) : pl.answers accs = .performed := by
  induction accs with
  | nil => rfl
  | cons x xs ih =>
    rw [Platform.answers, h x List.mem_cons_self]
    exact ih fun a ha => h a (List.mem_cons_of_mem _ ha)

theorem Platform.answers_of_firstFailure {pl : Platform} {accs : List Access} {acc : Access}
    (h : pl.FirstFailure accs acc) : pl.answers accs = .failed acc.cause := by
  obtain ⟨before, after, c, rfl, h1, h2⟩ := h
  obtain ⟨rfl, -⟩ := Platform.answer_failed h2
  induction before with
  | nil => simp [Platform.answers, h2]
  | cons x xs ih =>
    rw [List.cons_append, Platform.answers, h1 x List.mem_cons_self]
    exact ih fun a ha => h1 a (List.mem_cons_of_mem _ ha)

theorem Platform.answers_append (pl : Platform) (xs ys : List Access) :
    pl.answers (xs ++ ys) = if pl.answers xs = .performed then pl.answers ys else pl.answers xs := by
  induction xs with
  | nil => simp [Platform.answers]
  | cons x xs ih =>
    match h : pl.answer x with
    | .performed => simp [Platform.answers, h, ih]
    | .failed c => simp [Platform.answers, h]
    | .pending => simp [Platform.answers, h]

theorem Platform.answers_of_firstPending {pl : Platform} {accs : List Access}
    (h : pl.FirstPending accs) : pl.answers accs = .pending := by
  obtain ⟨before, acc, after, rfl, h1, h2⟩ := h
  simp [Platform.answers_append, Platform.answers_of_performed h1, Platform.answers, h2]

theorem Access.cause_ne_internal (acc : Access) : acc.cause ≠ .matchNotRepresentable := by
  cases acc <;> simp [Access.cause]

namespace State

/-- Everything that making accesses can lead to. -/
theorem access_cases (s : State) (accs : List Access) (waiting after : State) :
    (s.plat.answers accs = .performed ∧ s.access accs waiting after = after) ∨
      (∃ c, s.plat.answers accs = .failed c ∧ s.access accs waiting after = s.raiseBus c) ∨
      (s.plat.answers accs = .pending ∧ s.access accs waiting after = waiting) := by
  unfold access
  cases h : s.plat.answers accs with
  | performed => exact .inl ⟨rfl, rfl⟩
  | failed c => exact .inr (.inl ⟨c, rfl, rfl⟩)
  | pending => exact .inr (.inr ⟨rfl, rfl⟩)

theorem access_of_answers {s : State} (h : s.plat.Answers) (accs : List Access)
    (waiting after : State) : s.access accs waiting after = after := by
  simp [access, Platform.answers_all h]

theorem srcReads_succ (s : State) (i n : Nat) :
    s.srcReads i (n + 1) = .srcRead (s.srcAddr i) :: s.srcReads (i + 1) n := by
  simp only [srcReads, List.range_succ_eq_map, List.map_cons, List.map_map, Function.comp_def,
    Nat.add_zero]
  congr 1
  exact List.map_congr_left fun j _ => by rw [show i + (j + 1) = i + 1 + j by omega]

/-! ### The two regions -/

/-- Two output offsets of the 32-bit space have two addresses. -/
theorem dstAddr_ne (s : State) {i j : Nat} (hi : i < 2 ^ 32) (hj : j < 2 ^ 32) (hij : i ≠ j) :
    s.dstAddr i ≠ s.dstAddr j := by
  intro h
  have h2 : s.eng.ldst + BitVec.ofNat 32 i = s.eng.ldst + BitVec.ofNat 32 j :=
    BitVec.eq_of_toNat_eq h
  have h3 := congrArg BitVec.toNat ((BitVec.add_right_inj _).1 h2)
  simp at h3; omega

/-- Inside the destination region the address of an output offset is the sum, and lies in the region. -/
theorem dstAddr_inside {s : State} {i : Nat} (hw : s.eng.ldst.toNat + s.eng.ldlen.toNat ≤ 2 ^ 32)
    (hi : i < s.eng.ldlen.toNat) :
    s.dstAddr i = s.eng.ldst.toNat + i ∧ s.dstSpan.has (s.dstAddr i) = true := by
  have e : s.dstAddr i = s.eng.ldst.toNat + i := by
    unfold dstAddr
    rw [BitVec.toNat_add, BitVec.toNat_ofNat, Nat.mod_eq_of_lt (a := i) (by omega),
      Nat.mod_eq_of_lt (by omega)]
  refine ⟨e, ?_⟩
  rw [e, Span.has_iff]; simp only [dstSpan]; omega

theorem srcAddr_inside {s : State} {i : Nat} (hw : s.eng.lsrc.toNat + s.eng.lslen.toNat ≤ 2 ^ 32)
    (hi : i < s.eng.lslen.toNat) :
    s.srcAddr i = s.eng.lsrc.toNat + i ∧ s.srcSpan.has (s.srcAddr i) = true := by
  have e : s.srcAddr i = s.eng.lsrc.toNat + i := by
    unfold srcAddr
    rw [BitVec.toNat_add, BitVec.toNat_ofNat, Nat.mod_eq_of_lt (a := i) (by omega),
      Nat.mod_eq_of_lt (by omega)]
  refine ⟨e, ?_⟩
  rw [e, Span.has_iff]; simp only [srcSpan]; omega

/-- A source byte that the host had cleaned before the CMD write is the byte of memory (R74). -/
theorem inByte_of_cleaned {s : State} {i : Nat}
    (h : s.plat.coherent = true ∨ Spans.has s.uncleaned (s.srcAddr i) = false) :
    s.inByte i = s.readByte (s.srcAddr i) := by
  unfold inByte
  rcases h with h | h <;> simp [h]

theorem inByte_of_visible {s : State} (h : s.Visible) {i : Nat} (hi : i < s.eng.lslen.toNat) :
    s.inByte i = s.readByte (s.srcAddr i) :=
  inByte_of_cleaned (h.imp_right fun h => h i hi)

/-- A source byte that the host had not cleaned before the CMD write is one free byte (R74, U13). -/
theorem inByte_of_uncleaned {s : State} {i : Nat} (hc : s.plat.coherent = false)
    (h : Spans.has s.uncleaned (s.srcAddr i) = true) :
    s.inByte i = Config.freeByte s.seed (s.srcAddr i) := by
  simp [inByte, hc, h]

theorem length_inBytes (s : State) (n : Nat) : ∀ i, (s.inBytes i n).length = n := by
  induction n with
  | zero => intro i; rfl
  | succ n ih => intro i; simp [inBytes, ih]

/-! ### Reads after many writes -/

/-- After a list of output bytes is written, each of them is there and every other byte is as before. -/
theorem readByte_setOutBytes (bytes : List Byte) : ∀ (s : State) (o : Nat),
    o + bytes.length ≤ 2 ^ 32 →
    (∀ j, j < bytes.length →
      (s.setOutBytes o bytes).readByte (s.dstAddr (o + j)) = byteAt bytes j) ∧
    ∀ a, (∀ j, j < bytes.length → s.dstAddr (o + j) ≠ a) →
      (s.setOutBytes o bytes).readByte a = s.readByte a := by
  induction bytes with
  | nil => intro s o h; simp [setOutBytes]
  | cons b bs ih =>
    intro s o h
    simp only [List.length_cons] at h
    obtain ⟨h1, h2⟩ := ih (s.setOut o b) (o + 1) (by omega)
    simp only [dstAddr_setOut] at h1 h2
    refine ⟨fun j hj => ?_, fun a ha => ?_⟩
    · cases j with
      | zero =>
        rw [setOutBytes, h2 _ fun j hj' => s.dstAddr_ne (by omega) (by omega) (by omega)]
        simp [readByte_setOut, byteAt]
      | succ j =>
        rw [setOutBytes, show o + (j + 1) = o + 1 + j by omega, h1 j (by simpa using hj)]
        simp [byteAt]
    · rw [setOutBytes, h2 a fun j hj => ?_, readByte_setOut, if_neg]
      · simpa using ha 0 (by simp)
      · have := ha (j + 1) (by simpa using hj)
        rwa [show o + (j + 1) = o + 1 + j by omega] at this

/-- After COPY each byte produced equals the one the distance before it, as the destination then is, also
where the match overlaps itself, and every other byte is as before (R178). -/
theorem readByte_copyBytes (d n : Nat) : ∀ (s : State) (o : Nat), 1 ≤ d → d ≤ o → o + n ≤ 2 ^ 32 →
    (∀ a, (∀ j, j < n → s.dstAddr (o + j) ≠ a) →
      (copyBytes d o n s).readByte a = s.readByte a) ∧
    ∀ j, j < n → (copyBytes d o n s).readByte (s.dstAddr (o + j)) =
      (copyBytes d o n s).readByte (s.dstAddr (o + j - d)) := by
  induction n with
  | zero => intro s o _ _ _; simp [copyBytes]
  | succ n ih =>
    intro s o hd ho h
    obtain ⟨h1, h2⟩ := ih (s.setOut o (s.outByte (o - d))) (o + 1) hd (by omega) (by omega)
    simp only [dstAddr_setOut] at h1 h2
    refine ⟨fun a ha => ?_, fun j hj => ?_⟩
    · rw [copyBytes, h1 a fun j hj => ?_, readByte_setOut, if_neg]
      · simpa using ha 0 (by omega)
      · have := ha (j + 1) (by omega)
        rwa [show o + (j + 1) = o + 1 + j by omega] at this
    · rw [copyBytes]
      cases j with
      | zero =>
        rw [h1 (s.dstAddr (o + 0)) fun j hj => s.dstAddr_ne (by omega) (by omega) (by omega),
          h1 (s.dstAddr (o + 0 - d)) fun j hj => s.dstAddr_ne (by omega) (by omega) (by omega),
          readByte_setOut, readByte_setOut, Nat.add_zero, if_pos rfl,
          if_neg (s.dstAddr_ne (by omega) (by omega) (by omega))]
        rfl
      | succ j =>
        have := h2 j (by omega)
        rwa [show o + (j + 1) = o + 1 + j by omega]

/-! ### The phases of a stream instruction -/

/-- A stream instruction is a literal run or a match. -/
theorem exec_stream_cases {i : Instr} (hs : i.isStream = true) (s : State) :
    (∃ bytes, i = .lit bytes ∧ exec i s = .next (s.runLiteral bytes)) ∨
      ∃ len d, matchOf i = some (len, d) ∧ exec i s = .next (s.runMatch i.size len d) := by
  cases i <;> simp [Instr.isStream] at hs
  case lit b => exact .inl ⟨b, rfl, rfl⟩
  all_goals exact .inr ⟨_, _, rfl, rfl⟩

theorem checkProblem_cases (s : State) :
    (s.eng.ldlen.toNat < s.eng.o + s.eng.len ∧ s.checkProblem = some .overrun) ∨
      (s.eng.o + s.eng.len ≤ s.eng.ldlen.toNat ∧ s.eng.o < s.eng.d ∧
        s.checkProblem = some .distBeforeStart) ∨
      (s.eng.o + s.eng.len ≤ s.eng.ldlen.toNat ∧ s.eng.d ≤ s.eng.o ∧ s.checkProblem = none) := by
  unfold checkProblem
  by_cases h1 : s.eng.ldlen.toNat < s.eng.o + s.eng.len
  · exact .inl ⟨h1, by rw [if_pos h1]⟩
  · by_cases h2 : s.eng.o < s.eng.d
    · exact .inr (.inl ⟨by omega, h2, by rw [if_neg h1, if_pos h2]⟩)
    · exact .inr (.inr ⟨by omega, by omega, by rw [if_neg h1, if_neg h2]⟩)

/-- The check phase either ends the command at the opcode byte or goes on to the copy. -/
theorem checked_cases (s : State) (copy : State → State) :
    (∃ c, s.checkProblem = some c ∧ s.checked copy = s.raise c s.eng.start) ∨
      (s.checkProblem = none ∧ s.checked copy = copy (s.withFsm .dCopy)) := by
  unfold checked
  cases h : s.checkProblem with
  | some c => exact .inl ⟨c, rfl, rfl⟩
  | none => exact .inr ⟨rfl, rfl⟩

theorem copyMatch_of_answers {s : State} (h : s.plat.Answers) :
    s.copyMatch =
      (copyBytes s.eng.d s.eng.o s.eng.len s).produced s.eng.ip s.eng.len :=
  access_of_answers h _ _ _

theorem copyLiteral_of_answers {s : State} (h : s.plat.Answers) (bytes : List Byte) :
    s.copyLiteral bytes =
      (s.setOutBytes s.eng.o bytes).produced (s.eng.ip + bytes.length) bytes.length :=
  access_of_answers h _ _ _

theorem runMatch_of_answers {s : State} (h : s.plat.Answers) (size len d : Nat) :
    s.runMatch size len d =
      if s.eng.lslen.toNat < s.eng.ip + size then s.beginAt.raise .truncMatch s.eng.ip
      else (s.beginAt.operands size len d).checked copyMatch := by
  unfold runMatch truncated
  rw [access_of_answers (s := s.beginAt) h, access_of_answers (s := s.beginAt) h]

theorem runLiteral_of_answers {s : State} (h : s.plat.Answers) (bytes : List Byte) :
    s.runLiteral bytes =
      if s.eng.lslen.toNat < s.eng.ip + (1 + bytes.length) then
        s.beginAt.raise .truncLiteral s.eng.ip
      else (s.beginAt.operands 1 bytes.length 0).checked (fun t => t.copyLiteral bytes) := by
  unfold runLiteral truncated
  rw [access_of_answers (s := s.beginAt) h, access_of_answers (s := s.beginAt) h]

/-! ### The endings of a command -/

/-- A command that an error ends, seen from an earlier state `s0` of it with the same surroundings. -/
theorem endedWith_raise {s0 s : State} (c : Cause) (pos : Nat) (h : s0.SameAround s)
    (hm : ∀ a, s.readByte a = s0.readByte a) (hd : s.dstSpan = s0.dstSpan) :
    s0.EndedWith (s.raise c pos) c (BitVec.ofNat 32 pos) := by
  obtain ⟨h1, h2, h3, -, -, h4, h5, h6, h7, h8, -⟩ := h
  unfold EndedWith Csr.SameConfig
  simp only [raise_eng, raise_csr, raise_ht, raise_plat, raise_inputs, raise_resp, raise_dirty,
    raise_stale, raise_resetHeld, h1, h2, h3, h4, h5, h6, h7, h8, true_and, and_self]
  intro a ha
  rw [readByte_raise _ _ _ _ (by rw [hd]; exact ha), hm]

/-- As endedWith_raise, for a bus error: the position is the free word of s0's next seed. -/
theorem endedWith_raiseBus {s0 s : State} (c : Cause) (h : s0.SameAround s)
    (hm : ∀ a, s.readByte a = s0.readByte a) (hd : s.dstSpan = s0.dstSpan) :
    s0.EndedWith (s.raiseBus c) c (Config.freeWord s0.freeCtr) := by
  obtain ⟨h1, h2, h3, -, -, h4, h5, h6, h7, h8, h9, -⟩ := h
  unfold EndedWith Csr.SameConfig
  simp only [raiseBus_eng, raiseBus_csr, raiseBus_ht, raiseBus_plat, raiseBus_inputs,
    raiseBus_resp, raiseBus_dirty, raiseBus_stale, raiseBus_resetHeld, h1, h2, h3, h4, h5, h6, h7,
    h8, h9, true_and, and_self]
  intro a ha
  rw [readByte_raiseBus _ _ _ (by rw [hd]; exact ha), hm]

/-! ### The configuration checks and the start of a command -/

/-- Everything a CMD write that stands for a command can lead to (R202, R260, R69, R215). -/
theorem launch_cases (s : State) (op : Op) (level : BitVec 2) :
    ((s.busy = true ∨ s.resetHeld = true) ∧ s.launch op level = .next s) ∨
      (s.busy = false ∧ s.resetHeld = false ∧ (s.start op level).launchRefusal = none ∧
        s.launch op level = .next (s.start op level)) ∨
      ∃ why, s.busy = false ∧ s.resetHeld = false ∧
        (s.start op level).launchRefusal = some why ∧ s.launch op level = .refused why := by
  unfold launch
  cases hb : s.busy <;> cases hr : s.resetHeld <;> simp
  cases h : (s.start op level).launchRefusal <;> simp

/-- While reset is held no register write changes anything (R260). -/
theorem writeReg_of_held {s : State} (h : s.resetHeld = true) (off : Nat) (v : Word) :
    s.writeReg off v = .next s := by
  simp [writeReg, h]

theorem launchRefusal_none {s : State} (h : s.Unopposed ∨ configError s.eng ≠ none) :
    s.launchRefusal = none := by
  unfold launchRefusal races
  rcases h with ⟨h1, h2⟩ | h
  · simp [h1, h2]
  · simp [h]

end State

theorem hashLog_some {size : Word} {k : Nat} (h : hashLog size = some k) :
    k ≤ 16 ∧ size.toNat = 2 ^ k := by
  have h1 := List.find?_some h
  have h2 := List.mem_of_find?_eq_some h
  simp [Config.maxHashLog] at h1 h2
  exact ⟨by omega, h1⟩

theorem hashLog_none {size : Word} :
    hashLog size = none ↔ ¬∃ k, k ≤ 16 ∧ size.toNat = 2 ^ k := by
  unfold hashLog
  rw [List.find?_eq_none]
  simp [Config.maxHashLog, Nat.lt_succ_iff]

/-- What the configuration checks of R204 guarantee. -/
theorem configError_none {e : Engine} (h : configError e = none) :
    e.llevel ≠ 3 ∧ (e.lop = .compress → hashLog e.lhtab ≠ none) ∧ e.RegionsApart ∧
      (e.lop = .compress → cbound e.lslen.toNat ≤ e.ldlen.toNat) := by
  simp only [configError, regionError] at h
  split at h
  · cases h
  rename_i h0
  split at h
  · cases h
  rename_i h1
  split at h
  · cases h
  split at h
  · cases h
  split at h
  · cases h
  split at h
  · cases h
  rename_i h2 h3 h4 h5
  refine ⟨h0, fun hl hn => h1 ⟨hl, hn⟩, ?_, fun hl => ?_⟩
  · unfold Engine.RegionsApart; omega
  · by_contra hc
    exact h5 ⟨hl, by omega⟩

/-! ### The finder -/

theorem get_insertAt (k n : Nat) (rd : Nat → Byte) (ht : HashTable) (q j : Nat) :
    Sparse.get 0 (insertAt k n rd ht q) j =
      if q + 2 < n ∧ hashAt k rd q = j then q else Sparse.get 0 ht j := by
  unfold insertAt
  split
  · rename_i h; simp only [Sparse.get_set, h, true_and]
  · rename_i h; simp only [h, false_and, if_false]

/-- Inserting positions one run after another is inserting them all. -/
theorem insertRange_add (k n : Nat) (rd : Nat → Byte) (c d : Nat) : ∀ (ht : HashTable) (q : Nat),
    insertRange k n rd ht q (c + d) = insertRange k n rd (insertRange k n rd ht q c) (q + c) d := by
  induction c with
  | zero => intro ht q; simp [insertRange]
  | succ c ih =>
    intro ht q
    rw [Nat.add_right_comm, insertRange, ih, insertRange, Nat.add_right_comm q, Nat.add_assoc q]

theorem candidateOk_iff {level : Level} {rd : Nat → Byte} {p r d : Nat} :
    candidateOk level rd p r d = true ↔ 1 ≤ d ∧ d ≤ Config.maxDist level ∧ rd r = rd p ∧
      rd (r + 1) = rd (p + 1) ∧ rd (r + 2) = rd (p + 2) := by
  simp [candidateOk, and_assoc]

theorem isSearch_iff {n p : Nat} : isSearch n p = true ↔ 2 ≤ p ∧ p + 12 < n := by
  simp [isSearch, Config.headLiterals, Config.searchGuard]

/-- ACCEPT rejects exactly the level-2 matches above distance 8192 that are shorter than 9 (R130). -/
theorem accept_iff {level : Level} {d len : Nat} :
    accept level d len = true ↔ ¬(level = .two ∧ 8192 < d ∧ len < 9) := by
  cases level <;> simp [accept, Config.shortMaxDist, Config.farMinLen]; omega

/-! ### The encoder -/

theorem length_literalRun (run : List Byte) :
    (literalRun run).length = if run.length = 0 then 0 else run.length + 1 := by
  cases run <;> simp [literalRun]

theorem length_matchBytes (level : Level) (len d : Nat) :
    (matchBytes level len d).length =
      if len ≤ 8 then 2
      else (len - 9) / 255 + 1 + if level = .two ∧ 8191 < d then 4 else 2 := by
  unfold matchBytes
  simp only [Config.shortMaxLen, Config.nearMaxDist]
  by_cases h : len ≤ 8
  · simp [h, shortBytes]
  · cases level with
    | one => simp [h, extNearBytes, length_lenBytes, Config.extMinLen]
    | two =>
      by_cases hd : d ≤ 8191
      · simp [h, hd, Nat.not_lt.2 hd, extNearBytes, length_lenBytes, Config.extMinLen]
      · simp [h, hd, Nat.not_le.1 hd, extFarBytes, length_lenBytes, Config.extMinLen]

namespace State

/-- PENDING_FLUSH empties the run and moves o past its instruction; only the engine and memory change. -/
theorem pendingFlush_spec (s : State) :
    s.pendingFlush.csr = s.csr ∧ s.pendingFlush.ht = s.ht ∧
      (Memory.wf s.mem = true → Memory.wf s.pendingFlush.mem = true) ∧
      s.pendingFlush.eng =
        { s.eng with
          o := s.eng.o + (if s.eng.litCnt = 0 then 0 else s.eng.litCnt + 1)
          litCnt := 0 } := by
  unfold pendingFlush
  split
  · rename_i h; simp; rw [← h]
  · rename_i h
    refine ⟨by simp, by simp, fun hm => by simpa using wf_emit _ hm, ?_⟩
    simp [emit, length_literalRun, pending, length_inBytes, h]

/-- LIT_TOKEN adds one byte to the run, and emits the run if that is its 32nd. -/
theorem litToken_spec (s : State) (p : Nat) :
    (s.litToken p).csr = s.csr ∧ (s.litToken p).ht = s.ht ∧
      (Memory.wf s.mem = true → Memory.wf (s.litToken p).mem = true) ∧
      (s.litToken p).eng =
        { s.eng with
          litBase := if s.eng.litCnt = 0 then p else s.eng.litBase
          o := s.eng.o + (if s.eng.litCnt + 1 = 32 then 33 else 0)
          litCnt := if s.eng.litCnt + 1 = 32 then 0 else s.eng.litCnt + 1 } := by
  unfold litToken
  by_cases h32 : s.eng.litCnt + 1 = 32
  · obtain ⟨f1, f2, f3, f4⟩ := pendingFlush_spec (s.withEng
      { s.eng with
        litBase := if s.eng.litCnt = 0 then p else s.eng.litBase
        litCnt := s.eng.litCnt + 1 })
    simp only [Config.maxCopy, if_pos h32]
    refine ⟨f1, f2, f3, ?_⟩
    rw [f4]
    simp [h32]
  · simp only [Config.maxCopy, if_neg h32]
    simp

/-! ### Turns of the engine -/

/-- With no input left a step is a turn of the engine. -/
theorem step_of_no_inputs {s : State} (h : s.inputs = []) : step s = s.engineStep := by
  unfold step; rw [h]

theorem run_succ_of_step {s t : State} (k : Nat) (h : step s = .next t) :
    run (k + 1) s = run k t := by
  rw [run, h]

/-- At an instruction a turn makes the accesses of that instruction. -/
theorem turnAccesses_of_atInstruction {s : State} (h : s.AtInstruction) :
    s.turnAccesses = s.instructionAccesses := by
  rcases h with ⟨h, ho⟩ | h <;> simp [turnAccesses, *]

/-- While the finder does not run, TableComplete says nothing. -/
theorem tableComplete_of_none {s : State} (h : s.inserted = none) : s.TableComplete := by
  intro count hc; rw [h] at hc; cases hc

/-! ### Another way for memory to answer -/

@[simp] theorem withBus_eng (s : State) (rules : List BusRule) : (s.withBus rules).eng = s.eng := rfl
@[simp] theorem withBus_csr (s : State) (rules : List BusRule) : (s.withBus rules).csr = s.csr := rfl
@[simp] theorem withBus_ht (s : State) (rules : List BusRule) : (s.withBus rules).ht = s.ht := rfl
@[simp] theorem withBus_mem (s : State) (rules : List BusRule) : (s.withBus rules).mem = s.mem := rfl
@[simp] theorem withBus_inputs (s : State) (rules : List BusRule) :
    (s.withBus rules).inputs = s.inputs := rfl
@[simp] theorem withBus_readByte (s : State) (rules : List BusRule) (a : Nat) :
    (s.withBus rules).readByte a = s.readByte a := rfl
@[simp] theorem withBus_inByte (s : State) (rules : List BusRule) (i : Nat) :
    (s.withBus rules).inByte i = s.inByte i := rfl

theorem inBytes_withBus (s : State) (rules : List BusRule) (n : Nat) :
    ∀ i, (s.withBus rules).inBytes i n = s.inBytes i n := by
  induction n with
  | zero => intro i; rfl
  | succ n ih => intro i; rw [inBytes, inBytes, ih]; rfl

/-- The decoder reads the same instruction, however memory answers. -/
@[simp] theorem withBus_streamFrom (s : State) (rules : List BusRule) :
    (s.withBus rules).streamFrom = s.streamFrom := inBytes_withBus s rules _ _

end State

/-! ### The register window -/

theorem Platform.windowOffset_base (pl : Platform) {off : Nat} (h : off < 64) :
    pl.windowOffset (pl.base + BitVec.ofNat 32 off) = some off := by
  have e : (pl.base + BitVec.ofNat 32 off - pl.base).toNat = off := by
    rw [BitVec.add_comm, BitVec.add_sub_cancel]; simp; omega
  unfold Platform.windowOffset
  rw [e, if_pos h]

end Sys2Proof.Machine
end

