-- ==== Sys2Proof/Laws/PerInstr.lean ====
section
/-! SUPPORT. Statements about every instruction as syntax, one lemma per constructor: the encoded length of
a stream instruction is the size of R100, and a host command has no stream bytes (R90). -/

namespace Sys2Proof.Laws.EncodedLength

/-- The stream encoding of an instruction has as many bytes as its size says; a host command has none. -/
def Statement (i : Instr) : Prop :=
  (encodeStream i).length = if i.isStream then i.size else 0

theorem lit (bytes : List Byte) : Statement (.lit bytes) := by
  simp [Statement, encodeStream, Instr.isStream, Instr.size, Nat.add_comm]

theorem ms3 (dist : Nat) : Statement (.ms3 dist) := rfl

theorem ms4 (dist : Nat) : Statement (.ms4 dist) := rfl

theorem ms5 (dist : Nat) : Statement (.ms5 dist) := rfl

theorem ms6 (dist : Nat) : Statement (.ms6 dist) := rfl

theorem ms7 (dist : Nat) : Statement (.ms7 dist) := rfl

theorem ms8 (dist : Nat) : Statement (.ms8 dist) := rfl

theorem mx1 (len dist : Nat) : Statement (.mx1 len dist) := by
  simp [Statement, encodeStream, encodeNear, Instr.isStream, Instr.size, length_lenBytes]

theorem mx2n (len dist : Nat) : Statement (.mx2n len dist) := by
  simp [Statement, encodeStream, encodeNear, Instr.isStream, Instr.size, length_lenBytes]

theorem mx2f (len dist : Nat) : Statement (.mx2f len dist) := by
  simp [Statement, encodeStream, encodeFar, Instr.isStream, Instr.size, length_lenBytes]

theorem compress (level : BitVec 2) (ignored : BitVec 28) : Statement (.compress level ignored) := rfl

theorem decompress (level : BitVec 2) (ignored : BitVec 28) : Statement (.decompress level ignored) := rfl

end Sys2Proof.Laws.EncodedLength
end

