-- ==== Sys2Proof/Tests/Slice0.lean ====
section
/-! SUPPORT. The model's own tests: ill-formed instructions refused, words written out from the formats of
spec/30_encoding.md decoded, one-step tests whose expected results are vectors of spec/95_test_vectors.md,
and for every obligation with hypotheses a named state and operands that meet them together. -/

namespace Sys2Proof.Tests

open Sys2Proof.Machine

/-! ### WellFormed refuses each ill-formed term (R93 to R98) -/

theorem test_wf_literalEmpty : (Instr.lit []).problem = some .literalEmpty := by decide

theorem test_wf_literalTooLong :
    (Instr.lit (List.replicate 33 0#8)).problem = some .literalTooLong ∧
      (Instr.lit (List.replicate 32 0#8)).wf := by decide

theorem test_wf_distanceZero : (Instr.ms3 0).problem = some .distanceZero := by decide

theorem test_wf_distanceTooFar :
    (Instr.ms8 8193).problem = some .distanceTooFar ∧ (Instr.mx1 9 8193).problem = some .distanceTooFar ∧
      (Instr.mx2n 9 8192).problem = some .distanceTooFar ∧
      (Instr.mx2f 9 73728).problem = some .distanceTooFar := by decide

theorem test_wf_distanceTooNear : (Instr.mx2f 9 8191).problem = some .distanceTooNear := by decide

theorem test_wf_lengthTooShort :
    (Instr.mx1 8 1).problem = some .lengthTooShort ∧ (Instr.mx2n 8 1).problem = some .lengthTooShort ∧
      (Instr.mx2f 8 8192).problem = some .lengthTooShort := by decide

/-! ### Decoding words written out from the formats

The opcode byte is T in bits [7:5] and F in bits [4:0] (R92); distance − 1 is F above B (R94). -/

theorem test_decode_lit : decode .one [0b000_00010#8, 0x61#8, 0x62#8, 0x63#8] =
    .ok (.lit [0x61#8, 0x62#8, 0x63#8], []) := by decide

/-- V-D2: 20 01 is MS3 at distance 2. -/
theorem test_decode_ms3 : decode .one [0b001_00000#8, 0b00000001#8] = .ok (.ms3 2, []) := by decide

/-- 41 01 is MS4 at distance 258 (spec/95_test_vectors.md, match serialisation). -/
theorem test_decode_ms4 : decode .two [0b010_00001#8, 0b00000001#8] = .ok (.ms4 258, []) := by decide

/-- 60 63 is MS5 at distance 100. -/
theorem test_decode_ms5 : decode .one [0b011_00000#8, 0x63#8] = .ok (.ms5 100, []) := by decide

theorem test_decode_ms6 : decode .one [0b100_00010#8, 0x03#8] = .ok (.ms6 516, []) := by decide

/-- V-D6: A0 07 is MS7 at distance 8. -/
theorem test_decode_ms7 : decode .one [0b101_00000#8, 0x07#8] = .ok (.ms7 8, []) := by decide

/-- DF FF is MS8 at distance 8192. -/
theorem test_decode_ms8 : decode .one [0b110_11111#8, 0xFF#8] = .ok (.ms8 8192, []) := by decide

/-- FF FE FF is MX1 with length 263 at distance 8192. -/
theorem test_decode_mx1 : decode .one [0b111_11111#8, 0xFE#8, 0xFF#8] = .ok (.mx1 263 8192, []) := by
  decide

/-- FF 00 FE is MX2N at the largest near distance. -/
theorem test_decode_mx2n : decode .two [0b111_11111#8, 0x00#8, 0xFE#8] = .ok (.mx2n 9 8191, []) := by
  decide

/-- FF FF FF 51 FF 03 28 is MX2F with length 600 at distance 9000. -/
theorem test_decode_mx2f :
    decode .two [0b111_11111#8, 0xFF#8, 0xFF#8, 0x51#8, 0xFF#8, 0x03#8, 0x28#8] =
      .ok (.mx2f 600 9000, []) := by decide

/-- CMD words: START [0], OP [1], LEVEL [3:2] (R107). -/
theorem test_decode_compress : decodeCommand 0b0101#32 = some (.compress 1 0) ∧
    decodeCommand 0xFFFFFFF1#32 = some (.compress 0 0xFFFFFFF) := by decide

theorem test_decode_decompress : decodeCommand 0b1011#32 = some (.decompress 2 0) ∧
    decodeCommand 0b1010#32 = none := by decide

/-- The three ways a stream cuts an instruction off (R171, R173, R180). -/
theorem test_decode_rejects : decode .one [] = .error .noOpcode ∧
    decode .one [0x05#8, 0x61#8, 0x62#8] = .error .truncLiteral ∧
    decode .two [0xFF#8, 0x00#8, 0xFF#8, 0x00#8] = .error .truncMatch := by decide

/-! ### States for the tests -/

/-- V-C1: 16 source bytes at 0x1000, 17 destination bytes at 0x8000, nothing running. -/
def idleState : State :=
  { State.reset with
    csr := { Csr.reset with srcAddr := 0x1000, srcLen := 16, dstAddr := 0x8000, dstLen := 17 } }

/-- CHECK of a command with the given operation, level and hash-table size, on V-C1's regions. -/
def checkState (op : Op) (level : BitVec 2) (htab : Word) : State :=
  { idleState with
    csr := { idleState.csr with htabSize := htab }
    eng := { Engine.reset with
      fsm := .check, lop := op, llevel := level, lhtab := htab,
      lsrc := 0x1000, lslen := 16, ldst := 0x8000, ldlen := 17 } }

/-- The decoder before an instruction: its stream from there on at 0x1000, the output so far at 0x8000. -/
def fetchState (level : Level) (orig : Nat) (out stream : List Byte) : State :=
  { (State.reset.placeBytes 0x1000 stream).placeBytes 0x8000 out with
    csr := { Csr.reset with levelUsed := levelField level }
    eng := { Engine.reset with
      fsm := .dFetch, lop := .decompress, level := level, llevel := levelField level,
      lsrc := 0x1000, lslen := BitVec.ofNat 32 stream.length,
      ldst := 0x8000, ldlen := BitVec.ofNat 32 orig, o := out.length } }

/-- The decoder with only its offsets given: ip of m stream bytes, o of orig output bytes. -/
def atState (ip m o orig : Nat) : State :=
  { State.reset with
    eng := { Engine.reset with
      fsm := .dFetch, lop := .decompress, lsrc := 0x1000, lslen := BitVec.ofNat 32 m,
      ldst := 0x8000, ldlen := BitVec.ofNat 32 orig, ip := ip, o := o } }

/-- An instruction that waits to produce its bytes, in D_CHECK or D_COPY, with its count and its distance (0 for
a literal run); ip of m and o of orig as in atState. -/
def waitingState (f : Fsm) (len d ip m o orig : Nat) : State :=
  { atState ip m o orig with
    eng := { (atState ip m o orig).eng with fsm := f, len := len, d := d } }

/-- The finder at a position of a COMPRESS of 16 zero bytes (V-F1), at level 1 with k = 13. -/
def scanState (f : Fsm) (p litCnt : Nat) (ht : HashTable) : State :=
  { idleState with
    csr := { idleState.csr with levelUsed := 1 }
    ht := ht
    eng := { Engine.reset with
      fsm := f, lop := .compress, level := .one, llevel := 1, lhtab := 0x2000, k := 13,
      lsrc := 0x1000, lslen := 16, ldst := 0x8000, ldlen := 17, p := p, litCnt := litCnt } }

/-- The first n output bytes after a step. -/
def outputAfter (n : Nat) : Host.Outcome State Fault Refusal → Option (List Byte)
  | .next t => some ((List.range n).map (fun j => t.readByte (0x8000 + j)))
  | .fault _ => none
  | .refused _ => none

/-- The STATUS word, RESULT_LEN and ERR_POS after a step. -/
def reportAfter : Host.Outcome State Fault Refusal → Option (Word × Word × Word)
  | .next t => some (t.statusWord, t.csr.resultLen, t.csr.errPos)
  | .fault _ => none
  | .refused _ => none

/-- The engine after a step. -/
def engineAfter : Host.Outcome State Fault Refusal → Option Engine
  | .next t => some t.eng
  | .fault _ => none
  | .refused _ => none

/-! ### One step of each stream instruction (spec/95_test_vectors.md section 4) -/

/-- V-D1. -/
theorem test_step_lit : outputAfter 2 (step (fetchState .one 2 [] [0x01#8, 0x00#8, 0x00#8])) =
    some [0x00#8, 0x00#8] := by decide

/-- V-E8: a LIT of 2 bytes for orig 1 is OVERRUN at 0. -/
theorem test_step_lit_overrun :
    reportAfter (step (fetchState .one 1 [] [0x01#8, 0x41#8, 0x42#8])) =
      some (0x00010316, 0, 0) := by decide

/-- V-D2: an overlapping copy. -/
theorem test_step_ms3 :
    outputAfter 5 (step (fetchState .one 5 [0x61#8, 0x62#8] [0x20#8, 0x01#8])) =
      some [0x61#8, 0x62#8, 0x61#8, 0x62#8, 0x61#8] := by decide

/-- V-E12: a match as the first instruction is DIST_BEFORE_START at 0. -/
theorem test_step_ms3_before :
    reportAfter (step (fetchState .one 3 [] [0x20#8, 0x00#8])) = some (0x00010416, 0, 0) := by decide

/-- V-D3. -/
theorem test_step_ms4 :
    outputAfter 9 (step (fetchState .one 9 [0x61#8, 0x62#8, 0x63#8, 0x64#8, 0x58#8]
      [0x40#8, 0x04#8])) =
      some [0x61#8, 0x62#8, 0x63#8, 0x64#8, 0x58#8, 0x61#8, 0x62#8, 0x63#8, 0x64#8] := by decide

/-- V-D4. -/
theorem test_step_ms5 :
    outputAfter 7 (step (fetchState .one 7 [0x41#8, 0x42#8] [0x60#8, 0x01#8])) =
      some [0x41#8, 0x42#8, 0x41#8, 0x42#8, 0x41#8, 0x42#8, 0x41#8] := by decide

/-- V-D5, with a byte of 7 in place of 0. -/
theorem test_step_ms6 :
    outputAfter 7 (step (fetchState .one 7 [0x07#8] [0x80#8, 0x00#8])) =
      some (List.replicate 7 0x07#8) := by decide

/-- V-D6. -/
theorem test_step_ms7 :
    outputAfter 15 (step (fetchState .one 15
      [0x30#8, 0x31#8, 0x32#8, 0x33#8, 0x34#8, 0x35#8, 0x36#8, 0x37#8] [0xA0#8, 0x07#8])) =
      some [0x30#8, 0x31#8, 0x32#8, 0x33#8, 0x34#8, 0x35#8, 0x36#8, 0x37#8,
        0x30#8, 0x31#8, 0x32#8, 0x33#8, 0x34#8, 0x35#8, 0x36#8] := by decide

/-- V-D7. -/
theorem test_step_ms8 :
    outputAfter 11 (step (fetchState .two 11 [0x41#8, 0x42#8, 0x43#8] [0xC0#8, 0x02#8])) =
      some [0x41#8, 0x42#8, 0x43#8, 0x41#8, 0x42#8, 0x43#8, 0x41#8, 0x42#8, 0x43#8, 0x41#8,
        0x42#8] := by decide

/-- V-D8, with a byte of 9 in place of 0: length 11. -/
theorem test_step_mx1 :
    outputAfter 12 (step (fetchState .one 12 [0x09#8] [0xE0#8, 0x02#8, 0x00#8])) =
      some (List.replicate 12 0x09#8) := by decide

/-- V-D10. -/
theorem test_step_mx2n :
    outputAfter 18 (step (fetchState .two 18 [0x61#8, 0x62#8, 0x63#8] [0xE0#8, 0x06#8, 0x02#8])) =
      some (List.replicate 6 [0x61#8, 0x62#8, 0x63#8]).flatten := by decide

/-- P3's last instruction: FF 00 FF 00 03 at o = 8195 copies out[0 .. 9), which here holds 0x30 to
0x38. -/
theorem test_step_mx2f :
    (match step { (State.reset.placeBytes 0x1000 [0xFF#8, 0x00#8, 0xFF#8, 0x00#8, 0x03#8]).placeBytes
        0x8000 [0x30#8, 0x31#8, 0x32#8, 0x33#8, 0x34#8, 0x35#8, 0x36#8, 0x37#8, 0x38#8] with
        eng := { Engine.reset with
          fsm := .dFetch, lop := .decompress, level := .two, lsrc := 0x1000, lslen := 5,
          ldst := 0x8000, ldlen := 8204, o := 8195 } } with
      | .next t => (List.range 9).map (fun j => t.readByte (0x8000 + 8195 + j))
      | _ => []) =
      [0x30#8, 0x31#8, 0x32#8, 0x33#8, 0x34#8, 0x35#8, 0x36#8, 0x37#8, 0x38#8] := by decide

/-- V-E7: the far form without OL is TRUNC_MATCH, before the overrun. -/
theorem test_step_mx2f_truncated :
    reportAfter (step (fetchState .two 9 [0x41#8] [0xFF#8, 0x00#8, 0xFF#8, 0x00#8])) =
      some (0x00020216, 0, 0) := by decide

/-! ### The host commands, one step (section 5) -/

/-- V-C1's start: CMD 0x1 with nothing running latches the configuration and raises BUSY. -/
theorem test_step_compress :
    engineAfter (step { idleState with inputs := [.csrWrite 0 4 0x1] }) =
      some { Engine.reset with
        fsm := .check, lop := .compress, lsrc := 0x1000, lslen := 16, ldst := 0x8000,
        ldlen := 17, lhtab := 0x2000 } := by decide

/-- V-R3: CMD 0x3 while BUSY = 1 is ignored. -/
theorem test_step_decompress_ignored :
    engineAfter (step { checkState .compress 1 0x2000 with inputs := [.csrWrite 0 4 0x3] }) =
      some (checkState .compress 1 0x2000).eng := by decide

/-- V-C2's BAD_LEVEL on DECOMPRESS: LEVEL_USED stays 0. -/
theorem test_step_decompress_badLevel :
    reportAfter (step (checkState .decompress 3 0)) = some (0x00000126, 0, 0) := by decide

/-- V-F1: the flushed literals and the match: 01 00 00 E0 02 00. -/
theorem test_step_compress_emit :
    outputAfter 6 (step { scanState .cEmit 2 2 [(0, 2)] with
      eng := { (scanState .cEmit 2 2 [(0, 2)]).eng with r := 1, d := 1, len := 11 } }) =
      some [0x01#8, 0x00#8, 0x00#8, 0xE0#8, 0x02#8, 0x00#8] := by decide

/-! ### Witnesses: a state and operands that meet an obligation's hypotheses together -/

theorem answers_of_no_rules {pl : Platform} (h : pl.bus = []) : pl.Answers := by
  intro acc; unfold Platform.answer; rw [h]; rfl

/-- An idle block meets the invariant if its memory and report do. -/
theorem inv_of_idle {s : State} (h1 : Memory.wf s.mem = true)
    (h2 : Sparse.wfAbove 0 (2 ^ 16) none s.ht = true) (h3 : s.csr.ReportLegal)
    (h4 : s.csr.levelUsed ≠ 3) (h5 : s.eng.fsm = .idle) (h6 : s.resetHeld = false) : s.Inv where
  memory := h1
  table := h2
  legal := h3
  level := h4
  unreported h := by simp [State.busy, h5] at h
  unresolved h := by simp [h5] at h
  configured h := absurd h5 h
  progressing := by unfold State.Progressing; simp only [h5]
  held h := by rw [h6] at h; cases h

theorem idleState_inv : idleState.Inv :=
  inv_of_idle (by decide) (by decide) (.inl ⟨rfl, rfl⟩) (by decide) rfl rfl

/-- A decoder at the start of a stream of one literal run. -/
def decoding : State := fetchState .one 2 [] [0x01#8, 0x61#8, 0x62#8]

theorem decoding_inv : decoding.Inv where
  memory := by decide
  table := by decide
  legal := .inl ⟨rfl, rfl⟩
  level := by decide
  unreported _ := by unfold Csr.Unreported; decide
  unresolved h := by cases h
  configured _ _ := by unfold State.Configured; decide
  progressing := ⟨by decide, by decide⟩
  held h := by cases h

/-- A match of length 3 at distance 1 that waits to produce its bytes, after one byte of output. -/
def copying : State :=
  { waitingState .dCopy 3 1 2 2 1 4 with csr := { Csr.reset with levelUsed := 1 } }

theorem copying_inv : copying.Inv where
  memory := rfl
  table := rfl
  legal := .inl ⟨rfl, rfl⟩
  level := by decide
  unreported _ := ⟨rfl, rfl, rfl, rfl, rfl⟩
  unresolved h := by cases h
  configured _ _ := by unfold State.Configured; decide
  progressing := by
    refine ⟨?_, ?_, ?_, ?_, fun h => ?_⟩
    all_goals first | decide | cases h
  held h := by cases h

/-- The next state of a turn of the engine from `decoding`. -/
theorem decoding_steps : ∃ t, step decoding = .next t := ⟨_, rfl⟩

theorem witness_DecodeOfEncode :
    ((Instr.lit [0x61#8]).isStream = true ∧ (Instr.lit [0x61#8]).wf ∧
      (Instr.lit [0x61#8]).atLevel .one = true) ∧
    ((Instr.mx2f 9 73727).isStream = true ∧ (Instr.mx2f 9 73727).wf ∧
      (Instr.mx2f 9 73727).atLevel .two = true) ∧
    ((Instr.compress 3 0xFFFFFFF).wf ∧ (Instr.compress 3 0xFFFFFFF).atLevel .one = true) := by decide

theorem witness_EncodeOfDecode :
    decode .two [0xFF#8, 0x00#8, 0xFF#8, 0x00#8, 0x00#8, 0x07#8] = .ok (.mx2f 9 8192, [0x07#8]) ∧
      decodeCommand 0x3#32 = some (.decompress 0 0) := by decide

/-- A near and a far form; FF 00 FF and FF 00 FF 00, far forms cut off, which level 1 reads as MX1; and a
length cut off at both levels. -/
theorem witness_LevelsDifferOnlyAtTheEscape :
    decode .two [0xFF#8, 0x00#8, 0xFE#8] = .ok (.mx2n 9 8191, []) ∧
      decode .two [0xFF#8, 0x00#8, 0xFF#8, 0x00#8, 0x00#8] = .ok (.mx2f 9 8192, []) ∧
      decode .two [0xFF#8, 0x00#8, 0xFF#8] = .error .truncMatch ∧
      decode .one [0xFF#8, 0x00#8, 0xFF#8] = .ok (.mx1 9 8192, []) ∧
      decode .two [0xFF#8, 0x00#8, 0xFF#8, 0x00#8] = .error .truncMatch ∧
      decode .two [0xFF#8, 0xFF#8] = .error .truncMatch ∧
      decode .one [0xFF#8, 0xFF#8] = .error .truncMatch := by decide

theorem witness_InstructionLength :
    decode .one [0x00#8, 0x61#8] = .ok (.lit [0x61#8], []) ∧
      decode .one [0xE0#8, 0x00#8, 0x00#8] = .ok (.mx1 9 1, []) ∧
      decode .two [0xE0#8, 0x00#8, 0x00#8] = .ok (.mx2n 9 1, []) ∧
      decode .two [0xFF#8, 0x00#8, 0xFF#8, 0x00#8, 0x00#8] = .ok (.mx2f 9 8192, []) := by decide

/-- An instruction at the head of the main loop and one that has waited for its bytes. -/
theorem witness_StepRunsDecodedStream :
    ∀ s ∈ [decoding, decoding.withFsm .dOperand],
      s.AtInstruction ∧ s.inputs = [] ∧
        decode s.eng.level s.streamFrom = .ok (.lit [0x61#8, 0x62#8], []) := by
  unfold State.AtInstruction; decide

theorem witness_StepRunsDecodedStream_turn :
    let s := { decoding with inputs := [.engine] }
    s.AtInstruction ∧ decode s.eng.level s.streamFrom = .ok (.lit [0x61#8, 0x62#8], []) ∧
      s.inputs = .engine :: [] := by
  unfold State.AtInstruction; decide

theorem witness_StepRunsDecodedCommand :
    let s := { idleState with inputs := [.csrWrite 0 4 0x5] }
    s.inputs = .csrWrite s.plat.base 4 0x5 :: [] ∧ decodeCommand 0x5 = some (.compress 1 0) := by
  decide

/-- The last instruction of a stream, ending exactly at both ends. -/
theorem witness_LiteralRuns :
    let s := atState 0 3 0 2
    s.plat.Answers ∧ s.eng.ip + (1 + [0x61#8, 0x62#8].length) ≤ s.eng.lslen.toNat ∧
      s.eng.o + [0x61#8, 0x62#8].length ≤ s.eng.ldlen.toNat :=
  ⟨answers_of_no_rules rfl, by decide, by decide⟩

/-- The two bytes of the last literal run, still to be produced, ending exactly at both ends. -/
theorem witness_LiteralRuns_resumed :
    ∀ f ∈ [Fsm.dCheck, .dCopy],
      let s := waitingState f 2 0 1 3 0 2
      s.inputs = [] ∧ s.AtCopy ∧ s.plat.Answers ∧ s.eng.d = 0 ∧
        s.eng.o + s.eng.len ≤ s.eng.ldlen.toNat :=
  fun f hf => ⟨rfl, (by decide : ∀ f ∈ [Fsm.dCheck, .dCopy], f = .dCheck ∨ f = .dCopy) f hf,
    answers_of_no_rules rfl, rfl, Nat.le_refl 2⟩

/-- The longest short match at the largest distance its output allows, ending at both ends, and the
shortest one. -/
theorem witness_ShortMatchesRun :
    (let s := atState 0 2 2 10;
      (8, Instr.ms8 2) ∈ [(3, Instr.ms3 2), (4, .ms4 2), (5, .ms5 2), (6, .ms6 2), (7, .ms7 2),
        (8, .ms8 2)] ∧
      s.plat.Answers ∧ s.eng.ip + 2 ≤ s.eng.lslen.toNat ∧ 1 ≤ 2 ∧ 2 ≤ s.eng.o ∧
      s.eng.o + 8 ≤ s.eng.ldlen.toNat) ∧
    (let s := atState 0 2 1 4;
      (3, Instr.ms3 1) ∈ [(3, Instr.ms3 1), (4, .ms4 1), (5, .ms5 1), (6, .ms6 1), (7, .ms7 1),
        (8, .ms8 1)] ∧
      s.plat.Answers ∧ s.eng.ip + 2 ≤ s.eng.lslen.toNat ∧ 1 ≤ 1 ∧ 1 ≤ s.eng.o ∧
      s.eng.o + 3 ≤ s.eng.ldlen.toNat) :=
  ⟨⟨by decide, answers_of_no_rules rfl, by decide, by decide, by decide, by decide⟩,
    ⟨by decide, answers_of_no_rules rfl, by decide, by decide, by decide, by decide⟩⟩

/-- The shortest and the longest short match and the shortest extended one, waiting to produce their bytes:
the largest distance the output allows, and the last byte of the output is their last. -/
theorem witness_MatchesRun_resumed :
    ∀ f ∈ [Fsm.dCheck, .dCopy], ∀ len ∈ [3, 8, 9],
      let s := waitingState f len 2 2 2 2 (2 + len)
      s.inputs = [] ∧ s.AtCopy ∧ s.plat.Answers ∧ s.eng.len = len ∧ 1 ≤ s.eng.d ∧
        s.eng.d ≤ s.eng.o ∧ s.eng.o + s.eng.len ≤ s.eng.ldlen.toNat :=
  fun f hf len hl => ⟨rfl, (by decide : ∀ f ∈ [Fsm.dCheck, .dCopy], f = .dCheck ∨ f = .dCopy) f hf,
    answers_of_no_rules rfl, rfl, Nat.le_succ 1, Nat.le_refl 2,
    (by decide : ∀ len ∈ [3, 8, 9], 2 + len ≤ (BitVec.ofNat 32 (2 + len)).toNat) len hl⟩

theorem witness_ExtendedMatchesRun :
    (let s := atState 0 3 1 10;
      (Instr.mx1 9 1 = .mx1 9 1 ∨ Instr.mx1 9 1 = .mx2n 9 1) ∧ 3 = (9 - 9) / 255 + 1 + 2 ∧
        s.plat.Answers ∧ s.eng.ip + 3 ≤ s.eng.lslen.toNat ∧ 1 ≤ 1 ∧ 1 ≤ s.eng.o ∧
        s.eng.o + 9 ≤ s.eng.ldlen.toNat) ∧
    (let s := atState 0 4 300 564;
      (Instr.mx2n 264 300 = .mx1 264 300 ∨ Instr.mx2n 264 300 = .mx2n 264 300) ∧
        4 = (264 - 9) / 255 + 1 + 2 ∧
        s.plat.Answers ∧ s.eng.ip + 4 ≤ s.eng.lslen.toNat ∧ 1 ≤ 300 ∧ 300 ≤ s.eng.o ∧
        s.eng.o + 264 ≤ s.eng.ldlen.toNat) ∧
    (let s := atState 0 5 8192 8201;
      Instr.mx2f 9 8192 = .mx2f 9 8192 ∧ 5 = (9 - 9) / 255 + 1 + 4 ∧
        s.plat.Answers ∧ s.eng.ip + 5 ≤ s.eng.lslen.toNat ∧ 1 ≤ 8192 ∧ 8192 ≤ s.eng.o ∧
        s.eng.o + 9 ≤ s.eng.ldlen.toNat) :=
  ⟨⟨.inl rfl, rfl, answers_of_no_rules rfl, by decide, by decide, by decide, by decide⟩,
    ⟨.inr rfl, rfl, answers_of_no_rules rfl, by decide, by decide, by decide, by decide⟩,
    ⟨rfl, rfl, answers_of_no_rules rfl, by decide, by decide, by decide, by decide⟩⟩

/-- A literal run one byte short, and a far form one byte short at the head of the loop and resumed in
D_OPERAND; the same two as the parts of an encoding that are there. -/
theorem witness_TruncationIsReported :
    (let s := fetchState .one 2 [] [0x01#8, 0x61#8];
      s.inputs = [] ∧ s.plat.Answers ∧ s.eng.fsm = .dFetch ∧ s.eng.o < s.eng.ldlen.toNat ∧
        decode s.eng.level s.streamFrom = .error .truncLiteral) ∧
    (let s := fetchState .two 9 [0x41#8] [0xFF#8, 0x00#8, 0xFF#8, 0x00#8];
      s.inputs = [] ∧ s.plat.Answers ∧ s.eng.fsm = .dFetch ∧ s.eng.o < s.eng.ldlen.toNat ∧
        decode s.eng.level s.streamFrom = .error .truncMatch) ∧
    (let s := (fetchState .two 9 [0x41#8] [0xFF#8, 0x00#8, 0xFF#8, 0x00#8]).withFsm .dOperand;
      s.inputs = [] ∧ s.plat.Answers ∧ s.eng.fsm = .dOperand ∧
        decode s.eng.level s.streamFrom = .error .truncMatch) ∧
    ((Instr.lit [0x61#8, 0x62#8]).isStream = true ∧ (Instr.lit [0x61#8, 0x62#8]).wf ∧
      encodeStream (.lit [0x61#8, 0x62#8]) = [0x01#8, 0x61#8] ++ [0x62#8]) ∧
    ((Instr.mx2f 9 8192).wf ∧ (Instr.mx2f 9 8192).atLevel .two = true ∧
      encodeStream (.mx2f 9 8192) = [0xFF#8] ++ [0x00#8, 0xFF#8, 0x00#8, 0x00#8]) :=
  ⟨⟨rfl, answers_of_no_rules rfl, rfl, by decide, by decide⟩,
    ⟨rfl, answers_of_no_rules rfl, rfl, by decide, by decide⟩,
    ⟨rfl, answers_of_no_rules rfl, rfl, by decide⟩, by decide, by decide⟩

/-- V-E8 and V-E9: one byte too many. -/
theorem witness_OverrunIsReported :
    (let s := atState 0 3 0 1;
      let i := Instr.lit [0x41#8, 0x42#8];
      i.isStream = true ∧ s.plat.Answers ∧ s.eng.ip + i.size ≤ s.eng.lslen.toNat ∧
        s.eng.ldlen.toNat < s.eng.o + produces i) ∧
    (let s := atState 2 4 1 3;
      let i := Instr.ms3 1;
      i.isStream = true ∧ s.plat.Answers ∧ s.eng.ip + i.size ≤ s.eng.lslen.toNat ∧
        s.eng.ldlen.toNat < s.eng.o + produces i) :=
  ⟨⟨rfl, answers_of_no_rules rfl, by decide, by decide⟩,
    ⟨rfl, answers_of_no_rules rfl, by decide, by decide⟩⟩

/-- The same two, in D_CHECK. -/
theorem witness_OverrunIsReported_resumed :
    ∀ s ∈ [waitingState .dCheck 2 0 1 3 0 1, waitingState .dCheck 3 1 4 4 1 3],
      s.inputs = [] ∧ s.eng.fsm = .dCheck ∧ s.eng.ldlen.toNat < s.eng.o + s.eng.len := by decide

/-- V-E11: distance 2 with one byte produced. -/
theorem witness_DistanceBeforeStartIsReported :
    let s := atState 2 4 1 4
    let i := Instr.ms3 2;
    i.isStream = true ∧ s.plat.Answers ∧ s.eng.ip + i.size ≤ s.eng.lslen.toNat ∧
      s.eng.o + produces i ≤ s.eng.ldlen.toNat ∧ s.eng.o < reaches i :=
  ⟨rfl, answers_of_no_rules rfl, by decide, by decide, by decide⟩

/-- The same, in D_CHECK. -/
theorem witness_DistanceBeforeStartIsReported_resumed :
    let s := waitingState .dCheck 3 2 4 4 1 4
    s.inputs = [] ∧ s.eng.fsm = .dCheck ∧ s.eng.o + s.eng.len ≤ s.eng.ldlen.toNat ∧
      s.eng.o < s.eng.d := by decide

/-- A platform that answers the accesses to one byte with an error, or never. -/
def failing (addr : Nat) (onRead onWrite answered : Bool) : Platform :=
  { Platform.plain with bus := [⟨⟨addr, 1⟩, onRead, onWrite, answered⟩] }

/-- The last operand byte's read fails; a match's first back-reference read, a literal run's literal read,
and the last write of each of them fail. -/
theorem witness_BusErrorIsReported :
    (let s := { atState 2 4 1 4 with plat := failing 0x1003 true false true };
      (Instr.ms3 1).isStream = true ∧ s.eng.ip + (Instr.ms3 1).size ≤ s.eng.lslen.toNat ∧
        s.plat.FirstFailure (s.fetchAccesses (.ms3 1)) (.srcRead 0x1003)) ∧
    (let s := { atState 2 4 1 4 with plat := failing 0x8000 true false true };
      (∀ a, a ∈ s.fetchAccesses (.ms3 1) → s.plat.answer a = .performed) ∧
        s.eng.o + produces (.ms3 1) ≤ s.eng.ldlen.toNat ∧ reaches (.ms3 1) ≤ s.eng.o ∧
        s.plat.FirstFailure (s.dataAccesses (.ms3 1)) (.dstRead 0x8000)) ∧
    (let s := { atState 2 4 1 4 with plat := failing 0x8003 false true true };
      (∀ a, a ∈ s.fetchAccesses (.ms3 1) → s.plat.answer a = .performed) ∧
        s.plat.FirstFailure (s.dataAccesses (.ms3 1)) (.dstWrite 0x8003)) ∧
    (let s := { atState 0 3 0 2 with plat := failing 0x1001 true false true };
      let i := Instr.lit [0x00#8, 0x00#8];
      i.isStream = true ∧ s.eng.ip + i.size ≤ s.eng.lslen.toNat ∧
        (∀ a, a ∈ s.fetchAccesses i → s.plat.answer a = .performed) ∧
        s.eng.o + produces i ≤ s.eng.ldlen.toNat ∧ reaches i ≤ s.eng.o ∧
        s.plat.FirstFailure (s.dataAccesses i) (.srcRead 0x1001)) ∧
    (let s := { atState 0 3 0 2 with plat := failing 0x8001 false true true };
      (∀ a, a ∈ s.fetchAccesses (.lit [0x00#8, 0x00#8]) → s.plat.answer a = .performed) ∧
        s.plat.FirstFailure (s.dataAccesses (.lit [0x00#8, 0x00#8])) (.dstWrite 0x8001)) := by
  refine ⟨⟨by decide, by decide, ?_⟩, ⟨by decide, by decide, by decide, ?_⟩, ⟨by decide, ?_⟩,
    ⟨by decide, by decide, by decide, by decide, by decide, ?_⟩, ⟨by decide, ?_⟩⟩
  · exact ⟨[.srcRead 0x1002], [], .srcRead, by decide, by decide, by decide⟩
  · exact ⟨[], [.dstWrite 0x8001, .dstRead 0x8001, .dstWrite 0x8002, .dstRead 0x8002,
      .dstWrite 0x8003], .dstRead, by decide, by decide, by decide⟩
  · exact ⟨[.dstRead 0x8000, .dstWrite 0x8001, .dstRead 0x8001, .dstWrite 0x8002, .dstRead 0x8002],
      [], .dstWrite, by decide, by decide, by decide⟩
  · exact ⟨[], [.dstWrite 0x8000, .srcRead 0x1002, .dstWrite 0x8001], .srcRead, by decide,
      by decide, by decide⟩
  · exact ⟨[.srcRead 0x1001, .dstWrite 0x8000, .srcRead 0x1002], [], .dstWrite, by decide,
      by decide, by decide⟩

/-- In a turn of the decoder: the last write of a whole instruction that has waited for its bytes fails; the
opcode read of a literal run that is cut off, and the last read of a match that is; the second literal read of a
run that waits in D_CHECK, and the first back-reference read of a match that waits in D_COPY. -/
theorem witness_BusErrorIsReported_turn :
    (let s := { decoding.withFsm .dOperand with plat := failing 0x8001 false true true };
      s.inputs = [] ∧ s.AtInstruction ∧ s.plat.FirstFailure s.turnAccesses (.dstWrite 0x8001)) ∧
    (let s := { fetchState .one 2 [] [0x01#8, 0x61#8] with plat := failing 0x1000 true false true };
      s.inputs = [] ∧ s.AtInstruction ∧ decode s.eng.level s.streamFrom = .error .truncLiteral ∧
        s.plat.FirstFailure s.turnAccesses (.srcRead 0x1000)) ∧
    (let s := { fetchState .two 9 [0x41#8] [0xFF#8, 0x00#8, 0xFF#8, 0x00#8] with
        plat := failing 0x1003 true false true };
      s.inputs = [] ∧ s.AtInstruction ∧ decode s.eng.level s.streamFrom = .error .truncMatch ∧
        s.plat.FirstFailure s.turnAccesses (.srcRead 0x1003)) ∧
    (let s := { waitingState .dCheck 2 0 1 3 0 2 with plat := failing 0x1002 true false true };
      s.inputs = [] ∧ s.AtCopy ∧ s.plat.FirstFailure s.turnAccesses (.srcRead 0x1002)) ∧
    (let s := { waitingState .dCopy 3 1 4 4 1 4 with plat := failing 0x8000 true false true };
      s.inputs = [] ∧ s.AtCopy ∧ s.plat.FirstFailure s.turnAccesses (.dstRead 0x8000)) :=
  ⟨⟨rfl, .inr rfl, [.srcRead 0x1000, .srcRead 0x1001, .dstWrite 0x8000, .srcRead 0x1002], [],
      .dstWrite, by decide, by decide, by decide⟩,
    ⟨rfl, .inl (by decide), by decide, [], [], .srcRead, by decide, by decide, by decide⟩,
    ⟨rfl, .inl (by decide), by decide, [.srcRead 0x1000, .srcRead 0x1001, .srcRead 0x1002], [],
      .srcRead, by decide, by decide, by decide⟩,
    ⟨rfl, .inl rfl, [.srcRead 0x1001, .dstWrite 0x8000], [.dstWrite 0x8001], .srcRead, by decide,
      by decide, by decide⟩,
    ⟨rfl, .inr rfl, [], [.dstWrite 0x8001, .dstRead 0x8001, .dstWrite 0x8002, .dstRead 0x8002,
      .dstWrite 0x8003], .dstRead, by decide, by decide, by decide⟩⟩

/-- The opcode read, the operand read, and the first data access of a literal run and the last of a match,
not answered. -/
theorem witness_UnansweredReadWaits :
    (let s := { atState 2 4 1 4 with plat := failing 0x1002 true false false };
      (Instr.ms3 1).isStream = true ∧ s.eng.ip < s.eng.lslen.toNat ∧
        s.plat.answer (.srcRead (s.srcAddr s.eng.ip)) = .pending) ∧
    (let s := { atState 2 4 1 4 with plat := failing 0x1003 true false false };
      s.eng.ip + (Instr.ms3 1).size ≤ s.eng.lslen.toNat ∧
        s.plat.FirstPending (s.fetchAccesses (.ms3 1))) ∧
    (let s := { atState 0 2 0 1 with plat := failing 0x1001 true false false };
      (Instr.lit [0x00#8]).wf ∧ s.eng.ip + (Instr.lit [0x00#8]).size ≤ s.eng.lslen.toNat ∧
        (∀ a, a ∈ s.fetchAccesses (.lit [0x00#8]) → s.plat.answer a = .performed) ∧
        s.eng.o + produces (.lit [0x00#8]) ≤ s.eng.ldlen.toNat ∧
        reaches (.lit [0x00#8]) ≤ s.eng.o ∧ s.plat.FirstPending (s.dataAccesses (.lit [0x00#8]))) ∧
    (let s := { atState 2 4 1 4 with plat := failing 0x8003 false true false };
      (Instr.ms3 1).wf ∧ s.eng.ip + (Instr.ms3 1).size ≤ s.eng.lslen.toNat ∧
        (∀ a, a ∈ s.fetchAccesses (.ms3 1) → s.plat.answer a = .performed) ∧
        s.eng.o + produces (.ms3 1) ≤ s.eng.ldlen.toNat ∧ reaches (.ms3 1) ≤ s.eng.o ∧
        s.plat.FirstPending (s.dataAccesses (.ms3 1))) := by
  refine ⟨by decide, ⟨by decide, ?_⟩, ⟨by decide, by decide, by decide, by decide, by decide, ?_⟩,
    ⟨by decide, by decide, by decide, by decide, by decide, ?_⟩⟩
  · exact ⟨[.srcRead 0x1002], .srcRead 0x1003, [], by decide, by decide, by decide⟩
  · exact ⟨[], .srcRead 0x1001, [.dstWrite 0x8000], by decide, by decide, by decide⟩
  · exact ⟨[.dstRead 0x8000, .dstWrite 0x8001, .dstRead 0x8001, .dstWrite 0x8002, .dstRead 0x8002],
      .dstWrite 0x8003, [], by decide, by decide, by decide⟩

/-- In a turn of the decoder: the first literal read of an instruction at the head of the loop, the second byte
of a cut-off match that has waited before, and the last access of a literal run and of a match that wait to
produce their bytes, not answered. -/
theorem witness_UnansweredReadWaits_turn :
    (let s := { decoding with plat := failing 0x1001 true false false };
      s.inputs = [] ∧ s.AtInstruction ∧ s.plat.FirstPending s.turnAccesses) ∧
    (let s := { (fetchState .one 3 [] [0xE0#8, 0xFF#8]).withFsm .dOperand with
        plat := failing 0x1001 true false false };
      s.inputs = [] ∧ s.AtInstruction ∧ decode s.eng.level s.streamFrom = .error .truncMatch ∧
        s.plat.FirstPending s.turnAccesses) ∧
    (let s := { waitingState .dCheck 2 0 1 3 0 2 with plat := failing 0x8001 false true false };
      s.inputs = [] ∧ s.AtCopy ∧ s.plat.FirstPending s.turnAccesses) ∧
    (let s := { waitingState .dCopy 3 1 4 4 1 4 with plat := failing 0x8003 false true false };
      s.inputs = [] ∧ s.AtCopy ∧ s.plat.FirstPending s.turnAccesses) :=
  ⟨⟨rfl, .inl (by decide), [.srcRead 0x1000], .srcRead 0x1001,
      [.dstWrite 0x8000, .srcRead 0x1002, .dstWrite 0x8001], by decide, by decide, by decide⟩,
    ⟨rfl, .inr rfl, by decide, [.srcRead 0x1000], .srcRead 0x1001, [], by decide, by decide,
      by decide⟩,
    ⟨rfl, .inl rfl, [.srcRead 0x1001, .dstWrite 0x8000, .srcRead 0x1002], .dstWrite 0x8001, [],
      by decide, by decide, by decide⟩,
    ⟨rfl, .inr rfl, [.dstRead 0x8000, .dstWrite 0x8001, .dstRead 0x8001, .dstWrite 0x8002,
      .dstRead 0x8002], .dstWrite 0x8003, [], by decide, by decide, by decide⟩⟩

/-- An instruction that waits for its opcode byte, and one that waits to write its last byte; memory then
answers. -/
theorem witness_UnansweredReadWaits_resumed :
    ∀ pl ∈ [failing 0x1000 true false false, failing 0x8001 false true false],
      let s := { decoding with plat := pl }
      let i := Instr.lit [0x61#8, 0x62#8]
      s.inputs = [] ∧ s.AtInstruction ∧ decode s.eng.level s.streamFrom = .ok (i, []) ∧
        s.plat.FirstPending s.turnAccesses ∧ (∃ t, step s = .next t) ∧
        ∀ a, a ∈ s.fetchAccesses i → (s.withBus []).plat.answer a = .performed := by
  intro pl hpl
  simp only [List.mem_cons, List.not_mem_nil, or_false] at hpl
  rcases hpl with rfl | rfl
  · exact ⟨rfl, .inl (by decide), by decide, ⟨[], .srcRead 0x1000, [.srcRead 0x1001,
      .dstWrite 0x8000, .srcRead 0x1002, .dstWrite 0x8001], by decide, by decide, by decide⟩, ⟨_, rfl⟩, fun a _ => answers_of_no_rules rfl a⟩
  · exact ⟨rfl, .inl (by decide), by decide, ⟨[.srcRead 0x1000, .srcRead 0x1001, .dstWrite 0x8000,
      .srcRead 0x1002], .dstWrite 0x8001, [], by decide, by decide, by decide⟩, ⟨_, rfl⟩,
      fun a _ => answers_of_no_rules rfl a⟩

/-- A COMPRESS of 16 zero bytes (V-F1) at one of its turns, on a platform. -/
def turnState (f : Fsm) (p litBase litCnt o r d len : Nat) (pl : Platform) : State :=
  { scanState f p litCnt [] with
    eng := { (scanState f p litCnt []).eng with litBase := litBase, o := o, r := r, d := d, len := len }
    plat := pl }

/-- Such a state meets the invariant if what holds in its engine state does. -/
theorem turnState_inv {f : Fsm} {p litBase litCnt o r d len : Nat} {pl : Platform}
    (hf : f ∈ [Fsm.cSearch, .cExtend, .cEmit, .cLiteral, .cFlush])
    (hp : (turnState f p litBase litCnt o r d len pl).Progressing) :
    (turnState f p litBase litCnt o r d len pl).Inv where
  memory := rfl
  table := rfl
  legal := .inl ⟨rfl, rfl⟩
  level := by show (1 : BitVec 2) ≠ 3; decide
  unreported _ := ⟨rfl, rfl, rfl, rfl, rfl⟩
  unresolved h := by
    have h : f = .check := h
    rw [h] at hf
    exact absurd hf (by decide)
  configured _ _ := by
    refine ⟨?_, ?_, rfl, fun _ => rfl, fun h => ?_, fun _ => ?_⟩
    · show configError _ = none
      exact (by decide : configError (turnState .cSearch 0 0 0 0 0 0 0 Platform.plain).eng = none)
    · rfl
    · have h : f.ofDecompress = true := h
      simp only [List.mem_cons, List.not_mem_nil, or_false] at hf
      rcases hf with rfl | rfl | rfl | rfl | rfl <;> cases h
    · show hashLog 0x2000 = some 13
      decide
  progressing := hp
  held h := by cases h

theorem turnState_table {f : Fsm} {p litBase litCnt o r d len : Nat} {pl : Platform} (most : Nat) :
    (turnState f p litBase litCnt o r d len pl).TableBelow most := fun _ _ => .inl rfl

/-- A turn in each of the five states, on any platform, meets the invariant. -/
theorem witness_CompressMemoryAnswers_inv (pl : Platform) :
    (turnState .cSearch 2 0 2 0 0 0 0 pl).Inv ∧ (turnState .cExtend 2 0 2 0 0 2 0 pl).Inv ∧
      (turnState .cEmit 2 0 2 0 1 1 3 pl).Inv ∧ (turnState .cLiteral 0 0 0 0 0 0 0 pl).Inv ∧
      (turnState .cFlush 16 13 3 6 0 0 0 pl).Inv :=
  have scan : 2 ≤ 16 ∧ 2 < 32 ∧ (2 = 0 ∨ 0 + 2 = 2) := by decide
  ⟨turnState_inv (by decide) ⟨scan, Nat.zero_le _, turnState_table _⟩,
    turnState_inv (by decide) ⟨scan, Nat.zero_le _, turnState_table _,
      (by decide : isSearch 16 2 = true), (by decide : 0 < 2), rfl, (by decide : 2 ≤ 8192)⟩,
    turnState_inv (by decide) ⟨scan, .inl (Nat.zero_le _), turnState_table _,
      (by decide : representable .one 3 1 = true), (by decide : 1 ≤ 2),
      (by decide : 2 + 3 ≤ 16 - 3)⟩,
    turnState_inv (by decide) ⟨(by decide : 0 ≤ 16 ∧ 0 < 32 ∧ (0 = 0 ∨ 0 + 0 = 0)), Nat.zero_le _,
      turnState_table _, (by decide : 0 < 16)⟩,
    turnState_inv (by decide) ⟨(by decide : 16 ≤ 16 ∧ 3 < 32 ∧ (3 = 0 ∨ 13 + 3 = 16)),
      (by decide : 6 ≤ 13 + 13 / 32), rfl⟩⟩

/-- The last hash read of a search fails. -/
theorem witness_CompressMemoryAnswers_search :
    let s := turnState .cSearch 2 0 2 0 0 0 0 (failing 0x1004 true false true)
    s.inputs = [] ∧ s.plat.FirstFailure s.turnAccesses (.srcRead 0x1004) :=
  ⟨rfl, [.srcRead 0x1002, .srcRead 0x1003], _, .srcRead, rfl, by decide, by decide⟩

/-- The first read of an extension fails. -/
theorem witness_CompressMemoryAnswers_extend :
    let s := turnState .cExtend 2 0 2 0 0 2 0 (failing 0x1003 true false true)
    s.inputs = [] ∧ s.plat.FirstFailure s.turnAccesses (.srcRead 0x1003) :=
  ⟨rfl, [], _, .srcRead, rfl, by decide, by decide⟩

/-- The last byte of a match token, after its pending run, fails. -/
theorem witness_CompressMemoryAnswers_emit :
    let s := turnState .cEmit 2 0 2 0 1 1 3 (failing 0x8004 false true true)
    s.inputs = [] ∧ s.plat.FirstFailure s.turnAccesses (.dstWrite 0x8004) :=
  ⟨rfl, [.dstWrite 0x8000, .srcRead 0x1000, .dstWrite 0x8001, .srcRead 0x1001, .dstWrite 0x8002,
    .dstWrite 0x8003], _, .dstWrite, rfl, by decide, by decide⟩

/-- INSERT's first read at a head position fails. -/
theorem witness_CompressMemoryAnswers_literal :
    let s := turnState .cLiteral 0 0 0 0 0 0 0 (failing 0x1000 true false true)
    s.inputs = [] ∧ s.plat.FirstFailure s.turnAccesses (.srcRead 0x1000) :=
  ⟨rfl, [], _, .srcRead, rfl, by decide, by decide⟩

/-- The read of a literal that FLUSH emits fails. -/
theorem witness_CompressMemoryAnswers_flush :
    let s := turnState .cFlush 16 13 3 6 0 0 0 (failing 0x100D true false true)
    s.inputs = [] ∧ s.plat.FirstFailure s.turnAccesses (.srcRead 0x100D) :=
  ⟨rfl, [.dstWrite 0x8006], _, .srcRead, rfl, by decide, by decide⟩

/-- A search's second read and a match token's first write are not answered; and a turn that goes on, with a
byte it makes no access to. -/
theorem witness_CompressMemoryAnswers_pending :
    (let s := turnState .cSearch 2 0 2 0 0 0 0 (failing 0x1003 true false false);
      s.inputs = [] ∧ s.plat.FirstPending s.turnAccesses) ∧
    (let s := turnState .cEmit 2 0 2 0 1 1 3 (failing 0x8003 false true false);
      s.inputs = [] ∧ s.plat.FirstPending s.turnAccesses) ∧
    (let s := turnState .cEmit 2 0 2 0 1 1 3 Platform.plain;
      Access.dstWrite 0x8006 ∉ s.turnAccesses ∧ NextWith (step s) (fun t => t.busy = true)) :=
  ⟨⟨rfl, [.srcRead 0x1002], .srcRead 0x1003, _, rfl, by decide, by decide⟩,
    ⟨rfl, [.dstWrite 0x8000, .srcRead 0x1000, .dstWrite 0x8001, .srcRead 0x1001, .dstWrite 0x8002],
      .dstWrite 0x8003, _, rfl, by decide, by decide⟩,
    by decide, _, rfl, by decide⟩

theorem witness_EndsOfTheStream :
    (let s := atState 2 2 1 2;
      s.inputs = [] ∧ s.eng.fsm = .dFetch ∧ s.eng.o < s.eng.ldlen.toNat ∧
        s.eng.ip = s.eng.lslen.toNat) ∧
    (let s := atState 2 2 2 2;
      s.inputs = [] ∧ s.eng.fsm = .dFetch ∧ s.eng.o = s.eng.ldlen.toNat) ∧
    (let s := (atState 2 3 1 1).withFsm .dEnd;
      s.inputs = [] ∧ s.eng.fsm = .dEnd ∧ s.eng.ip < s.eng.lslen.toNat) ∧
    (let s := (atState 2 2 1 1).withFsm .dEnd;
      s.inputs = [] ∧ s.eng.fsm = .dEnd ∧ s.eng.ip = s.eng.lslen.toNat) := by decide

/-- A start that nothing opposes, and one whose configuration is invalid on regions that meet a device. -/
theorem witness_CommandStarts :
    (idleState.eng.fsm = .idle ∧ idleState.resetHeld = false ∧
        (idleState.start .compress 1).Unopposed) ∧
      (let s := { idleState with plat := { Platform.plain with devices := [⟨0x1000, 1⟩] } };
        s.eng.fsm = .idle ∧ s.resetHeld = false ∧ configError (s.start .compress 3).eng ≠ none) :=
  ⟨⟨rfl, rfl, rfl, rfl⟩, rfl, rfl, by decide⟩

theorem witness_CommandIgnoredWhileBusy : decoding.busy = true := by decide

/-- A region that meets a device and one that another block writes are refused (R69, R215), and a launch
that nothing opposes is not. Another block's command that writes the last source byte of a running one, or
reads its last destination byte, is refused; one that reads the source, one whose regions are next to it,
one beside an idle block and one beside a command that will fail its checks are not. -/
theorem witness_RefusedLaunches :
    (let s := { idleState with plat := { Platform.plain with devices := [⟨0x8010, 1⟩] } };
      s.eng.fsm = .idle ∧ configError (s.start .compress 1).eng = none ∧
        ¬(s.start .compress 1).Unopposed) ∧
    (let s := { idleState with plat := { Platform.plain with others := [⟨⟨0x1000, 1⟩, true⟩] } };
      s.eng.fsm = .idle ∧ configError (s.start .compress 1).eng = none ∧
        ¬(s.start .compress 1).Unopposed) ∧
    (idleState.eng.fsm = .idle ∧ idleState.resetHeld = false ∧
      (idleState.start .compress 1).Unopposed) ∧
    (let s := { decoding with inputs := [.setOthers [⟨⟨0x1002, 1⟩, true⟩]] };
      s.busy = true ∧ configError s.eng = none ∧ s.srcSpan.meets ⟨0x1002, 1⟩ = true) ∧
    (let s := { decoding with inputs := [.setOthers [⟨⟨0x8001, 1⟩, false⟩]] };
      s.busy = true ∧ configError s.eng = none ∧ s.dstSpan.meets ⟨0x8001, 1⟩ = true) ∧
    (let s := { decoding with inputs := [.setOthers [⟨⟨0x1000, 3⟩, false⟩, ⟨⟨0x8002, 1⟩, true⟩]] };
      s.busy = true ∧ s.dstSpan.meets ⟨0x1000, 3⟩ = false ∧ s.dstSpan.meets ⟨0x8002, 1⟩ = false ∧
        s.srcSpan.meets ⟨0x8002, 1⟩ = false) ∧
    idleState.busy = false ∧ configError (checkState .decompress 3 0).eng ≠ none := by
  unfold State.Unopposed; decide

/-- The latched configuration of a CHECK with each failing check of R204 (V-C2 to V-C12). -/
def checkOf (lop : Op) (llevel : BitVec 2) (lhtab lsrc lslen ldst ldlen : Word) : State :=
  { State.reset with
    eng := { Engine.reset with
      fsm := .check, lop := lop, llevel := llevel, lhtab := lhtab, lsrc := lsrc, lslen := lslen,
      ldst := ldst, ldlen := ldlen } }

theorem witness_CheckRejects :
    ∀ sc ∈ [(checkOf .compress 3 0x2000 0x1000 16 0x8000 17, Cause.badLevel),
      (checkOf .compress 1 0x20000 0x1000 16 0x8000 17, .badHtabSize),
      (checkOf .compress 1 0x2000 0xFFFFFFF0 0x11 0x8000 0x20, .srcWrap),
      (checkOf .decompress 1 0x2000 0x1000 1 0xFFFFFFFF 2, .dstWrap),
      (checkOf .compress 1 0x2000 0x1000 16 0x100F 32, .regionOverlap),
      (checkOf .compress 1 0x2000 0x1000 32 0x8000 32, .dstTooSmall)],
    sc.1.inputs = [] ∧ sc.1.eng.fsm = .check ∧ sc.1.csr.levelUsed = 0 ∧
      configError sc.1.eng = some sc.2 := by decide

/-- Both ends of the size range, both regions up to 2^32, and an output that is exactly CBOUND. -/
theorem witness_ChecksInOrder :
    (let e := (checkOf .compress 1 0x10000 0xFFFFFFF0 0x10 0x8000 17).eng;
      e.llevel ≠ 3 ∧ (∃ k, k ≤ 16 ∧ e.lhtab.toNat = 2 ^ k) ∧
        e.lsrc.toNat + e.lslen.toNat ≤ 2 ^ 32 ∧ e.ldst.toNat + e.ldlen.toNat ≤ 2 ^ 32 ∧
        e.RegionsApart) ∧
    (let e := (checkOf .decompress 0 3 0x1000 1 0xFFFFFFFE 2).eng;
      e.llevel ≠ 3 ∧ e.lop = .decompress ∧
        e.lsrc.toNat + e.lslen.toNat ≤ 2 ^ 32 ∧ e.ldst.toNat + e.ldlen.toNat ≤ 2 ^ 32 ∧
        e.RegionsApart) := by
  unfold Engine.RegionsApart
  exact ⟨⟨by decide, ⟨16, by decide, by decide⟩, by decide, by decide, by decide⟩,
    ⟨by decide, by decide, by decide, by decide, by decide⟩⟩

theorem witness_CheckPasses :
    (let s := checkState .compress 0 1;
      s.inputs = [] ∧ s.eng.fsm = .check ∧ configError s.eng = none ∧ s.eng.lop = .compress) ∧
    (let s := checkState .decompress 2 3;
      s.inputs = [] ∧ s.eng.fsm = .check ∧ configError s.eng = none ∧
        s.eng.lop = .decompress) := by decide

/-- V-C14 to V-C17: AUTO on both sides of the threshold, for both commands. -/
theorem witness_LevelResolution :
    resolveLevel (checkOf .compress 0 0x2000 0x1000 65536 0x80000 67584).eng = .one ∧
      resolveLevel (checkOf .compress 0 0x2000 0x1000 65537 0x80000 67586).eng = .two ∧
      resolveLevel (checkOf .decompress 0 0x2000 0x1000 16 0x80000 65536).eng = .one ∧
      resolveLevel (checkOf .decompress 0 0x2000 0x1000 16 0x80000 65537).eng = .two ∧
      resolveLevel (checkOf .decompress 1 0x2000 0x1000 16 0x80000 65537).eng = .one ∧
      resolveLevel (checkOf .compress 2 0x2000 0x1000 16 0x80000 65536).eng = .two := by decide

theorem witness_HashTableIsCleared :
    let s := scanState .htInit 0 0 [(8191, 5), (8192, 7)]
    s.inputs = [] ∧ s.eng.fsm = .htInit ∧ s.htGet 8191 = 5 ∧ s.htGet 8192 = 7 := by decide

theorem witness_HashHasKBits : (0 ≤ 16) ∧ (16 ≤ 16) := by decide

theorem witness_HashVectors :
    ((13, 0x1FFF) : Nat × Nat) ∈ [(0, 0), (1, 1), (4, 0xF), (8, 0xFF), (13, 0x1FFF), (16, 0xFFFF)] ∧
      16 ∈ [0, 1, 4, 8, 13, 16] ∧
    ((13, 0xD4F) : Nat × Nat) ∈ [(0, 0), (1, 1), (4, 0x5), (8, 0x61), (13, 0xD4F), (16, 0x6362)] ∧
      ((16, 0x302) : Nat × Nat) ∈ [(0, 0), (1, 1), (4, 0x3), (8, 0x01), (13, 0x143),
        (16, 0x302)] := by decide

theorem witness_TableHoldsMostRecent :
    1 < 2 ∧ 1 + 2 < 4 ∧ hashAt 13 (byteAt (List.replicate 4 0#8)) 1 = 0 := by decide

/-- The finder at the first search position of V-F1: the hash of three zero bytes is 0, so entry 0 holds
position 1 and every other entry is 0. -/
def searching : State :=
  { turnState .cSearch 2 0 2 0 0 0 0 Platform.plain with ht := [(0, 1)] }

theorem searching_complete : searching.TableComplete := by
  intro count hc j _
  cases hc
  show Sparse.get 0 [(0, 1)] j = Sparse.get 0 (insertRange 13 16 searching.inByte [] 0 2) j
  exact congrArg (Sparse.get 0 · j)
    (by decide : [(0, 1)] = insertRange 13 16 searching.inByte [] 0 2)

theorem witness_TableHoldsMostRecent_finder :
    searching.Inv ∧ searching.TableComplete ∧ (∃ t, step searching = .next t) ∧
      searching.eng.fsm = .cSearch ∧ isSearch searching.inputLen searching.eng.p = true ∧
      hashAt searching.eng.k searching.inByte searching.eng.p = 0 ∧ searching.htGet 0 = 1 := by
  have base : (turnState .cSearch 2 0 2 0 0 0 0 Platform.plain).Inv :=
    turnState_inv (by decide) ⟨(by decide : 2 ≤ 16 ∧ 2 < 32 ∧ (2 = 0 ∨ 0 + 2 = 2)),
      Nat.zero_le _, turnState_table _⟩
  refine ⟨{ base with
      table := by decide
      progressing := ⟨base.progressing.1, base.progressing.2.1, fun j _ => ?_⟩ },
    searching_complete, ⟨_, rfl⟩, rfl, by decide, by decide, by decide⟩
  show Sparse.get 0 [(0, 1)] j = 0 ∨ Sparse.get 0 [(0, 1)] j ≤ 1
  by_cases h : j = 0
  · subst h; exact .inr (by decide)
  · left; simp [Sparse.get, Ne.symm h]

/-- The first and the last search position of an input of 16 bytes. -/
theorem witness_ExtendIsLongest : 2 + 12 < 16 ∧ 3 + 12 < 16 := by decide

theorem witness_TokensTileTheInput : (0 ≤ 16) ∧ (16 ≤ 16) := by decide

theorem witness_ShortInputIsLiteral : (List.replicate 14 0#8).length ≤ 14 := by decide

/-- Fifteen bytes that all differ. -/
theorem witness_NoRepeatNoMatch :
    let inp := (List.range 15).map (BitVec.ofNat 8)
    ∀ p r, r < p → p + 3 ≤ inp.length → p - r ≤ Config.maxDist .one →
      ¬(∀ j, j < 3 → byteAt inp (r + j) = byteAt inp (p + j)) := by
  intro inp p r hr hp _ h
  have hall : ∀ p < 13, ∀ r < p, byteAt inp (r + 0) ≠ byteAt inp (p + 0) := by decide
  have hl : inp.length = 15 := rfl
  exact hall p (by omega) r hr (h 0 (by decide))

theorem witness_EncoderEmitsOneInstruction :
    representable .one 3 8192 = true ∧ representable .one 263 8192 = true ∧
      representable .two 9 8191 = true ∧ representable .two 9 73727 = true ∧
      1 ≤ [0x00#8].length ∧ (List.replicate 32 0#8).length ≤ 32 := by decide

theorem witness_OutputWithinBound : (0 ≤ 16) ∧ (16 ≤ 16) := by decide

theorem witness_RoundTrip : (0 ≤ 16) ∧ (16 ≤ 16) := by decide

/-- A command on a platform that is not coherent sees a source of which no byte is dirty at its start, whatever
else is. -/
theorem witness_Visible :
    let s := { idleState with
      plat := { Platform.plain with coherent := false }, dirty := [⟨0x0FFF, 1⟩, ⟨0x1010, 1⟩] }
    (s.start .compress 0).Visible := .inr (by decide)

/-- V-C1. -/
theorem witness_CompressCompletes :
    idleState.Inv ∧ idleState.eng.fsm = .idle ∧ idleState.resetHeld = false ∧
      idleState.inputs = [] ∧ idleState.plat.Answers ∧ (idleState.start .compress 0).Visible ∧
      (idleState.start .compress 0).Unopposed ∧
      configError (idleState.start .compress 0).eng = none ∧
      hashLog idleState.csr.htabSize = some 13 :=
  ⟨idleState_inv, rfl, rfl, rfl, answers_of_no_rules rfl, .inl rfl, ⟨rfl, rfl⟩, by decide, by decide⟩

theorem witness_DecompressCompletes :
    idleState.Inv ∧ idleState.eng.fsm = .idle ∧ idleState.resetHeld = false ∧
      idleState.inputs = [] ∧ idleState.plat.Answers ∧ (idleState.start .decompress 2).Visible ∧
      (idleState.start .decompress 2).Unopposed ∧
      configError (idleState.start .decompress 2).eng = none :=
  ⟨idleState_inv, rfl, rfl, rfl, answers_of_no_rules rfl, .inl rfl, ⟨rfl, rfl⟩, by decide⟩

theorem witness_CommandsTerminate :
    decoding.Inv ∧ decoding.busy = true ∧ decoding.inputs = [] ∧ decoding.plat.Answers :=
  ⟨decoding_inv, by decide, rfl, answers_of_no_rules rfl⟩

theorem witness_StepKeepsInvariant : decoding.Inv ∧ ∃ t, step decoding = .next t :=
  ⟨decoding_inv, decoding_steps⟩

theorem witness_InternalInvariantIsUnreachable : decoding.Inv ∧ ∃ t, step decoding = .next t :=
  ⟨decoding_inv, decoding_steps⟩

/-- An idle block that still holds the report of an earlier BUS_ERROR. -/
theorem witness_NoBusErrorWhereImpossible :
    let s := { idleState with
      csr := { idleState.csr with done := true, errCode := 4, errCause := 1 }
      plat := { Platform.plain with busErrors := false } }
    s.Inv ∧ s.plat.busErrors = false ∧ step s = .next s ∧ s.csr.errCode = 4 :=
  ⟨inv_of_idle (by decide) (by decide) (.inr ⟨.srcRead, by decide, rfl, rfl⟩) (by decide) rfl rfl,
    rfl, rfl, rfl⟩

theorem witness_EngineWritesOnlyDestination :
    decoding.Inv ∧ (∃ t, decoding.engineStep = .next t) ∧ decoding.dstSpan.has 0x8002 = false :=
  ⟨decoding_inv, ⟨_, rfl⟩, by decide⟩

/-- The first access of a literal run's turn and its last; a match's second back-reference, which reads the byte
the turn has written before; and rules for memory that differ, but not at a byte the turn accesses. -/
theorem witness_EngineWritesOnlyDestination_turn :
    (decoding.Inv ∧
      decoding.turnAccesses = [] ++ .srcRead 0x1000 ::
        [.srcRead 0x1001, .dstWrite 0x8000, .srcRead 0x1002, .dstWrite 0x8001] ∧
      decoding.turnAccesses = [.srcRead 0x1000, .srcRead 0x1001, .dstWrite 0x8000,
        .srcRead 0x1002] ++ .dstWrite 0x8001 :: []) ∧
    (copying.Inv ∧
      copying.turnAccesses = [.dstRead 0x8000, .dstWrite 0x8001] ++ .dstRead 0x8001 ::
        [.dstWrite 0x8002, .dstRead 0x8002, .dstWrite 0x8003]) ∧
    (∀ acc, acc ∈ decoding.turnAccesses →
      (decoding.withBus [⟨⟨0x1003, 1⟩, true, true, false⟩]).plat.answer acc =
        decoding.plat.answer acc) ∧
    ∃ t, decoding.engineStep = .next t :=
  ⟨⟨decoding_inv, by decide, by decide⟩, ⟨copying_inv, by decide⟩, by decide, _, rfl⟩

theorem witness_SourceIsHeldWhileBusy :
    decoding.Inv ∧ configError decoding.eng = none ∧ decoding.busy = true ∧
      NextWith (step decoding) (fun t => t.busy = true) :=
  ⟨decoding_inv, by decide, by decide, _, rfl, by decide⟩

theorem witness_HashTableOwnedByCompress :
    (∃ t, decoding.engineStep = .next t) ∧
      decoding.eng.fsm ∉ [Fsm.htInit, .cSearch, .cEmit, .cLiteral] := ⟨⟨_, rfl⟩, by decide⟩

/-- A COMPRESS that has filled its destination and a DECOMPRESS, both about to complete. -/
theorem witness_SuccessfulCompletion :
    (let s := { scanState .complete 16 0 [] with
        eng := { (scanState .complete 16 0 []).eng with o := 17 } };
      s.inputs = [] ∧ s.eng.fsm = .complete ∧ s.eng.o ≤ s.eng.ldlen.toNat ∧
        s.eng.lop = .compress) ∧
    (let s := (atState 3 3 2 2).withFsm .complete;
      s.inputs = [] ∧ s.eng.fsm = .complete ∧ s.eng.o ≤ s.eng.ldlen.toNat ∧
        s.eng.lop = .decompress) := by decide

theorem witness_InterruptFollowsDone :
    idleState.resetHeld = false ∧
      (let s := { idleState with inputs := [.irqSample] }; s.inputs = .irqSample :: []) := by decide

/-- An idle block that holds the report of a success, on a platform that is not coherent, its result not yet
observed. -/
def finished : State :=
  { idleState with
    csr := { idleState.csr with done := true }
    plat := { Platform.plain with coherent := false }
    unseen := [⟨0x8000, 2⟩] }

/-- The first and the last word of the window; STATUS with DONE = 1 and a result not yet observed, which the
read observes (R74, notes/assumptions/15); a read while reset is held. -/
theorem witness_RegisterReads :
    (let s := { idleState with inputs := [.csrRead 0x00 4] };
      s.inputs = .csrRead (s.plat.base + BitVec.ofNat 32 0x00) 4 :: []) ∧
    (let s := { idleState with inputs := [.csrRead 0x3C 4] };
      s.inputs = .csrRead (s.plat.base + BitVec.ofNat 32 0x3C) 4 :: []) ∧
    (let s := { finished with inputs := [.csrRead 0x04 4] };
      s.csr.done = true ∧ s.inputs = .csrRead (s.plat.base + BitVec.ofNat 32 0x04) 4 :: [] ∧
        NextWith (step s) (fun t => t.resp = .word 2 ∧ t.unseen = [] ∧ t.stale = [⟨0x8000, 2⟩])) ∧
    (let s := { State.reset with resetHeld := true, inputs := [.csrRead 0x1C 4] };
      s.resetHeld = true ∧ s.inputs = .csrRead (s.plat.base + BitVec.ofNat 32 0x1C) 4 :: []) := by
  refine ⟨by decide, by decide, ⟨rfl, rfl, _, rfl, ?_⟩, by decide⟩
  decide

/-- A write to SRC_ADDR while a command runs, and one to IRQ_EN (V-R4, V-R5). -/
theorem witness_ConfigurationWrites :
    (let s := { decoding with inputs := [.csrWrite 0x0C 4 5] };
      s.resetHeld = false ∧ s.inputs = .csrWrite (s.plat.base + BitVec.ofNat 32 0x0C) 4 5 :: []) ∧
    (let s := { idleState with inputs := [.csrWrite 0x08 4 0xFFFFFFFF] };
      s.resetHeld = false ∧ s.inputs = .csrWrite (s.plat.base + BitVec.ofNat 32 0x08) 4 0xFFFFFFFF :: []) := by decide

/-- V-R2, V-R6 and a CMD write with START = 0; a STATUS write that clears DONE = 1, one whose bit [1] is 0, and
one while reset is held. -/
theorem witness_StatusAndReadOnlyWrites :
    (let s := { idleState with inputs := [.csrWrite 0x04 4 0xFFFFFFFF] };
      s.inputs = .csrWrite (s.plat.base + BitVec.ofNat 32 0x04) 4 0xFFFFFFFF :: []) ∧
    (let s := { idleState with inputs := [.csrWrite 0x28 4 0x12345678] };
      s.inputs = .csrWrite (s.plat.base + BitVec.ofNat 32 0x28) 4 0x12345678 :: []) ∧
    (let s := { idleState with inputs := [.csrWrite 0x00 4 0xE] };
      s.inputs = .csrWrite (s.plat.base + BitVec.ofNat 32 0x00) 4 0xE :: [] ∧
        (0xE#32).getLsbD 0 = false) ∧
    (let s := { finished with inputs := [.csrWrite 0x04 4 2] };
      s.csr.done = true ∧ s.resetHeld = false ∧
        s.inputs = .csrWrite (s.plat.base + BitVec.ofNat 32 0x04) 4 2 :: [] ∧
        NextWith (step s) (fun t => t.csr.done = false)) ∧
    (let s := { finished with inputs := [.csrWrite 0x04 4 0xFFFFFFFD] };
      s.csr.done = true ∧
        s.inputs = .csrWrite (s.plat.base + BitVec.ofNat 32 0x04) 4 0xFFFFFFFD :: [] ∧
        NextWith (step s) (fun t => t.csr.done = true)) ∧
    (let s := { State.reset with resetHeld := true, inputs := [.csrWrite 0x04 4 2] };
      s.resetHeld = true ∧
        s.inputs = .csrWrite (s.plat.base + BitVec.ofNat 32 0x04) 4 2 :: [] ∧
        NextWith (step s) (fun t => t.resp = .done)) :=
  ⟨by decide, by decide, by decide, ⟨rfl, rfl, rfl, _, rfl, by decide⟩,
    ⟨rfl, rfl, _, rfl, by decide⟩, ⟨rfl, rfl, _, rfl, rfl⟩⟩

/-- V-R7: a 16-bit read at 0x04, and a 32-bit write at 0x3E. -/
theorem witness_BadAccessChangesNothing :
    (let s := { idleState with inputs := [.csrRead 0x04 2] };
      0x04 < 64 ∧ (2 ≠ 4 ∨ 0x04 % 4 ≠ 0) ∧
        s.inputs = .csrRead (s.plat.base + BitVec.ofNat 32 0x04) 2 :: []) ∧
    (let s := { idleState with inputs := [.csrWrite 0x3E 4 1] };
      0x3E < 64 ∧ (4 ≠ 4 ∨ 0x3E % 4 ≠ 0) ∧
        s.inputs = .csrWrite (s.plat.base + BitVec.ofNat 32 0x3E) 4 1 :: []) := by decide

/-- The first source byte and the last destination byte of a running command, a byte next to them, and any
byte of an idle block. -/
theorem witness_MemoryWrites :
    (let s := { decoding with inputs := [.memWrite 0x1000 7] };
      s.inputs = .memWrite 0x1000 7 :: [] ∧ s.busy = true ∧ s.srcSpan.has 0x1000 = true) ∧
    (let s := { decoding with inputs := [.memWrite 0x8001 7] };
      s.inputs = .memWrite 0x8001 7 :: [] ∧ s.busy = true ∧ s.dstSpan.has 0x8001 = true) ∧
    (let s := { decoding with inputs := [.memWrite 0x8002 7] };
      s.inputs = .memWrite 0x8002 7 :: [] ∧
        (s.srcSpan.has 0x8002 || s.dstSpan.has 0x8002) = false) ∧
    (let s := { idleState with inputs := [.memWrite 0x1000 7] };
      s.inputs = .memWrite 0x1000 7 :: [] ∧ s.busy = false) := by decide

/-- A platform that is not coherent, with a range the host has not cleaned, one whose DONE it has not
observed, and one it has not invalidated. -/
def cached (s : State) (inputs : List Input) : State :=
  { s with
    plat := { Platform.plain with coherent := false }
    dirty := [⟨0x1002, 1⟩], uncleaned := [⟨0x1002, 1⟩]
    unseen := [⟨0x8000, 2⟩], stale := [⟨0x9000, 2⟩]
    inputs := inputs }

/-- A byte of the destination of a running command; a byte of memory; on a platform that is not coherent the
first byte of an unseen and the last of a stale range, and the byte after it. -/
theorem witness_MemoryReads :
    (let s := { decoding with inputs := [.memRead 0x8001] };
      s.inputs = .memRead 0x8001 :: [] ∧ s.busy = true ∧ s.dstSpan.has 0x8001 = true) ∧
    (let s := { idleState with inputs := [.memRead 0x8001] };
      s.inputs = .memRead 0x8001 :: [] ∧ s.busy = false ∧ s.plat.coherent = true) ∧
    (let s := cached idleState [.memRead 0x8000];
      s.inputs = .memRead 0x8000 :: [] ∧ s.plat.coherent = false ∧
        Spans.has s.unseen 0x8000 = true) ∧
    (let s := cached idleState [.memRead 0x9001];
      s.inputs = .memRead 0x9001 :: [] ∧ Spans.has s.stale 0x9001 = true) ∧
    (let s := cached idleState [.memRead 0x9002];
      s.inputs = .memRead 0x9002 :: [] ∧ Spans.has s.unseen 0x9002 = false ∧
        Spans.has s.stale 0x9002 = false) := by decide

/-- A command about to complete and one about to end in CHECK; a host that reads STATUS and one that takes
irq, both with DONE = 1; an invalidation; a write. -/
theorem witness_MemoryReads_cache :
    (let s := cached ((atState 3 3 2 2).withFsm .complete) [];
      s.busy = true ∧ NextWith s.engineStep (fun t => t.busy = false ∧ t.csr.errCode = 0)) ∧
    (let s := cached (checkState .decompress 3 0) [];
      s.busy = true ∧ NextWith s.engineStep (fun t => t.busy = false ∧ t.csr.errCode = 2)) ∧
    (let s := cached { idleState with csr := { idleState.csr with done := true } } [.csrRead 4 4];
      s.csr.done = true ∧ s.inputs = .csrRead (s.plat.base + 0x04) 4 :: []) ∧
    (let s := cached { idleState with csr := { idleState.csr with done := true, doneIe := true } }
        [.irqSample];
      s.csr.done = true ∧ s.csr.doneIe = true ∧ s.inputs = .irqSample :: []) ∧
    (let s := cached idleState [.cacheInvalidate 0x9001 1];
      s.inputs = .cacheInvalidate 0x9001 1 :: []) ∧
    (let s := cached idleState [.memWrite 0x8000 7];
      s.inputs = .memWrite 0x8000 7 :: [] ∧ s.plat.coherent = false ∧
        NextWith (step s) (fun _ => True)) :=
  ⟨⟨by decide, _, rfl, by decide, by decide⟩, ⟨by decide, _, rfl, by decide, by decide⟩, by decide,
    by decide, by decide, rfl, rfl, _, rfl, trivial⟩

/-- The invalidation half of R74 in one run: what a command wrote is hidden from the host after an
invalidation before DONE was observed, and is not after one that follows the observation. -/
theorem test_invalidate_after_done :
    (let s := cached { idleState with csr := { idleState.csr with done := true } } [];
      (s.cacheInvalidate 0x8000 2).readIsFree 0x8000 = true ∧
        ((s.hostCsrRead 4 4).cacheInvalidate 0x8000 2).readIsFree 0x8000 = false) := by decide

/-- A running command whose source has one byte not cleaned at its start, read as such and the byte after it
read as memory holds it; a step of it; a write and a clean; a start. -/
theorem witness_UncleanedBytesAreFree :
    (let s := cached decoding [];
      s.plat.coherent = false ∧ s.busy = true ∧ 2 < s.eng.lslen.toNat ∧
        Spans.has s.uncleaned (s.srcAddr 2) = true ∧ 1 < s.eng.lslen.toNat ∧
        Spans.has s.uncleaned (s.srcAddr 1) = false ∧
        NextWith (step s) (fun t => t.busy = true)) ∧
    (let s := cached decoding [.memWrite 0x9000 7];
      s.inputs = .memWrite 0x9000 7 :: [] ∧ NextWith (step s) (fun _ => True)) ∧
    (let s := cached decoding [.cacheClean 0x1002 1]; s.inputs = .cacheClean 0x1002 1 :: []) ∧
    (let s := cached idleState [];
      s.eng.fsm = .idle ∧ s.resetHeld = false ∧
        NextWith (exec (.compress 1 0) s) (fun t =>
          2 < t.eng.lslen.toNat ∧ Spans.has s.dirty (t.srcAddr 2) = true ∧
            Spans.has s.dirty (t.srcAddr 1) = false)) :=
  ⟨⟨rfl, by decide, by decide, by decide, by decide, by decide, _, rfl, by decide⟩,
    ⟨rfl, _, rfl, trivial⟩, rfl, ⟨rfl, rfl, _, rfl, by decide, by decide, by decide⟩⟩

/-- The clean half of R74: a byte cleaned before the CMD write is visible to the command, and one cleaned
after it is not. -/
theorem test_clean_before_start :
    let s := cached idleState []
    Spans.has ((s.cacheClean 0x1002 1).start .compress 1).uncleaned 0x1002 = false ∧
      Spans.has ((s.start .compress 1).cacheClean 0x1002 1).uncleaned 0x1002 = true := by decide

/-- The block held in reset, with something still to come. -/
def heldState (inputs : List Input) : State :=
  { State.reset with resetHeld := true, inputs := inputs }

theorem heldState_inv (inputs : List Input) : (heldState inputs).Inv where
  memory := rfl
  table := rfl
  legal := .inl ⟨rfl, rfl⟩
  level := by show (0 : BitVec 2) ≠ 3; decide
  unreported h := by cases h
  unresolved h := by cases h
  configured h := absurd rfl h
  progressing := trivial
  held _ := ⟨rfl, rfl⟩

/-- Reset while a command runs, at a byte of its destination and one outside it; a block held in reset, its
engine's turn, a register write at both ends of the window, and the release. -/
theorem witness_ResetTakesEffect :
    (let s := { decoding with inputs := [.resetAssert] };
      s.inputs = .resetAssert :: [] ∧ s.busy = true ∧ s.dstSpan.has 0x8001 = true ∧
        s.dstSpan.has 0x8002 = false) ∧
    ((heldState [.memWrite 0x1000 7]).Inv ∧ (heldState [.memWrite 0x1000 7]).resetHeld = true ∧
      (∃ t, step (heldState [.memWrite 0x1000 7]) = .next t) ∧
      ∀ later, (heldState [.memWrite 0x1000 7]).inputs ≠ .resetRelease :: later) ∧
    ((heldState []).Inv ∧ (heldState []).inputs = []) ∧
    (let s := heldState [.csrWrite 0x00 4 1];
      s.resetHeld = true ∧
        s.inputs = .csrWrite (s.plat.base + BitVec.ofNat 32 0x00) 4 1 :: []) ∧
    (let s := heldState [.csrWrite 0x3C 4 1];
      s.inputs = .csrWrite (s.plat.base + BitVec.ofNat 32 0x3C) 4 1 :: []) ∧
    (heldState [.resetRelease]).inputs = .resetRelease :: [] :=
  ⟨by decide, ⟨heldState_inv _, rfl, ⟨_, rfl⟩, fun _ h => by cases h⟩, ⟨heldState_inv _, rfl⟩,
    by decide, by decide, rfl⟩

end Sys2Proof.Tests
end

section
/-! PROOF. What the stream decoder reads, and the meaning of a match (R93 to R100, R174). -/

namespace Sys2Proof
open Machine

/-! ### What the stream decoder reads -/

/-- The length bytes of value x are x / 255 + 1 bytes at the head (R96). -/
theorem lengthBytes_some {bytes : List Byte} : ∀ {x : Nat} {after : List Byte},
    lengthBytes bytes = some (x, after) →
      ∃ front, front.length = x / 255 + 1 ∧ bytes = front ++ after := by
  induction bytes with
  | nil => intro x after h; cases h
  | cons c rest ih =>
    intro x after h
    unfold lengthBytes at h
    split at h
    · split at h
      · cases h
      · rename_i y after' hrest
        obtain ⟨front, hlen, rfl⟩ := ih hrest
        cases h
        exact ⟨c :: front, by simp only [List.length_cons]; omega, rfl⟩
    · rename_i hc
      cases h
      have hlt : c.toNat ≠ 255 := fun h255 => hc (BitVec.eq_of_toNat_eq h255)
      have := c.isLt
      exact ⟨[c], by simp only [List.length_singleton]; omega, rfl⟩

/-- The bytes begin with a literal run of at least one byte, or with a whole match: its length is at least 3,
its distance at least 1, and it has as many bytes as its size says (R93 to R100). -/
def ReadsInstruction (bytes : List Byte) (i : Instr) (rest : List Byte) : Prop :=
  (∃ op lits, i = .lit lits ∧ lits ≠ [] ∧ bytes = op :: lits ++ rest) ∨
    ∃ len d front, matchOf i = some (len, d) ∧ 3 ≤ len ∧ 1 ≤ d ∧ front.length = i.size ∧
      bytes = front ++ rest

theorem decodeLiteral_reads {op : Byte} {f : Nat} {bytes rest : List Byte} {i : Instr}
    (h : decodeLiteral f bytes = .ok (i, rest)) : ReadsInstruction (op :: bytes) i rest := by
  unfold decodeLiteral at h
  rcases splitExact_cases (f + 1) bytes with ⟨lits, after, hs, hlen, hb⟩ | ⟨hs, -⟩ <;> rw [hs] at h
  · cases h
    exact .inl ⟨op, lits, rfl, List.ne_nil_of_length_eq_add_one hlen, by rw [List.cons_append, hb]⟩
  · cases h

theorem shortInstr_spec (t d : Nat) :
    ∃ len, matchOf (shortInstr t d) = some (len, d) ∧ 3 ≤ len ∧ (shortInstr t d).size = 2 := by
  unfold shortInstr
  split <;> exact ⟨_, rfl, by decide, rfl⟩

theorem decodeShort_reads {op : Byte} {t f : Nat} {bytes rest : List Byte} {i : Instr}
    (h : decodeShort t f bytes = .ok (i, rest)) : ReadsInstruction (op :: bytes) i rest := by
  unfold decodeShort at h
  split at h
  · cases h
  · rename_i b after
    cases h
    obtain ⟨len, hm, hlen, hsize⟩ := shortInstr_spec t (nearDistance f b)
    exact .inr ⟨len, _, [op, b], hm, hlen, Nat.le_add_left _ _, hsize.symm, rfl⟩

theorem decodeExtended_reads {level : Level} {op : Byte} {f : Nat} {bytes rest : List Byte}
    {i : Instr} (h : decodeExtended level f bytes = .ok (i, rest)) :
    ReadsInstruction (op :: bytes) i rest := by
  unfold decodeExtended at h
  split at h
  · cases h
  · cases h
  · rename_i x b after hx
    obtain ⟨front, hlen, rfl⟩ := lengthBytes_some hx
    have hnear : ∀ j : Instr, matchOf j = some (9 + x, nearDistance f b) →
        j.size = (9 + x - 9) / 255 + 1 + 2 → ReadsInstruction (op :: (front ++ b :: after)) j after :=
      fun j hm hsize => .inr ⟨_, _, op :: (front ++ [b]), hm, by omega, Nat.le_add_left _ _,
        by simp [hsize, hlen], by simp⟩
    split at h
    · cases h; exact hnear _ rfl rfl
    · split at h
      · split at h
        · rename_i oh ol after'
          cases h
          refine .inr ⟨_, _, op :: (front ++ [b, oh, ol]), rfl, ?_, ?_, ?_, by simp⟩
          · exact Nat.le_add_right_of_le (by decide)
          · exact Nat.le_add_right_of_le (by decide)
          · simp [Instr.size, Config.extMinLen, hlen]
        · cases h
      · cases h; exact hnear _ rfl rfl

theorem decode_reads {level : Level} {bytes rest : List Byte} {i : Instr}
    (h : decode level bytes = .ok (i, rest)) : ReadsInstruction bytes i rest := by
  cases bytes with
  | nil => cases h
  | cons op bytes =>
    rw [decode] at h
    split at h
    · exact decodeLiteral_reads h
    · split at h
      · exact decodeShort_reads h
      · exact decodeExtended_reads h

/-- A match's meaning is runMatch with its size, its length and its distance (R181 to R189). -/
theorem exec_of_matchOf {i : Instr} {len d : Nat} (h : matchOf i = some (len, d)) (s : State) :
    exec i s = .next (s.runMatch i.size len d) := by
  cases i <;> cases h <;> rfl

/-- A match on the bytes produced so far: overrun first, then the distance (R174). -/
theorem produce_of_matchOf {i : Instr} {len d : Nat} (h : matchOf i = some (len, d)) (orig : Nat)
    (out : List Byte) :
    produce orig i out =
      if orig < out.length + len then .error .overrun
      else if out.length < d then .error .distBeforeStart
      else .ok (copyList d len out) := by
  cases i <;> cases h <;> rfl

theorem Instr.size_pos (i : Instr) : 0 < i.size := by
  cases i <;> simp [Instr.size]

/-- An instruction that is read takes as many bytes as its size says, at least one, and the rest follows
(R100). -/
theorem ReadsInstruction.rest_eq {bytes rest : List Byte} {i : Instr}
    (h : ReadsInstruction bytes i rest) :
    i.size + rest.length = bytes.length ∧ rest = bytes.drop i.size := by
  rcases h with ⟨op, lits, rfl, -, rfl⟩ | ⟨len, d, front, -, -, -, hsize, rfl⟩
  · have hsize : (op :: lits).length = (Instr.lit lits).size := by
      simp [Instr.size, Nat.add_comm]
    rw [← hsize]
    exact ⟨by rw [List.length_append], by rw [List.drop_left]⟩
  · rw [← hsize]
    exact ⟨by rw [List.length_append], by rw [List.drop_left]⟩

end Sys2Proof
end

section
/-! PROOF. The hash table: what an engine turn leaves of it (R45, R46), and its initialisation (R124). -/

namespace Sys2Proof.Machine
open Sys2Proof

/-! ### What a turn of the engine leaves alone -/

namespace State

/-- What holds of the state reached, of the waiting state and of every bus error holds after the accesses. -/
theorem access_induction {P : State → Prop} {s : State} (accs : List Access) {waiting after : State}
    (hfail : ∀ acc : Access, P (s.raiseBus acc.cause)) (hwait : P waiting) (hafter : P after) :
    P (s.access accs waiting after) := by
  rcases s.access_cases accs waiting after with ⟨-, h⟩ | ⟨cause, hc, h⟩ | ⟨-, h⟩ <;> rw [h]
  · exact hafter
  · obtain ⟨⟨acc, -, rfl⟩, -⟩ := Platform.answers_failed hc
    exact hfail acc
  · exact hwait

theorem access_ht {s : State} (accs : List Access) {waiting after : State}
    (hwait : waiting.ht = s.ht) (hafter : after.ht = s.ht) :
    (s.access accs waiting after).ht = s.ht :=
  access_induction (P := fun t => t.ht = s.ht) accs (fun acc => raiseBus_ht s acc.cause) hwait hafter

theorem truncated_ht (s : State) (cause : Cause) (fetched : Nat) :
    (s.truncated cause fetched).ht = s.ht :=
  access_ht (s := s.beginAt) _ rfl (raise_ht _ _ _)

theorem copyMatch_ht (s : State) : s.copyMatch.ht = s.ht :=
  access_ht _ rfl (by simp [produced])

theorem copyLiteral_ht (s : State) (bytes : List Byte) : (s.copyLiteral bytes).ht = s.ht :=
  access_ht _ rfl (by simp [produced])

theorem resumeCopy_ht (s : State) : s.resumeCopy.ht = s.ht := by
  unfold resumeCopy
  split
  · exact copyLiteral_ht s _
  · exact copyMatch_ht s

theorem checked_ht (s : State) {copy : State → State} (hcopy : ∀ t, (copy t).ht = t.ht) :
    (s.checked copy).ht = s.ht := by
  rcases s.checked_cases copy with ⟨c, -, h⟩ | ⟨-, h⟩ <;> rw [h]
  · exact raise_ht s c _
  · exact hcopy _

theorem runMatch_ht (s : State) (size len d : Nat) : (s.runMatch size len d).ht = s.ht := by
  unfold runMatch
  split
  · exact truncated_ht s _ _
  · exact access_ht (s := s.beginAt) _ rfl (checked_ht _ copyMatch_ht)

theorem runLiteral_ht (s : State) (bytes : List Byte) : (s.runLiteral bytes).ht = s.ht := by
  unfold runLiteral
  split
  · exact truncated_ht s _ _
  · exact access_ht (s := s.beginAt) _ rfl (checked_ht _ fun t => copyLiteral_ht t bytes)

theorem launch_ht {s t : State} {op : Op} {level : BitVec 2} (h : s.launch op level = .next t) :
    t.ht = s.ht := by
  rcases s.launch_cases op level with ⟨-, hl⟩ | ⟨-, -, -, hl⟩ | ⟨why, -, -, -, hl⟩ <;> rw [hl] at h
  · cases h; rfl
  · cases h; rfl
  · cases h

/-- No instruction's meaning changes the hash table (R46). -/
theorem exec_ht {s t : State} {i : Instr} (h : exec i s = .next t) : t.ht = s.ht := by
  by_cases hi : i.isStream = true
  · rcases exec_stream_cases hi s with ⟨bytes, -, he⟩ | ⟨len, d, -, he⟩ <;> rw [he] at h <;> cases h
    · exact runLiteral_ht s bytes
    · exact runMatch_ht s i.size len d
  · cases i <;> simp [Instr.isStream] at hi <;> exact launch_ht h

theorem fetchExec_ht {s t : State} (h : s.fetchExec = .next t) : t.ht = s.ht := by
  unfold fetchExec at h
  split at h
  · exact exec_ht h
  · cases h; exact raise_ht s _ _
  · cases h; exact truncated_ht s _ _
  · cases h; exact truncated_ht s _ _

theorem stepCheck_ht (s : State) : s.stepCheck.ht = s.ht := by
  unfold stepCheck
  split
  · exact raise_ht s _ _
  · dsimp only
    split
    · simp
    · split <;> rfl

theorem stepExtend_ht (s : State) : s.stepExtend.ht = s.ht :=
  access_ht _ rfl rfl

theorem stepFlush_ht (s : State) : s.stepFlush.ht = s.ht :=
  access_ht _ rfl s.pendingFlush_spec.2.1

theorem stepEnd_ht (s : State) : s.stepEnd.ht = s.ht := by
  unfold stepEnd
  split
  · exact raise_ht s _ _
  · rfl

theorem succeed_ht (s : State) : s.succeed.ht = s.ht := by
  unfold succeed
  split <;> simp

/-- Reading the table after its first n entries are cleared (R45). -/
theorem htGet_htClear (s : State) (n j : Nat) :
    (s.htClear n).htGet j = if j < n then 0 else s.htGet j := by
  have h := Sparse.get_filter 0 s.ht (fun key => decide (n ≤ key)) j
  simp only [decide_eq_true_eq] at h
  rw [htGet, htClear, h]
  by_cases hj : j < n
  · rw [if_neg (not_le.2 hj), if_pos hj]
  · rw [if_pos (not_lt.1 hj), if_neg hj]; rfl

end State

/-- Settles O48: each of the ten other engine states by the lemma for its turn. -/
theorem hashTableOwnedByCompress : Obligations.HashTableOwnedByCompress := by
  intro s t h hfsm
  unfold State.engineStep at h
  cases hf : s.eng.fsm <;> rw [hf] at h hfsm <;> dsimp only at h
  case htInit | cSearch | cEmit | cLiteral => simp at hfsm
  case idle => cases h; rfl
  case check => cases h; exact s.stepCheck_ht
  case cExtend => cases h; exact s.stepExtend_ht
  case cFlush => cases h; exact s.stepFlush_ht
  case dFetch =>
    unfold State.stepFetch at h
    split at h
    · exact State.fetchExec_ht h
    · cases h; rfl
  case dOperand => exact State.fetchExec_ht h
  case dCheck => cases h; exact s.checked_ht State.resumeCopy_ht
  case dCopy => cases h; exact s.resumeCopy_ht
  case dEnd => cases h; exact s.stepEnd_ht
  case complete => cases h; exact s.succeed_ht

/-- Settles O28: the step is stepHtInit, whose table is read by htGet_htClear. -/
theorem hashTableIsCleared : Obligations.HashTableIsCleared := by
  intro s hin hfsm
  refine ⟨s.stepHtInit, ?_, fun j => s.htGet_htClear _ j, rfl, rfl, rfl, rfl⟩
  rw [State.step_of_no_inputs hin]
  unfold State.engineStep
  rw [hfsm]

end Sys2Proof.Machine
end

section
/-! PROOF. STATUS, irq and the register window as the host reads them (R23 to R30, R200, R241). -/

namespace Sys2Proof.Machine
open Sys2Proof

/-- The STATUS word with its width written as the sum of its fields' widths. -/
theorem State.statusWord_eq_cast (s : State) :
    s.statusWord = BitVec.cast (show 14 + 2 + 8 + 4 + 1 + 1 + 1 + 1 = 32 from rfl)
      (0#14 ++ s.csr.levelUsed ++ s.csr.errCause ++ s.csr.errCode ++ 0#1 ++
        BitVec.ofBool s.csr.err ++ BitVec.ofBool s.csr.done ++ BitVec.ofBool s.busy) := rfl

/-- Settles O50: every field is read off the concatenation. -/
theorem statusWordLayout : Obligations.StatusWordLayout := by
  intro s
  change _ = s.busy ∧ _ ∧ _ = s.csr.err ∧ _
  rw [State.statusWord_eq_cast]
  refine ⟨?busy, ?done, ?err, ?bit3, ?code, ?cause, ?level, ?reserved⟩
  case busy | done | err | bit3 => simp only [BitVec.getLsbD_cast, BitVec.getLsbD_append]; simp
  case code | cause | level | reserved =>
    simp (disch := omega) only [BitVec.extractLsb'_cast, BitVec.extractLsb'_append_eq_of_le,
      BitVec.extractLsb'_append_eq_right, BitVec.extractLsb'_eq_self, BitVec.ofNat_eq_ofNat,
      Nat.reduceSub]

/-- Settles O51: a command start and reset clear DONE, and a look at irq changes the host's caches alone. -/
theorem interruptFollowsDone : Obligations.InterruptFollowsDone := by
  intro s v op level later
  refine ⟨by simp [State.irq], by simp [State.irq, State.clearDone], rfl, rfl, ?_, ?_⟩
  · intro hheld
    exact ⟨s.withCsr { s.csr with doneIe := v.getLsbD 0 }, by simp [State.writeReg, hheld], rfl, rfl⟩
  · intro hin
    exact ⟨State.sampleIrq { s with inputs := later }, by simp [step, hin, State.inputStep], rfl,
      State.sampleIrq_csr _, State.sampleIrq_eng _, State.sampleIrq_ht _, State.sampleIrq_mem _,
      State.sampleIrq_unspec _, State.sampleIrq_resetHeld _⟩

namespace State

/-- Observing DONE does not depend on the inputs still to come. -/
theorem observeDone_withInputs (s : State) (later : List Input) :
    State.observeDone { s with inputs := later } = { s.observeDone with inputs := later } := by
  unfold observeDone
  split <;> rfl

/-- A 32-bit read at a word of the window is answered with the register's value; only the read of STATUS
does anything else, which is to observe DONE (R200). -/
theorem hostCsrRead_word (s : State) {off : Nat} (hoff : off < 64) (hword : off % 4 = 0) :
    s.hostCsrRead (s.plat.base + BitVec.ofNat 32 off) 4 =
      (if off = 0x04 then s.observeDone else s).answered (.word (s.csrValue off)) := by
  simp [hostCsrRead, Platform.windowOffset_base _ hoff, accessLegal, hword]

end State

/-- Settles O52: the sixteen words are the registers' values, and every word is read in one way. -/
theorem registerReads : Obligations.RegisterReads := by
  intro s off value later hmem hin
  have hreg : value = s.csrValue off ∧ off < 64 ∧ off % 4 = 0 := by
    simp only [List.mem_cons, List.not_mem_nil, or_false, Prod.mk.injEq] at hmem
    rcases hmem with ⟨rfl, rfl⟩ | ⟨rfl, rfl⟩ | ⟨rfl, rfl⟩ | ⟨rfl, rfl⟩ | ⟨rfl, rfl⟩ | ⟨rfl, rfl⟩ |
      ⟨rfl, rfl⟩ | ⟨rfl, rfl⟩ | ⟨rfl, rfl⟩ | ⟨rfl, rfl⟩ | ⟨rfl, rfl⟩ | ⟨rfl, rfl⟩ | ⟨rfl, rfl⟩ |
      ⟨rfl, rfl⟩ | ⟨rfl, rfl⟩ | ⟨rfl, rfl⟩ <;> exact ⟨rfl, by decide, by decide⟩
  obtain ⟨rfl, hoff, hword⟩ := hreg
  have hstep : step s = .next (State.hostCsrRead { s with inputs := later }
      (s.plat.base + BitVec.ofNat 32 off) 4) := by
    unfold step
    rw [hin]
    rfl
  rw [hstep, State.hostCsrRead_word _ hoff hword, State.observeDone_withInputs]
  split <;> rfl

end Sys2Proof.Machine
end

section
/-! PROOF. What a running command keeps, and when a state meets the invariant. -/

namespace Sys2Proof.Machine
open Sys2Proof

/-! ### The finder's and the encoder's bounds -/

theorem hashAt_lt (k : Nat) (rd : Nat → Byte) (q : Nat) : hashAt k rd q < 2 ^ 16 :=
  BitVec.isLt _

/-- An entry after INSERT of count positions from q on is an old one or one of these positions. -/
theorem get_insertRange_cases (k n : Nat) (rd : Nat → Byte) (j count : Nat) :
    ∀ (ht : HashTable) (q : Nat),
      Sparse.get 0 (insertRange k n rd ht q count) j = Sparse.get 0 ht j ∨
        Sparse.get 0 (insertRange k n rd ht q count) j < q + count := by
  induction count with
  | zero => intro ht q; exact .inl rfl
  | succ count ih =>
    intro ht q
    rw [insertRange]
    rcases ih (insertAt k n rd ht q) (q + 1) with h | h
    · rw [h, get_insertAt]
      split
      · exact .inr (by omega)
      · exact .inl rfl
    · exact .inr (by omega)

theorem wf_insertAt {k n : Nat} {rd : Nat → Byte} {ht : HashTable} (q : Nat)
    (h : Sparse.wfAbove 0 (2 ^ 16) none ht = true) :
    Sparse.wfAbove 0 (2 ^ 16) none (insertAt k n rd ht q) = true := by
  unfold insertAt
  split
  · exact Sparse.wfAbove_set 0 q (hashAt_lt k rd q) h
  · exact h

theorem wf_insertRange {k n : Nat} {rd : Nat → Byte} (count : Nat) : ∀ {ht : HashTable} (q : Nat),
    Sparse.wfAbove 0 (2 ^ 16) none ht = true →
    Sparse.wfAbove 0 (2 ^ 16) none (insertRange k n rd ht q count) = true := by
  induction count with
  | zero => intro ht q h; exact h
  | succ count ih => intro ht q h; exact ih (q + 1) (wf_insertAt q h)

/-- EXTEND's loop lengthens the match, up to the tail of the input and to MAX_LEN (R129). -/
theorem extendLoop_bounds (level : Level) (n : Nat) (rd : Nat → Byte) (p r fuel : Nat) :
    ∀ len, len ≤ extendLoop level n rd p r fuel len ∧
      (p + len ≤ n - 3 → p + extendLoop level n rd p r fuel len ≤ n - 3) ∧
      (level = .one → len ≤ 263 → extendLoop level n rd p r fuel len ≤ 263) := by
  induction fuel with
  | zero => intro len; exact ⟨le_rfl, id, fun _ => id⟩
  | succ fuel ih =>
    intro len
    unfold extendLoop
    split
    · rename_i hgo
      obtain ⟨hin, hmax, -⟩ := hgo
      obtain ⟨hle, htail, hone⟩ := ih (len + 1)
      refine ⟨by omega, fun _ => htail hin, ?_⟩
      rintro rfl -
      exact hone rfl (by simpa [Config.belowMaxLen] using hmax)
    · exact ⟨le_rfl, id, fun _ => id⟩

theorem representable_iff {level : Level} {len d : Nat} :
    representable level len d = true ↔ 3 ≤ len ∧ 1 ≤ d ∧ d ≤ Config.maxDist level ∧
      (8 < len ∨ d ≤ 8192) ∧ (level = .two ∨ len ≤ 263) := by
  simp [representable, Config.minMatch, Config.shortMaxLen, Config.shortMaxDist, Config.maxLen1,
    and_assoc]

/-- What EXTEND finds at a search position and ACCEPT lets through is representable (R136). -/
theorem representable_extend {level : Level} {n : Nat} {rd : Nat → Byte} {p r d : Nat}
    (hd : 1 ≤ d) (hmax : d ≤ Config.maxDist level)
    (hacc : accept level d (extend level n rd p r) = true) :
    representable level (extend level n rd p r) d = true := by
  obtain ⟨hle, -, hone⟩ := extendLoop_bounds level n rd p r n 3
  rw [representable_iff]
  rw [accept_iff] at hacc
  change 3 ≤ extend level n rd p r at hle
  refine ⟨hle, hd, hmax, ?_, ?_⟩
  · cases level with
    | one => exact .inr hmax
    | two => by_contra hc; exact hacc ⟨rfl, by omega, by omega⟩
  · cases level with
    | one => exact .inr (hone rfl (by omega))
    | two => exact .inl rfl

/-- A match instruction is shorter than its match (R160). -/
theorem length_matchBytes_lt {level : Level} {len d : Nat} (h : 3 ≤ len) :
    (matchBytes level len d).length < len := by
  rw [length_matchBytes]
  split
  · omega
  · split <;> omega

/-! ### The command a state runs -/

/-- The two engines run one command: what the start of a command latches and what CHECK resolves is the same
in both (R203 to R205). -/
structure Engine.SameCommand (e e' : Engine) : Prop where
  lop : e'.lop = e.lop
  level : e'.level = e.level
  llevel : e'.llevel = e.llevel
  lhtab : e'.lhtab = e.lhtab
  k : e'.k = e.k
  lsrc : e'.lsrc = e.lsrc
  lslen : e'.lslen = e.lslen
  ldst : e'.ldst = e.ldst
  ldlen : e'.ldlen = e.ldlen

theorem Engine.SameCommand.configError {e e' : Engine} (h : e.SameCommand e') :
    configError e' = configError e := by
  obtain ⟨hlop, -, hllevel, hlhtab, -, hlsrc, hlslen, hldst, hldlen⟩ := h
  simp only [Machine.configError, regionError, hlop, hllevel, hlhtab, hlsrc, hlslen, hldst, hldlen]

theorem Engine.SameCommand.resolveLevel {e e' : Engine} (h : e.SameCommand e') :
    resolveLevel e' = resolveLevel e := by
  simp only [Machine.resolveLevel, h.lop, h.llevel, h.lslen, h.ldlen]

/-- The engine state is one that a command of this kind goes through past CHECK. -/
def Fsm.runs (f : Fsm) : Op → Bool
  | .compress => f.ofCompress || f == .complete
  | .decompress => f.ofDecompress || f == .complete

theorem Fsm.runs_iff {op : Op} {f : Fsm} :
    f.runs op = true ↔ f ≠ .idle ∧ f ≠ .check ∧ (f.ofCompress = true → op = .compress) ∧
      (f.ofDecompress = true → op = .decompress) := by
  cases op <;> cases f <;> decide

/-- What every operation of a turn keeps while a command runs past CHECK, whatever the engine state. -/
structure State.Running (s : State) : Prop where
  memory : Memory.wf s.mem = true
  table : Sparse.wfAbove 0 (2 ^ 16) none s.ht = true
  released : s.resetHeld = false
  unreported : s.csr.Unreported
  valid : configError s.eng = none
  resolved : s.eng.level = resolveLevel s.eng
  levelUsed : s.csr.levelUsed = levelField s.eng.level
  logSize : s.eng.lop = .compress → hashLog s.eng.lhtab = some s.eng.k

theorem levelField_ne_three (level : Level) : levelField level ≠ 3 := by
  cases level <;> decide

theorem Csr.Unreported.legal {c : Csr} (h : c.Unreported) : c.ReportLegal :=
  .inl ⟨h.2.1, h.2.2.1⟩

namespace State

theorem progressing_of_idle {s : State} (h : s.eng.fsm = .idle) : s.Progressing := by
  simp only [Progressing, h]

/-- An idle block meets the invariant when its memory, its table and its report do. -/
theorem inv_of_idle {s : State} (hmem : Memory.wf s.mem = true)
    (htab : Sparse.wfAbove 0 (2 ^ 16) none s.ht = true) (hlegal : s.csr.ReportLegal)
    (hlevel : s.csr.levelUsed ≠ 3) (hidle : s.eng.fsm = .idle)
    (hheld : s.resetHeld = true → s.csr = Csr.reset) : s.Inv where
  memory := hmem
  table := htab
  legal := hlegal
  level := hlevel
  unreported hb := by simp [busy, hidle] at hb
  unresolved hc := by simp [hidle] at hc
  configured hi := absurd hidle hi
  progressing := progressing_of_idle hidle
  held h := ⟨hheld h, hidle⟩

theorem Inv.released {s : State} (h : s.Inv) (hf : s.eng.fsm ≠ .idle) : s.resetHeld = false := by
  cases hr : s.resetHeld with
  | false => rfl
  | true => exact absurd (h.held hr).2 hf

theorem busy_iff {s : State} : s.busy = true ↔ s.eng.fsm ≠ .idle := by
  simp [busy]

/-- A state of the invariant past CHECK runs a command, in an engine state of it. -/
theorem Inv.running {s : State} (h : s.Inv) (hi : s.eng.fsm ≠ .idle) (hc : s.eng.fsm ≠ .check) :
    s.Running ∧ s.eng.fsm.runs s.eng.lop = true := by
  obtain ⟨hvalid, hresolved, hused, hcomp, hdecomp, hlog⟩ := h.configured hi hc
  exact ⟨⟨h.memory, h.table, h.released hi, h.unreported (busy_iff.2 hi), hvalid, hresolved, hused,
    hlog⟩, Fsm.runs_iff.2 ⟨hi, hc, hcomp, hdecomp⟩⟩

/-- A state that runs a command, in an engine state of it and within its bounds, meets the invariant. -/
theorem Running.inv {s : State} (h : s.Running) (hop : s.eng.fsm.runs s.eng.lop = true)
    (hp : s.Progressing) : s.Inv := by
  obtain ⟨hi, hc, hcomp, hdecomp⟩ := Fsm.runs_iff.1 hop
  exact
    { memory := h.memory
      table := h.table
      legal := h.unreported.legal
      level := h.levelUsed ▸ levelField_ne_three _
      unreported := fun _ => h.unreported
      unresolved := fun hcheck => absurd hcheck hc
      configured := fun _ _ => ⟨h.valid, h.resolved, h.levelUsed, hcomp, hdecomp, h.logSize⟩
      progressing := hp
      held := fun hr => by rw [h.released] at hr; cases hr }

end State
end Sys2Proof.Machine
end

section
/-! PROOF. The endings of a command and the turns of COMPRESS keep the invariant. -/

namespace Sys2Proof.Machine
open Sys2Proof
namespace State

/-! ### Operations that keep a command running -/

/-- A state of the same command with sound memory and table runs it too. -/
theorem Running.next {s t : State} (h : s.Running) (hmem : Memory.wf t.mem = true)
    (htab : Sparse.wfAbove 0 (2 ^ 16) none t.ht = true) (hcsr : t.csr = s.csr)
    (hheld : t.resetHeld = s.resetHeld) (hcmd : s.eng.SameCommand t.eng) : t.Running where
  memory := hmem
  table := htab
  released := hheld.trans h.released
  unreported := hcsr ▸ h.unreported
  valid := hcmd.configError.trans h.valid
  resolved := by rw [hcmd.level, hcmd.resolveLevel]; exact h.resolved
  levelUsed := by rw [hcsr, hcmd.level]; exact h.levelUsed
  logSize := by rw [hcmd.lop, hcmd.lhtab, hcmd.k]; exact h.logSize

theorem Running.withEng {s : State} (h : s.Running) {e : Engine} (hcmd : s.eng.SameCommand e) :
    (s.withEng e).Running :=
  h.next h.memory h.table rfl rfl hcmd

theorem Running.htSet {s : State} (h : s.Running) {j : Nat} (v : Nat) (hj : j < 2 ^ 16) :
    (s.htSet j v).Running :=
  h.next h.memory (Sparse.wfAbove_set 0 v hj h.table) rfl rfl (by constructor <;> rfl)

theorem Running.htClear {s : State} (h : s.Running) (n : Nat) : (s.htClear n).Running :=
  h.next h.memory (Sparse.wfAbove_filter 0 _ _ none h.table) rfl rfl (by constructor <;> rfl)

theorem Running.insert {s : State} (h : s.Running) (q : Nat) : (s.insert q).Running :=
  h.next h.memory (wf_insertAt q h.table) rfl rfl (by constructor <;> rfl)

theorem Running.insertMany {s : State} (h : s.Running) (q count : Nat) :
    (s.insertMany q count).Running :=
  h.next h.memory (wf_insertRange count q h.table) rfl rfl (by constructor <;> rfl)

theorem Running.setOutBytes {s : State} (h : s.Running) (o : Nat) (bytes : List Byte) :
    (s.setOutBytes o bytes).Running :=
  h.next (wf_setOutBytes bytes s o h.memory) (by simpa using h.table) (by simp) (by simp)
    (by constructor <;> simp)

theorem Running.copyBytes {s : State} (h : s.Running) (d o n : Nat) :
    (copyBytes d o n s).Running :=
  h.next (wf_copyBytes d n o s h.memory) (by simpa using h.table) (by simp) (by simp)
    (by constructor <;> simp)

theorem Running.emit {s : State} (h : s.Running) (bytes : List Byte) : (s.emit bytes).Running :=
  h.next (wf_emit bytes h.memory) (by simpa using h.table) (by simp) (by simp)
    (by constructor <;> simp)

theorem pendingFlush_resetHeld (s : State) : s.pendingFlush.resetHeld = s.resetHeld := by
  unfold pendingFlush
  split <;> simp

theorem Running.pendingFlush {s : State} (h : s.Running) : s.pendingFlush.Running := by
  obtain ⟨hcsr, hht, hmem, heng⟩ := s.pendingFlush_spec
  exact h.next (hmem h.memory) (hht ▸ h.table) hcsr s.pendingFlush_resetHeld
    (by rw [heng]; constructor <;> rfl)

theorem litToken_resetHeld (s : State) (p : Nat) : (s.litToken p).resetHeld = s.resetHeld := by
  unfold litToken
  dsimp only
  split
  · exact pendingFlush_resetHeld _
  · rfl

theorem Running.litToken {s : State} (h : s.Running) (p : Nat) : (s.litToken p).Running := by
  obtain ⟨hcsr, hht, hmem, heng⟩ := s.litToken_spec p
  exact h.next (hmem h.memory) (hht ▸ h.table) hcsr (s.litToken_resetHeld p)
    (by rw [heng]; constructor <;> rfl)

/-! ### Endings keep the invariant -/

/-- A command that ends with an error other than INTERNAL_INVARIANT leaves the invariant (R236). -/
theorem inv_raise {s : State} (hmem : Memory.wf s.mem = true)
    (htab : Sparse.wfAbove 0 (2 ^ 16) none s.ht = true) (hlevel : s.csr.levelUsed ≠ 3)
    (hfree : s.resetHeld = false) {cause : Cause} (hc : cause ≠ .matchNotRepresentable)
    (pos : Nat) : (s.raise cause pos).Inv :=
  inv_of_idle (wf_raise cause pos hmem) (by simpa using htab)
    (by rw [raise_csr]; exact .inr ⟨cause, hc, rfl, rfl⟩) (by simpa using hlevel) (by simp)
    (by simp [hfree])

theorem Running.levelUsed_ne_three {s : State} (h : s.Running) : s.csr.levelUsed ≠ 3 :=
  h.levelUsed ▸ levelField_ne_three _

theorem Running.raise_inv {s : State} (h : s.Running) {cause : Cause}
    (hc : cause ≠ .matchNotRepresentable) (pos : Nat) : (s.raise cause pos).Inv :=
  inv_raise h.memory h.table h.levelUsed_ne_three h.released hc pos

theorem Running.raiseBus_inv {s : State} (h : s.Running) (acc : Access) :
    (s.raiseBus acc.cause).Inv :=
  inv_of_idle (wf_raiseBus _ h.memory) (by simpa using h.table)
    (by rw [raiseBus_csr]; exact .inr ⟨acc.cause, acc.cause_ne_internal, rfl, rfl⟩)
    (by simpa using h.levelUsed_ne_three) (by simp) (by simp [h.released])

theorem Running.access_inv {s : State} (h : s.Running) (accs : List Access) {waiting after : State}
    (hwait : waiting.Inv) (hafter : after.Inv) : (s.access accs waiting after).Inv :=
  access_induction (P := State.Inv) accs h.raiseBus_inv hwait hafter

theorem Running.succeed_inv {s : State} (h : s.Running) : s.succeed.Inv := by
  have hlegal : ∀ c : Csr, c.errCode = 0 → c.errCause = 0 → c.ReportLegal :=
    fun _ hcode hcause => .inl ⟨hcode, hcause⟩
  have hlevel := h.levelUsed_ne_three
  unfold succeed
  split
  · exact inv_of_idle (by simpa using wf_forget _ _ h.memory) (by simpa using h.table)
      (hlegal _ rfl rfl) (by simpa using hlevel) rfl (by simp [h.released])
  · exact inv_of_idle (by simpa using h.memory) (by simpa using h.table)
      (hlegal _ rfl rfl) (by simpa using hlevel) rfl (by simp [h.released])

/-! ### The turns of COMPRESS keep the invariant -/

/-- Entries that are old ones or new positions below a bound stay below it. -/
theorem TableBelow.of_entries {s t : State} {most most' : Nat} (h : s.TableBelow most)
    (hk : t.eng.k = s.eng.k) (hle : most ≤ most')
    (hget : ∀ j, t.htGet j = s.htGet j ∨ t.htGet j ≤ most') : t.TableBelow most' := by
  intro j hj
  have hold := h j (hk ▸ hj)
  rcases hget j with hg | hg <;> omega

theorem TableBelow.htSet {s : State} {p : Nat} (h : s.TableBelow (p - 1)) (j : Nat) :
    (s.htSet j p).TableBelow p := by
  refine h.of_entries rfl (by omega) fun i => ?_
  simp only [htGet, State.htSet, Sparse.get_set]
  split
  · exact .inr le_rfl
  · exact .inl rfl

theorem TableBelow.insert {s : State} {p : Nat} (h : s.TableBelow p) : (s.insert p).TableBelow p := by
  refine h.of_entries rfl le_rfl fun i => ?_
  simp only [htGet, State.insert, get_insertAt]
  split
  · exact .inr le_rfl
  · exact .inl rfl

theorem TableBelow.insertMany {s : State} {p q count : Nat} (h : s.TableBelow p)
    (hle : p ≤ q + count - 1) : (s.insertMany q count).TableBelow (q + count - 1) := by
  refine h.of_entries rfl hle fun i => ?_
  rcases get_insertRange_cases s.eng.k s.inputLen s.inByte i count s.ht q with hg | hg
  · exact .inl hg
  · exact .inr (Nat.le_sub_one_of_lt hg)

theorem Inv.compressing {s : State} (h : s.Inv) (hf : s.eng.fsm.ofCompress = true) :
    s.Running ∧ s.eng.lop = .compress := by
  obtain ⟨hrun, hop⟩ := h.running (by rintro hi; simp [hi, Fsm.ofCompress] at hf)
    (by rintro hc; simp [hc, Fsm.ofCompress] at hf)
  obtain ⟨-, -, hcomp, -⟩ := Fsm.runs_iff.1 hop
  exact ⟨hrun, hcomp hf⟩

/-- A turn that ends in another engine state of the same command keeps the invariant if the engine is within
the bounds of that state. -/
theorem Running.withEng_inv {s : State} (h : s.Running) {e : Engine}
    (hop : e.fsm.runs s.eng.lop = true) (hp : (s.withEng e).Progressing)
    (hcmd : s.eng.SameCommand e := by constructor <;> rfl) : (s.withEng e).Inv :=
  (h.withEng hcmd).inv (hcmd.lop ▸ hop) hp

theorem stepHtInit_inv {s : State} (h : s.Inv) (hf : s.eng.fsm = .htInit) : s.stepHtInit.Inv := by
  obtain ⟨hrun, hlop⟩ := h.compressing (by rw [hf]; rfl)
  refine (hrun.htClear _).withEng_inv (by rw [htClear_eng, hlop]; rfl) ?_
  refine ⟨⟨Nat.zero_le _, Nat.zero_lt_succ _, .inl rfl⟩, Nat.zero_le _, fun j hj => .inl ?_⟩
  exact (htGet_htClear s _ j).trans (if_pos hj)

theorem stepSearch_inv {s : State} (h : s.Inv) (hf : s.eng.fsm = .cSearch) : s.stepSearch.Inv := by
  obtain ⟨hrun, hlop⟩ := h.compressing (by rw [hf]; rfl)
  have hp := h.progressing
  simp only [Progressing, hf] at hp
  obtain ⟨hscan, hout, hbelow⟩ := hp
  have hle := hscan.1
  unfold stepSearch
  split
  · rename_i hend
    exact hrun.withEng_inv (by rw [hlop]; rfl) ⟨hscan, hout, le_antisymm hle hend⟩
  · rename_i hend
    have hlt : s.eng.p < s.eng.lslen.toNat := not_le.1 hend
    split
    · rename_i hsearch
      refine hrun.access_inv _ h ((hrun.htSet _ (hashAt_lt _ _ _)).withEng_inv ?_ ?_)
      · rw [htSet_eng, hlop]; split <;> rfl
      · split
        · rename_i hfound
          obtain ⟨hd, hmax, -⟩ := candidateOk_iff.1 hfound
          exact ⟨hscan, hout, hbelow.htSet _, hsearch, Nat.lt_of_sub_pos hd, rfl, hmax⟩
        · exact ⟨hscan, hout, hbelow.htSet _, hlt⟩
    · refine hrun.withEng_inv (by rw [hlop]; rfl) ⟨hscan, hout, ?_, hlt⟩
      exact hbelow.of_entries rfl (Nat.sub_le _ _) fun _ => .inl rfl

theorem stepExtend_inv {s : State} (h : s.Inv) (hf : s.eng.fsm = .cExtend) : s.stepExtend.Inv := by
  obtain ⟨hrun, hlop⟩ := h.compressing (by rw [hf]; rfl)
  have hp := h.progressing
  simp only [Progressing, hf] at hp
  obtain ⟨hscan, hout, hbelow, hsearch, hr, hd, hmax⟩ := hp
  have hpos : 1 ≤ s.eng.d := hd ▸ Nat.sub_pos_of_lt hr
  have hin : s.eng.p + 12 < s.inputLen := (isSearch_iff.1 hsearch).2
  unfold stepExtend
  refine hrun.access_inv _ h (hrun.withEng_inv (by rw [hlop]; split <;> rfl) ?_)
  split
  · rename_i hacc
    have htail := (extendLoop_bounds s.eng.level s.inputLen s.inByte s.eng.p s.eng.r s.inputLen 3).2.1
    refine ⟨hscan, .inl hout, hbelow, representable_extend hpos hmax hacc, ?_, htail ?_⟩
    · exact hd ▸ Nat.sub_le _ _
    · omega
  · exact ⟨hscan, hout, hbelow, lt_of_le_of_lt (Nat.le_add_right _ _) hin⟩

/-- After PENDING_FLUSH the output is within the bound of R160 and one opcode byte more. -/
theorem output_pendingFlush {s : State} (hscan : s.eng.ScanOk)
    (hout : s.eng.OutputOk ∨ (s.eng.litCnt = 0 ∧ s.eng.o ≤ s.eng.p + s.eng.p / 32 + 1)) :
    s.pendingFlush.eng.o ≤ s.eng.p + s.eng.p / 32 + 1 := by
  obtain ⟨-, -, -, heng⟩ := s.pendingFlush_spec
  obtain ⟨-, -, hbase⟩ := hscan
  simp only [Engine.OutputOk, Engine.emitted] at hout
  rw [heng]
  dsimp only
  split <;> omega

/-- The match token keeps the invariant: it is representable, and its instruction is shorter than the bytes it
covers (R132, R136, R160). -/
theorem matchToken_inv {s : State} (hrun : s.Running) (hlop : s.eng.lop = .compress)
    (hf : s.eng.fsm = .cEmit) (hlit : s.eng.litCnt = 0)
    (hout : s.eng.o ≤ s.eng.p + s.eng.p / 32 + 1) (hbelow : s.TableBelow s.eng.p)
    (hrep : representable s.eng.level s.eng.len s.eng.d = true) (hd : s.eng.d ≤ s.eng.p)
    (htail : s.eng.p + s.eng.len ≤ s.inputLen - 3) : s.matchToken.Inv := by
  have hlen := (representable_iff.1 hrep).1
  have hshort := length_matchBytes_lt (level := s.eng.level) (d := s.eng.d) hlen
  have hscan : s.eng.ScanOk := ⟨by unfold inputLen at htail; omega, by simp [hlit], .inl hlit⟩
  unfold matchToken
  rw [if_pos hrep]
  refine hrun.access_inv _ (hrun.inv (by rw [hf, hlop]; rfl) ?_)
    (((hrun.emit _).insertMany _ _).withEng_inv ?_ ?_)
  · simp only [Progressing, hf]
    exact ⟨hscan, .inr ⟨hlit, hout⟩, hbelow, hrep, hd, htail⟩
  · rw [insertMany_eng, emit_eng, hlop]; rfl
  · simp only [Progressing, withEng_eng, insertMany_eng, emit_eng]
    refine ⟨⟨?_, by simp [hlit], .inl hlit⟩, ?_, ?_⟩
    · unfold inputLen at htail; dsimp only; omega
    · simp only [Engine.OutputOk, Engine.emitted, hlit]; omega
    · have hins := TableBelow.insertMany (s := s.emit (matchBytes s.eng.level s.eng.len s.eng.d))
        (q := s.eng.p + 1) (count := s.eng.len - 1)
        (hbelow.of_entries (by simp) le_rfl fun j => .inl (by simp [htGet])) (by omega)
      rwa [show s.eng.p + 1 + (s.eng.len - 1) - 1 = s.eng.p + s.eng.len - 1 by omega] at hins

theorem stepEmit_inv {s : State} (h : s.Inv) (hf : s.eng.fsm = .cEmit) : s.stepEmit.Inv := by
  obtain ⟨hrun, hlop⟩ := h.compressing (by rw [hf]; rfl)
  have hp := h.progressing
  simp only [Progressing, hf] at hp
  obtain ⟨hscan, hout, hbelow, hrep, hd, htail⟩ := hp
  have ho := output_pendingFlush hscan hout
  obtain ⟨-, hht, -, heng⟩ := s.pendingFlush_spec
  unfold stepEmit
  refine hrun.access_inv _ h (matchToken_inv hrun.pendingFlush ?_ ?_ ?_ ?_ ?_ ?_ ?_ ?_)
  all_goals simp only [inputLen, heng]
  · exact hlop
  · exact hf
  · simpa only [heng] using ho
  · exact hbelow.of_entries (by rw [heng]) le_rfl fun j => .inl (by rw [htGet, hht, htGet])
  · exact hrep
  · exact hd
  · exact htail

theorem stepLiteral_inv {s : State} (h : s.Inv) (hf : s.eng.fsm = .cLiteral) :
    s.stepLiteral.Inv := by
  obtain ⟨hrun, hlop⟩ := h.compressing (by rw [hf]; rfl)
  have hp := h.progressing
  simp only [Progressing, hf] at hp
  obtain ⟨hscan, hout, hbelow, hlt⟩ := hp
  obtain ⟨-, hcnt, hbase⟩ := hscan
  unfold stepLiteral
  dsimp only
  generalize ht : (if isSearch s.inputLen s.eng.p then s else s.insert s.eng.p) = t
  have ht : t.Running ∧ t.eng = s.eng ∧ t.TableBelow s.eng.p := by
    rw [← ht]
    split
    · exact ⟨hrun, rfl, hbelow⟩
    · exact ⟨hrun.insert _, rfl, hbelow.insert⟩
  obtain ⟨htrun, hteng, htbelow⟩ := ht
  obtain ⟨-, hht, -, heng⟩ := t.litToken_spec s.eng.p
  refine hrun.access_inv _ h ((htrun.litToken _).withEng_inv (by rw [heng, hteng, hlop]; rfl) ?_)
  simp only [Progressing, withEng_eng, heng, hteng]
  simp only [Engine.OutputOk, Engine.emitted, Config.maxCopy] at hout hcnt
  refine ⟨⟨hlt, ?_, ?_⟩, ?_, ?_⟩
  · dsimp only; split <;> simp only [Config.maxCopy] <;> omega
  · dsimp only; split <;> split <;> omega
  · simp only [Engine.OutputOk, Engine.emitted]; split <;> omega
  · exact htbelow.of_entries (by simp [hteng]) le_rfl fun j => .inl (by simp [htGet, hht])

theorem stepFlush_inv {s : State} (h : s.Inv) (hf : s.eng.fsm = .cFlush) : s.stepFlush.Inv := by
  obtain ⟨hrun, hlop⟩ := h.compressing (by rw [hf]; rfl)
  have hp := h.progressing
  simp only [Progressing, hf] at hp
  obtain ⟨hscan, hout, hend⟩ := hp
  obtain ⟨-, -, -, heng⟩ := s.pendingFlush_spec
  obtain ⟨-, -, -, hroom⟩ := configError_none hrun.valid
  have hroom := hroom hlop
  obtain ⟨-, -, hbase⟩ := hscan
  refine hrun.access_inv _ h (hrun.pendingFlush.withEng_inv (by rw [heng, hlop]; rfl) ?_)
  simp only [Progressing, withEng_eng, heng]
  simp only [cbound] at hroom
  simp only [Engine.OutputOk, Engine.emitted] at hout
  refine ⟨?_, by simp [hlop]⟩
  split <;> omega
end State
end Sys2Proof.Machine
end

section
/-! PROOF. The turns of DECOMPRESS, CHECK and every action of the host and the platform keep the invariant. -/

namespace Sys2Proof.Machine
open Sys2Proof
namespace State

/-! ### The turns of DECOMPRESS keep the invariant -/

theorem Inv.decompressing {s : State} (h : s.Inv) (hf : s.eng.fsm.ofDecompress = true) :
    s.Running ∧ s.eng.lop = .decompress := by
  obtain ⟨hrun, hop⟩ := h.running (by rintro hi; simp [hi, Fsm.ofDecompress] at hf)
    (by rintro hc; simp [hc, Fsm.ofDecompress] at hf)
  obtain ⟨-, -, -, hdecomp⟩ := Fsm.runs_iff.1 hop
  exact ⟨hrun, hdecomp hf⟩

/-- A DECOMPRESS in its main loop, inside the stream and with bytes still to be produced (R171). -/
structure Reading (s : State) : Prop where
  running : s.Running
  lop : s.eng.lop = .decompress
  inStream : s.eng.ip ≤ s.eng.lslen.toNat
  room : s.eng.o < s.eng.ldlen.toNat

theorem Reading.beginAt_running {s : State} (h : s.Reading) : s.beginAt.Running :=
  h.running.withEng (by constructor <;> rfl)

theorem Reading.beginAt_inv {s : State} (h : s.Reading) : s.beginAt.Inv :=
  h.running.withEng_inv (by rw [h.lop]; rfl) ⟨h.inStream, h.room⟩

theorem Reading.truncated_inv {s : State} (h : s.Reading) {cause : Cause}
    (hc : cause ≠ .matchNotRepresentable) (fetched : Nat) : (s.truncated cause fetched).Inv :=
  h.beginAt_running.access_inv _ h.beginAt_inv (h.beginAt_running.raise_inv hc _)

/-- The state in which an instruction that is whole in the stream is checked. -/
theorem Reading.operands_inv {s : State} (h : s.Reading) {fetched len d : Nat}
    (hfetched : s.eng.ip + fetched ≤ s.eng.lslen.toNat) (hlen : 0 < len)
    (hlit : d = 0 → s.eng.ip + fetched + len ≤ s.eng.lslen.toNat) :
    (s.beginAt.operands fetched len d).Inv :=
  h.beginAt_running.withEng_inv (s := s.beginAt)
    (show Fsm.runs .dCheck s.eng.lop = true by rw [h.lop]; rfl) ⟨hfetched, h.room.le, hlen, hlit⟩

theorem checkProblem_ne_internal {s : State} {cause : Cause} (h : s.checkProblem = some cause) :
    cause ≠ .matchNotRepresentable := by
  rcases s.checkProblem_cases with ⟨-, hp⟩ | ⟨-, -, hp⟩ | ⟨-, -, hp⟩ <;> rw [hp] at h <;> cases h <;>
    decide

/-- The check phase keeps the invariant if the copy phase does. -/
theorem checked_inv {s : State} (h : s.Inv) (hf : s.eng.fsm = .dCheck) {copy : State → State}
    (hcopy : ∀ t : State, t.Inv → t.eng.fsm = .dCopy → t.eng.len = s.eng.len →
      t.eng.d = s.eng.d → (copy t).Inv) : (s.checked copy).Inv := by
  obtain ⟨hrun, hlop⟩ := h.decompressing (by rw [hf]; rfl)
  have hp := h.progressing
  simp only [Progressing, hf] at hp
  obtain ⟨hip, -, hlen, hlit⟩ := hp
  rcases s.checked_cases copy with ⟨cause, hcause, hc⟩ | ⟨hnone, hc⟩ <;> rw [hc]
  · exact hrun.raise_inv (checkProblem_ne_internal hcause) _
  · rcases s.checkProblem_cases with ⟨-, hp⟩ | ⟨-, -, hp⟩ | ⟨hroom, hdist, -⟩
    · rw [hp] at hnone; cases hnone
    · rw [hp] at hnone; cases hnone
    · exact hcopy _ (hrun.withEng_inv (by rw [hlop]; rfl) ⟨hip, hroom, hlen, hdist, hlit⟩) rfl rfl rfl

theorem copyMatch_inv {s : State} (h : s.Inv) (hf : s.eng.fsm = .dCopy) : s.copyMatch.Inv := by
  obtain ⟨hrun, hlop⟩ := h.decompressing (by rw [hf]; rfl)
  have hp := h.progressing
  simp only [Progressing, hf] at hp
  obtain ⟨hip, hroom, -⟩ := hp
  refine hrun.access_inv _ h ((hrun.copyBytes _ _ _).withEng_inv ?_ ?_ ?_)
  · rw [copyBytes_eng, hlop]; rfl
  · simp only [Progressing, withEng_eng, copyBytes_eng]
    exact ⟨hip, hroom⟩
  · rw [copyBytes_eng]; constructor <;> rfl

theorem copyLiteral_inv {s : State} (h : s.Inv) (hf : s.eng.fsm = .dCopy) (hd : s.eng.d = 0)
    {bytes : List Byte} (hlen : s.eng.len = bytes.length) : (s.copyLiteral bytes).Inv := by
  obtain ⟨hrun, hlop⟩ := h.decompressing (by rw [hf]; rfl)
  have hp := h.progressing
  simp only [Progressing, hf, hlen] at hp
  obtain ⟨-, hroom, -, -, hlit⟩ := hp
  refine hrun.access_inv _ h ((hrun.setOutBytes _ _).withEng_inv ?_ ?_ ?_)
  · rw [setOutBytes_eng, hlop]; rfl
  · simp only [Progressing, withEng_eng, setOutBytes_eng]
    exact ⟨hlit hd, hroom⟩
  · rw [setOutBytes_eng]; constructor <;> rfl

theorem resumeCopy_inv {s : State} (h : s.Inv) (hf : s.eng.fsm = .dCopy) : s.resumeCopy.Inv := by
  unfold resumeCopy
  split
  · rename_i hd
    exact copyLiteral_inv h hf hd (s.length_inBytes _ _).symm
  · exact copyMatch_inv h hf

theorem Reading.runMatch_inv {s : State} (h : s.Reading) {size len d : Nat} (hlen : 3 ≤ len)
    (hd : 1 ≤ d) : (s.runMatch size len d).Inv := by
  unfold runMatch
  split
  · exact h.truncated_inv (by decide) _
  · rename_i hwhole
    have hchecked := h.operands_inv (d := d) (not_lt.1 hwhole) (Nat.zero_lt_of_lt hlen)
      (fun h0 => absurd h0 (Nat.ne_of_gt hd))
    exact h.beginAt_running.access_inv _ h.beginAt_inv
      (checked_inv hchecked rfl fun t ht hf _ _ => copyMatch_inv ht hf)

theorem Reading.runLiteral_inv {s : State} (h : s.Reading) {bytes : List Byte} (hne : bytes ≠ []) :
    (s.runLiteral bytes).Inv := by
  unfold runLiteral
  split
  · exact h.truncated_inv (by decide) _
  · rename_i hwhole
    have hchecked := h.operands_inv (fetched := 1) (d := 0) (by omega)
      (List.length_pos_iff.2 hne) (fun _ => by omega)
    exact h.beginAt_running.access_inv _ h.beginAt_inv
      (checked_inv hchecked rfl fun t ht hf hlen hd => copyLiteral_inv ht hf hd hlen)

theorem Reading.fetchExec_inv {s t : State} (h : s.Reading) (ht : s.fetchExec = .next t) : t.Inv := by
  unfold fetchExec at ht
  split at ht
  · rename_i i rest hdec
    rcases decode_reads hdec with ⟨op, lits, rfl, hne, -⟩ | ⟨len, d, front, hm, hlen, hd, -⟩
    · cases ht; exact h.runLiteral_inv hne
    · rw [exec_of_matchOf hm] at ht
      cases ht; exact h.runMatch_inv hlen hd
  · cases ht; exact h.running.raise_inv (by decide) _
  · cases ht; exact h.truncated_inv (by decide) _
  · cases ht; exact h.truncated_inv (by decide) _

theorem stepFetch_inv {s t : State} (h : s.Inv) (hf : s.eng.fsm = .dFetch)
    (ht : s.stepFetch = .next t) : t.Inv := by
  obtain ⟨hrun, hlop⟩ := h.decompressing (by rw [hf]; rfl)
  have hp := h.progressing
  simp only [Progressing, hf] at hp
  obtain ⟨hip, ho⟩ := hp
  unfold stepFetch at ht
  split at ht
  · rename_i hlt
    exact Reading.fetchExec_inv ⟨hrun, hlop, hip, hlt⟩ ht
  · rename_i hge
    cases ht
    exact hrun.withEng_inv (by rw [hlop]; rfl) ⟨hip, le_antisymm ho (not_lt.1 hge)⟩

theorem stepOperand_inv {s t : State} (h : s.Inv) (hf : s.eng.fsm = .dOperand)
    (ht : s.fetchExec = .next t) : t.Inv := by
  obtain ⟨hrun, hlop⟩ := h.decompressing (by rw [hf]; rfl)
  have hp := h.progressing
  simp only [Progressing, hf] at hp
  obtain ⟨hip, ho⟩ := hp
  exact Reading.fetchExec_inv ⟨hrun, hlop, hip, ho⟩ ht

theorem stepEnd_inv {s : State} (h : s.Inv) (hf : s.eng.fsm = .dEnd) : s.stepEnd.Inv := by
  obtain ⟨hrun, hlop⟩ := h.decompressing (by rw [hf]; rfl)
  have hp := h.progressing
  simp only [Progressing, hf] at hp
  obtain ⟨hip, ho⟩ := hp
  unfold stepEnd
  split
  · exact hrun.raise_inv (by decide) _
  · rename_i hge
    exact hrun.withEng_inv (by rw [hlop]; rfl) ⟨ho.le, fun _ => ⟨le_antisymm hip (not_lt.1 hge), ho⟩⟩

/-! ### CHECK keeps the invariant -/

theorem regionError_of_valid {e : Engine} (h : configError e = none) :
    e.llevel ≠ 3 ∧ regionError e = none := by
  obtain ⟨hlevel, -⟩ := configError_none h
  rw [configError, if_neg hlevel] at h
  exact ⟨hlevel, h⟩

/-- CHECK lets a valid COMPRESS run (R205, R124). -/
theorem stepCheck_of_compress {s : State} (h : configError s.eng = none)
    (hlop : s.eng.lop = .compress) :
    s.stepCheck =
      (s.withCsr { s.csr with levelUsed := levelField (resolveLevel s.eng) }).withEng
        { s.eng with
          level := resolveLevel s.eng, k := (hashLog s.eng.lhtab).getD 0, fsm := .htInit } := by
  obtain ⟨hlevel, hregion⟩ := regionError_of_valid h
  unfold stepCheck
  rw [if_neg hlevel, hregion]
  dsimp only
  split
  · rfl
  · rename_i hd; rw [hlop] at hd; cases hd

/-- CHECK lets a valid DECOMPRESS run (R205, R170). -/
theorem stepCheck_of_decompress {s : State} (h : configError s.eng = none)
    (hlop : s.eng.lop = .decompress) :
    s.stepCheck =
      (s.withCsr { s.csr with levelUsed := levelField (resolveLevel s.eng) }).withEng
        { s.eng with level := resolveLevel s.eng, ip := 0, o := 0, fsm := .dFetch } := by
  obtain ⟨hlevel, hregion⟩ := regionError_of_valid h
  unfold stepCheck
  rw [if_neg hlevel, hregion]
  dsimp only
  split
  · rename_i hc; rw [hlop] at hc; cases hc
  · rfl

/-- A failing check ends the command before anything but LEVEL_USED has changed (R204). -/
theorem stepCheck_of_invalid {s : State} {cause : Cause} (h : configError s.eng = some cause) :
    ∃ c e, s.stepCheck = ((s.withCsr c).withEng e).raise cause 0 ∧
      (c.levelUsed = s.csr.levelUsed ∨ c.levelUsed = levelField (resolveLevel s.eng)) := by
  unfold stepCheck
  unfold configError at h
  split at h
  · rename_i hlevel
    cases h
    exact ⟨s.csr, s.eng, if_pos hlevel, .inl rfl⟩
  · rename_i hlevel
    rw [if_neg hlevel, h]
    exact ⟨_, _, rfl, .inr rfl⟩

theorem configError_ne_internal {e : Engine} {cause : Cause} (h : configError e = some cause) :
    cause ≠ .matchNotRepresentable := by
  rintro rfl
  unfold configError regionError at h
  repeat' split at h
  all_goals cases h

theorem stepCheck_inv {s : State} (h : s.Inv) (hf : s.eng.fsm = .check) : s.stepCheck.Inv := by
  have hne : s.eng.fsm ≠ .idle := by rw [hf]; decide
  cases hcfg : configError s.eng with
  | some cause =>
    obtain ⟨c, e, hstep, hused⟩ := stepCheck_of_invalid hcfg
    rw [hstep]
    refine inv_raise (s := (s.withCsr c).withEng e) h.memory h.table ?_ (h.released hne)
      (configError_ne_internal hcfg) 0
    rcases hused with hused | hused <;> rw [withEng_csr, withCsr_csr, hused]
    · exact h.level
    · exact levelField_ne_three _
  | none =>
    have hreport := h.unreported (busy_iff.2 hne)
    cases hlop : s.eng.lop with
    | compress =>
      obtain ⟨-, hlog, -⟩ := configError_none hcfg
      obtain ⟨k, hk⟩ := Option.ne_none_iff_exists'.1 (hlog hlop)
      rw [stepCheck_of_compress hcfg hlop]
      refine Running.inv ⟨h.memory, h.table, h.released hne, hreport, hcfg, rfl, rfl, fun _ => ?_⟩
        ?_ trivial
      · simp [hk]
      · rw [withEng_eng, hlop]; rfl
    | decompress =>
      rw [stepCheck_of_decompress hcfg hlop]
      refine Running.inv ⟨h.memory, h.table, h.released hne, hreport, hcfg, rfl, rfl, fun hc => ?_⟩
        ?_ ⟨Nat.zero_le _, Nat.zero_le _⟩
      · rw [withEng_eng, hlop] at hc; cases hc
      · rw [withEng_eng, hlop]; rfl

/-- Every turn of the engine keeps the invariant: one lemma for each engine state. -/
theorem engineStep_inv {s t : State} (h : s.Inv) (ht : s.engineStep = .next t) : t.Inv := by
  unfold engineStep at ht
  cases hf : s.eng.fsm <;> rw [hf] at ht <;> dsimp only at ht
  case idle => cases ht; exact h
  case check => cases ht; exact stepCheck_inv h hf
  case htInit => cases ht; exact stepHtInit_inv h hf
  case cSearch => cases ht; exact stepSearch_inv h hf
  case cExtend => cases ht; exact stepExtend_inv h hf
  case cEmit => cases ht; exact stepEmit_inv h hf
  case cLiteral => cases ht; exact stepLiteral_inv h hf
  case cFlush => cases ht; exact stepFlush_inv h hf
  case dFetch => exact stepFetch_inv h hf ht
  case dOperand => exact stepOperand_inv h hf ht
  case dCheck => cases ht; exact checked_inv h hf fun t ht hf _ _ => resumeCopy_inv ht hf
  case dCopy => cases ht; exact resumeCopy_inv h hf
  case dEnd => cases ht; exact stepEnd_inv h hf
  case complete =>
    cases ht
    exact (h.running (by rw [hf]; decide) (by rw [hf]; decide)).1.succeed_inv

/-! ### The host and the platform keep the invariant -/

/-- The invariant speaks of the registers, the engine and the table, of memory only that it is canonical, and
of the reset input only where it is asserted. -/
theorem Inv.congr {s t : State} (h : s.Inv)
    (hmem : Memory.wf s.mem = true → Memory.wf t.mem = true) (hht : t.ht = s.ht)
    (hcsr : t.csr = s.csr) (heng : t.eng = s.eng)
    (hheld : t.resetHeld = true → s.resetHeld = true) : t.Inv := by
  have hconf : t.Configured ↔ s.Configured := by unfold Configured; rw [heng, hcsr]
  have hprog : t.Progressing ↔ s.Progressing := by
    unfold Progressing TableBelow htGet
    rw [heng, hht]
  exact
    { memory := hmem h.memory
      table := hht ▸ h.table
      legal := hcsr ▸ h.legal
      level := hcsr ▸ h.level
      unreported := fun hb => hcsr ▸ h.unreported (by rwa [busy, heng] at hb)
      unresolved := fun hf => hcsr ▸ h.unresolved (heng ▸ hf)
      configured := fun hi hc => hconf.2 (h.configured (heng ▸ hi) (heng ▸ hc))
      progressing := hprog.2 h.progressing
      held := fun hr => by rw [hcsr, heng]; exact h.held (hheld hr) }

/-- A register write that leaves the report alone, or clears DONE, keeps the invariant (R200, R210). -/
theorem Inv.withCsr {s : State} (h : s.Inv) (hfree : s.resetHeld = false) {c : Csr}
    (hcode : c.errCode = s.csr.errCode) (hcause : c.errCause = s.csr.errCause)
    (hused : c.levelUsed = s.csr.levelUsed) (hlen : c.resultLen = s.csr.resultLen)
    (hpos : c.errPos = s.csr.errPos) (hdone : c.done = s.csr.done ∨ c.done = false) :
    (s.withCsr c).Inv where
  memory := h.memory
  table := h.table
  legal := by
    have hl := h.legal
    unfold Csr.ReportLegal at hl ⊢
    rwa [withCsr_csr, hcode, hcause]
  level := by rw [withCsr_csr, hused]; exact h.level
  unreported hb := by
    obtain ⟨hd, hc, hz, hr, hp⟩ := h.unreported hb
    refine ⟨hdone.elim (fun hs => hs.trans hd) id, hcode.trans hc, hcause.trans hz, hlen.trans hr,
      hpos.trans hp⟩
  unresolved hf := hused.trans (h.unresolved hf)
  configured hi hc := by
    obtain ⟨hvalid, hres, hlevel, hrest⟩ := h.configured hi hc
    exact ⟨hvalid, hres, hused.trans hlevel, hrest⟩
  progressing := h.progressing
  held hr := by rw [withCsr_resetHeld, hfree] at hr; cases hr

theorem Inv.start {s : State} (h : s.Inv) (hfree : s.resetHeld = false) (op : Op)
    (level : BitVec 2) : (s.start op level).Inv where
  memory := h.memory
  table := h.table
  legal := .inl ⟨rfl, rfl⟩
  level := show (0 : BitVec 2) ≠ 3 by decide
  unreported _ := ⟨rfl, rfl, rfl, rfl, rfl⟩
  unresolved _ := rfl
  configured _ hc := absurd rfl hc
  progressing := trivial
  held hr := by rw [start_resetHeld, hfree] at hr; cases hr

theorem Inv.resetAssert {s : State} (h : s.Inv) : s.resetAssert.Inv :=
  inv_of_idle (wf_resetAssert h.memory) (by simpa using h.table) (.inl ⟨rfl, rfl⟩)
    (show (0 : BitVec 2) ≠ 3 by decide) (by simp) (fun _ => rfl)

theorem launch_inv {s t : State} (h : s.Inv) {op : Op} {level : BitVec 2}
    (ht : s.launch op level = .next t) : t.Inv := by
  rcases s.launch_cases op level with ⟨-, hl⟩ | ⟨-, hfree, -, hl⟩ | ⟨why, -, -, -, hl⟩ <;>
    rw [hl] at ht <;> cases ht
  · exact h
  · exact h.start hfree op level

theorem writeCmd_inv {s t : State} (h : s.Inv) {v : Word} (ht : s.writeCmd v = .next t) : t.Inv := by
  unfold writeCmd decodeCommand at ht
  split at ht
  · rename_i i hi
    split at hi
    · split at hi <;> cases hi <;> exact launch_inv h ht
    · cases hi
  · cases ht; exact h

theorem writeReg_inv {s t : State} (h : s.Inv) {off : Nat} {v : Word}
    (ht : s.writeReg off v = .next t) : t.Inv := by
  cases hr : s.resetHeld with
  | true =>
    rw [writeReg_of_held hr] at ht
    cases ht; exact h
  | false =>
    unfold writeReg at ht
    rw [hr, if_neg Bool.false_ne_true] at ht
    split at ht
    · exact writeCmd_inv h ht
    · cases ht
      split
      · exact h.withCsr hr rfl rfl rfl rfl rfl (.inr rfl)
      · exact h
    case h_9 => cases ht; exact h
    all_goals cases ht; exact h.withCsr hr rfl rfl rfl rfl rfl (.inl rfl)

theorem hostCsrWrite_inv {s t : State} (h : s.Inv) {addr : Word} {bytes : Nat} {v : Word}
    (ht : s.hostCsrWrite addr bytes v = .next t) : t.Inv := by
  have hanswered : ∀ r, (s.answered r).Inv := fun r => h.congr id rfl rfl rfl id
  unfold hostCsrWrite at ht
  split at ht
  · cases ht; exact hanswered _
  · split at ht
    · exact writeReg_inv (hanswered _) ht
    · cases ht; exact hanswered _

theorem hostMemWrite_inv {s t : State} (h : s.Inv) {addr : Word} {v : Byte}
    (ht : s.hostMemWrite addr v = .next t) : t.Inv := by
  unfold hostMemWrite at ht
  split at ht
  · cases ht
  · split at ht
    · cases ht
    · cases ht
      exact h.congr (fun hm => by simpa using wf_writeByte v addr.isLt hm) (by simp) (by simp)
        (by simp) (by simp)

theorem setOthers_inv {s t : State} (h : s.Inv) {regions : List OtherRegion}
    (ht : s.setOthers regions = .next t) : t.Inv := by
  unfold setOthers at ht
  dsimp only at ht
  split at ht
  · cases ht
  · cases ht; exact h.congr id rfl rfl rfl id

theorem Inv.resetRelease {s : State} (h : s.Inv) : s.resetRelease.Inv :=
  h.congr id rfl rfl rfl nofun

theorem inputStep_inv {s t : State} (h : s.Inv) {i : Input} (ht : s.inputStep i = .next t) :
    t.Inv := by
  cases i <;> unfold inputStep at ht <;> dsimp only at ht
  case engine => exact engineStep_inv h ht
  case csrRead => cases ht; exact h.congr (by simp) (by simp) (by simp) (by simp) (by simp)
  case csrWrite => exact hostCsrWrite_inv h ht
  case memRead => cases ht; exact h.congr (by simp) (by simp) (by simp) (by simp) (by simp)
  case memWrite => exact hostMemWrite_inv h ht
  case cacheClean => cases ht; exact h.congr id rfl rfl rfl id
  case cacheInvalidate => cases ht; exact h.congr id rfl rfl rfl id
  case setBus => cases ht; exact h.congr id rfl rfl rfl id
  case setOthers => exact setOthers_inv h ht
  case irqSample => cases ht; exact h.congr (by simp) (by simp) (by simp) (by simp) (by simp)
  case resetAssert => cases ht; exact h.resetAssert
  case resetRelease => cases ht; exact h.resetRelease

end State

/-- Settles O43: a turn of the engine by its engine state, an input by its kind. -/
theorem stepKeepsInvariant : Obligations.StepKeepsInvariant := by
  intro s t h ht
  unfold step at ht
  split at ht
  · exact State.engineStep_inv h ht
  · rename_i i rest _
    have h' : State.Inv { s with inputs := rest } := h.congr id rfl rfl rfl id
    exact State.inputStep_inv h' ht

end Sys2Proof.Machine
end

section
/-! PROOF. Runs of many steps, and the output a destination holds. -/

namespace Sys2Proof.Machine
open Sys2Proof

theorem byteAt_append_left {xs ys : List Byte} {j : Nat} (h : j < xs.length) :
    byteAt (xs ++ ys) j = byteAt xs j := by
  simp [byteAt, List.getD_eq_getElem?_getD, List.getElem?_append_left h]

theorem byteAt_append_last (xs : List Byte) (v : Byte) : byteAt (xs ++ [v]) xs.length = v := by
  simp [byteAt]

theorem length_copyList (d n : Nat) : ∀ out : List Byte, (copyList d n out).length = out.length + n := by
  induction n with
  | zero => intro out; rfl
  | succ n ih => intro out; rw [copyList, ih]; simp; omega

namespace State

/-! ### What is reached in some number of steps -/

/-- Some number of steps leads from s to t. -/
def Reaches (s t : State) : Prop := ∃ steps, run steps s = .next t

theorem Reaches.refl (s : State) : s.Reaches s := ⟨0, rfl⟩

theorem Reaches.step {s t u : State} (h : Machine.step s = .next t) (hr : t.Reaches u) :
    s.Reaches u := by
  obtain ⟨k, hk⟩ := hr
  exact ⟨k + 1, (run_succ_of_step k h).trans hk⟩

/-! ### The surroundings of a stream instruction -/

theorem sameAround_withEng (s : State) (e : Engine) : s.SameAround (s.withEng e) :=
  ⟨rfl, rfl, rfl, rfl, rfl, rfl, rfl, rfl, rfl, rfl, rfl, rfl⟩

theorem sameAround_setOutBytes (s : State) (o : Nat) (bytes : List Byte) :
    s.SameAround (s.setOutBytes o bytes) := by
  simp [SameAround]

theorem sameAround_copyBytes (s : State) (d o n : Nat) : s.SameAround (copyBytes d o n s) := by
  simp [SameAround]

theorem SameAround.trans {s t u : State} (h : s.SameAround t) (h' : t.SameAround u) :
    s.SameAround u := by
  simp only [SameAround] at h h' ⊢
  simp only [h', h, and_self]

end State

theorem Engine.SameCommand.trans {e e' e'' : Engine} (h : e.SameCommand e')
    (h' : e'.SameCommand e'') : e.SameCommand e'' where
  lop := h'.lop.trans h.lop
  level := h'.level.trans h.level
  llevel := h'.llevel.trans h.llevel
  lhtab := h'.lhtab.trans h.lhtab
  k := h'.k.trans h.k
  lsrc := h'.lsrc.trans h.lsrc
  lslen := h'.lslen.trans h.lslen
  ldst := h'.ldst.trans h.ldst
  ldlen := h'.ldlen.trans h.ldlen

namespace State

/-! ### The output a destination holds -/

/-- The destination begins with these bytes. -/
def Holds (s : State) (out : List Byte) : Prop :=
  ∀ j, j < out.length → s.readByte (s.dstAddr j) = byteAt out j

theorem Holds.setOut {s : State} {out : List Byte} (h : s.Holds out) (hlt : out.length < 2 ^ 32)
    (v : Byte) : (s.setOut out.length v).Holds (out ++ [v]) := by
  intro j hj
  rw [List.length_append, List.length_singleton] at hj
  rw [dstAddr_setOut, readByte_setOut]
  split
  · rename_i heq
    have hlast : out.length = j := by
      by_contra hne
      exact s.dstAddr_ne hlt (by omega) hne heq
    rw [← hlast, byteAt_append_last]
  · rename_i hne
    have hlt : j < out.length := by
      by_contra hge
      exact hne (by rw [show j = out.length by omega])
    rw [byteAt_append_left hlt]
    exact h j hlt

theorem Holds.setOutBytes (bytes : List Byte) : ∀ {s : State} {out : List Byte}, s.Holds out →
    out.length + bytes.length ≤ 2 ^ 32 →
    (s.setOutBytes out.length bytes).Holds (out ++ bytes) := by
  induction bytes with
  | nil => intro s out h _; simpa [State.setOutBytes] using h
  | cons b bytes ih =>
    intro s out h hle
    simp only [List.length_cons] at hle
    have hnext := ih (h.setOut (by omega) b) (by simp; omega)
    simpa [State.setOutBytes] using hnext

/-- COPY on memory follows COPY on the bytes produced so far (R178). -/
theorem Holds.copyBytes {d : Nat} (hd : 1 ≤ d) (n : Nat) : ∀ {s : State} {out : List Byte},
    s.Holds out → d ≤ out.length → out.length + n ≤ 2 ^ 32 →
    (copyBytes d out.length n s).Holds (copyList d n out) := by
  induction n with
  | zero => intro s out h _ _; exact h
  | succ n ih =>
    intro s out h hle hroom
    have hread : s.outByte (out.length - d) = byteAt out (out.length - d) := h _ (by omega)
    have hnext := ih (h.setOut (by omega) (byteAt out (out.length - d))) (by simp; omega)
      (by simp; omega)
    rw [State.copyBytes, copyList, hread]
    simpa using hnext

end State
end Sys2Proof.Machine
end

section
/-! PROOF. A whole DECOMPRESS on the machine: the decoder's loop follows DECODE (R171, R209, R236). -/

namespace Sys2Proof.Machine
open Sys2Proof
namespace State

/-! ### The decoder's progress on the machine -/

/-- A DECOMPRESS that no access, no race and no host action disturbs. -/
structure Undisturbed (b : State) : Prop where
  lop : b.eng.lop = .decompress
  apart : b.eng.RegionsApart
  answers : b.plat.Answers
  visible : b.Visible
  inputs : b.inputs = []

/-- The stream: the bytes of the source region. -/
def stream (b : State) : List Byte := b.region b.eng.lsrc b.eng.lslen

theorem length_stream (b : State) : b.stream.length = b.eng.lslen.toNat := by
  simp [stream, region]

/-- The decoder that started in b stands at the head of the main loop and has produced these bytes (R171). -/
structure DecodedTo (b : State) (out : List Byte) (t : State) : Prop where
  around : b.SameAround t
  command : b.eng.SameCommand t.eng
  fsm : t.eng.fsm = .dFetch
  inStream : t.eng.ip ≤ t.eng.lslen.toNat
  offset : out.length = t.eng.o
  room : t.eng.o ≤ t.eng.ldlen.toNat
  holds : t.Holds out
  frame : ∀ a, b.dstSpan.has a = false → t.readByte a = b.readByte a

theorem DecodedTo.undisturbed {b t : State} {out : List Byte} (h : b.DecodedTo out t)
    (hb : b.Undisturbed) : t.Undisturbed := by
  obtain ⟨-, -, -, huncleaned, -, -, -, hplat, hinputs, -⟩ := h.around
  have hcmd := h.command
  refine ⟨hcmd.lop.trans hb.lop, ?_, hplat ▸ hb.answers, ?_, hinputs.trans hb.inputs⟩
  · have happ := hb.apart
    unfold Engine.RegionsApart at happ ⊢
    rwa [hcmd.lsrc, hcmd.lslen, hcmd.ldst, hcmd.ldlen]
  · have hvis := hb.visible
    unfold Visible srcAddr at hvis ⊢
    rwa [hplat, hcmd.lslen, huncleaned, hcmd.lsrc]

theorem DecodedTo.dstSpan {b t : State} {out : List Byte} (h : b.DecodedTo out t) :
    t.dstSpan = b.dstSpan := by
  unfold State.dstSpan
  rw [h.command.ldst, h.command.ldlen]

/-- No source byte lies in the destination region (R61). -/
theorem dstSpan_source {b : State} (h : b.eng.RegionsApart) {i : Nat} (hi : i < b.eng.lslen.toNat) :
    b.dstSpan.has (b.eng.lsrc.toNat + i) = false := by
  obtain ⟨-, -, hdisj⟩ := h
  rw [Bool.eq_false_iff]
  intro hin
  rw [Span.has_iff] at hin
  simp only [State.dstSpan] at hin
  omega

theorem DecodedTo.inByte {b t : State} {out : List Byte} (h : b.DecodedTo out t)
    (hb : b.Undisturbed) {i : Nat} (hi : i < b.eng.lslen.toNat) :
    t.inByte i = b.readByte (b.eng.lsrc.toNat + i) := by
  have ht := h.undisturbed hb
  have hit : i < t.eng.lslen.toNat := by rwa [h.command.lslen]
  rw [inByte_of_visible ht.visible hit, (srcAddr_inside ht.apart.1 hit).1, h.command.lsrc]
  exact h.frame _ (dstSpan_source hb.apart hi)

theorem inBytes_eq_map (s : State) (n : Nat) : ∀ i,
    s.inBytes i n = (List.range n).map (fun j => s.inByte (i + j)) := by
  induction n with
  | zero => intro i; rfl
  | succ n ih =>
    intro i
    rw [inBytes, ih, List.range_succ_eq_map]
    simp [Function.comp_def, Nat.add_assoc, Nat.add_comm 1]

/-- What is still to be read is the stream from ip on. -/
theorem DecodedTo.streamFrom {b t : State} {out : List Byte} (h : b.DecodedTo out t)
    (hb : b.Undisturbed) : t.streamFrom = b.stream.drop t.eng.ip := by
  have hlslen := h.command.lslen
  unfold State.streamFrom stream region
  rw [inBytes_eq_map, hlslen]
  refine List.ext_getElem (by simp) fun j hj _ => ?_
  simp only [List.length_map, List.length_range] at hj
  simpa using h.inByte hb (by omega)

/-- The output goes on: what has moved on from t, with more bytes in the destination and nothing else changed,
has decoded them. -/
theorem DecodedTo.produced {b t x : State} {out out' : List Byte} {ip n : Nat}
    (h : b.DecodedTo out t) (hx : t.SameAround x) (hcmd : t.eng.SameCommand x.eng)
    (ho : x.eng.o = t.eng.o) (hip : ip ≤ t.eng.lslen.toNat) (hlen : out'.length = t.eng.o + n)
    (hroom : t.eng.o + n ≤ t.eng.ldlen.toNat) (hholds : x.Holds out')
    (hframe : ∀ a, t.dstSpan.has a = false → x.readByte a = t.readByte a) :
    b.DecodedTo out' (x.produced ip n) where
  around := (h.around.trans hx).trans (sameAround_withEng _ _)
  command := (h.command.trans hcmd).trans (by constructor <;> rfl)
  fsm := rfl
  inStream := show ip ≤ x.eng.lslen.toNat by rwa [hcmd.lslen]
  offset := show out'.length = x.eng.o + n by rw [ho, hlen]
  room := show x.eng.o + n ≤ x.eng.ldlen.toNat by rwa [ho, hcmd.ldlen]
  holds := hholds
  frame a ha := (hframe a (h.dstSpan ▸ ha)).trans (h.frame a ha)

/-- Bytes outside the destination region are none of the next n output bytes. -/
theorem dstAddr_ne_outside {s : State} {n a : Nat} (hw : s.eng.ldst.toNat + s.eng.ldlen.toNat ≤ 2 ^ 32)
    (hroom : s.eng.o + n ≤ s.eng.ldlen.toNat) (ha : s.dstSpan.has a = false) :
    ∀ j, j < n → s.dstAddr (s.eng.o + j) ≠ a := by
  rintro j hj rfl
  rw [(dstAddr_inside hw (by omega)).2] at ha
  cases ha

/-- An instruction on the machine does what it does on the bytes produced so far: it ends the command with the
error at its opcode byte, or produces the bytes and moves ip past itself (R171, R174). -/
def RunsAs (b t : State) (i : Instr) : Except Cause (List Byte) → Prop
  | .error cause =>
    NextWith (exec i t) (fun u => t.EndedWith u cause (BitVec.ofNat 32 t.eng.ip))
  | .ok out =>
    NextWith (exec i t) (fun u => b.DecodedTo out u ∧ u.eng.ip = t.eng.ip + i.size)

/-- An error of the check phase of an instruction that began at ip. -/
theorem endedWith_checked (t : State) (fetched len d : Nat) (cause : Cause) :
    t.EndedWith ((t.beginAt.operands fetched len d).raise cause t.eng.ip) cause
      (BitVec.ofNat 32 t.eng.ip) :=
  endedWith_raise cause _ (sameAround_withEng t _) (fun _ => rfl) rfl

/-- The state in which an instruction that has passed its checks produces its bytes. -/
def inCopy (t : State) (fetched len d : Nat) : State :=
  (t.beginAt.operands fetched len d).withFsm .dCopy

/-- The check phase of an instruction that began at ip, in the order of R174. -/
theorem checked_operands (t : State) (fetched len d : Nat) (copy : State → State) :
    (t.beginAt.operands fetched len d).checked copy =
      if t.eng.ldlen.toNat < t.eng.o + len then
        (t.beginAt.operands fetched len d).raise .overrun t.eng.ip
      else if t.eng.o < d then
        (t.beginAt.operands fetched len d).raise .distBeforeStart t.eng.ip
      else copy (t.inCopy fetched len d) := by
  have hproblem : (t.beginAt.operands fetched len d).checkProblem =
      if t.eng.ldlen.toNat < t.eng.o + len then some .overrun
      else if t.eng.o < d then some .distBeforeStart else none := rfl
  rw [checked, hproblem]
  split_ifs <;> rfl

theorem DecodedTo.runMatch {b t : State} {out : List Byte} (h : b.DecodedTo out t)
    (hb : b.Undisturbed) {i : Instr} {len d : Nat} (hm : matchOf i = some (len, d)) (hd : 1 ≤ d)
    (hwhole : t.eng.ip + i.size ≤ t.eng.lslen.toNat) :
    b.RunsAs t i (produce t.eng.ldlen.toNat i out) := by
  have ht := h.undisturbed hb
  obtain ⟨-, hwrap, -⟩ := ht.apart
  have hexec := exec_of_matchOf hm t
  rw [runMatch_of_answers ht.answers, if_neg (not_lt.2 hwhole), checked_operands] at hexec
  rw [produce_of_matchOf hm, h.offset]
  by_cases hover : t.eng.ldlen.toNat < t.eng.o + len
  · rw [if_pos hover] at hexec ⊢
    exact ⟨_, hexec, endedWith_checked t i.size len d .overrun⟩
  rw [if_neg hover] at hexec ⊢
  by_cases hfar : t.eng.o < d
  · rw [if_pos hfar] at hexec ⊢
    exact ⟨_, hexec, endedWith_checked t i.size len d .distBeforeStart⟩
  rw [if_neg hfar] at hexec ⊢
  rw [copyMatch_of_answers (s := t.inCopy i.size len d) ht.answers] at hexec
  have hroom := not_lt.1 hover
  have hlt := t.eng.ldlen.isLt
  have hholds := Holds.copyBytes hd len (s := t.inCopy i.size len d)
    h.holds (h.offset ▸ not_lt.1 hfar) (h.offset ▸ by omega)
  rw [h.offset] at hholds
  refine ⟨_, hexec, h.produced (n := len) ?_ ?_ ?_ hwhole ?_ hroom hholds ?_, rfl⟩
  · exact (sameAround_withEng t _).trans (sameAround_copyBytes _ _ _ _)
  · rw [copyBytes_eng]; constructor <;> rfl
  · rw [copyBytes_eng]; rfl
  · rw [length_copyList, h.offset]
  · intro a ha
    exact (readByte_copyBytes d len (t.inCopy i.size len d) t.eng.o hd
      (not_lt.1 hfar) (by omega)).1 a (dstAddr_ne_outside hwrap hroom ha)

theorem DecodedTo.runLiteral {b t : State} {out : List Byte} (h : b.DecodedTo out t)
    (hb : b.Undisturbed) {bytes : List Byte}
    (hwhole : t.eng.ip + (1 + bytes.length) ≤ t.eng.lslen.toNat) :
    b.RunsAs t (.lit bytes) (produce t.eng.ldlen.toNat (.lit bytes) out) := by
  have ht := h.undisturbed hb
  obtain ⟨-, hwrap, -⟩ := ht.apart
  have hexec : exec (.lit bytes) t = .next (t.runLiteral bytes) := rfl
  rw [runLiteral_of_answers ht.answers, if_neg (not_lt.2 hwhole), checked_operands,
    if_neg (Nat.not_lt_zero _)] at hexec
  rw [produce, h.offset]
  by_cases hover : t.eng.ldlen.toNat < t.eng.o + bytes.length
  · rw [if_pos hover] at hexec ⊢
    exact ⟨_, hexec, endedWith_checked t 1 bytes.length 0 .overrun⟩
  rw [if_neg hover] at hexec ⊢
  rw [copyLiteral_of_answers (s := t.inCopy 1 bytes.length 0) ht.answers] at hexec
  have hroom := not_lt.1 hover
  have hlt := t.eng.ldlen.isLt
  have hholds := Holds.setOutBytes bytes
    (s := t.inCopy 1 bytes.length 0) h.holds (h.offset ▸ by omega)
  rw [h.offset] at hholds
  refine ⟨_, hexec, h.produced (n := bytes.length) ?_ ?_ ?_ ?_ ?_ hroom hholds ?_, ?_⟩
  · exact (sameAround_withEng t _).trans (sameAround_setOutBytes _ _ _)
  · rw [setOutBytes_eng]; constructor <;> rfl
  · rw [setOutBytes_eng]; rfl
  · exact (Nat.add_assoc _ _ _).trans_le hwhole
  · rw [List.length_append, h.offset]
  · intro a ha
    exact (readByte_setOutBytes bytes (t.inCopy 1 bytes.length 0) t.eng.o
      (by omega)).2 a (dstAddr_ne_outside hwrap hroom ha)
  · exact Nat.add_assoc _ _ _

/-- The instruction the decoder reads next runs as it does on byte lists, and the rest of the stream is left. -/
theorem DecodedTo.runs {b t : State} {out rest : List Byte} {i : Instr} (h : b.DecodedTo out t)
    (hb : b.Undisturbed) (hdec : decode t.eng.level t.streamFrom = .ok (i, rest)) :
    b.RunsAs t i (produce t.eng.ldlen.toNat i out) ∧ t.eng.ip + i.size ≤ t.eng.lslen.toNat ∧
      rest = b.stream.drop (t.eng.ip + i.size) := by
  have hreads := decode_reads hdec
  obtain ⟨hlen, hrest⟩ := hreads.rest_eq
  rw [State.streamFrom, length_inBytes] at hlen
  have hwhole : t.eng.ip + i.size ≤ t.eng.lslen.toNat := by have := i.size_pos; omega
  refine ⟨?_, hwhole, by rw [hrest, h.streamFrom hb, List.drop_drop]⟩
  rcases hreads with ⟨op, lits, rfl, -, -⟩ | ⟨len, d, front, hm, -, hd, -⟩
  · exact h.runLiteral hb hwhole
  · exact h.runMatch hb hm hd hwhole

/-! ### The outcome of a DECOMPRESS -/

/-- In t the command that b runs has completed with this outcome of DECODE (R209, R236). -/
def DecodedAs (b t : State) (outcome : Except (Cause × Nat) (List Byte)) : Prop :=
  t.eng.fsm = .idle ∧ t.csr.done = true ∧ t.csr.levelUsed = b.csr.levelUsed ∧
    b.csr.SameConfig t.csr ∧ t.ht = b.ht ∧
    (match outcome with
      | .ok out => t.csr.errCode = 0 ∧ t.csr.errCause = 0 ∧ t.csr.errPos = 0 ∧
          t.csr.resultLen = b.eng.ldlen ∧ out.length = b.eng.ldlen.toNat ∧
          ∀ j, j < out.length → t.readByte (b.eng.ldst.toNat + j) = byteAt out j
      | .error (cause, pos) => t.csr.errCode = cause.code ∧ t.csr.errCause = cause.number ∧
          t.csr.errPos.toNat = pos ∧ t.csr.resultLen = 0) ∧
    ∀ a, b.dstSpan.has a = false → t.readByte a = b.readByte a

theorem DecodedTo.ended {b t u : State} {out : List Byte} {cause : Cause} {pos : Nat}
    (h : b.DecodedTo out t) (hpos : pos ≤ t.eng.lslen.toNat)
    (hend : t.EndedWith u cause (BitVec.ofNat 32 pos)) : b.DecodedAs u (.error (cause, pos)) := by
  obtain ⟨hidle, hdone, hcode, hcause, herr, hlen, hused, hconf, hht, -, -, -, -, -, -, hframe⟩ := hend
  obtain ⟨hcsr, hbht, -⟩ := h.around
  have hlt := t.eng.lslen.isLt
  refine ⟨hidle, hdone, hcsr ▸ hused, hcsr ▸ hconf, hht.trans hbht, ⟨hcode, hcause, ?_, hlen⟩, ?_⟩
  · rw [herr, BitVec.toNat_ofNat, Nat.mod_eq_of_lt (by omega)]
  · exact fun a ha => (hframe a (h.dstSpan ▸ ha)).trans (h.frame a ha)

theorem succeed_of_decompress {s : State} (h : s.eng.lop = .decompress) :
    s.succeed = (s.markStale s.dstSpan).report 0 0 s.eng.ldlen 0 := by
  unfold succeed
  rw [h]

theorem DecodedTo.succeeded {b t : State} {out : List Byte} (h : b.DecodedTo out t)
    (hb : b.Undisturbed) (hfull : t.eng.ldlen.toNat ≤ t.eng.o) :
    b.DecodedAs (t.withFsm .complete).succeed (.ok out) := by
  have ht := h.undisturbed hb
  obtain ⟨hcsr, hht, -⟩ := h.around
  obtain ⟨-, hwrap, -⟩ := ht.apart
  have hlen : out.length = t.eng.ldlen.toNat := h.offset.trans (le_antisymm h.room hfull)
  rw [succeed_of_decompress (s := t.withFsm .complete) ht.lop]
  refine ⟨rfl, rfl, by simp [hcsr], by simp [Csr.SameConfig, hcsr], by simp [hht],
    ⟨rfl, rfl, rfl, h.command.ldlen, by rw [hlen, h.command.ldlen], fun j hj => ?_⟩, fun a ha => ?_⟩
  · rw [readByte_report, readByte_markStale, readByte_withFsm, ← h.command.ldst,
      ← (dstAddr_inside hwrap (hlen ▸ hj)).1]
    exact h.holds j hj
  · rw [readByte_report, readByte_markStale, readByte_withFsm]
    exact h.frame a ha

/-- An instruction that the end of the stream cuts off ends the command at its opcode byte (R173, R180). -/
theorem endedWith_truncated {t : State} (ht : t.plat.Answers) (cause : Cause) (fetched : Nat) :
    t.EndedWith (t.truncated cause fetched) cause (BitVec.ofNat 32 t.eng.ip) := by
  rw [truncated, access_of_answers (s := t.beginAt) ht]
  exact endedWith_raise _ _ (sameAround_withEng t _) (fun _ => rfl) rfl

theorem DecodedTo.step_eq {b t : State} {out : List Byte} (h : b.DecodedTo out t)
    (hb : b.Undisturbed) : step t = t.stepFetch := by
  rw [step_of_no_inputs (h.undisturbed hb).inputs, engineStep, h.fsm]

/-- Once all bytes are produced the command ends: with TRAILING at the first stream byte left over, or else
with success (R171). -/
theorem DecodedTo.completes_of_full {b t : State} {out : List Byte} (h : b.DecodedTo out t)
    (hb : b.Undisturbed) (hfull : t.eng.ldlen.toNat ≤ t.eng.o) :
    ∃ u, t.Reaches u ∧ b.DecodedAs u
      (if t.eng.ip < t.eng.lslen.toNat then .error (.trailing, t.eng.ip) else .ok out) := by
  have hinputs := (h.undisturbed hb).inputs
  have hfetch : step t = .next (t.withFsm .dEnd) := by
    rw [h.step_eq hb, stepFetch, if_neg (not_lt.2 hfull)]
  have hend : step (t.withFsm .dEnd) = .next
      (if t.eng.ip < t.eng.lslen.toNat then (t.withFsm .dEnd).raise .trailing t.eng.ip
      else t.withFsm .complete) :=
    step_of_no_inputs (s := t.withFsm .dEnd) hinputs
  split
  · rename_i hleft
    rw [if_pos hleft] at hend
    refine ⟨_, .step hfetch (.step hend (.refl _)), h.ended h.inStream ?_⟩
    exact endedWith_raise _ _ (sameAround_withEng t _) (fun _ => rfl) rfl
  · rename_i hleft
    rw [if_neg hleft] at hend
    have hcomplete : step (t.withFsm .complete) = .next (t.withFsm .complete).succeed :=
      step_of_no_inputs (s := t.withFsm .complete) hinputs
    exact ⟨_, .step hfetch (.step hend (.step hcomplete (.refl _))), h.succeeded hb hfull⟩

/-- The error of a stream that ends at the instruction at ip or inside it, and its position (R171, R173, R180). -/
def cutOffAt (t : State) : DecodeError → Cause × Nat
  | .noOpcode => (.exhausted, t.eng.lslen.toNat)
  | .truncLiteral => (.truncLiteral, t.eng.ip)
  | .truncMatch => (.truncMatch, t.eng.ip)

theorem DecodedTo.step_of_more {b t : State} {out : List Byte} (h : b.DecodedTo out t)
    (hb : b.Undisturbed) (hmore : t.eng.o < t.eng.ldlen.toNat) : step t = t.fetchExec := by
  rw [h.step_eq hb, stepFetch, if_pos hmore]

/-- A stream that gives no whole instruction where bytes are still to be produced ends the command. -/
theorem DecodedTo.completes_of_cutOff {b t : State} {out : List Byte} (h : b.DecodedTo out t)
    (hb : b.Undisturbed) (hmore : t.eng.o < t.eng.ldlen.toNat) {why : DecodeError}
    (hdec : decode t.eng.level t.streamFrom = .error why) :
    ∃ u, t.Reaches u ∧ b.DecodedAs u (.error (t.cutOffAt why)) := by
  have hanswers := (h.undisturbed hb).answers
  have hstep := h.step_of_more hb hmore
  unfold fetchExec at hstep
  rw [hdec] at hstep
  cases why with
  | noOpcode =>
    exact ⟨_, .step hstep (.refl _), h.ended le_rfl
      (endedWith_raise _ _ (sameAround_withEng t t.eng) (fun _ => rfl) rfl)⟩
  | truncLiteral =>
    exact ⟨_, .step hstep (.refl _), h.ended h.inStream (endedWith_truncated hanswers _ _)⟩
  | truncMatch =>
    exact ⟨_, .step hstep (.refl _), h.ended h.inStream (endedWith_truncated hanswers _ _)⟩

theorem DecodedTo.step_of_read {b t : State} {out rest : List Byte} {i : Instr}
    (h : b.DecodedTo out t) (hb : b.Undisturbed) (hmore : t.eng.o < t.eng.ldlen.toNat)
    (hdec : decode t.eng.level t.streamFrom = .ok (i, rest)) : step t = exec i t := by
  rw [h.step_of_more hb hmore, fetchExec, hdec]

/-- The decoder completes with the outcome of DECODE on what is left of the stream (R171, R272). -/
theorem DecodedTo.completes {b : State} (hb : b.Undisturbed) (fuel : Nat) :
    ∀ {t : State} {out : List Byte}, b.DecodedTo out t →
      (b.stream.drop t.eng.ip).length < fuel →
      ∃ u, t.Reaches u ∧ b.DecodedAs u (decodeLoop b.eng.level b.eng.ldlen.toNat
        b.eng.lslen.toNat fuel (b.stream.drop t.eng.ip) out) := by
  induction fuel with
  | zero => intro t out _ hfuel; exact absurd hfuel (Nat.not_lt_zero _)
  | succ fuel ih =>
    intro t out h hfuel
    have hip := h.inStream
    rw [← h.command.level, ← h.command.ldlen, ← h.command.lslen]
    have hleft : (b.stream.drop t.eng.ip).length = t.eng.lslen.toNat - t.eng.ip := by
      rw [List.length_drop, length_stream, h.command.lslen]
    have hpos : t.eng.lslen.toNat - (b.stream.drop t.eng.ip).length = t.eng.ip := by omega
    unfold decodeLoop
    rw [h.offset, hpos]
    by_cases hmore : t.eng.o < t.eng.ldlen.toNat
    · rw [if_pos hmore, ← h.streamFrom hb]
      cases hdec : decode t.eng.level t.streamFrom with
      | error why =>
        obtain ⟨u, hu, has⟩ := h.completes_of_cutOff hb hmore hdec
        cases why <;> exact ⟨u, hu, has⟩
      | ok read =>
        obtain ⟨i, rest⟩ := read
        have hstep := h.step_of_read hb hmore hdec
        obtain ⟨hruns, hwhole, hrest⟩ := h.runs hb hdec
        dsimp only
        cases hprod : produce t.eng.ldlen.toNat i out with
        | error cause =>
          rw [hprod] at hruns
          obtain ⟨u, hu, hend⟩ := hruns
          exact ⟨u, .step (hstep.trans hu) (.refl u), h.ended hip hend⟩
        | ok out' =>
          rw [hprod] at hruns
          obtain ⟨u, hu, hdecoded, huip⟩ := hruns
          have hlt : (b.stream.drop u.eng.ip).length < fuel := by
            have := i.size_pos
            rw [List.length_drop, length_stream, ← h.command.lslen, huip]
            omega
          obtain ⟨v, hv, has⟩ := ih hdecoded hlt
          refine ⟨v, .step (hstep.trans hu) hv, ?_⟩
          dsimp only
          rw [hrest, ← huip, h.command.level, h.command.ldlen, h.command.lslen]
          exact has
    · rw [if_neg hmore]
      have hfull := h.completes_of_full hb (not_lt.1 hmore)
      cases hrest : b.stream.drop t.eng.ip with
      | nil =>
        rw [hrest, List.length_nil] at hleft
        rwa [if_neg (by omega)] at hfull
      | cons byte rest =>
        rw [hrest, List.length_cons] at hleft
        rwa [if_pos (by omega)] at hfull

/-- From CHECK on, a valid DECOMPRESS completes with the outcome of DECODE on its stream. -/
theorem completes_of_check {c : State} (hf : c.eng.fsm = .check) (hlop : c.eng.lop = .decompress)
    (hvalid : configError c.eng = none) (hinputs : c.inputs = []) (hanswers : c.plat.Answers)
    (hvisible : c.Visible) :
    ∃ u, c.Reaches u ∧ c.stepCheck.DecodedAs u
      (decompressBytes (resolveLevel c.eng) c.stream c.eng.ldlen.toNat) := by
  have hcheck : step c = .next c.stepCheck := by
    rw [step_of_no_inputs hinputs, engineStep, hf]
  obtain ⟨-, -, hapart, -⟩ := configError_none hvalid
  rw [stepCheck_of_decompress hvalid hlop] at hcheck ⊢
  generalize hb : (c.withCsr _).withEng _ = b at hcheck ⊢
  have hundisturbed : b.Undisturbed := by
    rw [← hb]
    exact ⟨hlop, hapart, hanswers, hvisible, hinputs⟩
  have hdecoded : b.DecodedTo [] b := by
    rw [← hb]
    exact
      { around := sameAround_withEng _ _
        command := by constructor <;> rfl
        fsm := rfl
        inStream := Nat.zero_le _
        offset := rfl
        room := Nat.zero_le _
        holds := fun j hj => absurd hj (Nat.not_lt_zero j)
        frame := fun _ _ => rfl }
  obtain ⟨u, hu, has⟩ := hdecoded.completes hundisturbed (b.stream.length + 1)
    (by rw [List.length_drop]; omega)
  refine ⟨u, .step hcheck hu, ?_⟩
  rw [← length_stream, show b.eng.ip = 0 by rw [← hb]; rfl, List.drop_zero] at has
  unfold decompressBytes
  rw [← hb] at has ⊢
  exact has

/-- A block that is idle and not held in reset starts a command that nothing opposes (R202, R203). -/
theorem launch_of_unopposed {s : State} {op : Op} {level : BitVec 2} (hidle : s.eng.fsm = .idle)
    (hfree : s.resetHeld = false) (hunopposed : (s.start op level).Unopposed) :
    s.launch op level = .next (s.start op level) := by
  have hnone := launchRefusal_none (.inl hunopposed)
  simp [launch, busy, hidle, hfree, hnone]

end State

/-- Settles O40: CHECK lets the command run, and the decoder's loop then follows DECODE on the stream. -/
theorem decompressCompletes : Obligations.DecompressCompletes := by
  intro s level ignored _ hidle hfree hinputs hanswers hvisible hunopposed hvalid
  refine ⟨s.start .decompress level, State.launch_of_unopposed hidle hfree hunopposed, ?_⟩
  obtain ⟨u, ⟨steps, hu⟩, has⟩ :=
    State.completes_of_check rfl rfl hvalid hinputs hanswers hvisible
  rw [State.stepCheck_of_decompress hvalid rfl] at has
  exact ⟨steps, u, hu, has⟩

end Sys2Proof.Machine
end

section
/-! PROOF. Where the accesses of a turn lie: in the source, in the destination, or behind the output (R62, R63,
R191). -/

namespace Sys2Proof.Machine
open Sys2Proof
namespace State

/-! ### Accesses inside the two regions -/

/-- The access is a read of a source byte or a write of a destination byte (R62). -/
def Regular (s : State) (acc : Access) : Prop :=
  (∃ i, i < s.eng.lslen.toNat ∧ acc = .srcRead (s.srcAddr i)) ∨
    ∃ j, j < s.eng.ldlen.toNat ∧ acc = .dstWrite (s.dstAddr j)

theorem regular_srcRead {s : State} {i : Nat} (h : i < s.eng.lslen.toNat) :
    s.Regular (.srcRead (s.srcAddr i)) :=
  .inl ⟨i, h, rfl⟩

theorem regular_dstWrite {s : State} {j : Nat} (h : j < s.eng.ldlen.toNat) :
    s.Regular (.dstWrite (s.dstAddr j)) :=
  .inr ⟨j, h, rfl⟩

/-- The two regions of a state depend on its engine's latched registers alone. -/
theorem Regular.congr {s u : State} {acc : Access} (h : u.Regular acc)
    (hcmd : s.eng.SameCommand u.eng) : s.Regular acc := by
  unfold Regular srcAddr dstAddr at h ⊢
  rwa [← hcmd.lsrc, ← hcmd.lslen, ← hcmd.ldst, ← hcmd.ldlen]

/-- In the 32-bit space the addresses of a regular access are the exact sums (R61). -/
theorem Regular.inside {s : State} {acc : Access} (h : s.Regular acc) (ha : s.eng.RegionsApart) :
    (∃ i, i < s.eng.lslen.toNat ∧ acc = .srcRead (s.eng.lsrc.toNat + i)) ∨
      ∃ j, j < s.eng.ldlen.toNat ∧ acc = .dstWrite (s.eng.ldst.toNat + j) := by
  obtain ⟨hsrc, hdst, -⟩ := ha
  rcases h with ⟨i, hi, rfl⟩ | ⟨j, hj, rfl⟩
  · exact .inl ⟨i, hi, by rw [(srcAddr_inside hsrc hi).1]⟩
  · exact .inr ⟨j, hj, by rw [(dstAddr_inside hdst hj).1]⟩

/-! ### The accesses of COMPRESS -/

theorem regular_of_hashAccesses {s : State} {q : Nat} (h : q + 2 < s.inputLen) :
    ∀ acc ∈ s.hashAccesses q, s.Regular acc := by
  unfold inputLen at h
  simp only [hashAccesses, List.forall_mem_cons, List.not_mem_nil, false_imp_iff, implies_true,
    and_true]
  exact ⟨regular_srcRead (by omega), regular_srcRead (by omega), regular_srcRead (by omega)⟩

theorem regular_of_insertAccesses (s : State) (q : Nat) :
    ∀ acc ∈ s.insertAccesses q, s.Regular acc := by
  unfold insertAccesses
  split
  · rename_i h; exact regular_of_hashAccesses h
  · simp

theorem regular_of_pairAccesses {s : State} {i j : Nat} (hi : i < s.inputLen)
    (hj : j < s.inputLen) : ∀ acc ∈ s.pairAccesses i j, s.Regular acc := by
  simp only [pairAccesses, List.forall_mem_cons, List.not_mem_nil, false_imp_iff, implies_true,
    and_true]
  exact ⟨regular_srcRead hi, regular_srcRead hj⟩

theorem regular_of_compareAccesses {s : State} {r p : Nat} (hr : r ≤ p) (count : Nat) :
    ∀ i, p + i + count ≤ s.inputLen → ∀ acc ∈ s.compareAccesses r p i count, s.Regular acc := by
  induction count with
  | zero => intro i _ acc hacc; cases hacc
  | succ count ih =>
    intro i hle acc hacc
    rw [compareAccesses, List.mem_append] at hacc
    rcases hacc with hacc | hacc
    · exact regular_of_pairAccesses (by omega) (by omega) acc hacc
    · split at hacc
      · exact ih (i + 1) (by omega) acc hacc
      · cases hacc

/-- SEARCH reads at the position p and at a candidate before it (R127, R128). -/
theorem regular_of_searchAccesses {s : State} (h : isSearch s.inputLen s.eng.p = true) :
    ∀ acc ∈ s.searchAccesses, s.Regular acc := by
  obtain ⟨-, hp⟩ := isSearch_iff.1 h
  intro acc hacc
  rw [searchAccesses, List.mem_append] at hacc
  rcases hacc with hacc | hacc
  · exact regular_of_hashAccesses (by omega) acc hacc
  · unfold candidateAccesses at hacc
    split at hacc
    · rename_i hd
      exact regular_of_compareAccesses (by omega) 3 0 (by omega) acc hacc
    · cases hacc

theorem regular_of_extendAccesses {s : State} {p r : Nat} (hr : r ≤ p) (fuel : Nat) :
    ∀ len, ∀ acc ∈ s.extendAccesses p r fuel len, s.Regular acc := by
  induction fuel with
  | zero => intro len acc hacc; cases hacc
  | succ fuel ih =>
    intro len acc hacc
    unfold extendAccesses at hacc
    split at hacc
    · rename_i hgo
      rw [List.mem_append] at hacc
      rcases hacc with hacc | hacc
      · exact regular_of_pairAccesses (by omega) (by omega) acc hacc
      · split at hacc
        · exact ih (len + 1) acc hacc
        · cases hacc
    · cases hacc

theorem regular_of_emitAccesses {s : State} {o count : Nat} (h : o + count ≤ s.eng.ldlen.toNat) :
    ∀ acc ∈ s.emitAccesses o count, s.Regular acc := by
  intro acc hacc
  obtain ⟨i, hi, rfl⟩ := List.mem_map.1 hacc
  exact regular_dstWrite (by have := List.mem_range.1 hi; omega)

theorem regular_of_runAccesses {s : State} {base count o : Nat} (hin : base + count ≤ s.inputLen)
    (hout : o + (count + 1) ≤ s.eng.ldlen.toNat) :
    ∀ acc ∈ s.runAccesses base count o, s.Regular acc := by
  unfold inputLen at hin
  intro acc hacc
  rw [runAccesses, List.mem_cons, List.mem_flatMap] at hacc
  rcases hacc with rfl | ⟨i, hi, hacc⟩
  · exact regular_dstWrite (by omega)
  · rw [List.mem_range] at hi
    simp only [List.mem_cons, List.not_mem_nil, or_false] at hacc
    rcases hacc with rfl | rfl
    · exact regular_srcRead (by omega)
    · exact regular_dstWrite (by omega)

/-- The pending run lies in the input, and PENDING_FLUSH fits if the offset it ends at does (R153). -/
theorem regular_of_flushAccesses {s : State} (hscan : s.eng.ScanOk)
    (hout : s.pendingFlush.eng.o ≤ s.eng.ldlen.toNat) :
    ∀ acc ∈ s.flushAccesses, s.Regular acc := by
  obtain ⟨hp, -, hbase⟩ := hscan
  obtain ⟨-, -, -, heng⟩ := s.pendingFlush_spec
  rw [heng] at hout
  unfold flushAccesses
  split
  · simp
  · rename_i hcnt
    rw [if_neg hcnt] at hout
    exact regular_of_runAccesses (by unfold inputLen; omega) hout

/-- What the destination of a valid COMPRESS has room for (R11, R204). -/
theorem Running.room {s : State} (h : s.Running) (hlop : s.eng.lop = .compress) :
    s.eng.lslen.toNat + (s.eng.lslen.toNat + 31) / 32 ≤ s.eng.ldlen.toNat := by
  obtain ⟨-, -, -, hroom⟩ := configError_none h.valid
  exact hroom hlop

theorem regular_of_cExtend {s : State} (h : s.Inv) (hf : s.eng.fsm = .cExtend) :
    ∀ acc ∈ s.extendAccesses s.eng.p s.eng.r s.inputLen Config.minMatch, s.Regular acc := by
  have hp := h.progressing
  simp only [Progressing, hf] at hp
  obtain ⟨-, -, -, -, hr, -⟩ := hp
  exact regular_of_extendAccesses hr.le _ _

theorem sameCommand_pendingFlush (s : State) : s.eng.SameCommand s.pendingFlush.eng := by
  obtain ⟨-, -, -, heng⟩ := s.pendingFlush_spec
  rw [heng]
  constructor <;> rfl

/-- The pending run and the match token fit the destination: the token's instruction is shorter than the bytes
it covers (R132, R152, R160). -/
theorem regular_of_cEmit {s : State} (h : s.Inv) (hf : s.eng.fsm = .cEmit) :
    ∀ acc ∈ s.flushAccesses ++ s.pendingFlush.tokenAccesses, s.Regular acc := by
  obtain ⟨hrun, hlop⟩ := h.compressing (by rw [hf]; rfl)
  have hroom := hrun.room hlop
  have hp := h.progressing
  simp only [Progressing, hf, Config.tailLiterals] at hp
  obtain ⟨hscan, hout, -, hrep, -, htail⟩ := hp
  have hflush := output_pendingFlush hscan hout
  obtain ⟨-, -, -, heng⟩ := s.pendingFlush_spec
  have hlen := (representable_iff.1 hrep).1
  have hshort := length_matchBytes_lt (level := s.eng.level) (d := s.eng.d) hlen
  intro acc hacc
  rw [List.mem_append] at hacc
  rcases hacc with hacc | hacc
  · exact regular_of_flushAccesses hscan (by omega) acc hacc
  · refine Regular.congr (u := s.pendingFlush) ?_ s.sameCommand_pendingFlush
    rw [tokenAccesses, List.mem_append, List.mem_flatMap] at hacc
    rcases hacc with hacc | ⟨j, -, hacc⟩
    · refine regular_of_emitAccesses ?_ acc hacc
      rw [heng] at hflush ⊢
      dsimp only at hflush ⊢
      omega
    · exact regular_of_insertAccesses _ _ acc hacc

/-- A literal token emits the pending run when it is the run's 32nd byte (R151). -/
theorem regular_of_cLiteral {s : State} (h : s.Inv) (hf : s.eng.fsm = .cLiteral) :
    ∀ acc ∈ s.literalTurnAccesses, s.Regular acc := by
  obtain ⟨hrun, hlop⟩ := h.compressing (by rw [hf]; rfl)
  have hroom := hrun.room hlop
  have hp := h.progressing
  simp only [Progressing, hf] at hp
  obtain ⟨⟨-, -, hbase⟩, hout, -, hlt⟩ := hp
  simp only [Engine.OutputOk, Engine.emitted] at hout
  intro acc hacc
  rw [literalTurnAccesses, List.mem_append] at hacc
  rcases hacc with hacc | hacc
  · split at hacc
    · cases hacc
    · exact regular_of_insertAccesses _ _ acc hacc
  · unfold litAccesses at hacc
    simp only [Config.maxCopy] at hacc
    split at hacc
    · rw [if_neg (by omega)] at hacc
      exact regular_of_runAccesses (by unfold inputLen; omega) (by omega) acc hacc
    · cases hacc

theorem regular_of_cFlush {s : State} (h : s.Inv) (hf : s.eng.fsm = .cFlush) :
    ∀ acc ∈ s.flushAccesses, s.Regular acc := by
  obtain ⟨hrun, hlop⟩ := h.compressing (by rw [hf]; rfl)
  have hroom := hrun.room hlop
  have hp := h.progressing
  simp only [Progressing, hf] at hp
  obtain ⟨hscan, hout, hend⟩ := hp
  refine regular_of_flushAccesses hscan ?_
  obtain ⟨-, -, hbase⟩ := hscan
  obtain ⟨-, -, -, heng⟩ := s.pendingFlush_spec
  simp only [Engine.OutputOk, Engine.emitted] at hout
  rw [heng]
  dsimp only
  split <;> omega

/-- Every access of a turn of COMPRESS is regular (R62). -/
theorem regular_of_compress {s : State} (h : s.Inv) (hf : s.eng.fsm.ofCompress = true) :
    ∀ acc ∈ s.turnAccesses, s.Regular acc := by
  cases hfsm : s.eng.fsm <;> simp only [turnAccesses, hfsm]
  case htInit => simp
  case cSearch =>
    split
    · rename_i hsearch; exact regular_of_searchAccesses hsearch
    · simp
  case cExtend => exact regular_of_cExtend h hfsm
  case cEmit => exact regular_of_cEmit h hfsm
  case cLiteral => exact regular_of_cLiteral h hfsm
  case cFlush => exact regular_of_cFlush h hfsm
  all_goals rw [hfsm] at hf; cases hf

/-! ### The accesses of DECOMPRESS, in their order -/

/-- After some accesses of the turn this one is allowed: it is regular, or it reads back an output byte that
was there before or that the turn has written (R63, R178, R191). -/
def Allowed (s : State) (seen : List Access) (acc : Access) : Prop :=
  s.Regular acc ∨ ∃ j, j < s.eng.ldlen.toNat ∧ acc = .dstRead (s.dstAddr j) ∧
    s.eng.lop = .decompress ∧ (j < s.eng.o ∨ Access.dstWrite (s.dstAddr j) ∈ seen)

/-- Each of the accesses is allowed after those of the turn before it. -/
def AllowedAfter (s : State) (seen accs : List Access) : Prop :=
  ∀ before acc after, accs = before ++ acc :: after → s.Allowed (seen ++ before) acc

theorem allowedAfter_of_regular {s : State} {accs : List Access} (seen : List Access)
    (h : ∀ acc ∈ accs, s.Regular acc) : s.AllowedAfter seen accs := by
  rintro before acc after rfl
  exact .inl (h acc (by simp))

theorem AllowedAfter.cons {s : State} {seen accs : List Access} {acc : Access}
    (h : s.Allowed seen acc) (hrest : s.AllowedAfter (seen ++ [acc]) accs) :
    s.AllowedAfter seen (acc :: accs) := by
  intro before a after heq
  cases before with
  | nil => cases heq; rwa [List.append_nil]
  | cons b before =>
    cases heq
    have := hrest before a after rfl
    rwa [List.append_assoc] at this

theorem AllowedAfter.append {s : State} {xs ys : List Access} : ∀ {seen : List Access},
    s.AllowedAfter seen xs → s.AllowedAfter (seen ++ xs) ys → s.AllowedAfter seen (xs ++ ys) := by
  induction xs with
  | nil => intro seen _ hys; rwa [List.append_nil] at hys
  | cons x xs ih =>
    intro seen hxs hys
    refine AllowedAfter.cons (by simpa using hxs [] x xs rfl) (ih ?_ (by simpa using hys))
    intro before acc after heq
    have := hxs (x :: before) acc after (by rw [heq, List.cons_append])
    simpa using this

/-- COPY reads behind the output offset it has reached, and has written what it reads past o (R178). -/
theorem allowedAfter_copyAccesses {s : State} {d : Nat} (hlop : s.eng.lop = .decompress)
    (hd : 1 ≤ d) (n : Nat) : ∀ {seen : List Access} {o : Nat}, d ≤ o →
      o + n ≤ s.eng.ldlen.toNat →
      (∀ j, s.eng.o ≤ j → j < o → Access.dstWrite (s.dstAddr j) ∈ seen) →
      s.AllowedAfter seen (s.copyAccesses d o n) := by
  induction n with
  | zero => intro seen o _ _ _; exact allowedAfter_of_regular _ (by simp [copyAccesses])
  | succ n ih =>
    intro seen o hdo hroom hseen
    rw [copyAccesses]
    refine AllowedAfter.cons (.inr ⟨o - d, by omega, rfl, hlop, ?_⟩)
      (AllowedAfter.cons (.inl (regular_dstWrite (by omega))) (ih (by omega) (by omega) ?_))
    · by_cases ho : o - d < s.eng.o
      · exact .inl ho
      · exact .inr (hseen _ (by omega) (by omega))
    · intro j hj hlt
      rcases Nat.lt_succ_iff_lt_or_eq.1 hlt with hlt | rfl
      · simp [hseen j hj hlt]
      · simp

theorem regular_of_literalAccesses {s : State} (n : Nat) : ∀ {i o : Nat},
    i + n ≤ s.eng.lslen.toNat → o + n ≤ s.eng.ldlen.toNat →
    ∀ acc ∈ s.literalAccesses i o n, s.Regular acc := by
  induction n with
  | zero => intro i o _ _; simp [literalAccesses]
  | succ n ih =>
    intro i o hin hout
    simp only [literalAccesses, List.forall_mem_cons]
    exact ⟨regular_srcRead (by omega), regular_dstWrite (by omega), ih (by omega) (by omega)⟩

theorem regular_of_srcReads {s : State} {i n : Nat} (h : i + n ≤ s.eng.lslen.toNat) :
    ∀ acc ∈ s.srcReads i n, s.Regular acc := by
  intro acc hacc
  obtain ⟨j, hj, rfl⟩ := List.mem_map.1 hacc
  exact regular_srcRead (by have := List.mem_range.1 hj; omega)

/-! ### What an instruction's lists of accesses are -/

theorem literalAccesses_eq_flatMap (s : State) (n : Nat) : ∀ i o,
    s.literalAccesses i o n = (List.range n).flatMap
      (fun j => [.srcRead (s.srcAddr (i + j)), .dstWrite (s.dstAddr (o + j))]) := by
  induction n with
  | zero => intro i o; rfl
  | succ n ih =>
    intro i o
    rw [literalAccesses, ih, List.range_succ_eq_map]
    simp [List.flatMap_map, Nat.add_assoc, Nat.add_comm 1]

theorem copyAccesses_eq_flatMap (s : State) (d n : Nat) : ∀ o,
    s.copyAccesses d o n = (List.range n).flatMap
      (fun j => [.dstRead (s.dstAddr (o + j - d)), .dstWrite (s.dstAddr (o + j))]) := by
  induction n with
  | zero => intro o; rfl
  | succ n ih =>
    intro o
    rw [copyAccesses, ih, List.range_succ_eq_map]
    simp [List.flatMap_map, Nat.add_assoc, Nat.add_comm 1]

/-- Where the bytes of a copy lie depends on the latched registers alone. -/
theorem literalAccesses_congr {s u : State} (h : s.eng.SameCommand u.eng) (i o n : Nat) :
    u.literalAccesses i o n = s.literalAccesses i o n := by
  simp only [literalAccesses_eq_flatMap, srcAddr, dstAddr, h.lsrc, h.ldst]

theorem copyAccesses_congr {s u : State} (h : s.eng.SameCommand u.eng) (d o n : Nat) :
    u.copyAccesses d o n = s.copyAccesses d o n := by
  simp only [copyAccesses_eq_flatMap, dstAddr, h.ldst]

theorem resumeAccesses_withFsm (s : State) (f : Fsm) :
    (s.withFsm f).resumeAccesses = s.resumeAccesses := by
  have hcmd : s.eng.SameCommand (s.withFsm f).eng := by constructor <;> rfl
  unfold resumeAccesses
  rw [literalAccesses_congr hcmd, copyAccesses_congr hcmd]
  rfl

theorem sameCommand_inCopy (s : State) (fetched len d : Nat) :
    s.eng.SameCommand (s.inCopy fetched len d).eng := by
  constructor <;> rfl

/-- A literal run fetches its opcode, then copies its bytes (R180). -/
theorem accesses_of_lit (s : State) (bytes : List Byte) :
    s.fetchAccesses (.lit bytes) = s.srcReads s.eng.ip 1 ∧
      produces (.lit bytes) = bytes.length ∧ reaches (.lit bytes) = 0 ∧
      s.dataAccesses (.lit bytes) = s.literalAccesses (s.eng.ip + 1) s.eng.o bytes.length :=
  ⟨rfl, rfl, rfl, (s.literalAccesses_eq_flatMap _ _ _).symm⟩

/-- A match fetches all its bytes, then copies (R173, R178). -/
theorem accesses_of_matchOf (s : State) {i : Instr} {len d : Nat} (h : matchOf i = some (len, d)) :
    s.fetchAccesses i = s.srcReads s.eng.ip i.size ∧ produces i = len ∧ reaches i = d ∧
      s.dataAccesses i = s.copyAccesses d s.eng.o len := by
  rw [copyAccesses_eq_flatMap]
  cases i <;> cases h <;> exact ⟨rfl, rfl, rfl, rfl⟩

/-- An instruction that is read lies in the stream (R100, R101). -/
theorem size_le_of_decode {s : State} {level : Level} {i : Instr} {rest : List Byte}
    (h : decode level s.streamFrom = .ok (i, rest)) : s.eng.ip + i.size ≤ s.eng.lslen.toNat := by
  obtain ⟨hlen, -⟩ := (decode_reads h).rest_eq
  rw [streamFrom, length_inBytes] at hlen
  have := i.size_pos
  omega

/-- The accesses of an instruction that is read: its fetch, and its copy if it passes its checks (R171, R174). -/
theorem instructionAccesses_of_decode {s : State} {i : Instr} {rest : List Byte}
    (h : decode s.eng.level s.streamFrom = .ok (i, rest)) :
    s.instructionAccesses = s.fetchAccesses i ++
      (if s.eng.o + produces i ≤ s.eng.ldlen.toNat ∧ reaches i ≤ s.eng.o then s.dataAccesses i
      else []) := by
  unfold instructionAccesses
  rw [h]

theorem streamFrom_ne_nil {s : State} {level : Level} {why : DecodeError}
    (h : decode level s.streamFrom = .error why) (hne : why ≠ .noOpcode) :
    s.eng.ip < s.eng.lslen.toNat := by
  by_contra hge
  have hnil : s.streamFrom = [] :=
    List.eq_nil_of_length_eq_zero (by rw [streamFrom, length_inBytes]; omega)
  rw [hnil] at h
  cases h
  exact hne rfl

/-- The accesses of an instruction are allowed: its own bytes are stream bytes, and its checks bound what it
copies (R174). -/
theorem allowedAfter_instruction {s : State} (hlop : s.eng.lop = .decompress) :
    s.AllowedAfter [] s.instructionAccesses := by
  unfold instructionAccesses
  split
  · rename_i i rest hdec
    have hsize := size_le_of_decode hdec
    rcases decode_reads hdec with ⟨op, bytes, rfl, -, -⟩ | ⟨len, d, front, hm, -, hd, -⟩
    · obtain ⟨hfetch, hproduces, hreaches, hdata⟩ := s.accesses_of_lit bytes
      rw [hfetch, hproduces, hreaches, hdata]
      simp only [Instr.size] at hsize
      refine allowedAfter_of_regular _ fun acc hacc => ?_
      rcases List.mem_append.1 hacc with hacc | hacc
      · exact regular_of_srcReads (by omega) acc hacc
      · split at hacc
        · rename_i hfits
          exact regular_of_literalAccesses _ (by omega) hfits.1 acc hacc
        · cases hacc
    · obtain ⟨hfetch, hproduces, hreaches, hdata⟩ := s.accesses_of_matchOf hm
      rw [hfetch, hproduces, hreaches, hdata]
      refine AllowedAfter.append (allowedAfter_of_regular _ (regular_of_srcReads hsize)) ?_
      split
      · rename_i hfits
        exact allowedAfter_copyAccesses hlop hd len hfits.2 hfits.1 (fun j hj hlt => by omega)
      · exact allowedAfter_of_regular _ (by simp)
  · exact allowedAfter_of_regular _ (by simp)
  · rename_i hdec
    exact allowedAfter_of_regular _
      (regular_of_srcReads (Nat.succ_le_of_lt (streamFrom_ne_nil hdec (by decide))))
  · rename_i hdec
    have := streamFrom_ne_nil hdec (by decide)
    exact allowedAfter_of_regular _ (regular_of_srcReads (by omega))

/-- The accesses of an instruction that waited before its copy are allowed if its checks have passed. -/
theorem allowedAfter_resume {s : State} (hlop : s.eng.lop = .decompress)
    (hroom : s.eng.o + s.eng.len ≤ s.eng.ldlen.toNat) (hdist : s.eng.d ≤ s.eng.o)
    (hlit : s.eng.d = 0 → s.eng.ip + s.eng.len ≤ s.eng.lslen.toNat) :
    s.AllowedAfter [] s.resumeAccesses := by
  unfold resumeAccesses
  split
  · rename_i hd
    exact allowedAfter_of_regular _ (regular_of_literalAccesses _ (hlit hd) hroom)
  · rename_i hd
    exact allowedAfter_copyAccesses hlop (Nat.one_le_iff_ne_zero.2 hd) _ hdist hroom
      (fun j hj hlt => by omega)

/-- Every access of a turn of DECOMPRESS is allowed after those before it (R63, R191). -/
theorem allowedAfter_of_decompress {s : State} (h : s.Inv) (hf : s.eng.fsm.ofDecompress = true) :
    s.AllowedAfter [] s.turnAccesses := by
  obtain ⟨-, hlop⟩ := h.decompressing hf
  have hp := h.progressing
  cases hfsm : s.eng.fsm <;> simp only [turnAccesses, hfsm] <;> simp only [Progressing, hfsm] at hp
  case dFetch =>
    split
    · exact allowedAfter_instruction hlop
    · exact allowedAfter_of_regular _ (by simp)
  case dOperand => exact allowedAfter_instruction hlop
  case dCheck =>
    split
    · rename_i hnone
      rcases s.checkProblem_cases with ⟨-, hc⟩ | ⟨-, -, hc⟩ | ⟨hroom, hdist, -⟩
      · rw [hc] at hnone; cases hnone
      · rw [hc] at hnone; cases hnone
      · exact allowedAfter_resume hlop hroom hdist hp.2.2.2
    · exact allowedAfter_of_regular _ (by simp)
  case dCopy => exact allowedAfter_resume hlop hp.2.1 hp.2.2.2.1 hp.2.2.2.2
  case dEnd => exact allowedAfter_of_regular _ (by simp)
  all_goals rw [hfsm] at hf; cases hf

/-- Every access of a turn is allowed after those before it, in every engine state (R62, R63, R191). -/
theorem allowedAfter_turn {s : State} (h : s.Inv) : s.AllowedAfter [] s.turnAccesses := by
  by_cases hc : s.eng.fsm.ofCompress = true
  · exact allowedAfter_of_regular _ (regular_of_compress h hc)
  · by_cases hd : s.eng.fsm.ofDecompress = true
    · exact allowedAfter_of_decompress h hd
    · have hnone : s.turnAccesses = [] := by
        cases hf : s.eng.fsm <;> simp [hf, Fsm.ofCompress, Fsm.ofDecompress] at hc hd <;>
          simp only [turnAccesses, hf]
      rw [hnone]
      exact allowedAfter_of_regular _ (by simp)

/-- A state whose turn makes an access has a valid configuration, so its regions are apart (R204, R61). -/
theorem Inv.apart_of_turn {s : State} (h : s.Inv) (hne : s.turnAccesses ≠ []) :
    s.eng.RegionsApart := by
  have hi : s.eng.fsm ≠ .idle := fun hf => hne (by simp only [turnAccesses, hf])
  have hc : s.eng.fsm ≠ .check := fun hf => hne (by simp only [turnAccesses, hf])
  obtain ⟨-, -, hapart, -⟩ := configError_none (h.running hi hc).1.valid
  exact hapart

/-- A byte that a turn makes a write access to lies in the destination region (R62). -/
theorem Inv.dstSpan_of_dstWrite {s : State} (h : s.Inv) {a : Nat}
    (ha : Access.dstWrite a ∈ s.turnAccesses) : s.dstSpan.has a = true := by
  obtain ⟨-, hw, -⟩ := h.apart_of_turn (List.ne_nil_of_mem ha)
  obtain ⟨before, after, heq⟩ := List.append_of_mem ha
  rcases allowedAfter_turn h before _ after heq with (⟨i, -, hc⟩ | ⟨j, hj, hc⟩) | ⟨j, -, hc, -⟩ <;>
    cases hc
  exact (dstAddr_inside hw hj).2

end State
end Sys2Proof.Machine
end

section
/-! PROOF. A turn depends on memory's answers to its own accesses alone (R62, R63). -/

namespace Sys2Proof.Machine
open Sys2Proof
namespace State

/-! ### Memory, endings and accesses under other bus rules -/

/-- Under the other rules memory answers each of the accesses in the same way. -/
def SameAnswers (s : State) (rules : List BusRule) (accs : List Access) : Prop :=
  ∀ acc ∈ accs, (s.withBus rules).plat.answer acc = s.plat.answer acc

theorem SameAnswers.of_append {s : State} {rules : List BusRule} {xs ys : List Access}
    (h : s.SameAnswers rules (xs ++ ys)) : s.SameAnswers rules xs ∧ s.SameAnswers rules ys :=
  ⟨fun acc hacc => h acc (List.mem_append_left ys hacc),
    fun acc hacc => h acc (List.mem_append_right xs hacc)⟩

/-- The answers depend on the platform alone. -/
theorem SameAnswers.congr {s u : State} {rules : List BusRule} {accs : List Access}
    (h : s.SameAnswers rules accs) (hplat : u.plat = s.plat) : u.SameAnswers rules accs := by
  unfold SameAnswers withBus at h ⊢
  rwa [hplat]

theorem SameAnswers.answers {s : State} {rules : List BusRule} {accs : List Access}
    (h : s.SameAnswers rules accs) :
    (s.withBus rules).plat.answers accs = s.plat.answers accs := by
  induction accs with
  | nil => rfl
  | cons acc accs ih =>
    have hrest := ih fun a ha => h a (List.mem_cons_of_mem _ ha)
    simp only [Platform.answers, h acc List.mem_cons_self, hrest]

theorem forget_withBus (s : State) (rules : List BusRule) (lo len : Nat) :
    (s.withBus rules).forget lo len = (s.forget lo len).withBus rules := by
  unfold forget
  split <;> rfl

theorem markStale_withBus (s : State) (rules : List BusRule) (sp : Span) :
    (s.withBus rules).markStale sp = (s.markStale sp).withBus rules := by
  unfold markStale
  rw [show (s.withBus rules).plat.coherent = s.plat.coherent from rfl]
  split <;> rfl

theorem loseDestination_withBus (s : State) (rules : List BusRule) :
    (s.withBus rules).loseDestination = s.loseDestination.withBus rules := by
  rw [loseDestination, forget_withBus, markStale_withBus]
  rfl

theorem afterError_withBus (s : State) (rules : List BusRule) (cause : Cause) :
    (s.withBus rules).afterError cause = (s.afterError cause).withBus rules := by
  unfold afterError
  split
  · rfl
  · exact s.loseDestination_withBus rules

theorem raise_withBus (s : State) (rules : List BusRule) (cause : Cause) (pos : Nat) :
    (s.withBus rules).raise cause pos = (s.raise cause pos).withBus rules := by
  rw [raise, afterError_withBus]
  rfl

theorem raiseBus_withBus (s : State) (rules : List BusRule) (cause : Cause) :
    (s.withBus rules).raiseBus cause = (s.raiseBus cause).withBus rules := by
  have hdraw : (s.withBus rules).drawPosition.2 = s.drawPosition.2.withBus rules := rfl
  rw [raiseBus, hdraw, afterError_withBus]
  rfl

theorem succeed_withBus (s : State) (rules : List BusRule) :
    (s.withBus rules).succeed = s.succeed.withBus rules := by
  unfold succeed
  rw [withBus_eng]
  split
  · rw [forget_withBus, markStale_withBus]; rfl
  · rw [markStale_withBus]; rfl

/-- Accesses that memory answers in the same way lead to the same state, but for the rules. -/
theorem access_withBus {s : State} {rules : List BusRule} {accs : List Access}
    {waiting after waiting' after' : State} (h : s.SameAnswers rules accs)
    (hwait : waiting' = waiting.withBus rules) (hafter : after' = after.withBus rules) :
    (s.withBus rules).access accs waiting' after' =
      (s.access accs waiting after).withBus rules := by
  unfold access
  rw [h.answers, hwait, hafter]
  cases s.plat.answers accs with
  | performed => rfl
  | failed cause => exact s.raiseBus_withBus rules cause
  | pending => rfl

theorem setOutBytes_withBus (rules : List BusRule) (bytes : List Byte) : ∀ (s : State) (o : Nat),
    (s.withBus rules).setOutBytes o bytes = (s.setOutBytes o bytes).withBus rules := by
  induction bytes with
  | nil => intro s o; rfl
  | cons b bytes ih => intro s o; exact ih (s.setOut o b) (o + 1)

theorem copyBytes_withBus (rules : List BusRule) (d n : Nat) : ∀ (o : Nat) (s : State),
    copyBytes d o n (s.withBus rules) = (copyBytes d o n s).withBus rules := by
  induction n with
  | zero => intro o s; rfl
  | succ n ih => intro o s; exact ih (o + 1) (s.setOut o (s.outByte (o - d)))

/-! ### The turns of COMPRESS under other bus rules -/

theorem compareAccesses_withBus (s : State) (rules : List BusRule) (r p count : Nat) : ∀ i,
    (s.withBus rules).compareAccesses r p i count = s.compareAccesses r p i count := by
  induction count with
  | zero => intro i; rfl
  | succ count ih => intro i; simp only [compareAccesses, withBus_inByte, ih]; rfl

theorem extendAccesses_withBus (s : State) (rules : List BusRule) (p r fuel : Nat) : ∀ len,
    (s.withBus rules).extendAccesses p r fuel len = s.extendAccesses p r fuel len := by
  induction fuel with
  | zero => intro len; rfl
  | succ fuel ih => intro len; simp only [extendAccesses, withBus_inByte, ih]; rfl

theorem searchAccesses_withBus (s : State) (rules : List BusRule) :
    (s.withBus rules).searchAccesses = s.searchAccesses := by
  unfold searchAccesses candidateAccesses
  simp only [compareAccesses_withBus]
  rfl

theorem emit_withBus (s : State) (rules : List BusRule) (bytes : List Byte) :
    (s.withBus rules).emit bytes = (s.emit bytes).withBus rules := by
  unfold emit
  rw [withBus_eng, setOutBytes_withBus]
  rfl

theorem pendingFlush_withBus (s : State) (rules : List BusRule) :
    (s.withBus rules).pendingFlush = s.pendingFlush.withBus rules := by
  have hpending : (s.withBus rules).pending = s.pending := s.inBytes_withBus rules _ _
  unfold pendingFlush
  rw [hpending, emit_withBus, withBus_eng]
  split <;> rfl

/-- The state after a literal byte has joined the pending run (R151). -/
def joinLiteral (s : State) (p : Nat) : State :=
  s.withEng
    { s.eng with
      litBase := if s.eng.litCnt = 0 then p else s.eng.litBase
      litCnt := s.eng.litCnt + 1 }

theorem litToken_eq (s : State) (p : Nat) :
    s.litToken p = if s.eng.litCnt + 1 = Config.maxCopy then (s.joinLiteral p).pendingFlush
      else s.joinLiteral p := rfl

theorem litToken_withBus (s : State) (rules : List BusRule) (p : Nat) :
    (s.withBus rules).litToken p = (s.litToken p).withBus rules := by
  rw [litToken_eq, litToken_eq, withBus_eng]
  split
  · exact pendingFlush_withBus (s.joinLiteral p) rules
  · rfl

theorem stepSearch_withBus {s : State} {rules : List BusRule} (hf : s.eng.fsm = .cSearch)
    (h : s.SameAnswers rules s.turnAccesses) :
    (s.withBus rules).stepSearch = s.stepSearch.withBus rules := by
  simp only [turnAccesses, hf] at h
  unfold stepSearch
  rw [show (s.withBus rules).inputLen = s.inputLen from rfl, withBus_eng]
  split
  · rfl
  · split
    · rename_i hsearch
      rw [if_pos hsearch] at h
      rw [searchAccesses_withBus]
      exact access_withBus h rfl rfl
    · rfl

theorem stepExtend_withBus {s : State} {rules : List BusRule} (hf : s.eng.fsm = .cExtend)
    (h : s.SameAnswers rules s.turnAccesses) :
    (s.withBus rules).stepExtend = s.stepExtend.withBus rules := by
  simp only [turnAccesses, hf] at h
  unfold stepExtend
  dsimp only
  rw [extendAccesses_withBus]
  exact access_withBus h rfl rfl

theorem matchToken_withBus {s : State} {rules : List BusRule}
    (h : s.SameAnswers rules s.tokenAccesses) :
    (s.withBus rules).matchToken = s.matchToken.withBus rules := by
  unfold matchToken
  rw [withBus_eng]
  split
  · refine access_withBus h rfl ?_
    rw [emit_withBus]
    rfl
  · exact s.raise_withBus rules _ _

theorem pendingFlush_plat (s : State) : s.pendingFlush.plat = s.plat := by
  unfold pendingFlush
  split <;> simp

theorem stepEmit_withBus {s : State} {rules : List BusRule} (hf : s.eng.fsm = .cEmit)
    (h : s.SameAnswers rules s.turnAccesses) :
    (s.withBus rules).stepEmit = s.stepEmit.withBus rules := by
  simp only [turnAccesses, hf] at h
  obtain ⟨hflush, htoken⟩ := h.of_append
  refine access_withBus hflush rfl ?_
  rw [pendingFlush_withBus]
  exact matchToken_withBus (htoken.congr s.pendingFlush_plat)

theorem stepLiteral_withBus {s : State} {rules : List BusRule} (hf : s.eng.fsm = .cLiteral)
    (h : s.SameAnswers rules s.turnAccesses) :
    (s.withBus rules).stepLiteral = s.stepLiteral.withBus rules := by
  simp only [turnAccesses, hf] at h
  refine access_withBus h rfl ?_
  have hinsert : (if isSearch s.inputLen s.eng.p then s.withBus rules
      else (s.withBus rules).insert s.eng.p) =
      (if isSearch s.inputLen s.eng.p then s else s.insert s.eng.p).withBus rules := by
    split <;> rfl
  rw [withBus_eng, show (s.withBus rules).inputLen = s.inputLen from rfl, hinsert,
    litToken_withBus]
  rfl

theorem stepFlush_withBus {s : State} {rules : List BusRule} (hf : s.eng.fsm = .cFlush)
    (h : s.SameAnswers rules s.turnAccesses) :
    (s.withBus rules).stepFlush = s.stepFlush.withBus rules := by
  simp only [turnAccesses, hf] at h
  refine access_withBus h rfl ?_
  rw [pendingFlush_withBus]
  rfl

/-! ### The turns of CHECK and DECOMPRESS under other bus rules -/

theorem stepCheck_withBus (s : State) (rules : List BusRule) :
    (s.withBus rules).stepCheck = s.stepCheck.withBus rules := by
  unfold stepCheck
  rw [withBus_eng]
  split
  · exact s.raise_withBus rules _ _
  · dsimp only
    split
    · exact raise_withBus ((s.withCsr _).withEng _) rules _ _
    · split <;> rfl

theorem sameCommand_withBus (s : State) (rules : List BusRule) :
    s.eng.SameCommand (s.withBus rules).eng := by
  constructor <;> rfl

theorem copyMatch_withBus {s : State} {rules : List BusRule}
    (h : s.SameAnswers rules (s.copyAccesses s.eng.d s.eng.o s.eng.len)) :
    (s.withBus rules).copyMatch = s.copyMatch.withBus rules := by
  unfold copyMatch
  rw [copyAccesses_congr (s.sameCommand_withBus rules)]
  refine access_withBus h rfl ?_
  rw [copyBytes_withBus]
  rfl

theorem copyLiteral_withBus {s : State} {rules : List BusRule} {bytes : List Byte}
    (h : s.SameAnswers rules (s.literalAccesses s.eng.ip s.eng.o bytes.length)) :
    (s.withBus rules).copyLiteral bytes = (s.copyLiteral bytes).withBus rules := by
  unfold copyLiteral
  rw [literalAccesses_congr (s.sameCommand_withBus rules)]
  refine access_withBus h rfl ?_
  rw [setOutBytes_withBus]
  rfl

theorem resumeCopy_withBus {s : State} {rules : List BusRule}
    (h : s.SameAnswers rules s.resumeAccesses) :
    (s.withBus rules).resumeCopy = s.resumeCopy.withBus rules := by
  unfold resumeAccesses at h
  unfold resumeCopy
  rw [withBus_eng, inBytes_withBus]
  split
  · rename_i hd
    rw [if_pos hd] at h
    exact copyLiteral_withBus (by rwa [length_inBytes])
  · rename_i hd
    rw [if_neg hd] at h
    exact copyMatch_withBus h

/-- The check phase under other rules is the same if the copy phase is, where the checks pass. -/
theorem checked_withBus {s : State} {rules : List BusRule} {copy : State → State}
    (hcopy : s.checkProblem = none →
      copy ((s.withFsm .dCopy).withBus rules) = (copy (s.withFsm .dCopy)).withBus rules) :
    (s.withBus rules).checked copy = (s.checked copy).withBus rules := by
  unfold checked
  rw [show (s.withBus rules).checkProblem = s.checkProblem from rfl]
  cases hc : s.checkProblem with
  | some cause => exact s.raise_withBus rules _ _
  | none => exact hcopy hc

theorem truncated_withBus {s : State} {rules : List BusRule} {fetched : Nat}
    (h : s.SameAnswers rules (s.srcReads s.eng.ip fetched)) (cause : Cause) :
    (s.withBus rules).truncated cause fetched = (s.truncated cause fetched).withBus rules :=
  access_withBus (s := s.beginAt) h rfl (raise_withBus s.beginAt rules _ _)

/-- The operands of an instruction that passes its checks say that it fits (R174). -/
theorem fits_of_checkProblem {s : State} {fetched len d : Nat}
    (h : (s.beginAt.operands fetched len d).checkProblem = none) :
    s.eng.o + len ≤ s.eng.ldlen.toNat ∧ d ≤ s.eng.o := by
  rcases (s.beginAt.operands fetched len d).checkProblem_cases with
    ⟨-, hc⟩ | ⟨-, -, hc⟩ | ⟨hroom, hdist, -⟩
  · rw [hc] at h; cases h
  · rw [hc] at h; cases h
  · exact ⟨hroom, hdist⟩

/-- The bytes an instruction fetches before its checks: a literal run only its opcode (R173, R180). -/
def fetchedBy : Instr → Nat
  | .lit _ => 1
  | i => i.size

/-- The copy phase of an instruction (R178, R180). -/
def copyOf : Instr → State → State
  | .lit bytes, t => t.copyLiteral bytes
  | _, t => t.copyMatch

theorem copyOf_of_matchOf {i : Instr} {len d : Nat} (h : matchOf i = some (len, d)) :
    copyOf i = copyMatch ∧ fetchedBy i = i.size := by
  cases i <;> cases h <;> exact ⟨rfl, rfl⟩

/-- What an instruction that is read does: it fetches its bytes, is checked, and copies (R171, R174). -/
theorem exec_of_decode {s : State} {level : Level} {bytes : List Byte} {i : Instr}
    {rest : List Byte} (h : decode level bytes = .ok (i, rest))
    (hsize : s.eng.ip + i.size ≤ s.eng.lslen.toNat) :
    exec i s = .next (s.beginAt.access (s.fetchAccesses i) s.beginAt
      ((s.beginAt.operands (fetchedBy i) (produces i) (reaches i)).checked (copyOf i))) := by
  have hwhole := not_lt.2 hsize
  rcases decode_reads h with ⟨op, lits, rfl, -, -⟩ | ⟨len, d, front, hm, -, -, -⟩
  · exact congrArg Host.Outcome.next (if_neg hwhole)
  · obtain ⟨hcopy, hfetched⟩ := copyOf_of_matchOf hm
    obtain ⟨hfetch, hproduces, hreaches, -⟩ := s.accesses_of_matchOf hm
    rw [exec_of_matchOf hm, hcopy, hfetched, hfetch, hproduces, hreaches, runMatch, if_neg hwhole]

/-- The copy phase of an instruction makes the accesses that produce its bytes (R178, R180). -/
theorem copyOf_withBus {s : State} {rules : List BusRule} {level : Level} {bytes : List Byte}
    {i : Instr} {rest : List Byte} (hdec : decode level bytes = .ok (i, rest))
    (h : s.SameAnswers rules (s.dataAccesses i)) :
    copyOf i ((s.inCopy (fetchedBy i) (produces i) (reaches i)).withBus rules) =
      (copyOf i (s.inCopy (fetchedBy i) (produces i) (reaches i))).withBus rules := by
  rcases decode_reads hdec with ⟨op, lits, rfl, -, -⟩ | ⟨len, d, front, hm, -, -, -⟩
  · rw [(s.accesses_of_lit lits).2.2.2] at h
    refine copyLiteral_withBus (s := s.inCopy 1 lits.length 0) ?_
    rw [literalAccesses_congr (s.sameCommand_inCopy _ _ _)]
    exact h
  · obtain ⟨-, hproduces, hreaches, hdata⟩ := s.accesses_of_matchOf hm
    rw [hdata] at h
    rw [(copyOf_of_matchOf hm).1, hproduces, hreaches]
    refine copyMatch_withBus (s := s.inCopy _ len d) ?_
    rw [copyAccesses_congr (s.sameCommand_inCopy _ _ _)]
    exact h

theorem fetchExec_withBus {s t : State} {rules : List BusRule}
    (h : s.SameAnswers rules s.instructionAccesses) (ht : s.fetchExec = .next t) :
    (s.withBus rules).fetchExec = .next (t.withBus rules) := by
  unfold instructionAccesses at h
  unfold fetchExec at ht ⊢
  rw [withBus_streamFrom, withBus_eng]
  split at ht <;> rename_i hdec <;> rw [hdec] at h <;> dsimp only at h ⊢
  · have hsize := size_le_of_decode hdec
    obtain ⟨hfetch, hdata⟩ := h.of_append
    rw [exec_of_decode hdec hsize] at ht
    rw [exec_of_decode (s := s.withBus rules) hdec hsize]
    cases ht
    refine congrArg Host.Outcome.next (access_withBus (s := s.beginAt) hfetch rfl ?_)
    refine checked_withBus (s := s.beginAt.operands _ _ _) fun hnone => ?_
    rw [if_pos (fits_of_checkProblem hnone)] at hdata
    exact copyOf_withBus hdec hdata
  · cases ht; exact congrArg Host.Outcome.next (s.raise_withBus rules _ _)
  · cases ht; exact congrArg Host.Outcome.next (truncated_withBus h _)
  · cases ht; exact congrArg Host.Outcome.next (truncated_withBus h _)

theorem stepFetch_withBus {s t : State} {rules : List BusRule} (hf : s.eng.fsm = .dFetch)
    (h : s.SameAnswers rules s.turnAccesses) (ht : s.stepFetch = .next t) :
    (s.withBus rules).stepFetch = .next (t.withBus rules) := by
  simp only [turnAccesses, hf] at h
  unfold stepFetch at ht ⊢
  rw [withBus_eng]
  split at ht <;> rename_i hmore
  · rw [if_pos hmore] at h ⊢
    exact fetchExec_withBus h ht
  · rw [if_neg hmore]
    cases ht
    rfl

theorem stepEnd_withBus (s : State) (rules : List BusRule) :
    (s.withBus rules).stepEnd = s.stepEnd.withBus rules := by
  unfold stepEnd
  rw [withBus_eng]
  split
  · exact s.raise_withBus rules _ _
  · rfl

/-- A turn whose accesses memory answers in the same way is the same turn: it makes no other access. -/
theorem engineStep_withBus {s t : State} {rules : List BusRule}
    (h : s.SameAnswers rules s.turnAccesses) (ht : s.engineStep = .next t) :
    (s.withBus rules).engineStep = .next (t.withBus rules) := by
  unfold engineStep at ht ⊢
  rw [withBus_eng]
  cases hf : s.eng.fsm <;> rw [hf] at ht <;> dsimp only at ht ⊢
  case dFetch => exact stepFetch_withBus hf h ht
  case dOperand =>
    simp only [turnAccesses, hf] at h
    exact fetchExec_withBus h ht
  all_goals cases ht; refine congrArg Host.Outcome.next ?_
  case idle => rfl
  case check => exact s.stepCheck_withBus rules
  case htInit => rfl
  case cSearch => exact stepSearch_withBus hf h
  case cExtend => exact stepExtend_withBus hf h
  case cEmit => exact stepEmit_withBus hf h
  case cLiteral => exact stepLiteral_withBus hf h
  case cFlush => exact stepFlush_withBus hf h
  case dCheck =>
    simp only [turnAccesses, hf] at h
    refine checked_withBus fun hnone => resumeCopy_withBus (s := s.withFsm .dCopy) ?_
    rw [if_pos hnone] at h
    rwa [resumeAccesses_withFsm]
  case dCopy =>
    simp only [turnAccesses, hf] at h
    exact resumeCopy_withBus h
  case dEnd => exact s.stepEnd_withBus rules
  case complete => exact s.succeed_withBus rules

end State
end Sys2Proof.Machine
end

section
/-! PROOF. What a turn of the engine can lead to: the command goes on, or ends in one of three ways; meanwhile
memory changes only where the turn makes a write access (R62, R236). -/

namespace Sys2Proof.Machine
open Sys2Proof
namespace State

/-! ### What a turn keeps until the command goes on or ends -/

/-- x is the busy state that a turn from s has reached after some of its accesses: the regions, the platform
and the caches are as in s, and only bytes with a write access among them have changed. -/
structure Onward (s : State) (accs : List Access) (x : State) : Prop where
  busy : x.busy = true
  lsrc : x.eng.lsrc = s.eng.lsrc
  lslen : x.eng.lslen = s.eng.lslen
  ldst : x.eng.ldst = s.eng.ldst
  ldlen : x.eng.ldlen = s.eng.ldlen
  plat : x.plat = s.plat
  uncleaned : x.uncleaned = s.uncleaned
  unseen : x.unseen = s.unseen
  stale : x.stale = s.stale
  seed : x.seed = s.seed
  writes : ∀ a, x.readByte a = s.readByte a ∨ Access.dstWrite a ∈ accs

/-- What a turn from s can lead to: the command goes on, or it ends with an error, with a bus error, or with
success (R236). -/
inductive TurnResult (s : State) (accs : List Access) : State → Prop
  | goesOn {x : State} (h : s.Onward accs x) : TurnResult s accs x
  | raises {x : State} (h : s.Onward accs x) (cause : Cause) (pos : Nat) :
      TurnResult s accs (x.raise cause pos)
  | raisesBus {x : State} (h : s.Onward accs x) (acc : Access) :
      TurnResult s accs (x.raiseBus acc.cause)
  | succeeds {x : State} (h : s.Onward accs x) : TurnResult s accs x.succeed

section
variable {s x : State} {accs : List Access}

theorem Onward.refl (hb : s.busy = true) (accs : List Access) : s.Onward accs s where
  busy := hb
  lsrc := rfl
  lslen := rfl
  ldst := rfl
  ldlen := rfl
  plat := rfl
  uncleaned := rfl
  unseen := rfl
  stale := rfl
  seed := rfl
  writes _ := .inl rfl

/-- The engine may move on to any busy state of the same command. -/
theorem Onward.withEng (h : s.Onward accs x) {e : Engine} (hf : e.fsm ≠ .idle)
    (hlsrc : e.lsrc = x.eng.lsrc := by rfl) (hlslen : e.lslen = x.eng.lslen := by rfl)
    (hldst : e.ldst = x.eng.ldst := by rfl) (hldlen : e.ldlen = x.eng.ldlen := by rfl) :
    s.Onward accs (x.withEng e) :=
  { h with
    busy := busy_iff.2 hf
    lsrc := hlsrc.trans h.lsrc
    lslen := hlslen.trans h.lslen
    ldst := hldst.trans h.ldst
    ldlen := hldlen.trans h.ldlen }

theorem Onward.withFsm (h : s.Onward accs x) {f : Fsm} (hf : f ≠ .idle) :
    s.Onward accs (x.withFsm f) :=
  h.withEng hf

theorem Onward.withCsr (h : s.Onward accs x) (c : Csr) : s.Onward accs (x.withCsr c) :=
  { h with }

theorem Onward.insert (h : s.Onward accs x) (q : Nat) : s.Onward accs (x.insert q) :=
  { h with }

theorem Onward.insertMany (h : s.Onward accs x) (q count : Nat) :
    s.Onward accs (x.insertMany q count) :=
  { h with }

theorem Onward.htSet (h : s.Onward accs x) (j v : Nat) : s.Onward accs (x.htSet j v) :=
  { h with }

theorem Onward.htClear (h : s.Onward accs x) (n : Nat) : s.Onward accs (x.htClear n) :=
  { h with }

/-- An output byte may be written where the turn makes a write access. -/
theorem Onward.setOut (h : s.Onward accs x) {o : Nat} (v : Byte)
    (hacc : Access.dstWrite (x.dstAddr o) ∈ accs) : s.Onward accs (x.setOut o v) :=
  { h with
    writes := fun a => by
      rw [readByte_setOut]
      split
      · rename_i ha; exact .inr (ha ▸ hacc)
      · exact h.writes a }

theorem Onward.setOutBytes (bytes : List Byte) : ∀ {x : State} {o : Nat}, s.Onward accs x →
    (∀ j, j < bytes.length → Access.dstWrite (x.dstAddr (o + j)) ∈ accs) →
    s.Onward accs (x.setOutBytes o bytes) := by
  induction bytes with
  | nil => intro x o h _; exact h
  | cons b bytes ih =>
    intro x o h hacc
    refine ih (h.setOut b (hacc 0 (by simp))) fun j hj => ?_
    have := hacc (j + 1) (by simpa using hj)
    rwa [← Nat.add_assoc, Nat.add_right_comm] at this

theorem Onward.copyBytes (d n : Nat) : ∀ {x : State} {o : Nat}, s.Onward accs x →
    (∀ j, j < n → Access.dstWrite (x.dstAddr (o + j)) ∈ accs) →
    s.Onward accs (copyBytes d o n x) := by
  induction n with
  | zero => intro x o h _; exact h
  | succ n ih =>
    intro x o h hacc
    refine ih (h.setOut _ (hacc 0 (by simp))) fun j hj => ?_
    have := hacc (j + 1) (by simpa using hj)
    rwa [← Nat.add_assoc, Nat.add_right_comm] at this

theorem Onward.emit (h : s.Onward accs x) {bytes : List Byte}
    (hacc : ∀ j, j < bytes.length → Access.dstWrite (x.dstAddr (x.eng.o + j)) ∈ accs) :
    s.Onward accs (x.emit bytes) :=
  (h.setOutBytes bytes hacc).withEng (busy_iff.1 h.busy) (by simp) (by simp) (by simp) (by simp)

/-- Accesses lead on, to a bus error, or to waiting. -/
theorem TurnResult.access (h : s.Onward accs x) (own : List Access) {waiting after : State}
    (hwait : s.TurnResult accs waiting) (hafter : s.TurnResult accs after) :
    s.TurnResult accs (x.access own waiting after) :=
  access_induction own (.raisesBus h) hwait hafter

end

/-! ### The turns of COMPRESS -/

/-- The write accesses of a run's emission cover its opcode and its bytes (R150, R153). -/
theorem dstWrite_mem_runAccesses (s : State) (base count o : Nat) {j : Nat} (hj : j < count + 1) :
    Access.dstWrite (s.dstAddr (o + j)) ∈ s.runAccesses base count o := by
  rw [runAccesses, List.mem_cons, List.mem_flatMap]
  cases j with
  | zero => exact .inl rfl
  | succ j =>
    refine .inr ⟨j, List.mem_range.2 (by omega), ?_⟩
    rw [show o + (j + 1) = o + 1 + j by omega]
    simp

theorem Onward.pendingFlush {s x : State} {accs : List Access} (h : s.Onward accs x)
    (hacc : ∀ acc ∈ x.flushAccesses, acc ∈ accs) : s.Onward accs x.pendingFlush := by
  unfold State.pendingFlush
  unfold flushAccesses at hacc
  split
  · exact h
  · rename_i hcnt
    rw [if_neg hcnt] at hacc
    have hlen : (literalRun x.pending).length = x.eng.litCnt + 1 := by
      rw [length_literalRun, pending, length_inBytes, if_neg hcnt]
    refine (h.emit fun j hj => hacc _ ?_).withEng (by simpa using busy_iff.1 h.busy)
    exact x.dstWrite_mem_runAccesses _ _ _ (hlen ▸ hj)

theorem stepSearch_result {s : State} (hb : s.busy = true) :
    s.TurnResult s.turnAccesses s.stepSearch := by
  have h := Onward.refl hb s.turnAccesses
  unfold stepSearch
  split
  · exact .goesOn (h.withFsm (by decide))
  · split
    · refine .access h _ (.goesOn h) (.goesOn ((h.htSet _ _).withEng ?_))
      dsimp only
      split <;> decide
    · exact .goesOn (h.withFsm (by decide))

theorem stepExtend_result {s : State} (hb : s.busy = true) :
    s.TurnResult s.turnAccesses s.stepExtend := by
  have h := Onward.refl hb s.turnAccesses
  refine .access h _ (.goesOn h) (.goesOn (h.withEng ?_))
  dsimp only
  split <;> decide

theorem Onward.matchToken {s x : State} {accs : List Access} (h : s.Onward accs x)
    (hacc : ∀ acc ∈ x.tokenAccesses, acc ∈ accs) : s.TurnResult accs x.matchToken := by
  unfold State.matchToken
  split
  · refine .access h _ (.goesOn h) (.goesOn (Onward.withEng (.insertMany (h.emit ?_) _ _) (by simp)))
    intro j hj
    refine hacc _ (List.mem_append_left _ (List.mem_map.2 ⟨j, List.mem_range.2 hj, rfl⟩))
  · exact .raises h _ _

theorem stepEmit_result {s : State} (hf : s.eng.fsm = .cEmit) (hb : s.busy = true) :
    s.TurnResult s.turnAccesses s.stepEmit := by
  have h := Onward.refl hb s.turnAccesses
  have haccs : s.turnAccesses = s.flushAccesses ++ s.pendingFlush.tokenAccesses := by
    simp only [turnAccesses, hf]
  refine .access h _ (.goesOn h) ((h.pendingFlush fun acc hacc => ?_).matchToken fun acc hacc => ?_)
  · rw [haccs]; exact List.mem_append_left _ hacc
  · rw [haccs]; exact List.mem_append_right _ hacc

theorem Onward.litToken {s x : State} {accs : List Access} (h : s.Onward accs x) (p : Nat)
    (hacc : ∀ acc ∈ x.litAccesses p, acc ∈ accs) : s.Onward accs (x.litToken p) := by
  have hjoin : s.Onward accs (x.joinLiteral p) := h.withEng (busy_iff.1 h.busy)
  rw [litToken_eq]
  unfold litAccesses at hacc
  split
  · rename_i hfull
    rw [if_pos hfull] at hacc
    refine hjoin.pendingFlush fun acc hflush => hacc acc ?_
    have hcnt : (x.joinLiteral p).eng.litCnt = Config.maxCopy := hfull
    rw [flushAccesses, if_neg (by rw [hcnt]; decide), hcnt] at hflush
    exact hflush
  · exact hjoin

theorem stepLiteral_result {s : State} (hf : s.eng.fsm = .cLiteral) (hb : s.busy = true) :
    s.TurnResult s.turnAccesses s.stepLiteral := by
  have h := Onward.refl hb s.turnAccesses
  have haccs : s.turnAccesses = s.literalTurnAccesses := by simp only [turnAccesses, hf]
  have hinsert : s.Onward s.turnAccesses
      (if isSearch s.inputLen s.eng.p then s else s.insert s.eng.p) := by
    split
    · exact h
    · exact h.insert _
  refine .access h _ (.goesOn h) (.goesOn (Onward.withEng (hinsert.litToken _ ?_) (by simp)))
  intro acc hacc
  rw [haccs]
  refine List.mem_append_right _ ?_
  split at hacc <;> exact hacc

theorem stepFlush_result {s : State} (hf : s.eng.fsm = .cFlush) (hb : s.busy = true) :
    s.TurnResult s.turnAccesses s.stepFlush := by
  have h := Onward.refl hb s.turnAccesses
  refine .access h _ (.goesOn h) (.goesOn ((h.pendingFlush fun acc hacc => ?_).withFsm (by decide)))
  simpa only [turnAccesses, hf] using hacc

/-! ### The turns of CHECK and DECOMPRESS -/

theorem stepCheck_result {s : State} (hb : s.busy = true) (accs : List Access) :
    s.TurnResult accs s.stepCheck := by
  have h := Onward.refl hb accs
  unfold stepCheck
  split
  · exact .raises h _ _
  · have hlevel := (h.withCsr { s.csr with levelUsed := levelField (resolveLevel s.eng) }).withEng
      (e := { s.eng with level := resolveLevel s.eng }) (busy_iff.1 hb)
    dsimp only
    split
    · exact .raises hlevel _ _
    · split
      · exact .goesOn (hlevel.withEng (by simp))
      · exact .goesOn (hlevel.withEng (by simp))

theorem Onward.copyMatch {s x : State} {accs : List Access} (h : s.Onward accs x)
    (hacc : ∀ acc ∈ x.copyAccesses x.eng.d x.eng.o x.eng.len, acc ∈ accs) :
    s.TurnResult accs x.copyMatch := by
  refine .access h _ (.goesOn h) (.goesOn ((h.copyBytes _ _ fun j hj => hacc _ ?_).withEng (by simp)))
  rw [copyAccesses_eq_flatMap, List.mem_flatMap]
  exact ⟨j, List.mem_range.2 hj, by simp⟩

theorem Onward.copyLiteral {s x : State} {accs : List Access} (h : s.Onward accs x)
    {bytes : List Byte}
    (hacc : ∀ acc ∈ x.literalAccesses x.eng.ip x.eng.o bytes.length, acc ∈ accs) :
    s.TurnResult accs (x.copyLiteral bytes) := by
  refine .access h _ (.goesOn h)
    (.goesOn ((h.setOutBytes _ fun j hj => hacc _ ?_).withEng (by simp)))
  rw [literalAccesses_eq_flatMap, List.mem_flatMap]
  exact ⟨j, List.mem_range.2 hj, by simp⟩

theorem Onward.resumeCopy {s x : State} {accs : List Access} (h : s.Onward accs x)
    (hacc : ∀ acc ∈ x.resumeAccesses, acc ∈ accs) : s.TurnResult accs x.resumeCopy := by
  unfold State.resumeCopy
  unfold resumeAccesses at hacc
  split
  · rename_i hd
    rw [if_pos hd] at hacc
    exact h.copyLiteral (by rwa [length_inBytes])
  · rename_i hd
    rw [if_neg hd] at hacc
    exact h.copyMatch hacc

theorem Onward.checked {s x : State} {accs : List Access} (h : s.Onward accs x)
    {copy : State → State}
    (hcopy : x.checkProblem = none → s.TurnResult accs (copy (x.withFsm .dCopy))) :
    s.TurnResult accs (x.checked copy) := by
  rcases x.checked_cases copy with ⟨cause, -, hc⟩ | ⟨hnone, hc⟩ <;> rw [hc]
  · exact .raises h _ _
  · exact hcopy hnone

theorem truncated_result {s : State} (hb : s.busy = true) (accs : List Access) (cause : Cause)
    (fetched : Nat) : s.TurnResult accs (s.truncated cause fetched) := by
  have h : s.Onward accs s.beginAt := (Onward.refl hb accs).withEng (by simp)
  exact .access h _ (.goesOn h) (.raises h _ _)

/-- The copy phase of an instruction that is read writes where its accesses say (R178, R180). -/
theorem copyOf_result {s : State} {level : Level} {bytes : List Byte} {i : Instr}
    {rest : List Byte} (hdec : decode level bytes = .ok (i, rest)) (hb : s.busy = true)
    {accs : List Access} (hacc : ∀ acc ∈ s.dataAccesses i, acc ∈ accs) :
    s.TurnResult accs (copyOf i (s.inCopy (fetchedBy i) (produces i) (reaches i))) := by
  have h : ∀ fetched len d, s.Onward accs (s.inCopy fetched len d) := fun _ _ _ =>
    (Onward.refl hb accs).withEng (e := (s.inCopy _ _ _).eng) (by simp [inCopy])
  rcases decode_reads hdec with ⟨op, lits, rfl, -, -⟩ | ⟨len, d, front, hm, -, -, -⟩
  · refine (h 1 lits.length 0).copyLiteral fun acc hlit => hacc acc ?_
    rw [literalAccesses_congr (s.sameCommand_inCopy _ _ _)] at hlit
    rwa [(s.accesses_of_lit lits).2.2.2]
  · obtain ⟨-, hproduces, hreaches, hdata⟩ := s.accesses_of_matchOf hm
    rw [(copyOf_of_matchOf hm).1, hproduces, hreaches]
    refine (h _ len d).copyMatch fun acc hcopy => hacc acc ?_
    rw [copyAccesses_congr (s.sameCommand_inCopy _ _ _)] at hcopy
    rwa [hdata]

theorem fetchExec_result {s t : State} (hb : s.busy = true) (ht : s.fetchExec = .next t) :
    s.TurnResult s.instructionAccesses t := by
  unfold fetchExec at ht
  split at ht <;> rename_i hdec
  · rw [exec_of_decode hdec (size_le_of_decode hdec)] at ht
    cases ht
    rw [instructionAccesses_of_decode hdec]
    have hbegin : ∀ accs, s.Onward accs s.beginAt := fun accs =>
      (Onward.refl hb accs).withEng (by simp)
    have hops : ∀ accs fetched len d, s.Onward accs (s.beginAt.operands fetched len d) :=
      fun accs _ _ _ => (hbegin accs).withEng (by simp)
    refine .access (hbegin _) _ (.goesOn (hbegin _)) ((hops _ _ _ _).checked fun hnone => ?_)
    rw [if_pos (fits_of_checkProblem hnone)]
    exact copyOf_result hdec hb fun acc hacc => List.mem_append_right _ hacc
  · cases ht; exact .raises (.refl hb _) _ _
  · cases ht; exact truncated_result hb _ _ _
  · cases ht; exact truncated_result hb _ _ _

theorem stepEnd_result {s : State} (hb : s.busy = true) (accs : List Access) :
    s.TurnResult accs s.stepEnd := by
  have h := Onward.refl hb accs
  unfold stepEnd
  split
  · exact .raises h _ _
  · exact .goesOn (h.withFsm (by decide))

/-- Every turn of a busy engine leads to one of the four results. -/
theorem engineStep_result {s t : State} (hb : s.busy = true) (ht : s.engineStep = .next t) :
    s.TurnResult s.turnAccesses t := by
  unfold engineStep at ht
  cases hf : s.eng.fsm <;> rw [hf] at ht <;> dsimp only at ht
  case idle => exact absurd hf (busy_iff.1 hb)
  case dFetch =>
    unfold stepFetch at ht
    simp only [turnAccesses, hf]
    split at ht <;> rename_i hmore
    · rw [if_pos hmore]; exact fetchExec_result hb ht
    · cases ht; exact .goesOn ((Onward.refl hb _).withFsm (by decide))
  case dOperand =>
    simp only [turnAccesses, hf]
    exact fetchExec_result hb ht
  all_goals cases ht
  case check => exact stepCheck_result hb _
  case htInit => exact .goesOn (((Onward.refl hb _).htClear _).withEng (by simp))
  case cSearch => exact stepSearch_result hb
  case cExtend => exact stepExtend_result hb
  case cEmit => exact stepEmit_result hf hb
  case cLiteral => exact stepLiteral_result hf hb
  case cFlush => exact stepFlush_result hf hb
  case dCheck =>
    refine (Onward.refl hb _).checked fun hnone => ?_
    refine ((Onward.refl hb _).withFsm (by decide)).resumeCopy fun acc hacc => ?_
    rw [resumeAccesses_withFsm] at hacc
    simpa only [turnAccesses, hf, if_pos hnone] using hacc
  case dCopy =>
    refine (Onward.refl hb _).resumeCopy fun acc hacc => ?_
    simpa only [turnAccesses, hf] using hacc
  case dEnd => exact stepEnd_result hb _
  case complete => exact .succeeds (.refl hb _)

/-! ### What follows for memory -/

theorem Onward.dstSpan {s x : State} {accs : List Access} (h : s.Onward accs x) :
    x.dstSpan = s.dstSpan := by
  unfold State.dstSpan
  rw [h.ldst, h.ldlen]

/-- An ending is in an idle state, and a busy result is of a command that goes on. -/
theorem TurnResult.onward {s t : State} {accs : List Access} (h : s.TurnResult accs t)
    (hb : t.busy = true) : s.Onward accs t := by
  cases h with
  | goesOn h => exact h
  | raises | raisesBus => simp [State.busy] at hb
  | succeeds =>
    unfold State.busy State.succeed at hb
    split at hb <;> simp at hb

/-- After a success memory is unchanged outside the destination (R208, R209). -/
theorem readByte_succeed (s : State) (a : Nat) (h : s.dstSpan.has a = false) :
    s.succeed.readByte a = s.readByte a := by
  unfold succeed
  split
  · rw [readByte_report, readByte_markStale]
    refine readByte_forget _ _ _ _ ?_
    rw [Bool.eq_false_iff, Ne, Span.has_iff] at h ⊢
    simp only [dstSpan] at h ⊢
    omega
  · rw [readByte_report, readByte_markStale]

/-- A turn leaves a byte outside the destination alone if it makes no write access to it. -/
theorem TurnResult.readByte {s t : State} {accs : List Access} (h : s.TurnResult accs t) {a : Nat}
    (hdst : s.dstSpan.has a = false) (hacc : Access.dstWrite a ∉ accs) :
    t.readByte a = s.readByte a := by
  have hx : ∀ {x : State}, s.Onward accs x → x.dstSpan.has a = false ∧
      x.readByte a = s.readByte a := fun hx =>
    ⟨hx.dstSpan ▸ hdst, (hx.writes a).resolve_right hacc⟩
  cases h with
  | goesOn h => exact (hx h).2
  | raises h => rw [readByte_raise _ _ _ _ (hx h).1, (hx h).2]
  | raisesBus h => rw [readByte_raiseBus _ _ _ (hx h).1, (hx h).2]
  | succeeds h => rw [readByte_succeed _ _ (hx h).1, (hx h).2]

/-- A turn changes no byte outside the destination region (R62). -/
theorem engineStep_readByte {s t : State} (h : s.Inv) (ht : s.engineStep = .next t) {a : Nat}
    (ha : s.dstSpan.has a = false) : t.readByte a = s.readByte a := by
  cases hb : s.busy with
  | false =>
    have hidle : s.eng.fsm = .idle := by simpa [busy] using hb
    unfold engineStep at ht
    rw [hidle] at ht
    cases ht; rfl
  | true =>
    refine (engineStep_result hb ht).readByte ha fun hacc => ?_
    rw [h.dstSpan_of_dstWrite hacc] at ha
    cases ha

end State

/-- Settles O46: the frame by the results of a turn, the accesses by their bounds, and that there is no other
by running the turn under other bus rules. -/
theorem engineWritesOnlyDestination : Obligations.EngineWritesOnlyDestination := by
  refine ⟨fun s t h ht a ha => State.engineStep_readByte h ht ha, ?_,
    fun s t rules h ht => State.engineStep_withBus h ht⟩
  intro s before after acc h heq
  have hapart := h.apart_of_turn (by rw [heq]; simp)
  obtain ⟨-, hw, -⟩ := id hapart
  rcases State.allowedAfter_turn h before acc after heq with hreg | ⟨j, hj, rfl, hlop, hback⟩
  · exact (hreg.inside hapart).imp_right .inl
  · rw [List.nil_append, (State.dstAddr_inside hw hj).1] at hback
    exact .inr (.inr ⟨j, hj, by rw [(State.dstAddr_inside hw hj).1], hlop, hback⟩)

end Sys2Proof.Machine
end

section
/-! PROOF. A turn of COMPRESS that memory does not let through: it ends the command or waits (R232, R272). -/

namespace Sys2Proof.Machine
open Sys2Proof
namespace State

/-! ### Where an interrupted turn stops -/

/-- x is s in the middle of a turn of COMPRESS, at the same position: only destination bytes and the pending run
differ (R272). -/
structure Interrupted (s x : State) : Prop where
  around : s.SameAround x
  fsm : x.eng.fsm = s.eng.fsm
  p : x.eng.p = s.eng.p
  dstSpan : x.dstSpan = s.dstSpan
  frame : ∀ a, s.dstSpan.has a = false → x.readByte a = s.readByte a

/-- The turn from s, if one of its accesses is not performed, stops in x: it ends the command there or waits. -/
def StopsIn (s x : State) : Prop :=
  (∀ cause, s.plat.answers s.turnAccesses = .failed cause →
    s.engineStep = .next (x.raiseBus cause)) ∧
    (s.plat.answers s.turnAccesses = .pending → s.engineStep = .next x)

theorem Interrupted.refl (s : State) : s.Interrupted s :=
  ⟨sameAround_withEng s s.eng, rfl, rfl, rfl, fun _ _ => rfl⟩

theorem access_of_failed {s : State} {accs : List Access} {cause : Cause}
    (h : s.plat.answers accs = .failed cause) (waiting after : State) :
    s.access accs waiting after = s.raiseBus cause := by
  rw [access, h]

theorem access_of_pending {s : State} {accs : List Access} (h : s.plat.answers accs = .pending)
    (waiting after : State) : s.access accs waiting after = waiting := by
  rw [access, h]

theorem access_of_performed {s : State} {accs : List Access}
    (h : s.plat.answers accs = .performed) (waiting after : State) :
    s.access accs waiting after = after := by
  rw [access, h]

/-- A turn whose outcome is that of some accesses made in x, and waited for there, stops in x. -/
theorem stopsIn_of_access {s x after : State} {accs : List Access}
    (hanswers : s.plat.answers s.turnAccesses = x.plat.answers accs)
    (h : s.engineStep = .next (x.access accs x after)) : s.StopsIn x := by
  unfold StopsIn
  rw [hanswers]
  exact ⟨fun _ hc => h.trans (by rw [access_of_failed hc]),
    fun hp => h.trans (by rw [access_of_pending hp])⟩

/-- A turn that makes all its accesses at once stops where it began. -/
theorem stopsIn_self {s after : State} {accs : List Access} (haccs : s.turnAccesses = accs)
    (h : s.engineStep = .next (s.access accs s after)) : s.StopsIn s :=
  stopsIn_of_access (by rw [haccs]) h

theorem sameAround_pendingFlush (s : State) : s.SameAround s.pendingFlush := by
  unfold pendingFlush
  split
  · exact sameAround_withEng s s.eng
  · simp [SameAround]

/-- PENDING_FLUSH writes only into the destination region, if it fits (R62, R153). -/
theorem interrupted_pendingFlush {s : State} (h : s.Inv) (hf : s.eng.fsm = .cEmit) :
    s.Interrupted s.pendingFlush := by
  obtain ⟨-, -, -, heng⟩ := s.pendingFlush_spec
  refine ⟨s.sameAround_pendingFlush, by rw [heng], by rw [heng], by rw [dstSpan, heng]; rfl, ?_⟩
  intro a ha
  have honward := (Onward.refl (s := s) (busy_iff.2 (by rw [hf]; decide)) s.flushAccesses).pendingFlush
    fun _ hacc => hacc
  refine (honward.writes a).resolve_right fun hacc => ?_
  have hmem : Access.dstWrite a ∈ s.turnAccesses := by
    simp only [turnAccesses, hf]
    exact List.mem_append_left _ hacc
  rw [h.dstSpan_of_dstWrite hmem] at ha
  cases ha

/-- C_EMIT stops before its pending run is out, or after it (R132, R153). -/
theorem stopsIn_cEmit {s : State} (h : s.Inv) (hf : s.eng.fsm = .cEmit) :
    ∃ x, s.Interrupted x ∧ s.StopsIn x := by
  have hp := h.progressing
  simp only [Progressing, hf] at hp
  obtain ⟨-, -, -, hrep, -, -⟩ := hp
  obtain ⟨-, -, -, heng⟩ := s.pendingFlush_spec
  have hstep : s.engineStep = .next (s.access s.flushAccesses s s.pendingFlush.matchToken) := by
    unfold engineStep
    rw [hf]
    rfl
  have haccs : s.turnAccesses = s.flushAccesses ++ s.pendingFlush.tokenAccesses := by
    simp only [turnAccesses, hf]
  by_cases hflush : s.plat.answers s.flushAccesses = .performed
  · refine ⟨s.pendingFlush, interrupted_pendingFlush h hf, ?_⟩
    rw [access_of_performed hflush, matchToken, heng, if_pos hrep] at hstep
    exact stopsIn_of_access
      (by rw [haccs, Platform.answers_append, if_pos hflush, s.pendingFlush_plat]) hstep
  · exact ⟨s, .refl s, stopsIn_of_access
      (by rw [haccs, Platform.answers_append, if_neg hflush]) hstep⟩

/-- C_SEARCH makes its accesses at once, or none where it does not search (R126, R127). -/
theorem stopsIn_cSearch {s : State} (hf : s.eng.fsm = .cSearch) : s.StopsIn s := by
  by_cases hsearch : isSearch s.inputLen s.eng.p = true
  · have hp := (isSearch_iff.1 hsearch).2
    have hstep : s.engineStep = .next s.stepSearch := by simp only [engineStep, hf]
    rw [stepSearch, if_neg (by omega), if_pos hsearch] at hstep
    exact stopsIn_self (by simp only [turnAccesses, hf, if_pos hsearch]) hstep
  · have hnone : s.turnAccesses = [] := by simp only [turnAccesses, hf, if_neg hsearch]
    unfold StopsIn
    rw [hnone]
    exact ⟨nofun, nofun⟩

/-- Every turn of COMPRESS past its initialisation that memory interrupts stops at its position. -/
theorem exists_stopsIn {s : State} (h : s.Inv)
    (hf : s.eng.fsm ∈ [Fsm.cSearch, .cExtend, .cEmit, .cLiteral, .cFlush]) :
    ∃ x, s.Interrupted x ∧ s.StopsIn x := by
  simp only [List.mem_cons, List.not_mem_nil, or_false] at hf
  rcases hf with hf | hf | hf | hf | hf
  · exact ⟨s, .refl s, stopsIn_cSearch hf⟩
  · have hstep : s.engineStep = .next s.stepExtend := by simp only [engineStep, hf]
    exact ⟨s, .refl s, stopsIn_self (by simp only [turnAccesses, hf]) hstep⟩
  · exact stopsIn_cEmit h hf
  · have hstep : s.engineStep = .next s.stepLiteral := by simp only [engineStep, hf]
    exact ⟨s, .refl s, stopsIn_self (by simp only [turnAccesses, hf]) hstep⟩
  · have hstep : s.engineStep = .next s.stepFlush := by simp only [engineStep, hf]
    exact ⟨s, .refl s, stopsIn_self (by simp only [turnAccesses, hf]) hstep⟩

/-- A bus error in the middle of a turn ends the command as one at its beginning does (R232, R236). -/
theorem Interrupted.endedWith {s x : State} (h : s.Interrupted x) (cause : Cause) :
    s.EndedWith (x.raiseBus cause) cause (Config.freeWord s.freeCtr) := by
  obtain ⟨hcsr, hht, hdirty, -, -, hstale, hheld, hplat, hinputs, hresp, hctr, -⟩ := h.around
  obtain ⟨hidle, hdone, hcode, hcause, hpos, hlen, hused, hconf, htht, htplat, htinputs, htresp,
    htheld, htdirty, htstale, hframe⟩ :=
      endedWith_raiseBus cause (sameAround_withEng x x.eng) (fun _ => rfl) rfl
  refine ⟨hidle, hdone, hcode, hcause, hctr ▸ hpos, hlen, hcsr ▸ hused, hcsr ▸ hconf,
    htht.trans hht, htplat.trans hplat, htinputs.trans hinputs, htresp.trans hresp,
    htheld.trans hheld, htdirty.trans hdirty, htstale.trans hstale, fun a ha => ?_⟩
  exact (hframe a (h.dstSpan ▸ ha)).trans (h.frame a ha)

end State

/-- Settles O18: the accesses by their bounds, the writes by the results of a turn, and what a failing or an
unanswered access does by where the turn stops. -/
theorem compressMemoryAnswers : Obligations.CompressMemoryAnswers := by
  intro s h hin hf
  have hcomp : s.eng.fsm.ofCompress = true := by
    simp only [List.mem_cons, List.not_mem_nil, or_false] at hf
    rcases hf with hf | hf | hf | hf | hf <;> rw [hf] <;> rfl
  obtain ⟨x, hx, hfailed, hpending⟩ := State.exists_stopsIn h hf
  rw [State.step_of_no_inputs hin]
  refine ⟨fun acc hacc => ?_, fun t ht hb a ha => ?_, fun acc hacc => ?_, fun hwait => ?_⟩
  · exact (State.regular_of_compress h hcomp acc hacc).inside
      (h.apart_of_turn (List.ne_nil_of_mem hacc))
  · have hbusy : s.busy = true := State.busy_iff.2 fun hi => by rw [hi] at hcomp; cases hcomp
    exact (((State.engineStep_result hbusy ht).onward hb).writes a).resolve_right ha
  · exact ⟨_, hfailed _ (Platform.answers_of_firstFailure hacc), hx.endedWith _⟩
  · obtain ⟨hcsr, hht, -, -, -, -, -, hplat, -⟩ := hx.around
    exact ⟨x, hpending (Platform.answers_of_firstPending hwait), hx.fsm, hx.p, hcsr, hht, hplat,
      hx.frame⟩

end Sys2Proof.Machine
end

section
/-! PROOF. What a running command reads of its source, and the caches as the host keeps them (R72, R74, R76). -/

namespace Sys2Proof.Machine
open Sys2Proof
namespace State

/-! ### What a step keeps of a running command's view of its source -/

/-- In t the command sees its source as in s, as far as that does not depend on memory (R72, R74). -/
structure SameView (s t : State) : Prop where
  lsrc : t.eng.lsrc = s.eng.lsrc
  lslen : t.eng.lslen = s.eng.lslen
  coherent : t.plat.coherent = s.plat.coherent
  uncleaned : t.uncleaned = s.uncleaned
  seed : t.seed = s.seed

theorem Onward.sameView {s t : State} {accs : List Access} (h : s.Onward accs t) : s.SameView t :=
  ⟨h.lsrc, h.lslen, by rw [h.plat], h.uncleaned, h.seed⟩

/-- A source byte reads the same where the view and memory are the same. -/
theorem SameView.inByte {s t : State} (h : s.SameView t) {i : Nat}
    (hread : t.readByte (s.srcAddr i) = s.readByte (s.srcAddr i)) : t.inByte i = s.inByte i := by
  have haddr : t.srcAddr i = s.srcAddr i := by unfold srcAddr; rw [h.lsrc]
  unfold State.inByte
  rw [haddr, h.coherent, h.uncleaned, h.seed, hread]

/-- What the host and the platform leave alone while a command runs: its engine, its view, and memory in its
source region (R266, R268). -/
structure LeavesSource (s t : State) : Prop where
  view : s.SameView t
  read : ∀ a, s.srcSpan.has a = true → t.readByte a = s.readByte a

theorem leavesSource_of_eq {s t : State} (heng : t.eng = s.eng)
    (hcoherent : t.plat.coherent = s.plat.coherent) (huncleaned : t.uncleaned = s.uncleaned)
    (hseed : t.seed = s.seed) (hread : ∀ a, t.readByte a = s.readByte a) : s.LeavesSource t :=
  ⟨⟨by rw [heng], by rw [heng], hcoherent, huncleaned, hseed⟩, fun a _ => hread a⟩

/-- A command word written while a command runs changes nothing (R202). -/
theorem launch_of_busy {s : State} (hb : s.busy = true) (op : Op) (level : BitVec 2) :
    s.launch op level = .next s := by
  simp [launch, hb]

theorem writeCmd_of_busy {s : State} (hb : s.busy = true) (v : Word) : s.writeCmd v = .next s := by
  unfold writeCmd decodeCommand
  split
  · rename_i i hi
    split at hi
    · split at hi <;> cases hi <;> exact launch_of_busy hb _ _
    · cases hi
  · rfl

/-- A register write while a command runs changes no more than registers (R200, R202). -/
theorem writeReg_of_busy {s t : State} (hb : s.busy = true) {off : Nat} {v : Word}
    (ht : s.writeReg off v = .next t) : ∃ c, t = s.withCsr c := by
  have hself : s = s.withCsr s.csr := rfl
  unfold writeReg at ht
  split at ht
  · cases ht; exact ⟨_, hself⟩
  · split at ht
    · rw [writeCmd_of_busy hb] at ht
      cases ht; exact ⟨_, hself⟩
    · cases ht
      split
      · exact ⟨_, rfl⟩
      · exact ⟨_, hself⟩
    case h_9 => cases ht; exact ⟨_, hself⟩
    all_goals cases ht; exact ⟨_, rfl⟩

theorem hostCsrWrite_leavesSource {s t : State} (hb : s.busy = true) {addr : Word} {bytes : Nat}
    {v : Word} (ht : s.hostCsrWrite addr bytes v = .next t) : s.LeavesSource t := by
  unfold hostCsrWrite at ht
  split at ht
  · cases ht; exact leavesSource_of_eq rfl rfl rfl rfl fun _ => rfl
  · split at ht
    · obtain ⟨c, rfl⟩ := writeReg_of_busy (s := s.answered .done) hb ht
      exact leavesSource_of_eq rfl rfl rfl rfl fun _ => rfl
    · cases ht; exact leavesSource_of_eq rfl rfl rfl rfl fun _ => rfl

/-- Everything a write of memory can lead to (R266, R267). -/
theorem hostMemWrite_cases (s : State) (addr : Word) (v : Byte) :
    (∃ why, s.hostMemWrite addr v = .refused why) ∨
      ((s.busy = true → s.srcSpan.has addr.toNat = false) ∧ s.hostMemWrite addr v =
        .next (((s.writeByte addr.toNat v).markDirty addr.toNat).answered .done)) := by
  unfold hostMemWrite
  split
  · exact .inl ⟨_, rfl⟩
  · rename_i hsrc
    split
    · exact .inl ⟨_, rfl⟩
    · exact .inr ⟨fun hb => by simpa [hb] using hsrc, rfl⟩

theorem hostMemWrite_leavesSource {s t : State} (hb : s.busy = true) {addr : Word} {v : Byte}
    (ht : s.hostMemWrite addr v = .next t) : s.LeavesSource t := by
  rcases s.hostMemWrite_cases addr v with ⟨why, hw⟩ | ⟨hsrc, hw⟩ <;> rw [hw] at ht <;> cases ht
  refine ⟨⟨by simp, by simp, by simp, by simp, by simp⟩, fun a ha => ?_⟩
  rw [readByte_answered, readByte_markDirty, readByte_writeByte, if_neg]
  rintro rfl
  rw [hsrc hb] at ha
  cases ha

theorem setOthers_eq (s : State) (regions : List OtherRegion) :
    s.setOthers regions =
      if s.busy && State.races { s with plat := { s.plat with others := regions } } then
        .refused .raceWithOtherBlock
      else .next { s with plat := { s.plat with others := regions } } := rfl

theorem readByte_hostMemRead (s : State) (addr : Word) (a : Nat) :
    (s.hostMemRead addr).readByte a = s.readByte a := by
  unfold hostMemRead
  split <;> rfl

theorem readByte_hostCsrRead (s : State) (addr : Word) (bytes a : Nat) :
    (s.hostCsrRead addr bytes).readByte a = s.readByte a := by
  unfold readByte
  rw [hostCsrRead_unspec, hostCsrRead_mem]

theorem readByte_sampleIrq (s : State) (a : Nat) : s.sampleIrq.readByte a = s.readByte a := by
  unfold readByte
  rw [sampleIrq_unspec, sampleIrq_mem]

/-- No action of the host or the platform that lets a command run on disturbs its source (R72, R76, R266). -/
theorem inputStep_leavesSource {s t : State} (hb : s.busy = true) {i : Input} (hi : i ≠ .engine)
    (ht : s.inputStep i = .next t) (htb : t.busy = true) : s.LeavesSource t := by
  cases i <;> unfold inputStep at ht <;> dsimp only at ht
  case engine => exact absurd rfl hi
  case csrRead =>
    cases ht
    exact leavesSource_of_eq (by simp) (by simp) (by simp) (by simp) (s.readByte_hostCsrRead _ _)
  case csrWrite => exact hostCsrWrite_leavesSource hb ht
  case memRead =>
    cases ht
    exact leavesSource_of_eq (by simp) (by simp) (by simp) (by simp) (s.readByte_hostMemRead _)
  case memWrite => exact hostMemWrite_leavesSource hb ht
  case setOthers =>
    rw [setOthers_eq] at ht
    split at ht
    · cases ht
    · cases ht; exact leavesSource_of_eq rfl rfl rfl rfl fun _ => rfl
  case irqSample =>
    cases ht
    exact leavesSource_of_eq (by simp) (by simp) (by simp) (by simp) s.readByte_sampleIrq
  case resetAssert => cases ht; simp [busy] at htb
  case cacheClean | cacheInvalidate | setBus | resetRelease =>
    cases ht
    exact leavesSource_of_eq rfl rfl rfl rfl fun _ => rfl

/-- A step is a turn of the engine or an action from outside, on the state without that input. -/
theorem step_cases {s t : State} (ht : step s = .next t) :
    ∃ rest, State.engineStep { s with inputs := rest } = .next t ∨
      ∃ i, i ≠ .engine ∧ State.inputStep { s with inputs := rest } i = .next t := by
  unfold step at ht
  split at ht
  · rename_i hin
    refine ⟨[], .inl ?_⟩
    rwa [← hin]
  · rename_i i rest _
    by_cases hi : i = .engine
    · subst hi; exact ⟨rest, .inl ht⟩
    · exact ⟨rest, .inr ⟨i, hi, ht⟩⟩

/-- No step that lets a command run on changes how it sees its source, memory aside (R72, R74). -/
theorem step_sameView {s t : State} (hb : s.busy = true) (ht : step s = .next t)
    (htb : t.busy = true) : s.SameView t := by
  obtain ⟨rest, ht | ⟨i, hi, ht⟩⟩ := step_cases ht
  · have hview := ((engineStep_result (s := { s with inputs := rest }) hb ht).onward htb).sameView
    exact ⟨hview.lsrc, hview.lslen, hview.coherent, hview.uncleaned, hview.seed⟩
  · have hview := (inputStep_leavesSource (s := { s with inputs := rest }) hb hi ht htb).view
    exact ⟨hview.lsrc, hview.lslen, hview.coherent, hview.uncleaned, hview.seed⟩

/-- No step that lets a command run on changes a byte of its source (R62, R266). -/
theorem step_readByte_source {s t : State} (h : s.Inv) (hvalid : configError s.eng = none)
    (hb : s.busy = true) (ht : step s = .next t) (htb : t.busy = true) {i : Nat}
    (hlt : i < s.eng.lslen.toNat) : t.readByte (s.srcAddr i) = s.readByte (s.srcAddr i) := by
  obtain ⟨-, -, hapart, -⟩ := configError_none hvalid
  obtain ⟨haddr, hin⟩ := srcAddr_inside hapart.1 hlt
  obtain ⟨rest, ht | ⟨j, hj, ht⟩⟩ := step_cases ht
  · have h' : State.Inv { s with inputs := rest } := h.congr id rfl rfl rfl id
    refine engineStep_readByte h' ht ?_
    rw [haddr]
    exact dstSpan_source hapart hlt
  · exact (inputStep_leavesSource (s := { s with inputs := rest }) hb hj ht htb).read _ hin

end State

/-- Settles O47: a step keeps what the command sees of its source and the bytes that memory holds there. -/
theorem sourceIsHeldWhileBusy : Obligations.SourceIsHeldWhileBusy := by
  intro s t h hvalid hb ht htb
  have hview := State.step_sameView hb ht htb
  exact ⟨hview.lsrc, hview.lslen, fun i hi =>
    hview.inByte (State.step_readByte_source h hvalid hb ht htb hi)⟩

namespace State

/-! ### The host's caches -/

theorem step_of_input {s : State} {i : Input} {later : List Input} (h : s.inputs = i :: later) :
    step s = State.inputStep { s with inputs := later } i := by
  unfold step
  rw [h]

theorem inByte_of_notCoherent {s : State} (hc : s.plat.coherent = false) (i : Nat) :
    s.inByte i = if Spans.has s.uncleaned (s.srcAddr i) = true then
      Config.freeByte s.seed (s.srcAddr i) else s.readByte (s.srcAddr i) := by
  simp [inByte, hc]

/-- On a platform that is not coherent a byte the host writes becomes dirty, and is no longer one a command
wrote (R74). -/
theorem markDirty_of_notCoherent {s : State} (hc : s.plat.coherent = false) (a : Nat) :
    (s.markDirty a).dirty = Spans.add s.dirty a 1 ∧
      (s.markDirty a).unseen = Spans.cut s.unseen a 1 ∧
      (s.markDirty a).stale = Spans.cut s.stale a 1 := by
  simp [markDirty, hc]

/-- A write that is not refused changes the host's caches at its byte alone (R74). -/
theorem step_memWrite_caches {s t : State} {addr : Word} {v : Byte} {later : List Input}
    (hin : s.inputs = .memWrite addr v :: later) (hc : s.plat.coherent = false)
    (ht : step s = .next t) :
    t.dirty = Spans.add s.dirty addr.toNat 1 ∧ t.unseen = Spans.cut s.unseen addr.toNat 1 ∧
      t.stale = Spans.cut s.stale addr.toNat 1 := by
  replace ht : State.hostMemWrite { s with inputs := later } addr v = .next t :=
    (step_of_input hin).symm.trans ht
  rcases hostMemWrite_cases { s with inputs := later } addr v with ⟨why, hw⟩ | ⟨-, hw⟩ <;>
    rw [hw] at ht <;> cases ht
  exact markDirty_of_notCoherent (s := State.writeByte { s with inputs := later } addr.toNat v) hc _

end State

/-- Settles O58: what is hidden is fixed at the start and kept by every step; the host's maintenance acts on
exactly its range. -/
theorem uncleanedBytesAreFree : Obligations.UncleanedBytesAreFree := by
  intro s hc
  refine ⟨fun i _ _ => State.inByte_of_notCoherent hc i, fun t hb ht htb => ?_,
    fun t addr v later hin ht a => ?_, fun lo len later hin => ?_,
    fun op level ignored t hidle hfree ht => ?_⟩
  · have hview := State.step_sameView hb ht htb
    exact ⟨hview.uncleaned, hview.seed⟩
  · obtain ⟨hdirty, -, -⟩ := State.step_memWrite_caches hin hc ht
    rw [hdirty, Spans.has_add_eq, Span.has_byte, Bool.or_comm]
  · exact ⟨State.cacheClean { s with inputs := later } lo.toNat len, State.step_of_input hin,
      fun _ => rfl, fun a => Spans.has_cut_eq _ _ _ _⟩
  · replace ht : s.launch op level = .next t := by cases op <;> exact ht
    rcases s.launch_cases op level with ⟨hno, hl⟩ | ⟨-, -, -, hl⟩ | ⟨why, -, -, -, hl⟩ <;>
      rw [hl] at ht <;> cases ht
    · simp [State.busy, hidle, hfree] at hno
    · exact ⟨rfl, rfl, rfl, fun i _ => State.inByte_of_notCoherent (s := s.start op level) hc i⟩

end Sys2Proof.Machine
end

section
/-! PROOF. Host reads of memory, the launches a model refuses, and accesses of another width or alignment
(R66, R69, R74, R215, R267). -/

namespace Sys2Proof.Machine
open Sys2Proof
namespace State

/-! ### Host reads and the bytes an invalidation shows -/

theorem readIsFree_iff {s : State} {a : Nat} :
    s.readIsFree a = true ↔ s.busy = true ∧ s.dstSpan.has a = true ∨
      s.plat.coherent = false ∧ (Spans.has s.unseen a = true ∨ Spans.has s.stale a = true) := by
  simp [readIsFree]

theorem hostMemRead_resp (s : State) (addr : Word) :
    (s.hostMemRead addr).resp = .byte (if s.readIsFree addr.toNat = true then
      Config.freeByte s.freeCtr addr.toNat else s.readByte addr.toNat) := by
  unfold hostMemRead
  split <;> rfl

theorem has_unseen_markStale (s : State) (sp : Span) (a : Nat) :
    Spans.has (s.markStale sp).unseen a =
      (Spans.has s.unseen a || (!s.plat.coherent && sp.has a)) := by
  rw [markStale_unseen]
  cases s.plat.coherent
  · rw [if_neg Bool.false_ne_true, Spans.has_add_eq]; rfl
  · simp

/-- After an error the destination is old in the host's caches, but for INVALID_CONFIGURATION (R74, R236). -/
theorem has_unseen_afterError (s : State) (cause : Cause) (a : Nat) :
    Spans.has (s.afterError cause).unseen a = (Spans.has s.unseen a ||
      (!s.plat.coherent && (decide (cause.code ≠ 2) && s.dstSpan.has a))) := by
  unfold afterError
  split
  · rename_i hcode; simp [hcode]
  · rename_i hcode
    rw [loseDestination, has_unseen_markStale, forget_unseen, forget_plat,
      show decide (cause.code ≠ 2) = true from decide_eq_true hcode, Bool.true_and]

theorem succeed_caches (s : State) :
    s.succeed.stale = s.stale ∧ s.succeed.csr.errCode = 0 ∧
      ∀ a, Spans.has s.succeed.unseen a =
        (Spans.has s.unseen a || (!s.plat.coherent && s.dstSpan.has a)) := by
  unfold succeed
  split
  · refine ⟨by simp, rfl, fun a => ?_⟩
    rw [report_unseen, has_unseen_markStale, forget_unseen, forget_plat]
  · exact ⟨by simp, rfl, fun a => by rw [report_unseen, has_unseen_markStale]⟩

/-- A command that ends makes its destination unseen, unless it ends with INVALID_CONFIGURATION (R74). -/
theorem TurnResult.caches_of_end {s t : State} {accs : List Access} (h : s.TurnResult accs t)
    (hb : t.busy = false) :
    t.stale = s.stale ∧ ∀ a, Spans.has t.unseen a = (Spans.has s.unseen a ||
      (!s.plat.coherent && (decide (t.csr.errCode ≠ 2) && s.dstSpan.has a))) := by
  cases h with
  | goesOn h => rw [h.busy] at hb; cases hb
  | raises h cause pos =>
    refine ⟨(raise_stale _ _ _).trans h.stale, fun a => ?_⟩
    rw [raise_csr, raise, report_unseen, has_unseen_afterError, h.unseen, h.plat, h.dstSpan]
  | @raisesBus x h acc =>
    refine ⟨(raiseBus_stale _ _).trans h.stale, fun a => ?_⟩
    rw [raiseBus_csr, raiseBus, report_unseen, has_unseen_afterError,
      show x.drawPosition.2.unseen = s.unseen from h.unseen,
      show x.drawPosition.2.plat = s.plat from h.plat,
      show x.drawPosition.2.dstSpan = s.dstSpan from h.dstSpan]
  | @succeeds x h =>
    obtain ⟨hstale, hcode, hunseen⟩ := x.succeed_caches
    refine ⟨hstale.trans h.stale, fun a => ?_⟩
    rw [hunseen, hcode, h.unseen, h.plat, h.dstSpan]
    rfl

/-- Observing DONE = 1 makes every unseen byte stale (R74). -/
theorem observeDone_caches {s : State} (h : s.csr.done = true) (a : Nat) :
    Spans.has s.observeDone.unseen a = false ∧
      Spans.has s.observeDone.stale a = (Spans.has s.unseen a || Spans.has s.stale a) := by
  rw [observeDone_unseen, observeDone_stale, if_pos h, if_pos h]
  exact ⟨rfl, List.any_append⟩

theorem sampleIrq_of_irq {s : State} (h : s.irq = true) :
    s.sampleIrq = s.observeDone.answered (.level true) := by
  rw [sampleIrq, h, if_pos rfl]

end State

/-- Settles O57: the answer to a read, and the life of the bytes a command wrote, event by event. -/
theorem memoryReads : Obligations.MemoryReads := by
  refine ⟨fun s addr later hin => ?_, fun s t ht hb htb => ?_, fun s later hdone hin => ?_,
    fun s lo len later hin => ?_, fun s t addr v later hin hc ht a => ?_⟩
  · refine ⟨State.hostMemRead { s with inputs := later } addr, State.step_of_input hin, by simp,
      by simp, by simp, by simp, by simp, by simp, by simp, by simp, by simp, ?_⟩
    rw [State.hostMemRead_resp]
    simp only [State.readIsFree_iff]
    rfl
  · exact (State.engineStep_result hb ht).caches_of_end htb
  · have hobs := State.observeDone_caches (s := { s with inputs := later }) hdone
    rcases hin with hin | ⟨hie, hin⟩
    · have hread := State.hostCsrRead_word { s with inputs := later } (off := 0x04) (by decide)
        (by decide)
      rw [if_pos rfl] at hread
      exact ⟨_, (State.step_of_input hin).trans (congrArg Host.Outcome.next hread), hobs⟩
    · have hirq : State.irq { s with inputs := later } = true := by simp [State.irq, hdone, hie]
      exact ⟨_, (State.step_of_input hin).trans
        (congrArg Host.Outcome.next (State.sampleIrq_of_irq hirq)), hobs⟩
  · exact ⟨State.cacheInvalidate { s with inputs := later } lo.toNat len, State.step_of_input hin,
      rfl, fun a => Spans.has_cut_eq _ _ _ _⟩
  · obtain ⟨-, hunseen, hstale⟩ := State.step_memWrite_caches hin hc ht
    rw [hunseen, hstale, Spans.has_cut_eq, Spans.has_cut_eq, Span.has_byte, decide_not]
    exact ⟨rfl, rfl⟩

namespace State

/-! ### Refused launches -/

/-- A launch is refused exactly where a valid command is opposed (R69, R204, R215). -/
theorem exists_launchRefusal_iff {s : State} :
    (∃ why, s.launchRefusal = some why) ↔ configError s.eng = none ∧ ¬s.Unopposed := by
  unfold launchRefusal races Unopposed
  cases configError s.eng <;> cases s.meetsDevice <;> cases s.meetsOther <;> simp

theorem exists_launch_refused_iff {s : State} (hidle : s.eng.fsm = .idle) (op : Op)
    (level : BitVec 2) :
    (∃ why, s.launch op level = .refused why) ↔
      s.resetHeld = false ∧ configError (s.start op level).eng = none ∧
        ¬(s.start op level).Unopposed := by
  have hb : s.busy = false := by simp [busy, hidle]
  rw [← exists_launchRefusal_iff]
  rcases s.launch_cases op level with ⟨hno, hl⟩ | ⟨-, hfree, hnone, hl⟩ | ⟨why, -, hfree, hwhy, hl⟩
  · have hheld : s.resetHeld = true := by simpa [hb] using hno
    simp [hl, hheld]
  · simp [hl, hnone]
  · simp [hl, hfree, hwhy]

theorem meetsOther_iff {s : State} :
    s.meetsOther = true ↔ ∃ other, other ∈ s.plat.others ∧
      (s.dstSpan.meets other.span = true ∨
        other.writes = true ∧ s.srcSpan.meets other.span = true) := by
  simp [meetsOther]

/-- The commands of other blocks may change unless that makes a race with the one running here (R215). -/
theorem setOthers_of_races {s : State} {regions : List OtherRegion} (hb : s.busy = true)
    (hvalid : configError s.eng = none)
    (hmeets : State.meetsOther { s with plat := { s.plat with others := regions } } = true) :
    s.setOthers regions = .refused .raceWithOtherBlock := by
  rw [setOthers_eq, hb, races, hmeets]
  simp [hvalid]

theorem setOthers_of_free {s : State} {regions : List OtherRegion}
    (h : s.busy = false ∨ configError s.eng ≠ none ∨
      State.meetsOther { s with plat := { s.plat with others := regions } } = false) :
    s.setOthers regions = .next { s with plat := { s.plat with others := regions } } := by
  rw [setOthers_eq, if_neg]
  rcases h with h | h | h <;> simp [races, h]

end State

/-- Settles O23: at the CMD write by the cases of a launch, at another block's command by those of setOthers. -/
theorem refusedLaunches : Obligations.RefusedLaunches := by
  refine ⟨fun s level ignored op hidle => ?_, fun s regions later hin => ?_⟩
  · cases op <;> exact State.exists_launch_refused_iff hidle _ level
  · have hstep : step s = State.setOthers { s with inputs := later } regions :=
      State.step_of_input hin
    rw [hstep]
    refine ⟨fun ⟨hb, hvalid, hmeets⟩ => ?_, fun hfree => ?_⟩
    · exact State.setOthers_of_races (s := { s with inputs := later }) hb hvalid
        (State.meetsOther_iff.2 hmeets)
    · refine State.setOthers_of_free (s := { s with inputs := later })
        (hfree.imp_right (Or.imp_right fun hnone => ?_))
      rw [Bool.eq_false_iff, Ne, State.meetsOther_iff]
      rintro ⟨other, hmem, hmeets⟩
      obtain ⟨hdst, hsrc⟩ := hnone other hmem
      rcases hmeets with hmeets | ⟨hwrites, hmeets⟩
      · exact Bool.false_ne_true (hdst.symm.trans hmeets)
      · exact Bool.false_ne_true ((hsrc hwrites).symm.trans hmeets)

namespace State

/-! ### Accesses of another width or alignment -/

theorem accessLegal_of_bad {off bytes : Nat} (h : bytes ≠ 4 ∨ off % 4 ≠ 0) :
    accessLegal off bytes = false := by
  rcases h with h | h <;> simp [accessLegal, h]

end State

/-- Settles O55: the offset lies in the window and the access is not legal there. -/
theorem badAccessChangesNothing : Obligations.BadAccessChangesNothing := by
  intro s off bytes v later hoff hbad hin
  have hwindow := Platform.windowOffset_base s.plat hoff
  have hillegal := State.accessLegal_of_bad hbad
  rcases hin with hin | hin <;> rw [State.step_of_input hin] <;>
    simp [State.inputStep, State.hostCsrRead, State.hostCsrWrite, hwindow, hillegal, State.answered]

end Sys2Proof.Machine
end

section
/-! PROOF. The fields of each encoding: length bytes, the opcode, near and far distances, and the CMD word;
the decoder's and the encoder's equations on them (R92 to R98, R107). -/

namespace Sys2Proof

/-! ### Length bytes -/

theorem lenBytes_of_lt {x : Nat} (h : x < 255) : lenBytes x = [BitVec.ofNat 8 x] := by
  simp [lenBytes, Nat.div_eq_of_lt h, Nat.mod_eq_of_lt h]

theorem lenBytes_add (x : Nat) : lenBytes (255 + x) = 255#8 :: lenBytes x := by
  simp [lenBytes, List.replicate_succ]

theorem lengthBytes_lenBytes (x : Nat) (rest : List Byte) :
    lengthBytes (lenBytes x ++ rest) = some (x, rest) := by
  induction x using Nat.strong_induction_on with
  | _ x ih =>
    rcases Nat.lt_or_ge x 255 with hlt | hge
    · have hne : BitVec.ofNat 8 x ≠ 255#8 := by bv_omega
      rw [lenBytes_of_lt hlt, List.singleton_append, lengthBytes, if_neg hne, BitVec.toNat_ofNat,
        Nat.mod_eq_of_lt (by omega)]
    · obtain ⟨y, rfl⟩ := Nat.exists_eq_add_of_le hge
      rw [lenBytes_add, List.cons_append, lengthBytes, if_pos rfl, ih y (by omega)]

/-- A byte below 255 is the whole length-byte sequence of its value. -/
theorem lenBytes_toNat {c : Byte} (h : c ≠ 255#8) : lenBytes c.toNat = [c] := by
  have hne : c.toNat ≠ 255 := fun h255 => h (BitVec.eq_of_toNat_eq h255)
  have := c.isLt
  rw [lenBytes_of_lt (by omega), BitVec.ofNat_toNat, BitVec.setWidth_eq]

theorem eq_lenBytes_append {bytes : List Byte} : ∀ {x : Nat} {rest : List Byte},
    lengthBytes bytes = some (x, rest) → bytes = lenBytes x ++ rest := by
  induction bytes with
  | nil => intro x rest h; cases h
  | cons c bytes ih =>
    intro x rest h
    rw [lengthBytes] at h
    split at h
    · next hc =>
      split at h
      · cases h
      · next y after hy =>
        cases h
        rw [lenBytes_add, hc, ih hy, List.cons_append]
    · next hc =>
      cases h
      rw [lenBytes_toNat hc, List.singleton_append]

theorem lengthBytes_iff {bytes rest : List Byte} {x : Nat} :
    lengthBytes bytes = some (x, rest) ↔ bytes = lenBytes x ++ rest :=
  ⟨eq_lenBytes_append, fun h => h ▸ lengthBytes_lenBytes x rest⟩

/-- A byte below 255 ends a length-byte sequence, whatever stands before it. -/
theorem exists_lenBytes_append_zero (bytes more : List Byte) :
    ∃ x after, bytes ++ 0#8 :: more = lenBytes x ++ (after ++ more) := by
  induction bytes with
  | nil => exact ⟨0, [], rfl⟩
  | cons c bytes ih =>
    by_cases hc : c = 255#8
    · obtain ⟨x, after, h⟩ := ih
      exact ⟨255 + x, after, by rw [hc, lenBytes_add, List.cons_append, h, List.cons_append]⟩
    · exact ⟨c.toNat, bytes ++ [0#8], by simp [lenBytes_toNat hc]⟩

/-! ### Distances -/

/-- The near distances are 1 to 8192, each with its own fields F and B (R94, R97). -/
theorem exists_nearDistance {d : Nat} (h1 : 1 ≤ d) (h2 : d ≤ 8192) :
    ∃ f b, f < 32 ∧ d = nearDistance f b := by
  refine ⟨(d - 1) / 256, BitVec.ofNat 8 ((d - 1) % 256), by omega, ?_⟩
  simp [nearDistance]; omega

theorem nearDistance_pos (f : Nat) (b : Byte) : 1 ≤ nearDistance f b := Nat.le_add_left 1 _

theorem nearDistance_le {f : Nat} (hf : f < 32) (b : Byte) : nearDistance f b ≤ 8192 := by
  have := b.isLt
  unfold nearDistance; omega

/-- The escape F = 31, B = 255 is the one spelling of distance 8192 (R98). -/
theorem nearDistance_eq_top_iff {f : Nat} (b : Byte) :
    nearDistance f b = 8192 ↔ f = 31 ∧ b = 255#8 := by
  have := b.isLt
  rw [← BitVec.toNat_inj, nearDistance]
  simp; omega

theorem nearDistance_sub_div (f : Nat) (b : Byte) : (nearDistance f b - 1) / 256 = f := by
  have := b.isLt
  unfold nearDistance; omega

theorem ofNat_nearDistance_sub_mod (f : Nat) (b : Byte) :
    BitVec.ofNat 8 ((nearDistance f b - 1) % 256) = b := by
  have := b.isLt
  apply BitVec.eq_of_toNat_eq
  simp [nearDistance]; omega

/-- The far distances are 8192 to 73727, each with its own offset bytes (R98). -/
theorem exists_farDistance {d : Nat} (h1 : 8192 ≤ d) (h2 : d ≤ 73727) :
    ∃ oh ol, d = farDistance oh ol := by
  refine ⟨BitVec.ofNat 8 ((d - 8192) / 256), BitVec.ofNat 8 ((d - 8192) % 256), ?_⟩
  simp [farDistance, Config.farBase]; omega

theorem farDistance_le (oh ol : Byte) : farDistance oh ol ≤ 73727 := by
  have := oh.isLt
  have := ol.isLt
  simp only [farDistance, Config.farBase]; omega

theorem ofNat_farDistance_sub_div (oh ol : Byte) :
    BitVec.ofNat 8 ((farDistance oh ol - Config.farBase) / 256) = oh := by
  have := oh.isLt
  have := ol.isLt
  apply BitVec.eq_of_toNat_eq
  simp [farDistance]; omega

theorem ofNat_farDistance_sub_mod (oh ol : Byte) :
    BitVec.ofNat 8 ((farDistance oh ol - Config.farBase) % 256) = ol := by
  have := ol.isLt
  apply BitVec.eq_of_toNat_eq
  simpa [farDistance] using this

/-! ### The encoder on the fields -/

theorem encodeShort_nearDistance (t f : Nat) (b : Byte) :
    encodeShort t (nearDistance f b) = [opcodeByte t f, b] := by
  rw [encodeShort, nearDistance_sub_div, ofNat_nearDistance_sub_mod]

theorem encodeNear_nearDistance (x f : Nat) (b : Byte) (rest : List Byte) :
    encodeNear (9 + x) (nearDistance f b) ++ rest = opcodeByte 7 f :: (lenBytes x ++ b :: rest) := by
  simp [encodeNear, nearDistance_sub_div, ofNat_nearDistance_sub_mod]

theorem encodeFar_farDistance (x : Nat) (oh ol : Byte) (rest : List Byte) :
    encodeFar (9 + x) (farDistance oh ol) ++ rest =
      opcodeByte 7 31 :: (lenBytes x ++ 255#8 :: oh :: ol :: rest) := by
  simp [encodeFar, ofNat_farDistance_sub_div, ofNat_farDistance_sub_mod]

/-! ### The decoder on the fields -/

/-- Every byte is the opcode of one of the three formats (R92). -/
theorem opcode_cases (op : Byte) :
    (∃ f, f < 32 ∧ op = opcodeByte 0 f) ∨
      (∃ t f, 1 ≤ t ∧ t < 7 ∧ f < 32 ∧ op = opcodeByte t f) ∨
      ∃ f, f < 32 ∧ op = opcodeByte 7 f := by
  have hf := opcodeF_lt op
  have ht := opcodeT_lt op
  have heta := (opcodeByte_eta op).symm
  rcases Nat.eq_zero_or_pos (opcodeT op) with h0 | hpos
  · exact .inl ⟨_, hf, h0 ▸ heta⟩
  · rcases Nat.lt_or_ge (opcodeT op) 7 with hlt | hge
    · exact .inr (.inl ⟨_, _, hpos, hlt, hf, heta⟩)
    · have h7 : opcodeT op = 7 := by omega
      exact .inr (.inr ⟨_, hf, h7 ▸ heta⟩)

theorem decode_literal {f : Nat} (hf : f < 32) (level : Level) (bytes : List Byte) :
    decode level (opcodeByte 0 f :: bytes) = decodeLiteral f bytes := by
  rw [decode, opcodeT_opcodeByte (by decide) hf, opcodeF_opcodeByte hf, if_pos rfl]

theorem decode_short {t f : Nat} (h1 : 1 ≤ t) (h7 : t < 7) (hf : f < 32) (level : Level)
    (bytes : List Byte) : decode level (opcodeByte t f :: bytes) = decodeShort t f bytes := by
  rw [decode, opcodeT_opcodeByte (by omega) hf, opcodeF_opcodeByte hf, if_neg (by omega), if_pos h7]

theorem decode_extended {f : Nat} (hf : f < 32) (level : Level) (bytes : List Byte) :
    decode level (opcodeByte 7 f :: bytes) = decodeExtended level f bytes := by
  rw [decode, opcodeT_opcodeByte (by decide) hf, opcodeF_opcodeByte hf, if_neg (by decide),
    if_neg (by decide)]

theorem decodeLiteral_append {f : Nat} {lits : List Byte} (h : lits.length = f + 1)
    (rest : List Byte) : decodeLiteral f (lits ++ rest) = .ok (.lit lits, rest) := by
  rw [decodeLiteral, ← h, splitExact_append]

/-- After a literal opcode either all F + 1 literals are there, or the run is cut off (R93, R180). -/
theorem decodeLiteral_cases (f : Nat) (bytes : List Byte) :
    (∃ lits rest, lits.length = f + 1 ∧ bytes = lits ++ rest) ∨
      decodeLiteral f bytes = .error .truncLiteral ∧ bytes.length ≤ f := by
  rcases splitExact_cases (f + 1) bytes with ⟨lits, rest, -, hlen, hb⟩ | ⟨hs, hlen⟩
  · exact .inl ⟨lits, rest, hlen, hb.symm⟩
  · exact .inr ⟨by rw [decodeLiteral, hs], Nat.le_of_lt_succ hlen⟩

theorem decodeShort_cons (t f : Nat) (b : Byte) (rest : List Byte) :
    decodeShort t f (b :: rest) = .ok (shortInstr t (nearDistance f b), rest) := rfl

theorem decodeExtended_one (f x : Nat) (b : Byte) (rest : List Byte) :
    decodeExtended .one f (lenBytes x ++ b :: rest) = .ok (.mx1 (9 + x) (nearDistance f b), rest) := by
  rw [decodeExtended, lengthBytes_lenBytes]

theorem decodeExtended_near {f : Nat} {b : Byte} (h : ¬(f = 31 ∧ b = 255#8)) (x : Nat)
    (rest : List Byte) : decodeExtended .two f (lenBytes x ++ b :: rest) =
      .ok (.mx2n (9 + x) (nearDistance f b), rest) := by
  simp [decodeExtended, lengthBytes_lenBytes, h]

theorem decodeExtended_far (x : Nat) (oh ol : Byte) (rest : List Byte) :
    decodeExtended .two 31 (lenBytes x ++ 255#8 :: oh :: ol :: rest) =
      .ok (.mx2f (9 + x) (farDistance oh ol), rest) := by
  simp [decodeExtended, lengthBytes_lenBytes]

/-- What can follow the opcode of an extended match: operand bytes that end before B, whatever the level, or
length bytes and B; behind the escape at level 2 both offset bytes, or fewer (R95 to R98). -/
theorem decodeExtended_cases (f : Nat) (bytes : List Byte) :
    (∀ level, decodeExtended level f bytes = .error .truncMatch) ∨
      ∃ x b rest, bytes = lenBytes x ++ b :: rest ∧
        (¬(f = 31 ∧ b = 255#8) ∨
          (f = 31 ∧ b = 255#8) ∧
            ((∃ oh ol after, rest = oh :: ol :: after) ∨
              rest.length ≤ 1 ∧ decodeExtended .two f bytes = .error .truncMatch)) := by
  cases hx : lengthBytes bytes with
  | none => exact .inl fun level => by rw [decodeExtended, hx]
  | some p =>
    obtain ⟨x, after⟩ := p
    cases after with
    | nil => exact .inl fun level => by rw [decodeExtended, hx]
    | cons b rest =>
      refine .inr ⟨x, b, rest, eq_lenBytes_append hx, ?_⟩
      by_cases hesc : f = 31 ∧ b = 255#8
      · refine .inr ⟨hesc, ?_⟩
        match rest, hx with
        | oh :: ol :: after, _ => exact .inl ⟨oh, ol, after, rfl⟩
        | [], hx => exact .inr ⟨Nat.zero_le 1, by simp [decodeExtended, hx, hesc]⟩
        | [oh], hx => exact .inr ⟨Nat.le_refl 1, by simp [decodeExtended, hx, hesc]⟩
      · exact .inl hesc

/-! ### Literal runs and short matches -/

theorem wf_lit {lits : List Byte} : (Instr.lit lits).wf ↔ 1 ≤ lits.length ∧ lits.length ≤ 32 := by
  unfold Instr.wf Instr.problem
  simp only [Config.maxCopy]
  split
  · simp; omega
  · split <;> simp <;> omega

theorem encodeStream_shortInstr {t : Nat} (h1 : 1 ≤ t) (h7 : t < 7) (d : Nat) :
    encodeStream (shortInstr t d) = encodeShort t d := by
  interval_cases t <;> rfl

theorem wf_shortInstr (t d : Nat) : (shortInstr t d).wf ↔ 1 ≤ d ∧ d ≤ 8192 := by
  rw [← distanceProblem_none]
  unfold shortInstr
  split <;> rfl

theorem isStream_shortInstr (t d : Nat) : (shortInstr t d).isStream = true := by
  unfold shortInstr; split <;> rfl

theorem atLevel_shortInstr (level : Level) (t d : Nat) :
    (shortInstr t d).atLevel level = true := by
  cases level <;> unfold shortInstr <;> split <;> rfl

/-! ### The CMD word -/

/-- A word is its fields: the ignored bits, LEVEL, OP and START (R107). -/
theorem exists_commandFields (v : Word) :
    ∃ (ignored : BitVec 28) (level : BitVec 2) (op start : BitVec 1),
      v = ignored ++ level ++ op ++ start := by
  refine ⟨v.extractLsb' 4 28, v.extractLsb' 2 2, v.extractLsb' 1 1, v.extractLsb' 0 1, ?_⟩
  rw [BitVec.extractLsb'_append_extractLsb'_eq_extractLsb' (start₁ := 2) (len₁ := 2) rfl,
    BitVec.extractLsb'_append_extractLsb'_eq_extractLsb' (start₁ := 1) (len₁ := 1) rfl,
    BitVec.extractLsb'_append_extractLsb'_eq_extractLsb' (start₁ := 0) (len₁ := 1) rfl]
  exact BitVec.extractLsb'_eq_self.symm

theorem decodeCommand_append (ignored : BitVec 28) (level : BitVec 2) (op start : BitVec 1) :
    decodeCommand (ignored ++ level ++ op ++ start : Word) =
      if start = 1#1 then
        some (if op = 1#1 then .decompress level ignored else .compress level ignored)
      else none := by
  have hstart : BitVec.extractLsb' 0 1 (ignored ++ level ++ op ++ start : Word) = start :=
    BitVec.extractLsb'_append_eq_right
  have hop : BitVec.extractLsb' 1 1 (ignored ++ level ++ op ++ start : Word) = op :=
    (BitVec.extractLsb'_append_eq_of_le (by decide)).trans BitVec.extractLsb'_append_eq_right
  have hlevel : BitVec.extractLsb' 2 2 (ignored ++ level ++ op ++ start : Word) = level :=
    (BitVec.extractLsb'_append_eq_of_le (by decide)).trans
      ((BitVec.extractLsb'_append_eq_of_le (by decide)).trans BitVec.extractLsb'_append_eq_right)
  have hignored : BitVec.extractLsb' 4 28 (ignored ++ level ++ op ++ start : Word) = ignored :=
    (BitVec.extractLsb'_append_eq_of_le (by decide)).trans
      ((BitVec.extractLsb'_append_eq_of_le (by decide)).trans BitVec.extractLsb'_append_eq_left)
  rw [decodeCommand, hstart, hop, hlevel, hignored, apply_ite some]

end Sys2Proof
end

section
/-! PROOF. The statements about the two encodings: decoding and encoding undo each other, every byte begins an
instruction, what the levels share, and the lengths (R92 to R107). -/

namespace Sys2Proof
open Machine

/-! ### Decoding an encoding -/

theorem decode_encodeLit {lits : List Byte} (h : (Instr.lit lits).wf) (level : Level)
    (rest : List Byte) :
    decode level (encodeStream (.lit lits) ++ rest) = .ok (.lit lits, rest) := by
  have hlen : 1 ≤ lits.length ∧ lits.length ≤ 32 := wf_lit.1 h
  rw [encodeStream, List.cons_append, decode_literal (by omega), decodeLiteral_append (by omega)]

theorem decode_encodeShort {t d : Nat} (h1 : 1 ≤ t) (h7 : t < 7) (h : (shortInstr t d).wf)
    (level : Level) (rest : List Byte) :
    decode level (encodeStream (shortInstr t d) ++ rest) = .ok (shortInstr t d, rest) := by
  obtain ⟨hd1, hd2⟩ := (wf_shortInstr t d).1 h
  obtain ⟨f, b, hf, rfl⟩ := exists_nearDistance hd1 hd2
  rw [encodeStream_shortInstr h1 h7, encodeShort_nearDistance, List.cons_append,
    decode_short h1 h7 hf, List.singleton_append, decodeShort_cons]

theorem decode_encodeMx1 {len d : Nat} (h : (Instr.mx1 len d).wf) (rest : List Byte) :
    decode .one (encodeStream (.mx1 len d) ++ rest) = .ok (.mx1 len d, rest) := by
  obtain ⟨hlen, hd1, hd2⟩ := wf_mx1.1 h
  obtain ⟨x, rfl⟩ := Nat.exists_eq_add_of_le hlen
  obtain ⟨f, b, hf, rfl⟩ := exists_nearDistance hd1 hd2
  rw [encodeStream, encodeNear_nearDistance, decode_extended hf, decodeExtended_one]

theorem decode_encodeMx2n {len d : Nat} (h : (Instr.mx2n len d).wf) (rest : List Byte) :
    decode .two (encodeStream (.mx2n len d) ++ rest) = .ok (.mx2n len d, rest) := by
  obtain ⟨hlen, hd1, hd2⟩ := wf_mx2n.1 h
  obtain ⟨x, rfl⟩ := Nat.exists_eq_add_of_le hlen
  obtain ⟨f, b, hf, rfl⟩ := exists_nearDistance hd1 (by omega)
  have hesc : ¬(f = 31 ∧ b = 255#8) := by rw [← nearDistance_eq_top_iff b]; omega
  rw [encodeStream, encodeNear_nearDistance, decode_extended hf, decodeExtended_near hesc]

theorem decode_encodeMx2f {len d : Nat} (h : (Instr.mx2f len d).wf) (rest : List Byte) :
    decode .two (encodeStream (.mx2f len d) ++ rest) = .ok (.mx2f len d, rest) := by
  obtain ⟨hlen, hd1, hd2⟩ := wf_mx2f.1 h
  obtain ⟨x, rfl⟩ := Nat.exists_eq_add_of_le hlen
  obtain ⟨oh, ol, rfl⟩ := exists_farDistance hd1 hd2
  rw [encodeStream, encodeFar_farDistance, decode_extended (by decide), decodeExtended_far]

theorem decode_encodeStream {level : Level} {i : Instr} (hs : i.isStream = true) (h : i.wf)
    (hl : i.atLevel level = true) (rest : List Byte) :
    decode level (encodeStream i ++ rest) = .ok (i, rest) := by
  cases i with
  | lit lits => exact decode_encodeLit h level rest
  | ms3 d => exact decode_encodeShort (t := 1) (by decide) (by decide) h level rest
  | ms4 d => exact decode_encodeShort (t := 2) (by decide) (by decide) h level rest
  | ms5 d => exact decode_encodeShort (t := 3) (by decide) (by decide) h level rest
  | ms6 d => exact decode_encodeShort (t := 4) (by decide) (by decide) h level rest
  | ms7 d => exact decode_encodeShort (t := 5) (by decide) (by decide) h level rest
  | ms8 d => exact decode_encodeShort (t := 6) (by decide) (by decide) h level rest
  | mx1 len d =>
    cases level with
    | one => exact decode_encodeMx1 h rest
    | two => cases hl
  | mx2n len d =>
    cases level with
    | one => cases hl
    | two => exact decode_encodeMx2n h rest
  | mx2f len d =>
    cases level with
    | one => cases hl
    | two => exact decode_encodeMx2f h rest
  | compress level ignored => cases hs
  | decompress level ignored => cases hs

theorem encode_of_isStream {i : Instr} (hs : i.isStream = true) :
    encode i = .stream (encodeStream i) := by
  cases i with
  | compress level ignored | decompress level ignored => cases hs
  | _ => rfl

theorem decodeEncoding_encode_stream {level : Level} {i : Instr} (hs : i.isStream = true) (h : i.wf)
    (hl : i.atLevel level = true) : decodeEncoding level (encode i) = some i := by
  have hdec := decode_encodeStream hs h hl []
  rw [List.append_nil] at hdec
  rw [encode_of_isStream hs, decodeEncoding, hdec]

/-- Settles O1: stream instructions by format and fields, commands by the fields of the CMD word. -/
theorem decodeOfEncode : Obligations.DecodeOfEncode := by
  refine ⟨fun level i rest hs h hl => decode_encodeStream hs h hl rest, fun level i h hl => ?_⟩
  cases i with
  | compress lv ignored => exact decodeCommand_append ignored lv 0#1 1#1
  | decompress lv ignored => exact decodeCommand_append ignored lv 1#1 1#1
  | _ => exact decodeEncoding_encode_stream rfl h hl

/-! ### Encoding what is decoded -/

/-- The instruction is one of the stream at the level, and its encoding with the rest is the bytes. -/
def EncodesTo (level : Level) (i : Instr) (rest bytes : List Byte) : Prop :=
  i.isStream = true ∧ i.wf ∧ i.atLevel level = true ∧ encodeStream i ++ rest = bytes

theorem encodesTo_of_decodeLiteral {level : Level} {f : Nat} (hf : f < 32) {bytes rest : List Byte}
    {i : Instr} (h : decodeLiteral f bytes = .ok (i, rest)) :
    EncodesTo level i rest (opcodeByte 0 f :: bytes) := by
  rcases decodeLiteral_cases f bytes with ⟨lits, rest', hlen, rfl⟩ | ⟨herr, -⟩
  · rw [decodeLiteral_append hlen] at h
    cases h
    have hwf : (Instr.lit lits).wf := wf_lit.2 (by omega)
    exact ⟨rfl, hwf, by cases level <;> rfl, by simp [encodeStream, hlen]⟩
  · rw [herr] at h; cases h

theorem encodesTo_of_decodeShort {level : Level} {t f : Nat} (h1 : 1 ≤ t) (h7 : t < 7) (hf : f < 32)
    {bytes rest : List Byte} {i : Instr} (h : decodeShort t f bytes = .ok (i, rest)) :
    EncodesTo level i rest (opcodeByte t f :: bytes) := by
  cases bytes with
  | nil => cases h
  | cons b bytes =>
    cases h
    refine ⟨isStream_shortInstr _ _, (wf_shortInstr _ _).2 ⟨nearDistance_pos f b, nearDistance_le hf b⟩,
      atLevel_shortInstr _ _ _, ?_⟩
    rw [encodeStream_shortInstr h1 h7, encodeShort_nearDistance, List.cons_append,
      List.singleton_append]

theorem encodesTo_of_decodeExtended {level : Level} {f : Nat} (hf : f < 32)
    {bytes rest : List Byte} {i : Instr} (h : decodeExtended level f bytes = .ok (i, rest)) :
    EncodesTo level i rest (opcodeByte 7 f :: bytes) := by
  rcases decodeExtended_cases f bytes with herr | ⟨x, b, after, rfl, hform⟩
  · rw [herr] at h; cases h
  have hpos := nearDistance_pos f b
  have hle := nearDistance_le hf b
  cases level with
  | one =>
    rw [decodeExtended_one] at h
    cases h
    exact ⟨rfl, wf_mx1.2 ⟨Nat.le_add_right 9 x, hpos, hle⟩, rfl, encodeNear_nearDistance x f b rest⟩
  | two =>
    rcases hform with hnear | ⟨⟨rfl, rfl⟩, ⟨oh, ol, after', rfl⟩ | ⟨-, herr⟩⟩
    · rw [decodeExtended_near hnear] at h
      cases h
      rw [← nearDistance_eq_top_iff b] at hnear
      exact ⟨rfl, wf_mx2n.2 ⟨Nat.le_add_right 9 x, hpos, by omega⟩, rfl,
        encodeNear_nearDistance x f b rest⟩
    · rw [decodeExtended_far] at h
      cases h
      exact ⟨rfl, wf_mx2f.2 ⟨Nat.le_add_right 9 x, Nat.le_add_right _ _, farDistance_le oh ol⟩, rfl,
        encodeFar_farDistance x oh ol rest⟩
    · rw [herr] at h; cases h

theorem encodesTo_of_decode {level : Level} {bytes rest : List Byte} {i : Instr}
    (h : decode level bytes = .ok (i, rest)) : EncodesTo level i rest bytes := by
  cases bytes with
  | nil => cases h
  | cons op bytes =>
    rcases opcode_cases op with ⟨f, hf, rfl⟩ | ⟨t, f, h1, h7, hf, rfl⟩ | ⟨f, hf, rfl⟩
    · exact encodesTo_of_decodeLiteral hf (decode_literal hf level bytes ▸ h)
    · exact encodesTo_of_decodeShort h1 h7 hf (decode_short h1 h7 hf level bytes ▸ h)
    · exact encodesTo_of_decodeExtended hf (decode_extended hf level bytes ▸ h)

theorem encodeCommand_of_decodeCommand {v : Word} {i : Instr} (h : decodeCommand v = some i) :
    encodeCommand i = some v := by
  obtain ⟨ignored, level, op, start, rfl⟩ := exists_commandFields v
  rw [decodeCommand_append] at h
  split at h
  · next hstart =>
    cases h
    rcases BitVec.eq_zero_or_eq_one op with hop | hop <;> subst hop hstart <;> rfl
  · cases h

/-- Settles O2, format by format. -/
theorem encodeOfDecode : Obligations.EncodeOfDecode :=
  ⟨fun _ _ _ _ => encodesTo_of_decode, fun _ _ => encodeCommand_of_decodeCommand⟩

/-- Settles O3: the decoder runs on each of the words. -/
theorem tableWordsDecode : Obligations.TableWordsDecode := by
  unfold Obligations.TableWordsDecode
  decide

/-! ### Every byte begins an instruction -/

theorem exists_decodeLiteral (f : Nat) (bytes : List Byte) :
    ∃ more i after, decodeLiteral f (bytes ++ more) = .ok (i, after) := by
  refine ⟨List.replicate (f + 1) 0#8, ?_⟩
  rcases decodeLiteral_cases f (bytes ++ List.replicate (f + 1) 0#8) with
    ⟨lits, rest, hlen, h⟩ | ⟨-, hshort⟩
  · exact ⟨_, _, h ▸ decodeLiteral_append hlen rest⟩
  · simp at hshort; omega

theorem exists_decodeShort (t f : Nat) (bytes : List Byte) :
    ∃ more i after, decodeShort t f (bytes ++ more) = .ok (i, after) := by
  refine ⟨[0#8], ?_⟩
  cases bytes with
  | nil => exact ⟨_, _, rfl⟩
  | cons b bytes => exact ⟨_, _, rfl⟩

theorem exists_decodeExtended (level : Level) (f : Nat) (bytes : List Byte) :
    ∃ more i after, decodeExtended level f (bytes ++ more) = .ok (i, after) := by
  obtain ⟨x, after, h⟩ := exists_lenBytes_append_zero bytes [0#8, 0#8, 0#8]
  obtain ⟨b, oh, ol, rest, h3⟩ : ∃ b oh ol rest, after ++ [0#8, 0#8, 0#8] = b :: oh :: ol :: rest := by
    match after with
    | [] | [_] | [_, _] | _ :: _ :: _ :: _ => exact ⟨_, _, _, _, rfl⟩
  refine ⟨[0#8, 0#8, 0#8, 0#8], ?_⟩
  rw [h, h3]
  cases level with
  | one => exact ⟨_, _, decodeExtended_one f x b _⟩
  | two =>
    by_cases hesc : f = 31 ∧ b = 255#8
    · obtain ⟨rfl, rfl⟩ := hesc
      exact ⟨_, _, decodeExtended_far x oh ol rest⟩
    · exact ⟨_, _, decodeExtended_near hesc x _⟩

/-- Settles O4: each format is completed by enough bytes of 0, the first of which ends the length bytes. -/
theorem everyByteBeginsAnInstruction : Obligations.EveryByteBeginsAnInstruction := by
  intro level op bytes
  simp only [List.cons_append]
  rcases opcode_cases op with ⟨f, hf, rfl⟩ | ⟨t, f, h1, h7, hf, rfl⟩ | ⟨f, hf, rfl⟩
  · simpa only [decode_literal hf] using exists_decodeLiteral f bytes
  · simpa only [decode_short h1 h7 hf] using exists_decodeShort t f bytes
  · simpa only [decode_extended hf] using exists_decodeExtended level f bytes

/-! ### The two levels -/

/-- The readings that the levels can have of the same bytes, level 1's first (R106). -/
inductive LevelReadings : (one two : Except DecodeError (Instr × List Byte)) → Prop
  | same {i : Instr} {rest : List Byte} (h : ∀ len d, i ≠ .mx2f len d) :
    LevelReadings (.ok (asLevelOne i, rest)) (.ok (i, rest))
  | cut {why : DecodeError} : LevelReadings (.error why) (.error why)
  | far {len d : Nat} {oh ol : Byte} {rest : List Byte} :
    LevelReadings (.ok (.mx1 len 8192, oh :: ol :: rest)) (.ok (.mx2f len d, rest))
  | farCut {len : Nat} {rest : List Byte} (h : rest.length ≤ 1) :
    LevelReadings (.ok (.mx1 len 8192, rest)) (.error .truncMatch)

theorem levelReadings_decodeLiteral (f : Nat) (bytes : List Byte) :
    LevelReadings (decodeLiteral f bytes) (decodeLiteral f bytes) := by
  rcases decodeLiteral_cases f bytes with ⟨lits, rest, hlen, rfl⟩ | ⟨herr, -⟩
  · rw [decodeLiteral_append hlen]
    exact .same (i := .lit lits) nofun
  · rw [herr]; exact .cut

theorem asLevelOne_shortInstr (t d : Nat) : asLevelOne (shortInstr t d) = shortInstr t d := by
  unfold shortInstr; split <;> rfl

theorem shortInstr_ne_mx2f (t d len d' : Nat) : shortInstr t d ≠ .mx2f len d' := by
  unfold shortInstr; split <;> nofun

theorem levelReadings_decodeShort (t f : Nat) (bytes : List Byte) :
    LevelReadings (decodeShort t f bytes) (decodeShort t f bytes) := by
  cases bytes with
  | nil => exact .cut
  | cons b rest =>
    have h := LevelReadings.same (rest := rest) (shortInstr_ne_mx2f t (nearDistance f b))
    rwa [asLevelOne_shortInstr] at h

theorem levelReadings_decodeExtended (f : Nat) (bytes : List Byte) :
    LevelReadings (decodeExtended .one f bytes) (decodeExtended .two f bytes) := by
  rcases decodeExtended_cases f bytes with
    herr | ⟨x, b, rest, rfl, hnear | ⟨⟨rfl, rfl⟩, ⟨oh, ol, after, rfl⟩ | ⟨hlen, herr⟩⟩⟩
  · rw [herr, herr]; exact .cut
  · rw [decodeExtended_one, decodeExtended_near hnear]
    exact .same (i := .mx2n (9 + x) (nearDistance f b)) nofun
  · rw [decodeExtended_one, decodeExtended_far]
    exact .far
  · rw [decodeExtended_one, herr]
    exact .farCut hlen

theorem levelReadings_decode (bytes : List Byte) :
    LevelReadings (decode .one bytes) (decode .two bytes) := by
  cases bytes with
  | nil => exact .cut
  | cons op bytes =>
    rcases opcode_cases op with ⟨f, hf, rfl⟩ | ⟨t, f, h1, h7, hf, rfl⟩ | ⟨f, hf, rfl⟩
    · rw [decode_literal hf, decode_literal hf]; exact levelReadings_decodeLiteral f bytes
    · rw [decode_short h1 h7 hf, decode_short h1 h7 hf]; exact levelReadings_decodeShort t f bytes
    · rw [decode_extended hf, decode_extended hf]; exact levelReadings_decodeExtended f bytes

theorem LevelReadings.of_ok {one : Except DecodeError (Instr × List Byte)} {i : Instr}
    {rest : List Byte} (h : LevelReadings one (.ok (i, rest))) :
    (∀ len d, i ≠ .mx2f len d) ∧ one = .ok (asLevelOne i, rest) ∨
      ∃ len d oh ol, i = .mx2f len d ∧ one = .ok (.mx1 len 8192, oh :: ol :: rest) := by
  cases h with
  | same hne => exact .inl ⟨hne, rfl⟩
  | far => exact .inr ⟨_, _, _, _, rfl, rfl⟩

theorem LevelReadings.of_error {one : Except DecodeError (Instr × List Byte)} {why : DecodeError}
    (h : LevelReadings one (.error why)) :
    one = .error why ∨
      why = .truncMatch ∧ ∃ len rest, one = .ok (.mx1 len 8192, rest) ∧ rest.length ≤ 1 := by
  cases h with
  | cut => exact .inl rfl
  | farCut hlen => exact .inr ⟨rfl, _, _, rfl, hlen⟩

/-- Settles O5, by the readings that the two levels can have of the same bytes. -/
theorem levelsDifferOnlyAtTheEscape : Obligations.LevelsDifferOnlyAtTheEscape :=
  ⟨fun bytes _ _ h => (h ▸ levelReadings_decode bytes).of_ok,
    fun bytes _ h => (h ▸ levelReadings_decode bytes).of_error⟩

/-! ### Lengths -/

/-- Settles O6, by the equation of lenBytes. -/
theorem lengthBytesAreUnique : Obligations.LengthBytesAreUnique := by
  intro bytes rest x
  rw [lengthBytes_iff, lenBytes, List.append_assoc, List.singleton_append]

theorem two_le_size_of_wf {i : Instr} (h : i.wf) : 2 ≤ i.size := by
  cases i with
  | lit lits =>
    have := wf_lit.1 h
    simp only [Instr.size]; omega
  | _ => simp [Instr.size]

/-- Settles O7: the bytes read are counted by ReadsInstruction.rest_eq, and the sizes are R100's. -/
theorem instructionLength : Obligations.InstructionLength := by
  intro level bytes rest i h
  obtain ⟨-, hwf, -, -⟩ := encodesTo_of_decode h
  refine ⟨(decode_reads h).rest_eq.1.symm, two_le_size_of_wf hwf, ?_, ?_⟩
  · rintro len d (rfl | rfl) <;> simp [Instr.size]
  · rintro len d rfl
    simp [Instr.size]

end Sys2Proof
end

section
/-! PROOF. The hash match finder on its input: the hash, the table, EXTEND, and the tokens of a scan (R122 to
R142). -/

namespace Sys2Proof.Machine
open Sys2Proof

/-! ### The hash -/

theorem hashAt_of_rows {rows : List (Nat × Nat)} {rd : Nat → Byte}
    (h : ∀ row ∈ rows, hashAt row.1 rd 0 = row.2) (k value : Nat) (hrow : (k, value) ∈ rows) :
    hashAt k rd 0 = value :=
  h (k, value) hrow

/-- Settles O29: the hash function runs on each row. -/
theorem hashVectors : Obligations.HashVectors :=
  ⟨hashAt_of_rows (by decide), hashAt_of_rows (by decide), hashAt_of_rows (by decide), by decide⟩

theorem hashAt_lt_two_pow (k : Nat) (rd : Nat → Byte) (q : Nat) : hashAt k rd q < 2 ^ k := by
  have hpos := Nat.two_pow_pos k
  calc hashAt k rd q ≤ (BitVec.ofNat 16 (2 ^ k - 1)).toNat := Nat.and_le_right
    _ ≤ 2 ^ k - 1 := Nat.mod_le _ _
    _ < 2 ^ k := by omega

/-- Settles O30: the mask of R122 has k bits. -/
theorem hashHasKBits : Obligations.HashHasKBits := fun k rd q _ => hashAt_lt_two_pow k rd q

/-! ### The table -/

theorem insertRange_succ (k n : Nat) (rd : Nat → Byte) (ht : HashTable) (q count : Nat) :
    insertRange k n rd ht q (count + 1) = insertAt k n rd (insertRange k n rd ht q count) (q + count) :=
  insertRange_add k n rd count 1 ht q

/-- No position inserted with a hash is after the entry of that hash (R125). -/
theorem le_get_insertRange {k n : Nat} {rd : Nat → Byte} {p q : Nat} (hq : q < p) (hin : q + 2 < n) :
    q ≤ Sparse.get 0 (insertRange k n rd [] 0 p) (hashAt k rd q) := by
  induction p with
  | zero => exact absurd hq (Nat.not_lt_zero q)
  | succ p ih =>
    rw [insertRange_succ, get_insertAt, Nat.zero_add]
    split
    · exact Nat.le_of_lt_succ hq
    · rename_i hother
      refine ih (Nat.lt_of_le_of_ne (Nat.le_of_lt_succ hq) ?_)
      rintro rfl
      exact hother ⟨hin, rfl⟩

/-- An entry is 0 or an inserted position with its hash (R123, R125). -/
theorem get_insertRange_inserted (k n : Nat) (rd : Nat → Byte) (p h : Nat) :
    Sparse.get 0 (insertRange k n rd [] 0 p) h = 0 ∨
      (Sparse.get 0 (insertRange k n rd [] 0 p) h < p ∧
        Sparse.get 0 (insertRange k n rd [] 0 p) h + 2 < n ∧
        hashAt k rd (Sparse.get 0 (insertRange k n rd [] 0 p) h) = h) := by
  induction p with
  | zero => exact .inl rfl
  | succ p ih =>
    rw [insertRange_succ, get_insertAt, Nat.zero_add]
    split
    · rename_i hnew
      exact .inr ⟨Nat.lt_succ_self p, hnew⟩
    · exact ih.imp_right fun ⟨hlt, hold⟩ => ⟨Nat.lt_succ_of_lt hlt, hold⟩

/-! ### EXTEND -/

/-- Every byte pair that EXTEND's loop passes is equal (R129). -/
theorem eq_of_lt_extendLoop {level : Level} {n : Nat} {rd : Nat → Byte} {p r j : Nat} (fuel : Nat) :
    ∀ {len : Nat}, len ≤ j → j < extendLoop level n rd p r fuel len → rd (r + j) = rd (p + j) := by
  induction fuel with
  | zero => intro len hle hlt; exact absurd hlt (Nat.not_lt.2 hle)
  | succ fuel ih =>
    intro len hle hlt
    unfold extendLoop at hlt
    split at hlt
    · rename_i hgo
      obtain ⟨-, -, heq⟩ := hgo
      rcases Nat.eq_or_lt_of_le hle with rfl | hnext
      · exact heq
      · exact ih hnext hlt
    · exact absurd hlt (Nat.not_lt.2 hle)

/-- EXTEND's loop has fuel enough to stop only where one of its tests fails (R129). -/
theorem extendLoop_stops {level : Level} {n : Nat} {rd : Nat → Byte} {p r : Nat} (fuel : Nat) :
    ∀ {len : Nat}, n - 3 ≤ p + len + fuel →
      ¬(p + extendLoop level n rd p r fuel len < n - 3 ∧
        Config.belowMaxLen level (extendLoop level n rd p r fuel len) = true ∧
        rd (r + extendLoop level n rd p r fuel len) = rd (p + extendLoop level n rd p r fuel len)) := by
  induction fuel with
  | zero => rintro len hfuel ⟨hlt, -⟩; exact absurd hlt (Nat.not_lt.2 hfuel)
  | succ fuel ih =>
    intro len hfuel
    unfold extendLoop
    split
    · exact ih (by omega)
    · assumption

theorem extend_bounds (level : Level) {n : Nat} (rd : Nat → Byte) {p : Nat} (r : Nat) (hp : p + 12 < n) :
    3 ≤ extend level n rd p r ∧ p + extend level n rd p r ≤ n - 3 ∧
      (level = .one → extend level n rd p r ≤ 263) := by
  obtain ⟨hlen, htail, hcap⟩ := extendLoop_bounds level n rd p r n 3
  exact ⟨hlen, htail (by omega), fun hone => hcap hone (by omega)⟩

theorem extend_stops (level : Level) (n : Nat) (rd : Nat → Byte) (p r : Nat) :
    ¬(p + extend level n rd p r < n - 3 ∧ Config.belowMaxLen level (extend level n rd p r) = true ∧
      rd (r + extend level n rd p r) = rd (p + extend level n rd p r)) :=
  extendLoop_stops n (by omega)

/-- Settles O32: the bounds, the equal bytes and the stop of EXTEND's loop. -/
theorem extendIsLongest : Obligations.ExtendIsLongest := by
  intro level n rd p r hp
  obtain ⟨hlen, htail, hcap⟩ := extend_bounds level rd r hp
  have hstop := extend_stops level n rd p r
  refine ⟨hlen, htail, hcap, fun j hle hlt => eq_of_lt_extendLoop n hle hlt, ?_⟩
  by_cases hend : p + extend level n rd p r = n - 3
  · exact .inl hend
  by_cases heq : rd (r + extend level n rd p r) = rd (p + extend level n rd p r)
  · have hmax : Config.belowMaxLen level (extend level n rd p r) ≠ true :=
      fun hmax => hstop ⟨by omega, hmax, heq⟩
    cases level with
    | one =>
      have hfull : ¬extend .one n rd p r < 263 := fun hlt => hmax (decide_eq_true hlt)
      exact .inr (.inl ⟨rfl, le_antisymm (hcap rfl) (not_lt.1 hfull)⟩)
    | two => exact absurd rfl hmax
  · exact .inr (.inr heq)

/-! ### The steps of a scan -/

/-- The length and the distance of the match that a SEARCH at p takes, if it takes one (R127 to R130). -/
def foundMatch (level : Level) (k n : Nat) (rd : Nat → Byte) (ht : HashTable) (p : Nat) :
    Option (Nat × Nat) :=
  let r := Sparse.get 0 ht (hashAt k rd p)
  if candidateOk level rd p r (p - r) && accept level (p - r) (extend level n rd p r) then
    some (extend level n rd p r, p - r)
  else none

/-- A match that SEARCH takes is representable, stays off the last three bytes, and repeats the bytes the
distance before it (R136). -/
theorem foundMatch_some {level : Level} {k n : Nat} {rd : Nat → Byte} {ht : HashTable} {p len d : Nat}
    (hs : isSearch n p = true) (h : foundMatch level k n rd ht p = some (len, d)) :
    representable level len d = true ∧ d ≤ p ∧ p + len ≤ n - 3 ∧
      ∀ j, j < len → rd (p + j) = rd (p + j - d) := by
  unfold foundMatch at h
  dsimp only at h
  split at h
  · rename_i hfound
    cases h
    rw [Bool.and_eq_true] at hfound
    obtain ⟨hcand, hacc⟩ := hfound
    obtain ⟨hd, hmax, hfirst, hsecond, hthird⟩ := candidateOk_iff.1 hcand
    obtain ⟨-, hguard⟩ := isSearch_iff.1 hs
    obtain ⟨-, htail, -⟩ := extend_bounds level rd _ hguard
    refine ⟨representable_extend hd hmax hacc, Nat.sub_le _ _, htail, fun j hj => ?_⟩
    rw [show p + j - (p - Sparse.get 0 ht (hashAt k rd p)) =
      Sparse.get 0 ht (hashAt k rd p) + j by omega]
    match j with
    | 0 => exact hfirst.symm
    | 1 => exact hsecond.symm
    | 2 => exact hthird.symm
    | j + 3 => exact (eq_of_lt_extendLoop n (Nat.le_add_left 3 j) hj).symm
  · cases h

theorem insertAt_of_search {k n : Nat} {rd : Nat → Byte} {ht : HashTable} {p : Nat}
    (hs : isSearch n p = true) :
    insertAt k n rd ht p = Sparse.set 0 ht (hashAt k rd p) p := by
  obtain ⟨-, hguard⟩ := isSearch_iff.1 hs
  rw [insertAt, if_pos (by omega)]

theorem scan_of_end {level : Level} {k : Nat} {inp : List Byte} {p : Nat} (hp : inp.length ≤ p)
    (fuel : Nat) (ht : HashTable) : scan level k inp fuel ht p = [] := by
  cases fuel with
  | zero => rfl
  | succ fuel => rw [scan, if_pos hp]

/-- A step that takes no match is a literal, and inserts its position (R127, R131). -/
theorem scan_of_literal {level : Level} {k : Nat} {inp : List Byte} {ht : HashTable} {p : Nat}
    (hp : p < inp.length)
    (hnone : isSearch inp.length p = true → foundMatch level k inp.length (byteAt inp) ht p = none)
    (fuel : Nat) :
    scan level k inp (fuel + 1) ht p = .literal (byteAt inp p) ::
      scan level k inp fuel (insertAt k inp.length (byteAt inp) ht p) (p + 1) := by
  rw [scan, if_neg (Nat.not_le.2 hp)]
  split
  · rename_i hs
    have hnone := hnone hs
    unfold foundMatch at hnone
    dsimp only at hnone ⊢
    split at hnone
    · cases hnone
    · rename_i hfound
      rw [if_neg hfound, insertAt_of_search hs]
  · rfl

/-- A step that takes a match inserts its position and every other position it covers (R127, R132). -/
theorem scan_of_match {level : Level} {k : Nat} {inp : List Byte} {ht : HashTable} {p len d : Nat}
    (hs : isSearch inp.length p = true)
    (hsome : foundMatch level k inp.length (byteAt inp) ht p = some (len, d)) (fuel : Nat) :
    scan level k inp (fuel + 1) ht p = .copy len d ::
      scan level k inp fuel (insertRange k inp.length (byteAt inp) ht p len) (p + len) := by
  obtain ⟨hrep, -⟩ := foundMatch_some hs hsome
  have hlen := (representable_iff.1 hrep).1
  have hrange : insertRange k inp.length (byteAt inp) ht p len =
      insertRange k inp.length (byteAt inp) (insertAt k inp.length (byteAt inp) ht p) (p + 1)
        (len - 1) := by
    obtain ⟨count, rfl⟩ : ∃ count, len = count + 1 := ⟨len - 1, by omega⟩
    rfl
  obtain ⟨-, hguard⟩ := isSearch_iff.1 hs
  rw [scan, if_neg (by omega), if_pos hs, hrange, insertAt_of_search hs]
  unfold foundMatch at hsome
  dsimp only at hsome ⊢
  split at hsome
  · rename_i hfound
    cases hsome
    rw [if_pos hfound]
  · cases hsome

/-! ### The tokens of a scan -/

/-- The scan tiles the input from its position on (R136, R142). -/
theorem tiles_scan (level : Level) (k : Nat) (inp : List Byte) (fuel : Nat) :
    ∀ (ht : HashTable) (p : Nat), p ≤ inp.length → inp.length ≤ p + fuel →
      Tiles level inp p (scan level k inp fuel ht p) := by
  induction fuel with
  | zero => intro ht p hle hfuel; exact le_antisymm hle hfuel
  | succ fuel ih =>
    intro ht p hle hfuel
    rcases Nat.eq_or_lt_of_le hle with hend | hlt
    · rw [scan_of_end hend.ge]; exact hend
    by_cases hmatch : isSearch inp.length p = true ∧
        foundMatch level k inp.length (byteAt inp) ht p ≠ none
    · obtain ⟨hs, hne⟩ := hmatch
      obtain ⟨⟨len, d⟩, hsome⟩ := Option.ne_none_iff_exists'.1 hne
      obtain ⟨hrep, hd, htail, heq⟩ := foundMatch_some hs hsome
      have hlen := (representable_iff.1 hrep).1
      rw [scan_of_match hs hsome]
      exact ⟨hrep, hd, htail, heq, ih _ _ (by omega) (by omega)⟩
    · rw [scan_of_literal hlt fun hs => by_contra fun hne => hmatch ⟨hs, hne⟩]
      exact ⟨hlt, rfl, ih _ _ hlt (by omega)⟩

/-- Settles O33: the scan from position 0 has fuel for the whole input. -/
theorem tokensTileTheInput : Obligations.TokensTileTheInput :=
  fun level k inp _ => tiles_scan level k inp inp.length [] 0 (Nat.zero_le _) (Nat.le_add_left _ _)

/-- Where no SEARCH takes a match, whatever the table holds, the scan gives the bytes as literals. -/
theorem scan_of_noMatch {level : Level} {k : Nat} {inp : List Byte}
    (hnone : ∀ ht p, isSearch inp.length p = true →
      foundMatch level k inp.length (byteAt inp) ht p = none) (fuel : Nat) :
    ∀ (ht : HashTable) (p : Nat), inp.length ≤ p + fuel →
      scan level k inp fuel ht p = (inp.drop p).map Token.literal := by
  induction fuel with
  | zero =>
    intro ht p hfuel
    rw [List.drop_eq_nil_of_le (i := p) hfuel]; rfl
  | succ fuel ih =>
    intro ht p hfuel
    by_cases hlt : p < inp.length
    · have hbyte : byteAt inp p = inp[p] := List.getD_eq_getElem inp 0 hlt
      rw [scan_of_literal hlt (hnone ht p), ih _ _ (by omega), List.drop_eq_getElem_cons hlt, hbyte,
        List.map_cons]
    · have hend := Nat.not_lt.1 hlt
      rw [scan_of_end hend, List.drop_eq_nil_of_le hend, List.map_nil]

theorem findTokens_of_noMatch {level : Level} {k : Nat} {inp : List Byte}
    (hnone : ∀ ht p, isSearch inp.length p = true →
      foundMatch level k inp.length (byteAt inp) ht p = none) :
    findTokens level k inp = inp.map Token.literal :=
  scan_of_noMatch hnone inp.length [] 0 (Nat.le_add_left _ _)

/-- Settles O35: a match that SEARCH takes repeats three bytes within the level's distance. -/
theorem noRepeatNoMatch : Obligations.NoRepeatNoMatch := by
  intro level k inp _ hrepeat
  refine findTokens_of_noMatch fun ht p hs => ?_
  by_contra hne
  obtain ⟨⟨len, d⟩, hsome⟩ := Option.ne_none_iff_exists'.1 hne
  obtain ⟨hrep, hd, htail, heq⟩ := foundMatch_some hs hsome
  obtain ⟨hlen, hpos, hmax, -⟩ := representable_iff.1 hrep
  refine hrepeat p (p - d) (by omega) (by omega) (by omega) fun j hj => ?_
  rw [heq j (by omega), Nat.sub_add_comm hd]

/-- Literal tokens that do not fill a run join the pending one (R151, R154). -/
theorem serialise_literals (level : Level) (bytes : List Byte) : ∀ run : List Byte,
    run.length + bytes.length < 32 →
    serialise level (bytes.map Token.literal) run = literalRun (run ++ bytes) := by
  induction bytes with
  | nil => intro run _; rw [List.append_nil]; rfl
  | cons b bytes ih =>
    intro run hlt
    rw [List.length_cons] at hlt
    rw [List.map_cons, serialise, if_neg (by simp only [Config.maxCopy]; omega),
      ih _ (by simp; omega), List.append_assoc, List.singleton_append]

/-- Settles O34: without a search position the scan gives literals, and they fit one run. -/
theorem shortInputIsLiteral : Obligations.ShortInputIsLiteral := by
  intro level k inp hshort
  have hsearch : ∀ p, isSearch inp.length p = false := fun p => by
    rw [Bool.eq_false_iff, Ne, isSearch_iff]; omega
  refine ⟨hsearch, ?_⟩
  have htokens : findTokens level k inp = inp.map Token.literal :=
    findTokens_of_noMatch fun ht p hs => by rw [hsearch p] at hs; cases hs
  rw [compressBytes, htokens, serialise_literals level inp [] (by simp; omega), List.nil_append]

theorem Cause.code_ne_three {cause : Cause} (h : cause ≠ .matchNotRepresentable) : cause.code ≠ 3 := by
  cases cause
  case matchNotRepresentable => exact absurd rfl h
  all_goals decide

/-- Settles O44: the invariant admits no report of INTERNAL_INVARIANT, and every step keeps it. -/
theorem internalInvariantIsUnreachable : Obligations.InternalInvariantIsUnreachable := by
  intro s t h ht
  rcases (stepKeepsInvariant s t h ht).legal with ⟨hnone, -⟩ | ⟨cause, hne, hcause, -⟩
  · rw [hnone]; decide
  · rw [hcause]; exact cause.code_ne_three hne

end Sys2Proof.Machine
end

section
/-! PROOF. The table that the finder holds on the machine: every step keeps it complete (R123, R127, R131,
R132, R138). -/

namespace Sys2Proof.Machine
open Sys2Proof

/-! ### The table depends on the input's bytes alone -/

/-- The two readers give the same input of n bytes. -/
def SameInput (n : Nat) (rd rd' : Nat → Byte) : Prop := ∀ i, i < n → rd i = rd' i

theorem SameInput.hashAt_eq {n : Nat} {rd rd' : Nat → Byte} (h : SameInput n rd rd') (k : Nat)
    {q : Nat} (hq : q + 2 < n) : hashAt k rd q = hashAt k rd' q := by
  unfold hashAt
  rw [h q (by omega), h (q + 1) (by omega), h (q + 2) hq]

theorem SameInput.insertRange_eq {n : Nat} {rd rd' : Nat → Byte} (h : SameInput n rd rd') (k count : Nat) :
    ∀ (ht : HashTable) (q : Nat),
      insertRange k n rd ht q count = insertRange k n rd' ht q count := by
  induction count with
  | zero => intro ht q; rfl
  | succ count ih =>
    intro ht q
    have hq : insertAt k n rd ht q = insertAt k n rd' ht q := by
      unfold insertAt
      split
      · rename_i hin; rw [h.hashAt_eq k hin]
      · rfl
    rw [insertRange, insertRange, hq, ih]

/-- What INSERT leaves in an entry depends on that entry alone. -/
theorem get_insertRange_congr (k n : Nat) (rd : Nat → Byte) {j : Nat} (count : Nat) :
    ∀ {ht ht' : HashTable} (q : Nat), Sparse.get 0 ht j = Sparse.get 0 ht' j →
      Sparse.get 0 (insertRange k n rd ht q count) j =
        Sparse.get 0 (insertRange k n rd ht' q count) j := by
  induction count with
  | zero => intro ht ht' q h; exact h
  | succ count ih =>
    intro ht ht' q h
    refine ih (q + 1) ?_
    rw [get_insertAt, get_insertAt, h]

namespace State

/-! ### What a step inserts -/

/-- From s to t the command goes on and inserts the next m positions, whose bytes are read in s or in t. -/
def Inserts (s t : State) : Prop :=
  ∃ q m rd, s.inserted = some q ∧ t.inserted = some (q + m) ∧ t.eng.k = s.eng.k ∧
    (rd = s.inByte ∨ rd = t.inByte) ∧ t.ht = insertRange s.eng.k s.inputLen rd s.ht q m

theorem inserts_none {s t : State} {q : Nat} (hs : s.inserted = some q) (ht : t.inserted = some q)
    (hk : t.eng.k = s.eng.k := by rfl) (hht : t.ht = s.ht := by rfl) : s.Inserts t :=
  ⟨q, 0, s.inByte, hs, ht, hk, .inl rfl, hht⟩

theorem inserts_one {s t : State} {q : Nat} (hs : s.inserted = some q) (ht : t.inserted = some (q + 1))
    (hk : t.eng.k = s.eng.k) (hht : t.ht = insertAt s.eng.k s.inputLen s.inByte s.ht q) :
    s.Inserts t :=
  ⟨q, 1, s.inByte, hs, ht, hk, .inl rfl, hht⟩

/-- A busy state with the same source and m more positions in its table has a complete table if s has. -/
theorem TableComplete.of_inserts {s t : State} (h : s.TableComplete) (hi : s.Inserts t)
    (hlen : t.eng.lslen = s.eng.lslen) (hrd : SameInput s.inputLen t.inByte s.inByte) :
    t.TableComplete := by
  obtain ⟨q, m, rd, hs, ht, hk, hread, hht⟩ := hi
  intro count hcount j hj
  rw [ht] at hcount
  cases hcount
  rw [hk] at hj ⊢
  have hn : t.inputLen = s.inputLen := congrArg BitVec.toNat hlen
  have hold : Sparse.get 0 s.ht j =
      Sparse.get 0 (insertRange s.eng.k s.inputLen t.inByte [] 0 q) j := by
    rw [hrd.insertRange_eq]; exact h q hs j hj
  have hnew : t.ht = insertRange s.eng.k s.inputLen t.inByte s.ht q m := by
    rw [hht]
    rcases hread with rfl | rfl
    · rw [hrd.insertRange_eq]
    · rfl
  rw [htGet, hn, hnew, insertRange_add, Nat.zero_add]
  exact get_insertRange_congr _ _ _ m q hold

/-! ### The turns of COMPRESS -/

theorem inserted_raise (s : State) (cause : Cause) (pos : Nat) : (s.raise cause pos).inserted = none := by
  simp [inserted]

theorem inserted_raiseBus (s : State) (cause : Cause) : (s.raiseBus cause).inserted = none := by
  simp [inserted]

/-- What accesses lead to is outside the finder, or inserts, if the waiting state and the next one are so. -/
theorem inserts_access {s x : State} (accs : List Access) {waiting after : State}
    (hwait : waiting.inserted = none ∨ s.Inserts waiting)
    (hafter : after.inserted = none ∨ s.Inserts after) :
    (x.access accs waiting after).inserted = none ∨ s.Inserts (x.access accs waiting after) :=
  access_induction (P := fun t => t.inserted = none ∨ s.Inserts t) accs
    (fun acc => .inl (x.inserted_raiseBus acc.cause)) hwait hafter

theorem stepSearch_inserts {s : State} (hf : s.eng.fsm = .cSearch) :
    s.stepSearch.inserted = none ∨ s.Inserts s.stepSearch := by
  have hs : s.inserted = some s.eng.p := by simp only [inserted, hf]
  unfold stepSearch
  split
  · exact .inr (inserts_none hs rfl)
  · split
    · rename_i hsearch
      refine inserts_access _ (.inr (inserts_none hs hs)) (.inr (inserts_one hs ?_ rfl ?_))
      · generalize candidateOk _ _ _ _ _ = found
        cases found
        · exact congrArg some (if_pos hsearch)
        · rfl
      · exact (insertAt_of_search hsearch).symm
    · rename_i hsearch
      exact .inr (inserts_none hs (congrArg some (if_neg hsearch)))

theorem stepExtend_inserts {s : State} (h : s.Inv) (hf : s.eng.fsm = .cExtend) :
    s.stepExtend.inserted = none ∨ s.Inserts s.stepExtend := by
  have hs : s.inserted = some (s.eng.p + 1) := by simp only [inserted, hf]
  have hp := h.progressing
  simp only [Progressing, hf] at hp
  obtain ⟨-, -, -, hsearch, -⟩ := hp
  refine inserts_access _ (.inr (inserts_none hs hs)) (.inr (inserts_none hs ?_))
  generalize accept _ _ _ = accepted
  cases accepted
  · exact congrArg some (if_pos hsearch)
  · rfl

theorem matchToken_inserts {s x : State} (hs : s.inserted = some (x.eng.p + 1))
    (hf : x.eng.fsm = .cEmit) (hk : x.eng.k = s.eng.k) (hlen : x.eng.lslen = s.eng.lslen)
    (hht : x.ht = s.ht) : x.matchToken.inserted = none ∨ s.Inserts x.matchToken := by
  unfold matchToken
  split
  · rename_i hrep
    obtain ⟨hlong, -⟩ := representable_iff.1 hrep
    refine inserts_access _ (.inr (inserts_none hs (by simp only [inserted, hf]) hk hht)) (.inr ?_)
    refine ⟨_, x.eng.len - 1, _, hs, ?_, hk, .inr rfl, ?_⟩
    · exact congrArg some (show x.eng.p + x.eng.len = x.eng.p + 1 + (x.eng.len - 1) by omega)
    · rw [← hk, ← hht, inputLen, ← hlen, ← emit_ht x (matchBytes x.eng.level x.eng.len x.eng.d)]
      rfl
  · exact .inl (inserted_raise _ _ _)

theorem stepEmit_inserts {s : State} (hf : s.eng.fsm = .cEmit) :
    s.stepEmit.inserted = none ∨ s.Inserts s.stepEmit := by
  have hs : s.inserted = some (s.eng.p + 1) := by simp only [inserted, hf]
  obtain ⟨-, hht, -, heng⟩ := s.pendingFlush_spec
  refine inserts_access _ (.inr (inserts_none hs hs)) (matchToken_inserts ?_ ?_ ?_ ?_ hht)
  · rw [heng]; exact hs
  all_goals rw [heng]
  exact hf

theorem stepLiteral_inserts {s : State} (hf : s.eng.fsm = .cLiteral) :
    s.stepLiteral.inserted = none ∨ s.Inserts s.stepLiteral := by
  have hs : s.inserted = some (if isSearch s.inputLen s.eng.p then s.eng.p + 1 else s.eng.p) := by
    simp only [inserted, hf]
  refine inserts_access _ (.inr (inserts_none hs hs)) (.inr ?_)
  split
  · rename_i hsearch
    rw [if_pos hsearch] at hs
    obtain ⟨-, hht, -, heng⟩ := s.litToken_spec s.eng.p
    exact inserts_none hs rfl (by rw [withEng_eng, heng]) hht
  · rename_i hsearch
    rw [if_neg hsearch] at hs
    obtain ⟨-, hht, -, heng⟩ := (s.insert s.eng.p).litToken_spec s.eng.p
    exact inserts_one hs rfl (by rw [withEng_eng, heng]; rfl) hht

/-! ### DECOMPRESS and CHECK stay outside the finder -/

theorem inserted_access {s : State} (accs : List Access) {waiting after : State}
    (hwait : waiting.inserted = none) (hafter : after.inserted = none) :
    (s.access accs waiting after).inserted = none :=
  access_induction (P := fun t => t.inserted = none) accs (fun acc => s.inserted_raiseBus acc.cause)
    hwait hafter

theorem inserted_truncated (s : State) (cause : Cause) (fetched : Nat) :
    (s.truncated cause fetched).inserted = none :=
  inserted_access _ rfl (inserted_raise _ _ _)

theorem inserted_copyMatch {s : State} (h : s.inserted = none) : s.copyMatch.inserted = none :=
  inserted_access _ h rfl

theorem inserted_copyLiteral {s : State} (h : s.inserted = none) (bytes : List Byte) :
    (s.copyLiteral bytes).inserted = none :=
  inserted_access _ h rfl

theorem inserted_resumeCopy {s : State} (h : s.inserted = none) : s.resumeCopy.inserted = none := by
  unfold resumeCopy
  split
  · exact inserted_copyLiteral h _
  · exact inserted_copyMatch h

theorem inserted_checked (s : State) {copy : State → State}
    (hcopy : ∀ t : State, t.inserted = none → (copy t).inserted = none) :
    (s.checked copy).inserted = none := by
  rcases s.checked_cases copy with ⟨c, -, h⟩ | ⟨-, h⟩ <;> rw [h]
  · exact inserted_raise s c _
  · exact hcopy _ rfl

theorem inserted_runMatch (s : State) (size len d : Nat) : (s.runMatch size len d).inserted = none := by
  unfold runMatch
  split
  · exact inserted_truncated s _ _
  · exact inserted_access _ rfl (inserted_checked _ fun _ => inserted_copyMatch)

theorem inserted_runLiteral (s : State) (bytes : List Byte) : (s.runLiteral bytes).inserted = none := by
  unfold runLiteral
  split
  · exact inserted_truncated s _ _
  · exact inserted_access _ rfl (inserted_checked _ fun _ h => inserted_copyLiteral h bytes)

theorem inserted_fetchExec {s t : State} (ht : s.fetchExec = .next t) : t.inserted = none := by
  unfold fetchExec at ht
  split at ht
  · rename_i i rest hdec
    rcases decode_reads hdec with ⟨op, lits, rfl, -, -⟩ | ⟨len, d, front, hm, -, -, -⟩
    · cases ht; exact inserted_runLiteral s lits
    · rw [exec_of_matchOf hm] at ht
      cases ht; exact inserted_runMatch s _ _ _
  · cases ht; exact inserted_raise s _ _
  · cases ht; exact inserted_truncated s _ _
  · cases ht; exact inserted_truncated s _ _

theorem inserted_stepCheck (s : State) : s.stepCheck.inserted = none := by
  unfold stepCheck
  split
  · exact inserted_raise s _ _
  · dsimp only
    split
    · exact inserted_raise _ _ _
    · split <;> rfl

theorem inserted_stepEnd (s : State) : s.stepEnd.inserted = none := by
  unfold stepEnd
  split
  · exact inserted_raise s _ _
  · rfl

theorem inserted_succeed (s : State) : s.succeed.inserted = none := by
  unfold succeed
  split <;> rfl

/-- A turn ends outside the finder, inserts the next positions, or is the initialisation (R124). -/
theorem engineStep_inserts {s t : State} (h : s.Inv) (ht : s.engineStep = .next t) :
    t.inserted = none ∨ s.Inserts t ∨ t = s.stepHtInit := by
  unfold engineStep at ht
  cases hf : s.eng.fsm <;> rw [hf] at ht <;> dsimp only at ht
  case dFetch =>
    unfold stepFetch at ht
    split at ht
    · exact .inl (inserted_fetchExec ht)
    · cases ht; exact .inl rfl
  case dOperand => exact .inl (inserted_fetchExec ht)
  all_goals cases ht
  case idle => exact .inl (by simp only [inserted, hf])
  case check => exact .inl s.inserted_stepCheck
  case htInit => exact .inr (.inr rfl)
  case cSearch => exact (stepSearch_inserts hf).imp_right .inl
  case cExtend => exact (stepExtend_inserts h hf).imp_right .inl
  case cEmit => exact (stepEmit_inserts hf).imp_right .inl
  case cLiteral => exact (stepLiteral_inserts hf).imp_right .inl
  case cFlush =>
    have hs : s.inserted = some s.eng.p := by simp only [inserted, hf]
    exact (inserts_access _ (.inr (inserts_none hs hs)) (.inl rfl)).imp_right .inl
  case dCheck => exact .inl (s.inserted_checked fun _ => inserted_resumeCopy)
  case dCopy => exact .inl (inserted_resumeCopy (by simp only [inserted, hf]))
  case dEnd => exact .inl s.inserted_stepEnd
  case complete => exact .inl s.inserted_succeed

/-! ### The host and the platform leave the table alone -/

/-- A command word starts a command or changes nothing (R202). -/
theorem launch_next {s t : State} {op : Op} {level : BitVec 2} (ht : s.launch op level = .next t) :
    t = s ∨ t = s.start op level := by
  rcases s.launch_cases op level with ⟨-, hl⟩ | ⟨-, -, -, hl⟩ | ⟨why, -, -, -, hl⟩ <;>
    rw [hl] at ht <;> cases ht
  · exact .inl rfl
  · exact .inr rfl

theorem writeCmd_next {s t : State} {v : Word} (ht : s.writeCmd v = .next t) :
    t = s ∨ ∃ op level, t = s.start op level := by
  unfold writeCmd decodeCommand at ht
  split at ht
  · rename_i i hi
    split at hi
    · split at hi <;> cases hi <;> exact (launch_next ht).imp_right fun h => ⟨_, _, h⟩
    · cases hi
  · cases ht; exact .inl rfl

/-- A register write starts a command or changes no more than registers (R200, R202). -/
theorem writeReg_next {s t : State} {off : Nat} {v : Word} (ht : s.writeReg off v = .next t) :
    (∃ c, t = s.withCsr c) ∨ ∃ op level, t = s.start op level := by
  cases hb : s.busy with
  | true => exact .inl (writeReg_of_busy hb ht)
  | false =>
    have hself : s = s.withCsr s.csr := rfl
    unfold writeReg at ht
    split at ht
    · cases ht; exact .inl ⟨_, hself⟩
    · split at ht
      · exact (writeCmd_next ht).imp_left fun h => ⟨_, h.trans hself⟩
      · cases ht
        split
        · exact .inl ⟨_, rfl⟩
        · exact .inl ⟨_, hself⟩
      case h_9 => cases ht; exact .inl ⟨_, hself⟩
      all_goals cases ht; exact .inl ⟨_, rfl⟩

theorem hostCsrWrite_finder {s t : State} {addr : Word} {bytes : Nat} {v : Word}
    (ht : s.hostCsrWrite addr bytes v = .next t) :
    t.inserted = none ∨ (t.eng = s.eng ∧ t.ht = s.ht) := by
  unfold hostCsrWrite at ht
  split at ht
  · cases ht; exact .inr ⟨rfl, rfl⟩
  · split at ht
    · rcases writeReg_next ht with ⟨c, rfl⟩ | ⟨op, level, rfl⟩
      · exact .inr ⟨rfl, rfl⟩
      · exact .inl rfl
    · cases ht; exact .inr ⟨rfl, rfl⟩

/-- An action from outside takes the block out of the finder or leaves engine and table as they are. -/
theorem inputStep_finder {s t : State} {i : Input} (hi : i ≠ .engine) (ht : s.inputStep i = .next t) :
    t.inserted = none ∨ (t.eng = s.eng ∧ t.ht = s.ht) := by
  cases i <;> unfold inputStep at ht <;> dsimp only at ht
  case engine => exact absurd rfl hi
  case csrWrite => exact hostCsrWrite_finder ht
  case memWrite addr v =>
    rcases s.hostMemWrite_cases addr v with ⟨why, hw⟩ | ⟨-, hw⟩ <;> rw [hw] at ht <;> cases ht
    exact .inr ⟨by simp, by simp⟩
  case setOthers =>
    rw [setOthers_eq] at ht
    split at ht <;> cases ht
    exact .inr ⟨rfl, rfl⟩
  case resetAssert => cases ht; exact .inl rfl
  case csrRead | memRead | irqSample => cases ht; exact .inr ⟨by simp, by simp⟩
  case cacheClean | cacheInvalidate | setBus | resetRelease => cases ht; exact .inr ⟨rfl, rfl⟩

/-! ### The table stays complete -/

theorem tableComplete_stepHtInit (s : State) : s.stepHtInit.TableComplete := by
  intro count hcount j hj
  cases hcount
  exact (s.htGet_htClear _ j).trans (if_pos hj)

theorem busy_of_inserted {s : State} {q : Nat} (h : s.inserted = some q) : s.busy = true := by
  rw [busy_iff]
  intro hidle
  simp only [inserted, hidle] at h
  cases h

/-- Every step keeps the table complete: what it inserts are the next positions, and its source is held. -/
theorem step_tableComplete {s t : State} (h : s.Inv) (hs : s.TableComplete) (ht : step s = .next t) :
    t.TableComplete := by
  have hstep : t.inserted = none ∨ s.Inserts t ∨ ∃ x, t = stepHtInit x := by
    obtain ⟨rest, hturn | ⟨i, hi, hinput⟩⟩ := step_cases ht
    · have h' : State.Inv { s with inputs := rest } := h.congr id rfl rfl rfl id
      exact (engineStep_inserts h' hturn).imp_right (.imp_right fun hinit => ⟨_, hinit⟩)
    · rcases inputStep_finder hi hinput with hnone | ⟨heng, hht⟩
      · exact .inl hnone
      · have hsame : t.inserted = s.inserted := by unfold inserted inputLen; rw [heng]
        cases hq : s.inserted with
        | none => exact .inl (hsame.trans hq)
        | some q => exact .inr (.inl (inserts_none hq (hsame.trans hq) (by rw [heng]) hht))
  rcases hstep with hnone | hins | ⟨x, rfl⟩
  · exact tableComplete_of_none hnone
  · obtain ⟨q, m, -, hq, hm, -⟩ := id hins
    have hb := busy_of_inserted hq
    have hvalid : configError s.eng = none := by
      refine (h.configured (busy_iff.1 hb) fun hc => ?_).1
      simp only [inserted, hc] at hq
      cases hq
    obtain ⟨-, hlen, hrd⟩ := sourceIsHeldWhileBusy s t h hvalid hb ht (busy_of_inserted hm)
    exact hs.of_inserts hins hlen hrd
  · exact tableComplete_stepHtInit x

/-- At a search position the entries are those that INSERT of every position before it makes (R123, R138). -/
theorem TableComplete.htGet_eq {s : State} (h : s.TableComplete) (hf : s.eng.fsm = .cSearch) {j : Nat}
    (hj : j < 2 ^ s.eng.k) :
    s.htGet j = Sparse.get 0 (insertRange s.eng.k s.inputLen s.inByte [] 0 s.eng.p) j :=
  h s.eng.p (by simp only [inserted, hf]) j hj

end State

/-- Settles O31: the table of INSERT by induction on the positions, the finder's by what each step inserts. -/
theorem tableHoldsMostRecent : Obligations.TableHoldsMostRecent := by
  refine ⟨fun k n rd p h => ⟨?_, get_insertRange_inserted k n rd p h⟩,
    fun s t h hs ht => State.step_tableComplete h hs ht, ?_⟩
  · rintro q hq hin rfl
    exact le_get_insertRange hq hin
  · intro s _ hs hf hsearch h
    obtain ⟨-, hguard⟩ := isSearch_iff.1 hsearch
    rw [hs.htGet_eq hf (hashAt_lt_two_pow _ _ _)]
    refine ⟨fun q hq hh => ?_, ?_⟩
    · change _ ≤ Sparse.get 0 _ h
      rw [← hh]
      exact le_get_insertRange hq (by omega)
    · exact (get_insertRange_inserted _ _ _ _ _).imp_right fun hin => ⟨hin.1, hin.2.2⟩

end Sys2Proof.Machine
end

section
/-! PROOF. A turn of COMPRESS whose accesses memory answers, and the output it leaves (R126 to R133, R150 to
R154). -/

namespace Sys2Proof.Machine
open Sys2Proof

/-! ### A search depends on the input's bytes and on one entry alone -/

theorem SameInput.extendLoop_eq {n : Nat} {rd rd' : Nat → Byte} (h : SameInput n rd rd')
    (level : Level) {p r : Nat} (hr : r < p) (fuel : Nat) :
    ∀ len, extendLoop level n rd p r fuel len = extendLoop level n rd' p r fuel len := by
  induction fuel with
  | zero => intro len; rfl
  | succ fuel ih =>
    intro len
    unfold extendLoop
    by_cases hin : p + len < n - Config.tailLiterals
    · rw [h (r + len) (by omega), h (p + len) (by omega), ih]
    · simp only [hin, false_and, if_false]

theorem SameInput.foundMatch_eq {n : Nat} {rd rd' : Nat → Byte} (h : SameInput n rd rd')
    (level : Level) {k : Nat} {ht ht' : HashTable} {p : Nat} (hs : isSearch n p = true)
    (hget : Sparse.get 0 ht (hashAt k rd p) = Sparse.get 0 ht' (hashAt k rd p)) :
    foundMatch level k n rd ht p = foundMatch level k n rd' ht' p := by
  obtain ⟨-, hguard⟩ := isSearch_iff.1 hs
  unfold foundMatch
  rw [← h.hashAt_eq k (q := p) (by omega), hget]
  generalize Sparse.get 0 ht' (hashAt k rd p) = r
  dsimp only
  by_cases hr : r < p
  · have hcand : candidateOk level rd p r (p - r) = candidateOk level rd' p r (p - r) := by
      unfold candidateOk
      rw [h r (by omega), h (r + 1) (by omega), h (r + 2) (by omega), h p (by omega),
        h (p + 1) (by omega), h (p + 2) (by omega)]
    rw [hcand, extend, extend, h.extendLoop_eq level hr]
  · have hnone : ∀ reader, candidateOk level reader p r (p - r) = false := fun reader => by
      rw [Bool.eq_false_iff, Ne, candidateOk_iff]; omega
    rw [hnone, hnone]
    rfl

namespace State

/-! ### Turns that memory answers -/

/-- The candidate that SEARCH looks up at p (R127). -/
def candidate (s : State) : Nat := s.htGet (hashAt s.eng.k s.inByte s.eng.p)

/-- The length that EXTEND gives the candidate (R129). -/
def extension (s : State) : Nat :=
  extend s.eng.level s.inputLen s.inByte s.eng.p s.candidate

theorem foundMatch_eq_candidate (s : State) :
    foundMatch s.eng.level s.eng.k s.inputLen s.inByte s.ht s.eng.p =
      if candidateOk s.eng.level s.inByte s.eng.p s.candidate (s.eng.p - s.candidate) &&
          accept s.eng.level (s.eng.p - s.candidate) s.extension then
        some (s.extension, s.eng.p - s.candidate)
      else none := rfl

/-- SEARCH has stored p in its entry and noted the candidate (R127). -/
def searched (s : State) (f : Fsm) : State :=
  (s.htSet (hashAt s.eng.k s.inByte s.eng.p) s.eng.p).withEng
    { s.eng with
      h := hashAt s.eng.k s.inByte s.eng.p, r := s.candidate, d := s.eng.p - s.candidate, fsm := f }

theorem stepSearch_of_search {s : State} (h : s.plat.Answers) (hs : isSearch s.inputLen s.eng.p = true) :
    s.stepSearch = s.searched
      (if candidateOk s.eng.level s.inByte s.eng.p s.candidate (s.eng.p - s.candidate) then .cExtend
      else .cLiteral) := by
  obtain ⟨-, hguard⟩ := isSearch_iff.1 hs
  unfold stepSearch
  rw [if_neg (by omega), if_pos hs]
  exact access_of_answers h _ _ _

theorem stepSearch_of_edge {s : State} (hp : s.eng.p < s.inputLen)
    (hs : isSearch s.inputLen s.eng.p = false) : s.stepSearch = s.withFsm .cLiteral := by
  unfold stepSearch
  rw [if_neg (Nat.not_le.2 hp), hs, if_neg Bool.false_ne_true]

/-- After a search EXTEND and ACCEPT decide on the candidate (R129, R130). -/
theorem stepExtend_of_searched {s : State} (h : s.plat.Answers) :
    (s.searched .cExtend).stepExtend = (s.searched .cExtend).withEng
      { (s.searched .cExtend).eng with
        len := s.extension
        fsm := if accept s.eng.level (s.eng.p - s.candidate) s.extension then .cEmit
          else .cLiteral } :=
  access_of_answers (s := s.searched .cExtend) h _ _ _

/-- The match token is out, its positions are inserted, and p is past the match (R132). -/
def afterMatch (s : State) : State :=
  let t := (s.emit (matchBytes s.eng.level s.eng.len s.eng.d)).insertMany (s.eng.p + 1) (s.eng.len - 1)
  t.withEng { t.eng with p := s.eng.p + s.eng.len, fsm := .cSearch }

theorem stepEmit_of_answers {s : State} (h : s.plat.Answers)
    (hrep : representable s.eng.level s.eng.len s.eng.d = true) :
    s.stepEmit = s.pendingFlush.afterMatch := by
  obtain ⟨-, -, -, heng⟩ := s.pendingFlush_spec
  rw [stepEmit, access_of_answers h, matchToken, if_pos (by rw [heng]; exact hrep)]
  exact access_of_answers (s.pendingFlush_plat ▸ h) _ _ _

/-- The table at a head or tail position is updated before the literal token, at a search position it was
before (R131). -/
def updated (s : State) : State :=
  if isSearch s.inputLen s.eng.p then s else s.insert s.eng.p

/-- The literal token is handed over and p is past it (R131). -/
def afterLiteral (s : State) : State :=
  let t := s.updated.litToken s.eng.p
  t.withEng { t.eng with p := s.eng.p + 1, fsm := .cSearch }

theorem stepLiteral_of_answers {s : State} (h : s.plat.Answers) : s.stepLiteral = s.afterLiteral :=
  access_of_answers h _ _ _

theorem stepFlush_of_answers {s : State} (h : s.plat.Answers) :
    s.stepFlush = s.pendingFlush.withFsm .complete :=
  access_of_answers h _ _ _

/-! ### The output after an emission -/

theorem Holds.congr {s t : State} {out : List Byte} (h : s.Holds out) (hdst : t.eng.ldst = s.eng.ldst)
    (hread : ∀ a, t.readByte a = s.readByte a) : t.Holds out := by
  intro j hj
  have haddr : t.dstAddr j = s.dstAddr j := by unfold dstAddr; rw [hdst]
  rw [haddr, hread]
  exact h j hj

theorem Holds.emit {s : State} {out : List Byte} (h : s.Holds out) (ho : out.length = s.eng.o)
    {bytes : List Byte} (hfit : s.eng.o + bytes.length ≤ 2 ^ 32) : (s.emit bytes).Holds (out ++ bytes) := by
  have hset := Holds.setOutBytes bytes h (ho ▸ hfit)
  rw [ho] at hset
  exact hset.congr (by simp) fun _ => rfl

theorem length_pending (s : State) : s.pending.length = s.eng.litCnt := s.length_inBytes _ _

/-- PENDING_FLUSH moves o past the run it writes (R153). -/
theorem offset_pendingFlush (s : State) :
    s.pendingFlush.eng.o = s.eng.o + (literalRun s.pending).length := by
  obtain ⟨-, -, -, heng⟩ := s.pendingFlush_spec
  rw [heng, length_literalRun, length_pending]

theorem Holds.pendingFlush {s : State} {out : List Byte} (h : s.Holds out) (ho : out.length = s.eng.o)
    (hfit : s.pendingFlush.eng.o ≤ 2 ^ 32) : s.pendingFlush.Holds (out ++ literalRun s.pending) := by
  rw [offset_pendingFlush] at hfit
  unfold State.pendingFlush
  split
  · rename_i hcnt
    have hnil : s.pending = [] := List.eq_nil_of_length_eq_zero (s.length_pending.trans hcnt)
    rw [hnil, literalRun, List.append_nil]
    exact h
  · exact h.emit ho hfit

/-- The run that is out after a literal byte has joined it: all 32 bytes of it, or nothing yet (R151). -/
def fullRun (run : List Byte) : List Byte :=
  if run.length = Config.maxCopy then literalRun run else []

theorem litToken_offset_holds {s : State} {out : List Byte} (h : s.Holds out) (ho : out.length = s.eng.o)
    (p : Nat) (hfit : (s.litToken p).eng.o ≤ 2 ^ 32) :
    (s.litToken p).eng.o = s.eng.o + (fullRun (s.joinLiteral p).pending).length ∧
      (s.litToken p).Holds (out ++ fullRun (s.joinLiteral p).pending) := by
  have hlen : (s.joinLiteral p).pending.length = s.eng.litCnt + 1 := length_pending _
  rw [litToken_eq] at hfit ⊢
  rw [fullRun, hlen]
  split
  · rename_i hfull
    rw [if_pos hfull] at hfit
    exact ⟨offset_pendingFlush _, Holds.pendingFlush (s := s.joinLiteral p) h ho hfit⟩
  · rw [List.append_nil]
    exact ⟨rfl, h⟩

theorem sameAround_litToken (s : State) (p : Nat) : s.SameAround (s.litToken p) := by
  rw [litToken_eq]
  split
  · exact (sameAround_withEng s _).trans (sameAround_pendingFlush (s.joinLiteral p))
  · exact sameAround_withEng s _

theorem sameCommand_litToken (s : State) (p : Nat) : s.eng.SameCommand (s.litToken p).eng := by
  obtain ⟨-, -, -, heng⟩ := s.litToken_spec p
  rw [heng]
  constructor <;> rfl

/-- Only the table is updated. -/
theorem updated_spec (s : State) :
    s.updated.eng = s.eng ∧ s.updated.csr = s.csr ∧ s.updated.inputs = s.inputs ∧
      s.updated.inByte = s.inByte ∧ ∀ a, s.updated.readByte a = s.readByte a := by
  unfold updated
  split <;> exact ⟨rfl, rfl, rfl, rfl, fun _ => rfl⟩

end State
end Sys2Proof.Machine
end

section
/-! PROOF. A whole COMPRESS on the machine: its turns follow the scan and the encoder (R134, R158, R206,
R208). -/

namespace Sys2Proof.Machine
open Sys2Proof

/-! ### The pending run in the reference encoder -/

/-- The literal bytes of a pending run that starts at a position of the input (R151). -/
def literalsAt (inp : List Byte) (base count : Nat) : List Byte :=
  (List.range count).map (fun i => byteAt inp (base + i))

theorem literalsAt_succ (inp : List Byte) (base count : Nat) :
    literalsAt inp base (count + 1) = literalsAt inp base count ++ [byteAt inp (base + count)] := by
  simp [literalsAt, List.range_succ]

theorem length_literalsAt (inp : List Byte) (base count : Nat) :
    (literalsAt inp base count).length = count := by
  simp [literalsAt]

/-- The byte at p joins the pending run that ends there, or begins one (R151). -/
theorem literalsAt_join {inp run : List Byte} {base count p : Nat}
    (hrun : literalsAt inp base count = run) (hbase : count = 0 ∨ base + count = p) :
    literalsAt inp (if count = 0 then p else base) (count + 1) = run ++ [byteAt inp p] := by
  rw [literalsAt_succ, ← hrun]
  split
  · rename_i hzero; subst hzero; rfl
  · rename_i hpos; rw [hbase.resolve_left hpos]

/-- The run that stays pending after a literal byte has joined it (R151). -/
def restRun (run : List Byte) : List Byte := if run.length = Config.maxCopy then [] else run

theorem serialise_literal (level : Level) (byte : Byte) (rest : List Token) (run : List Byte) :
    serialise level (.literal byte :: rest) run =
      State.fullRun (run ++ [byte]) ++ serialise level rest (restRun (run ++ [byte])) := by
  rw [serialise, State.fullRun, restRun, List.length_append, List.length_singleton]
  split
  · rfl
  · rw [List.nil_append]

namespace State

/-! ### The reference scan -/

/-- The table of the reference scan at p: every position before p inserted (R134). -/
def tableAt (b : State) (p : Nat) : HashTable :=
  insertRange b.eng.k b.stream.length (byteAt b.stream) [] 0 p

/-- The match that the reference scan finds at p, if it finds one (R134). -/
def foundAt (b : State) (p : Nat) : Option (Nat × Nat) :=
  foundMatch b.eng.level b.eng.k b.stream.length (byteAt b.stream) (b.tableAt p) p

/-- The tokens of the reference scan from p on (R134). -/
def tokensFrom (b : State) (fuel p : Nat) : List Token :=
  scan b.eng.level b.eng.k b.stream fuel (b.tableAt p) p

theorem tokensFrom_of_literal {b : State} {p : Nat} (hp : p < b.stream.length)
    (hnone : isSearch b.stream.length p = true → b.foundAt p = none) (fuel : Nat) :
    b.tokensFrom (fuel + 1) p = .literal (byteAt b.stream p) :: b.tokensFrom fuel (p + 1) := by
  rw [tokensFrom, scan_of_literal hp hnone, tokensFrom, tableAt, tableAt, insertRange_succ,
    Nat.zero_add]

theorem tokensFrom_of_match {b : State} {p len d : Nat} (hs : isSearch b.stream.length p = true)
    (hsome : b.foundAt p = some (len, d)) (fuel : Nat) :
    b.tokensFrom (fuel + 1) p = .copy len d :: b.tokensFrom fuel (p + len) := by
  rw [tokensFrom, scan_of_match hs hsome, tokensFrom, tableAt, tableAt, insertRange_add,
    Nat.zero_add]

/-! ### What every turn of the scan keeps -/

theorem Reaches.trans {s t u : State} (h : s.Reaches t) (h' : t.Reaches u) : s.Reaches u := by
  obtain ⟨k, hk⟩ := h
  induction k generalizing s with
  | zero => cases hk; exact h'
  | succ k ih =>
    rw [run] at hk
    split at hk
    · rename_i hstep; exact .step hstep (ih hk)
    · cases hk
    · cases hk

/-- t is on the way of the undisturbed COMPRESS whose scan began in b. -/
structure ScansAs (b t : State) : Prop where
  inv : t.Inv
  table : t.TableComplete
  answers : t.plat.Answers
  inputs : t.inputs = []
  command : b.eng.SameCommand t.eng
  csr : t.csr = b.csr
  source : SameInput t.inputLen t.inByte (byteAt b.stream)
  frame : ∀ a, b.dstSpan.has a = false → t.readByte a = b.readByte a

/-- t is on that way, has put out some bytes, and has a run pending. -/
structure EncodedTo (b : State) (out run : List Byte) (t : State) : Prop where
  scans : b.ScansAs t
  offset : out.length = t.eng.o
  holds : t.Holds out
  run : literalsAt b.stream t.eng.litBase t.eng.litCnt = run

theorem dstSpan_of_sameCommand {s t : State} (h : s.eng.SameCommand t.eng) : t.dstSpan = s.dstSpan := by
  unfold State.dstSpan
  rw [h.ldst, h.ldlen]

theorem ScansAs.step_eq {b t : State} (h : b.ScansAs t) : step t = t.engineStep :=
  step_of_no_inputs h.inputs

theorem ScansAs.length_stream {b t : State} (h : b.ScansAs t) : b.stream.length = t.inputLen := by
  rw [State.length_stream, inputLen, h.command.lslen]

/-- A turn of the command in which it goes on keeps all of that: its invariants are those of every step, and
its source and what is outside its destination are held. -/
theorem ScansAs.turn {b t u : State} (h : b.ScansAs t) (hfsm : t.eng.fsm.ofCompress = true)
    (hturn : t.engineStep = .next u) (hbusy : u.eng.fsm ≠ .idle) (hcmd : t.eng.SameCommand u.eng)
    (hcsr : u.csr = t.csr) (hinputs : u.inputs = t.inputs) : b.ScansAs u := by
  have hstep : step t = .next u := h.step_eq.trans hturn
  obtain ⟨hrun, -⟩ := h.inv.compressing hfsm
  have hb : t.busy = true := busy_iff.2 fun hidle => by rw [hidle] at hfsm; cases hfsm
  have hub : u.busy = true := busy_iff.2 hbusy
  obtain ⟨-, hlen, hsource⟩ := sourceIsHeldWhileBusy t u h.inv hrun.valid hb hstep hub
  have honward := (engineStep_result hb hturn).onward hub
  exact
    { inv := engineStep_inv h.inv hturn
      table := step_tableComplete h.inv h.table hstep
      answers := honward.plat ▸ h.answers
      inputs := hinputs.trans h.inputs
      command := h.command.trans hcmd
      csr := hcsr.trans h.csr
      source := fun i hi => by
        rw [inputLen, hlen] at hi
        exact (hsource i hi).trans (h.source i hi)
      frame := fun a ha => by
        rw [← h.frame a ha]
        exact engineStep_readByte h.inv hturn (dstSpan_of_sameCommand h.command ▸ ha) }

section
variable {b t : State} {out run : List Byte}

/-- A turn that puts nothing out and leaves the pending run alone. -/
theorem EncodedTo.quiet (h : b.EncodedTo out run t) (hfsm : t.eng.fsm.ofCompress = true) {u : State}
    (hturn : t.engineStep = .next u) (hbusy : u.eng.fsm ≠ .idle)
    (hcmd : t.eng.SameCommand u.eng := by constructor <;> rfl)
    (hcsr : u.csr = t.csr := by rfl) (hinputs : u.inputs = t.inputs := by rfl)
    (hread : ∀ a, u.readByte a = t.readByte a := by exact fun _ => rfl)
    (ho : u.eng.o = t.eng.o := by rfl) (hbase : u.eng.litBase = t.eng.litBase := by rfl)
    (hcnt : u.eng.litCnt = t.eng.litCnt := by rfl) : b.EncodedTo out run u where
  scans := h.scans.turn hfsm hturn hbusy hcmd hcsr hinputs
  offset := h.offset.trans ho.symm
  holds := h.holds.congr hcmd.ldst hread
  run := by rw [hbase, hcnt]; exact h.run

/-- The pending bytes are those of the input. -/
theorem pending_of_source {x : State} (hsource : SameInput x.inputLen x.inByte (byteAt b.stream))
    (hin : x.eng.litBase + x.eng.litCnt ≤ x.inputLen ∨ x.eng.litCnt = 0) :
    x.pending = literalsAt b.stream x.eng.litBase x.eng.litCnt := by
  rw [pending, inBytes_eq_map, literalsAt]
  refine List.map_congr_left fun i hi => hsource _ ?_
  rw [List.mem_range] at hi
  omega

theorem EncodedTo.pending (h : b.EncodedTo out run t) (hscan : t.eng.ScanOk) : t.pending = run := by
  obtain ⟨hp, -, hbase⟩ := hscan
  rw [← h.run]
  exact pending_of_source h.scans.source (by unfold inputLen; omega)

theorem EncodedTo.length_run (h : b.EncodedTo out run t) : run.length = t.eng.litCnt := by
  rw [← h.run, length_literalsAt]

/-! ### SEARCH and EXTEND -/

/-- A search on the machine takes the match that the reference takes with the positions before p inserted. -/
theorem ScansAs.foundMatch_eq (h : b.ScansAs t) (hf : t.eng.fsm = .cSearch)
    (hs : isSearch t.inputLen t.eng.p = true) :
    foundMatch t.eng.level t.eng.k t.inputLen t.inByte t.ht t.eng.p = b.foundAt t.eng.p := by
  rw [foundAt, tableAt, ← h.command.level, ← h.command.k, h.length_stream]
  refine h.source.foundMatch_eq _ hs ?_
  rw [← h.source.insertRange_eq]
  exact h.table.htGet_eq hf (hashAt_lt_two_pow _ _ _)

/-- At a search position SEARCH and EXTEND lead to the match they find, or to a literal (R127 to R130). -/
theorem EncodedTo.search (h : b.EncodedTo out run t) (hf : t.eng.fsm = .cSearch)
    (hs : isSearch b.stream.length t.eng.p = true) :
    ∃ x, t.Reaches x ∧ b.EncodedTo out run x ∧ x.eng.p = t.eng.p ∧
      match b.foundAt t.eng.p with
      | some (len, d) => x.eng.fsm = .cEmit ∧ x.eng.len = len ∧ x.eng.d = d
      | none => x.eng.fsm = .cLiteral := by
  have hcomp : t.eng.fsm.ofCompress = true := by rw [hf]; rfl
  have hturn : t.engineStep = .next t.stepSearch := by unfold engineStep; rw [hf]
  rw [h.scans.length_stream] at hs
  rw [stepSearch_of_search h.scans.answers hs] at hturn
  rw [← h.scans.foundMatch_eq hf hs, foundMatch_eq_candidate]
  cases hcand : candidateOk t.eng.level t.inByte t.eng.p t.candidate (t.eng.p - t.candidate) <;>
    rw [hcand] at hturn
  case false =>
    have hx := h.quiet hcomp hturn nofun
    exact ⟨_, .step (h.scans.step_eq.trans hturn) (.refl _), hx, rfl, rfl⟩
  case true =>
    change t.engineStep = .next (t.searched .cExtend) at hturn
    have hx := h.quiet hcomp hturn nofun
    have hextend : (t.searched .cExtend).engineStep = .next (t.searched .cExtend).stepExtend := rfl
    rw [stepExtend_of_searched h.scans.answers] at hextend
    have hreach := fun u (hu : (t.searched .cExtend).engineStep = .next u) =>
      Reaches.step (h.scans.step_eq.trans hturn) (.step (hx.scans.step_eq.trans hu) (.refl u))
    cases hacc : accept t.eng.level (t.eng.p - t.candidate) t.extension <;> rw [hacc] at hextend
    case false => exact ⟨_, hreach _ hextend, hx.quiet rfl hextend nofun, rfl, rfl⟩
    case true => exact ⟨_, hreach _ hextend, hx.quiet rfl hextend nofun, rfl, rfl, rfl, rfl⟩

/-! ### LITERAL -/

/-- At the head of the scan the output lies in the destination region (R160). -/
theorem Inv.offset_le {s : State} (h : s.Inv) (hf : s.eng.fsm = .cSearch) :
    s.eng.o ≤ s.eng.ldlen.toNat := by
  obtain ⟨hrun, hlop⟩ := h.compressing (by rw [hf]; rfl)
  have hroom := hrun.room hlop
  have hp := h.progressing
  simp only [Progressing, hf, Engine.ScanOk, Engine.OutputOk, Engine.emitted] at hp
  omega

/-- The literal token's byte is the input's at p, after those of the pending run (R151). -/
theorem EncodedTo.pending_joinLiteral (h : b.EncodedTo out run t)
    (hbase : t.eng.litCnt = 0 ∨ t.eng.litBase + t.eng.litCnt = t.eng.p)
    (hlt : t.eng.p < t.inputLen) :
    (t.updated.joinLiteral t.eng.p).pending = run ++ [byteAt b.stream t.eng.p] := by
  obtain ⟨hweng, -, -, hwrd, -⟩ := t.updated_spec
  rw [← literalsAt_join h.run hbase, pending_of_source (b := b)]
  · simp only [joinLiteral, withEng_eng, hweng]
  · have hsource := h.scans.source
    rw [← hwrd, inputLen, ← hweng] at hsource
    exact hsource
  · left
    simp only [joinLiteral, inputLen, withEng_eng, hweng] at hlt ⊢
    split <;> omega

/-- LITERAL hands the byte at p to the encoder (R131, R151). -/
theorem EncodedTo.literal (h : b.EncodedTo out run t) (hf : t.eng.fsm = .cLiteral) :
    ∃ u, step t = .next u ∧ u.eng.fsm = .cSearch ∧ u.eng.p = t.eng.p + 1 ∧
      b.EncodedTo (out ++ fullRun (run ++ [byteAt b.stream t.eng.p]))
        (restRun (run ++ [byteAt b.stream t.eng.p])) u := by
  have hturn : t.engineStep = .next t.stepLiteral := by unfold engineStep; rw [hf]
  rw [stepLiteral_of_answers h.scans.answers] at hturn
  have hp := h.scans.inv.progressing
  simp only [Progressing, hf] at hp
  obtain ⟨⟨-, -, hbase⟩, -, -, hlt⟩ := hp
  obtain ⟨hweng, hwcsr, hwin, -, hwread⟩ := t.updated_spec
  obtain ⟨hcsr, -, -, -, -, -, -, -, hin, -⟩ := t.updated.sameAround_litToken t.eng.p
  obtain ⟨-, -, -, heng⟩ := t.updated.litToken_spec t.eng.p
  rw [hweng] at heng
  have hcmd := t.updated.sameCommand_litToken t.eng.p
  rw [hweng] at hcmd
  have hu : b.ScansAs t.afterLiteral :=
    h.scans.turn (by rw [hf]; rfl) hturn nofun (hcmd.trans (by constructor <;> rfl))
      (hcsr.trans hwcsr) (hin.trans hwin)
  have hfit : (t.updated.litToken t.eng.p).eng.o ≤ 2 ^ 32 :=
    (hu.inv.offset_le rfl).trans (BitVec.isLt _).le
  obtain ⟨ho, hholds⟩ := litToken_offset_holds (h.holds.congr (by rw [hweng]) hwread)
    (by rw [hweng]; exact h.offset) t.eng.p hfit
  rw [h.pending_joinLiteral hbase hlt] at ho hholds
  refine ⟨_, h.scans.step_eq.trans hturn, rfl, rfl, hu, ?_, hholds, ?_⟩
  · rw [hweng, ← h.offset, ← List.length_append] at ho
    exact ho.symm
  · rw [restRun, List.length_append, h.length_run, List.length_singleton,
      ← literalsAt_join h.run hbase]
    simp only [afterLiteral, withEng_eng, heng, Config.maxCopy]
    by_cases hfull : t.eng.litCnt + 1 = 32
    · rw [if_pos hfull, if_pos hfull]; rfl
    · rw [if_neg hfull, if_neg hfull]

/-! ### MATCH -/

theorem EncodedTo.flushed (h : b.EncodedTo out run t) (hscan : t.eng.ScanOk)
    (hfit : t.pendingFlush.eng.o ≤ 2 ^ 32) :
    (out ++ literalRun run).length = t.pendingFlush.eng.o ∧
      t.pendingFlush.Holds (out ++ literalRun run) := by
  have hholds := h.holds.pendingFlush h.offset hfit
  rw [h.pending hscan] at hholds
  exact ⟨by rw [offset_pendingFlush, h.pending hscan, List.length_append, h.offset], hholds⟩

/-- MATCH puts out the pending run and the match's instruction (R132, R152). -/
theorem EncodedTo.emit (h : b.EncodedTo out run t) (hf : t.eng.fsm = .cEmit) :
    ∃ u, step t = .next u ∧ u.eng.fsm = .cSearch ∧ u.eng.p = t.eng.p + t.eng.len ∧
      b.EncodedTo (out ++ literalRun run ++ matchBytes t.eng.level t.eng.len t.eng.d) [] u := by
  have hp := h.scans.inv.progressing
  simp only [Progressing, hf] at hp
  obtain ⟨hscan, -, -, hrep, -⟩ := hp
  have hturn : t.engineStep = .next t.stepEmit := by unfold engineStep; rw [hf]
  rw [stepEmit_of_answers h.scans.answers hrep] at hturn
  obtain ⟨-, -, -, heng⟩ := t.pendingFlush_spec
  obtain ⟨hcsr, -, -, -, -, -, -, -, hin, -⟩ := t.sameAround_pendingFlush
  have hbytes : matchBytes t.pendingFlush.eng.level t.pendingFlush.eng.len t.pendingFlush.eng.d =
      matchBytes t.eng.level t.eng.len t.eng.d := by rw [heng]
  have hu : b.ScansAs t.pendingFlush.afterMatch := by
    refine h.scans.turn (by rw [hf]; rfl) hturn nofun (t.sameCommand_pendingFlush.trans ?_) ?_ ?_
    · constructor <;> simp [afterMatch]
    · simp [afterMatch, hcsr]
    · simp [afterMatch, hin]
  have hfit : t.pendingFlush.eng.o + (matchBytes t.eng.level t.eng.len t.eng.d).length ≤ 2 ^ 32 := by
    have hle := hu.inv.offset_le rfl
    have hlt := t.pendingFlush.afterMatch.eng.ldlen.isLt
    simp only [afterMatch, withEng_eng, insertMany_eng, emit_eng, hbytes] at hle hlt
    omega
  obtain ⟨hlen, hholds⟩ := h.flushed hscan (by omega)
  refine ⟨_, h.scans.step_eq.trans hturn, rfl, ?_, hu, ?_, ?_, ?_⟩
  · simp [afterMatch, heng]
  · rw [List.length_append, hlen]; simp [afterMatch, hbytes]
  · exact hbytes ▸ hholds.emit hlen (hbytes ▸ hfit)
  · simp [afterMatch, heng, literalsAt]

/-! ### FINISH -/

/-- In u the COMPRESS whose scan began in b has completed, and these bytes are its output (R208, R236). -/
def EncodedAs (b u : State) (out : List Byte) : Prop :=
  u.eng.fsm = .idle ∧ u.csr.done = true ∧ u.csr.errCode = 0 ∧ u.csr.errCause = 0 ∧
    u.csr.errPos = 0 ∧ u.csr.levelUsed = b.csr.levelUsed ∧ u.csr.resultLen.toNat = out.length ∧
    b.csr.SameConfig u.csr ∧
    (∀ j, j < out.length → u.readByte (b.eng.ldst.toNat + j) = byteAt out j) ∧
    ∀ a, b.dstSpan.has a = false → u.readByte a = b.readByte a

theorem succeed_of_compress {s : State} (h : s.eng.lop = .compress) :
    s.succeed = ((s.forget (s.eng.ldst.toNat + s.eng.o) (s.eng.ldlen.toNat - s.eng.o)).markStale
      s.dstSpan).report 0 0 (BitVec.ofNat 32 s.eng.o) 0 := by
  unfold succeed
  rw [h]

/-- The successful end keeps the bytes that are out (R158, R208). -/
theorem EncodedTo.succeeded (h : b.EncodedTo out run t) (hf : t.eng.fsm = .complete)
    (hlop : t.eng.lop = .compress) : b.EncodedAs t.succeed out := by
  have hp := h.scans.inv.progressing
  simp only [Progressing, hf] at hp
  obtain ⟨hle, -⟩ := hp
  have hvalid := (h.scans.inv.configured (by rw [hf]; decide) (by rw [hf]; decide)).1
  obtain ⟨-, -, ⟨-, hwrap, -⟩, -⟩ := configError_none hvalid
  have hlt := t.eng.ldlen.isLt
  rw [EncodedAs, ← h.scans.csr, ← h.scans.command.ldst, ← dstSpan_of_sameCommand h.scans.command]
  refine ⟨?idle, ?done, ?code, ?cause, ?pos, ?level, ?len, ?config, fun j hj => ?held,
    fun a ha => ?frame⟩
  case held =>
    rw [h.offset] at hj
    rw [succeed_of_compress hlop, readByte_report, readByte_markStale, readByte_forget,
      ← (dstAddr_inside hwrap (by omega)).1]
    · exact h.holds j (h.offset ▸ hj)
    · rw [Bool.eq_false_iff, Ne, Span.has_iff]
      simp only
      omega
  case frame =>
    rw [readByte_succeed _ _ ha]
    exact h.scans.frame _ (dstSpan_of_sameCommand h.scans.command ▸ ha)
  all_goals rw [succeed_of_compress hlop]
  case len =>
    rw [report_csr, h.offset]
    exact Nat.mod_eq_of_lt (by omega)
  all_goals simp [Csr.SameConfig]

/-- FLUSH puts out the pending run, and the command succeeds (R133, R154). -/
theorem EncodedTo.flush (h : b.EncodedTo out run t) (hf : t.eng.fsm = .cFlush) :
    ∃ u, t.Reaches u ∧ b.EncodedAs u (out ++ literalRun run) := by
  obtain ⟨-, hlop⟩ := h.scans.inv.compressing (by rw [hf]; rfl)
  have hp := h.scans.inv.progressing
  simp only [Progressing, hf] at hp
  obtain ⟨hscan, -⟩ := hp
  have hturn : t.engineStep = .next t.stepFlush := by unfold engineStep; rw [hf]
  rw [stepFlush_of_answers h.scans.answers] at hturn
  obtain ⟨hcsr, -, -, -, -, -, -, -, hin, -⟩ := t.sameAround_pendingFlush
  obtain ⟨-, -, -, heng⟩ := t.pendingFlush_spec
  have hu : b.ScansAs (t.pendingFlush.withFsm .complete) :=
    h.scans.turn (by rw [hf]; rfl) hturn nofun
      (t.sameCommand_pendingFlush.trans (by constructor <;> rfl)) hcsr hin
  obtain ⟨hle, -⟩ := hu.inv.progressing
  obtain ⟨hlen, hholds⟩ := h.flushed hscan (hle.trans (BitVec.isLt _).le)
  have hencoded : b.EncodedTo (out ++ literalRun run) [] (t.pendingFlush.withFsm .complete) :=
    ⟨hu, hlen, hholds, by rw [withFsm_eng, heng]; rfl⟩
  refine ⟨_, .step (h.scans.step_eq.trans hturn) (.step (hu.step_eq.trans rfl) (.refl _)),
    hencoded.succeeded rfl ?_⟩
  rw [withFsm_eng, heng]
  exact hlop

/-- At the end of the input the scan is over (R126, R133). -/
theorem EncodedTo.finish (h : b.EncodedTo out run t) (hf : t.eng.fsm = .cSearch)
    (hend : b.stream.length ≤ t.eng.p) :
    ∃ u, t.Reaches u ∧ b.EncodedAs u (out ++ literalRun run) := by
  have hturn : t.engineStep = .next t.stepSearch := by unfold engineStep; rw [hf]
  rw [stepSearch, if_pos (h.scans.length_stream ▸ hend)] at hturn
  obtain ⟨u, hu, has⟩ := (h.quiet (by rw [hf]; rfl) hturn nofun).flush rfl
  exact ⟨u, .step (h.scans.step_eq.trans hturn) hu, has⟩

/-! ### The whole scan -/

/-- A position where the reference scan finds no match gives a literal (R131). -/
theorem EncodedTo.step_literal (h : b.EncodedTo out run t) (hf : t.eng.fsm = .cSearch)
    (hlt : t.eng.p < b.stream.length)
    (hnone : isSearch b.stream.length t.eng.p = true → b.foundAt t.eng.p = none) :
    ∃ u, t.Reaches u ∧ u.eng.fsm = .cSearch ∧ u.eng.p = t.eng.p + 1 ∧
      b.EncodedTo (out ++ fullRun (run ++ [byteAt b.stream t.eng.p]))
        (restRun (run ++ [byteAt b.stream t.eng.p])) u := by
  have hx : ∃ x, t.Reaches x ∧ b.EncodedTo out run x ∧ x.eng.p = t.eng.p ∧ x.eng.fsm = .cLiteral := by
    cases hs : isSearch b.stream.length t.eng.p with
    | true =>
      have hsearch := h.search hf hs
      rwa [hnone hs] at hsearch
    | false =>
      have hturn : t.engineStep = .next t.stepSearch := by unfold engineStep; rw [hf]
      rw [h.scans.length_stream] at hlt hs
      rw [stepSearch_of_edge hlt hs] at hturn
      exact ⟨_, .step (h.scans.step_eq.trans hturn) (.refl _),
        h.quiet (by rw [hf]; rfl) hturn nofun, rfl, rfl⟩
  obtain ⟨x, hreach, hx, hp, hxf⟩ := hx
  obtain ⟨u, hstep, huf, hup, hu⟩ := hx.literal hxf
  rw [hp] at hup hu
  exact ⟨u, hreach.trans (.step hstep (.refl u)), huf, hup, hu⟩

/-- A match that the reference scan finds is put out (R132). -/
theorem EncodedTo.step_match (h : b.EncodedTo out run t) (hf : t.eng.fsm = .cSearch)
    (hs : isSearch b.stream.length t.eng.p = true) {len d : Nat}
    (hsome : b.foundAt t.eng.p = some (len, d)) :
    ∃ u, t.Reaches u ∧ u.eng.fsm = .cSearch ∧ u.eng.p = t.eng.p + len ∧
      b.EncodedTo (out ++ literalRun run ++ matchBytes b.eng.level len d) [] u := by
  have hsearch := h.search hf hs
  rw [hsome] at hsearch
  obtain ⟨x, hreach, hx, hp, hxf, rfl, rfl⟩ := hsearch
  obtain ⟨u, hstep, huf, hup, hu⟩ := hx.emit hxf
  rw [hp] at hup
  rw [hx.scans.command.level] at hu
  exact ⟨u, hreach.trans (.step hstep (.refl u)), huf, hup, hu⟩

end

/-- The machine completes with what the encoder makes of the rest of the scan (R134, R158, R272). -/
theorem EncodedTo.completes {b : State} (fuel : Nat) :
    ∀ {t : State} {out run : List Byte}, b.EncodedTo out run t → t.eng.fsm = .cSearch →
      b.stream.length ≤ t.eng.p + fuel →
      ∃ u, t.Reaches u ∧
        b.EncodedAs u (out ++ serialise b.eng.level (b.tokensFrom fuel t.eng.p) run) := by
  induction fuel with
  | zero => intro t out run h hf hfuel; exact h.finish hf hfuel
  | succ fuel ih =>
    intro t out run h hf hfuel
    by_cases hend : b.stream.length ≤ t.eng.p
    · rw [tokensFrom, scan_of_end hend]
      exact h.finish hf hend
    have hlt := Nat.not_le.1 hend
    by_cases hmatch : isSearch b.stream.length t.eng.p = true ∧ b.foundAt t.eng.p ≠ none
    · obtain ⟨hs, hne⟩ := hmatch
      obtain ⟨⟨len, d⟩, hsome⟩ := Option.ne_none_iff_exists'.1 hne
      obtain ⟨hrep, -⟩ := foundMatch_some hs hsome
      obtain ⟨hlen, -⟩ := representable_iff.1 hrep
      obtain ⟨u, hreach, huf, hup, hu⟩ := h.step_match hf hs hsome
      obtain ⟨v, hv, has⟩ := ih hu huf (by omega)
      refine ⟨v, hreach.trans hv, ?_⟩
      rw [hup, List.append_assoc, List.append_assoc] at has
      rw [tokensFrom_of_match hs hsome]
      exact has
    · have hnone : isSearch b.stream.length t.eng.p = true → b.foundAt t.eng.p = none :=
        fun hs => by_contra fun hne => hmatch ⟨hs, hne⟩
      obtain ⟨u, hreach, huf, hup, hu⟩ := h.step_literal hf hlt hnone
      obtain ⟨v, hv, has⟩ := ih hu huf (by omega)
      refine ⟨v, hreach.trans hv, ?_⟩
      rw [hup, List.append_assoc] at has
      rwa [tokensFrom_of_literal hlt hnone, serialise_literal]

/-- The engine reads a visible source as memory holds it (R74). -/
theorem source_of_visible {c : State} (hvisible : c.Visible)
    (hwrap : c.eng.lsrc.toNat + c.eng.lslen.toNat ≤ 2 ^ 32) :
    SameInput c.inputLen c.inByte (byteAt c.stream) := by
  intro i hi
  rw [inByte_of_visible hvisible hi, (srcAddr_inside hwrap hi).1]
  unfold inputLen at hi
  simp [byteAt, stream, region, hi]

/-- From CHECK on, a valid COMPRESS completes with the compressed bytes of its source. -/
theorem encodes_of_check {c : State} (h : c.Inv) (hf : c.eng.fsm = .check)
    (hlop : c.eng.lop = .compress) (hvalid : configError c.eng = none) (hinputs : c.inputs = [])
    (hanswers : c.plat.Answers) (hvisible : c.Visible) {k : Nat} (hk : hashLog c.eng.lhtab = some k) :
    ∃ u, c.Reaches u ∧ c.stepCheck.stepHtInit.EncodedAs u
      (compressBytes (resolveLevel c.eng) k c.stream) := by
  obtain ⟨-, -, hapart, -⟩ := configError_none hvalid
  have hcheck : step c = .next c.stepCheck := by
    rw [step_of_no_inputs hinputs, engineStep, hf]
  have hinv := stepCheck_inv h hf
  rw [stepCheck_of_compress hvalid hlop, hk, Option.getD_some] at hcheck hinv ⊢
  generalize hx : (c.withCsr _).withEng _ = x at *
  have hxf : x.eng.fsm = .htInit := by rw [← hx]; rfl
  have hxinputs : x.inputs = [] := by rw [← hx]; exact hinputs
  have hinit : step x = .next x.stepHtInit := by
    rw [step_of_no_inputs hxinputs, engineStep, hxf]
  have hb : x.stepHtInit.EncodedTo [] [] x.stepHtInit :=
    { scans :=
        { inv := stepHtInit_inv hinv hxf
          table := tableComplete_stepHtInit x
          answers := by rw [← hx]; exact hanswers
          inputs := hxinputs
          command := by constructor <;> rfl
          csr := rfl
          source := by rw [← hx]; exact source_of_visible hvisible hapart.1
          frame := fun _ _ => rfl }
      offset := rfl
      holds := fun j hj => absurd hj (Nat.not_lt_zero j)
      run := rfl }
  obtain ⟨u, hu, has⟩ := hb.completes x.stepHtInit.stream.length rfl (Nat.le_add_left _ _)
  refine ⟨u, .step hcheck (.step hinit hu), ?_⟩
  subst hx
  exact has

end State

/-- Settles O39: CHECK lets the command run, HT_INIT clears the table, and the turns then follow the reference
scan and its encoder. -/
theorem compressCompletes : Obligations.CompressCompletes := by
  intro s level ignored k hinv hidle hfree hinputs hanswers hvisible hunopposed hvalid hk
  refine ⟨s.start .compress level, State.launch_of_unopposed hidle hfree hunopposed, ?_⟩
  obtain ⟨u, ⟨steps, hu⟩, has⟩ :=
    State.encodes_of_check (hinv.start hfree .compress level) rfl rfl hvalid hinputs hanswers hvisible hk
  rw [State.stepCheck_of_compress hvalid rfl] at has
  exact ⟨steps, u, hu, has⟩

end Sys2Proof.Machine
end

section
/-! PROOF. The block encoder's bytes: each token is one instruction, and the bound on their number (R151 to
R160). -/

namespace Sys2Proof.Machine
open Sys2Proof

/-! ### One token, one instruction -/

theorem literalRun_cons (b : Byte) (rest : List Byte) :
    literalRun (b :: rest) = encodeStream (.lit (b :: rest)) := by
  simp [literalRun, encodeStream, opcodeByte]

theorem matchOf_shortInstr {t : Nat} (h1 : 1 ≤ t) (h7 : t < 7) (d : Nat) :
    matchOf (shortInstr t d) = some (t + 2, d) := by
  interval_cases t <;> rfl

theorem shortBytes_eq_encodeShort (len d : Nat) : shortBytes len d = encodeShort (len - 2) d := rfl

theorem extNearBytes_eq_encodeNear (len d : Nat) : extNearBytes len d = encodeNear len d := rfl

theorem extFarBytes_eq_encodeFar (len d : Nat) : extFarBytes len d = encodeFar len d := rfl

/-- The instruction is well formed, of the level, and the one the match token is serialised as (R152). -/
def EmittedAs (level : Level) (len d : Nat) (i : Instr) : Prop :=
  i.wf ∧ i.atLevel level = true ∧ matchOf i = some (len, d) ∧ matchBytes level len d = encodeStream i

/-- A match of length 3 to 8 is emitted as a short match (R155). -/
theorem emittedAs_shortInstr {len d : Nat} (h3 : 3 ≤ len) (h8 : len ≤ 8) (hd1 : 1 ≤ d)
    (hd2 : d ≤ 8192) (level : Level) : EmittedAs level len d (shortInstr (len - 2) d) := by
  refine ⟨(wf_shortInstr _ d).2 ⟨hd1, hd2⟩, atLevel_shortInstr level _ d, ?_, ?_⟩
  · rw [matchOf_shortInstr (by omega) (by omega), Nat.sub_add_cancel (by omega)]
  · unfold matchBytes
    rw [if_pos h8, shortBytes_eq_encodeShort, encodeStream_shortInstr (by omega) (by omega)]

/-- A longer match is emitted in the level's extended form (R156, R157). -/
theorem exists_emittedAs_extended {level : Level} {len d : Nat} (h8 : 8 < len) (hd1 : 1 ≤ d)
    (hmax : d ≤ Config.maxDist level) : ∃ i, EmittedAs level len d i := by
  have hlong : ¬len ≤ Config.shortMaxLen := Nat.not_le.2 h8
  cases level with
  | one =>
    refine ⟨.mx1 len d, wf_mx1.2 ⟨h8, hd1, hmax⟩, rfl, rfl, ?_⟩
    rw [matchBytes, if_neg hlong, extNearBytes_eq_encodeNear, encodeStream]
  | two =>
    rcases Nat.lt_or_ge Config.nearMaxDist d with hfar | hnear
    · refine ⟨.mx2f len d, wf_mx2f.2 ⟨h8, hfar, hmax⟩, rfl, rfl, ?_⟩
      simp only [matchBytes]
      rw [if_neg hlong, if_neg (Nat.not_le.2 hfar), extFarBytes_eq_encodeFar, encodeStream]
    · refine ⟨.mx2n len d, wf_mx2n.2 ⟨h8, hd1, hnear⟩, rfl, rfl, ?_⟩
      simp only [matchBytes]
      rw [if_neg hlong, if_pos hnear, extNearBytes_eq_encodeNear, encodeStream]

theorem exists_emittedAs {level : Level} {len d : Nat} (h : representable level len d = true) :
    ∃ i, EmittedAs level len d i := by
  obtain ⟨h3, hd1, hmax, hshort, -⟩ := representable_iff.1 h
  rcases Nat.lt_or_ge 8 len with hlong | h8
  · exact exists_emittedAs_extended hlong hd1 hmax
  · exact ⟨_, emittedAs_shortInstr h3 h8 hd1 (hshort.resolve_left (Nat.not_lt.2 h8)) level⟩

/-- Settles O36: a match token by its length, its distance and the level; a run has a first byte. -/
theorem encoderEmitsOneInstruction : Obligations.EncoderEmitsOneInstruction := by
  refine ⟨fun level len d h => exists_emittedAs h, fun bytes hpos _ => ?_⟩
  obtain ⟨b, rest, rfl⟩ := List.exists_cons_of_length_pos hpos
  exact literalRun_cons b rest

/-! ### The number of bytes -/

/-- What is left of the input and the pending run are emitted within the bound of R160: a full run takes one
byte more than its 32, a match instruction makes up for the run before it. -/
theorem length_serialise_le {level : Level} {inp : List Byte} (tokens : List Token) :
    ∀ {p : Nat} {run : List Byte}, Tiles level inp p tokens → run.length < 32 →
      (serialise level tokens run).length ≤ cbound (run.length + (inp.length - p)) := by
  induction tokens with
  | nil =>
    intro p run _ _
    rw [serialise, length_literalRun, cbound]
    split <;> omega
  | cons token rest ih =>
    intro p run htiles hrun
    cases token with
    | literal b =>
      obtain ⟨hp, -, hrest⟩ := htiles
      rw [serialise]
      split
      · rename_i hfull
        have hrestLen := ih (run := []) hrest (by decide)
        simp only [Config.maxCopy] at hfull
        simp only [cbound, List.length_append, length_literalRun, List.length_cons, List.length_nil]
          at hrestLen ⊢
        rw [if_neg (by omega)]
        omega
      · rename_i hpart
        simp only [Config.maxCopy] at hpart
        have hrestLen := ih (run := run ++ [b]) hrest (by simp; omega)
        simp only [cbound, List.length_append, List.length_singleton] at hrestLen ⊢
        omega
    | copy len d =>
      obtain ⟨hrep, -, htail, -, hrest⟩ := htiles
      have hlen := (representable_iff.1 hrep).1
      have hmatch : (matchBytes level len d).length < len := length_matchBytes_lt hlen
      have hrestLen := ih (run := []) hrest (by decide)
      simp only [serialise, cbound, List.length_append, length_literalRun, List.length_nil,
        Config.tailLiterals] at hrestLen htail ⊢
      split <;> omega

/-- Settles O37: the finder's tokens tile the input, and the encoder starts with no pending run. -/
theorem outputWithinBound : Obligations.OutputWithinBound := by
  intro level k inp hk
  have hbound := length_serialise_le (run := []) _ (tokensTileTheInput level k inp hk) (by decide)
  rwa [List.length_nil, Nat.zero_add, Nat.sub_zero] at hbound

end Sys2Proof.Machine
end

section
/-! PROOF. The round trip: decoding the compressed bytes of an input gives the input back (R163, R171,
R178). -/

namespace Sys2Proof.Machine
open Sys2Proof

/-! ### The input up to a position -/

theorem byteAt_take {inp : List Byte} {p j : Nat} (hj : j < p) (hp : p ≤ inp.length) :
    byteAt (inp.take p) j = byteAt inp j := by
  conv_rhs => rw [← List.take_append_drop p inp]
  exact (byteAt_append_left (by rw [List.length_take_of_le hp]; exact hj)).symm

theorem take_append_byteAt {inp : List Byte} {p : Nat} (hp : p < inp.length) :
    inp.take p ++ [byteAt inp p] = inp.take (p + 1) := by
  rw [byteAt, List.getD_eq_getElem inp 0 hp, List.take_append_getElem]

/-- COPY on the input up to a position gives the input that follows, where that repeats itself (R178). -/
theorem copyList_take {inp : List Byte} {d : Nat} (hd : 1 ≤ d) (len : Nat) : ∀ {p : Nat}, d ≤ p →
    p + len ≤ inp.length → (∀ j, j < len → byteAt inp (p + j) = byteAt inp (p + j - d)) →
    copyList d len (inp.take p) = inp.take (p + len) := by
  induction len with
  | zero => intro p _ _ _; rfl
  | succ len ih =>
    intro p hp hle hrep
    have hbyte : byteAt (inp.take p) (p - d) = byteAt inp p := by
      rw [byteAt_take (by omega) (by omega)]
      exact (hrep 0 (Nat.succ_pos len)).symm
    rw [copyList, List.length_take_of_le (by omega), hbyte, take_append_byteAt (by omega),
      ih (by omega) (by omega) (fun j hj => ?_), Nat.add_right_comm, Nat.add_assoc]
    have := hrep (j + 1) (Nat.succ_lt_succ hj)
    rwa [← Nat.add_assoc, Nat.add_right_comm] at this

/-! ### Decoding what is emitted -/

/-- DECODE, with these bytes of the stream still to come and the output so far, ends without an error in the
result, whenever it has fuel for the bytes (R171). -/
def DecodesTo (level : Level) (orig : Nat) (stream out result : List Byte) : Prop :=
  ∀ m fuel, stream.length < fuel → decodeLoop level orig m fuel stream out = .ok result

theorem decodesTo_end (level : Level) (out : List Byte) : DecodesTo level out.length [] out out := by
  intro m fuel hfuel
  obtain ⟨fuel, rfl⟩ := Nat.exists_eq_add_one_of_ne_zero (Nat.ne_zero_of_lt hfuel)
  unfold decodeLoop
  rw [if_neg (Nat.lt_irrefl _)]

/-- An instruction at the head of the stream that passes its checks adds its bytes to the output. -/
theorem DecodesTo.instruction {level : Level} {orig : Nat} {stream out out' result : List Byte} {i : Instr}
    (hs : i.isStream = true) (hwf : i.wf) (hlevel : i.atLevel level = true) (hmore : out.length < orig)
    (hproduce : produce orig i out = .ok out') (h : DecodesTo level orig stream out' result) :
    DecodesTo level orig (encodeStream i ++ stream) out result := by
  intro m fuel hfuel
  have hdec := decode_encodeStream hs hwf hlevel stream
  have hsize := (decode_reads hdec).rest_eq.1
  have hpos := i.size_pos
  obtain ⟨fuel, rfl⟩ := Nat.exists_eq_add_one_of_ne_zero (Nat.ne_zero_of_lt hfuel)
  unfold decodeLoop
  rw [if_pos hmore, hdec]
  simp only [hproduce]
  exact h m fuel (by omega)

theorem DecodesTo.run {level : Level} {orig : Nat} {stream out run result : List Byte}
    (hrun : run.length ≤ 32) (hfit : out.length + run.length ≤ orig)
    (h : DecodesTo level orig stream (out ++ run) result) :
    DecodesTo level orig (literalRun run ++ stream) out result := by
  cases run with
  | nil => rwa [List.append_nil] at h
  | cons b rest =>
    have hpos : 0 < (b :: rest).length := Nat.succ_pos _
    rw [literalRun_cons]
    refine h.instruction rfl (wf_lit.2 ⟨hpos, hrun⟩) (by cases level <;> rfl) (by omega) ?_
    rw [produce, if_neg (Nat.not_lt.2 hfit)]

theorem isStream_of_matchOf {i : Instr} {m : Nat × Nat} (h : matchOf i = some m) : i.isStream = true := by
  cases i with
  | compress | decompress => cases h
  | _ => rfl

theorem DecodesTo.copy {level : Level} {orig len d : Nat} {stream out result : List Byte}
    (hrep : representable level len d = true) (hfit : out.length + len ≤ orig) (hd : d ≤ out.length)
    (h : DecodesTo level orig stream (copyList d len out) result) :
    DecodesTo level orig (matchBytes level len d ++ stream) out result := by
  obtain ⟨hlen, -⟩ := representable_iff.1 hrep
  obtain ⟨i, hwf, hlevel, hmatch, hbytes⟩ := exists_emittedAs hrep
  rw [hbytes]
  refine h.instruction (isStream_of_matchOf hmatch) hwf hlevel (by omega) ?_
  rw [produce_of_matchOf hmatch, if_neg (Nat.not_lt.2 hfit), if_neg (Nat.not_lt.2 hd)]

/-- Where the output and the pending run are the input up to the tokens' position, decoding the serialised
tokens gives the whole input (R163). -/
theorem decodesTo_serialise {level : Level} {inp : List Byte} (tokens : List Token) :
    ∀ {p : Nat} {out run : List Byte}, Tiles level inp p tokens → p ≤ inp.length →
      out ++ run = inp.take p → run.length < 32 →
      DecodesTo level inp.length (serialise level tokens run) out inp := by
  induction tokens with
  | nil =>
    intro p out run hend _ hdone hrun
    obtain rfl : p = inp.length := hend
    rw [List.take_length] at hdone
    rw [serialise, ← List.append_nil (literalRun run)]
    refine .run hrun.le (by rw [← List.length_append, hdone]) ?_
    rw [hdone]
    exact decodesTo_end level inp
  | cons token rest ih =>
    intro p out run htiles hp hdone hrun
    have hlength : out.length + run.length = p := by
      rw [← List.length_append, hdone, List.length_take_of_le hp]
    cases token with
    | literal b =>
      obtain ⟨hlt, rfl, hrest⟩ := htiles
      have hnext : out ++ (run ++ [byteAt inp p]) = inp.take (p + 1) := by
        rw [← List.append_assoc, hdone, take_append_byteAt hlt]
      rw [serialise]
      split
      · rename_i hfull
        refine .run (by simpa using hfull.le) (by simp; omega) ?_
        exact ih hrest hlt (by rw [List.append_nil, hnext]) (by decide)
      · rename_i hpart
        refine ih hrest hlt hnext ?_
        rw [List.length_append, List.length_singleton]
        exact lt_of_le_of_ne hrun hpart
    | copy len d =>
      obtain ⟨hrep, hd, htail, hrepeat, hrest⟩ := htiles
      obtain ⟨hlen, hd1, -⟩ := representable_iff.1 hrep
      have hfit : p + len ≤ inp.length := htail.trans (Nat.sub_le _ _)
      have hout : (out ++ run).length = p := by rw [List.length_append, hlength]
      rw [serialise]
      refine .run hrun.le (hlength.trans_le hp) (.copy hrep ?_ ?_ ?_)
      · rwa [hout]
      · rwa [hout]
      · rw [hdone, copyList_take hd1 len hd hfit hrepeat]
        exact ih hrest hfit (List.append_nil _) (by decide)

/-- Settles O38: the finder's tokens tile the input from position 0, where nothing is decoded yet. -/
theorem roundTrip : Obligations.RoundTrip := by
  intro level k inp hk
  have hdecodes : DecodesTo level inp.length (compressBytes level k inp) [] inp :=
    decodesTo_serialise _ (tokensTileTheInput level k inp hk) (Nat.zero_le _) rfl (by decide)
  exact hdecodes _ _ (Nat.lt_succ_self _)

end Sys2Proof.Machine
end

section
/-! PROOF. The turns of the block decoder: the instruction at ip is read and run, its length and distance are
checked, its bytes are copied, at once or after a wait (R171 to R180). -/

namespace Sys2Proof.Machine

namespace State

/-! ### The turn at an instruction -/

theorem inBytes_congr {s t : State} (h : ∀ i, t.inByte i = s.inByte i) (i n : Nat) :
    t.inBytes i n = s.inBytes i n := by
  simp only [inBytes_eq_map, h]

/-- The actions still to come do not change what the decoder reads. -/
theorem streamFrom_withInputs (s : State) (later : List Input) :
    State.streamFrom { s with inputs := later } = s.streamFrom :=
  inBytes_congr (s := s) (t := { s with inputs := later }) (fun _ => rfl) _ _

/-- At the end of the stream there is nothing to read. -/
theorem streamFrom_of_end {s : State} (h : s.eng.ip = s.eng.lslen.toNat) : s.streamFrom = [] := by
  rw [streamFrom, h, Nat.sub_self, inBytes]

theorem engineStep_of_atInstruction {s : State} (h : s.AtInstruction) :
    s.engineStep = s.fetchExec := by
  rcases h with ⟨hf, hmore⟩ | hf
  · rw [engineStep, hf]
    exact if_pos hmore
  · rw [engineStep, hf]

theorem step_of_atInstruction {s : State} (hin : s.inputs = []) (h : s.AtInstruction) :
    step s = s.fetchExec := by
  rw [step_of_no_inputs hin, engineStep_of_atInstruction h]

theorem fetchExec_of_read {s : State} {i : Instr} {rest : List Byte}
    (h : decode s.eng.level s.streamFrom = .ok (i, rest)) : s.fetchExec = exec i s := by
  rw [fetchExec, h]

/-! ### The checks of an instruction -/

theorem endedWith_raise_self (s : State) (cause : Cause) (pos : Nat) :
    s.EndedWith (s.raise cause pos) cause (BitVec.ofNat 32 pos) :=
  endedWith_raise cause pos (sameAround_withEng s s.eng) (fun _ => rfl) rfl

/-- A whole stream instruction, with memory answering: its checks in the order of R174, then its copy phase. -/
theorem exec_of_whole {s : State} {i : Instr} (hs : i.isStream = true) (ha : s.plat.Answers)
    (hwhole : s.eng.ip + i.size ≤ s.eng.lslen.toNat) :
    exec i s = .next
      (if s.eng.ldlen.toNat < s.eng.o + produces i then
        (s.beginAt.operands (fetchedBy i) (produces i) (reaches i)).raise .overrun s.eng.ip
      else if s.eng.o < reaches i then
        (s.beginAt.operands (fetchedBy i) (produces i) (reaches i)).raise .distBeforeStart s.eng.ip
      else copyOf i (s.inCopy (fetchedBy i) (produces i) (reaches i))) := by
  rw [← checked_operands]
  rcases exec_stream_cases hs s with ⟨bytes, rfl, hexec⟩ | ⟨len, d, hm, hexec⟩
  · rw [hexec, runLiteral_of_answers ha]
    exact congrArg _ (if_neg (not_lt.2 hwhole))
  · obtain ⟨hcopy, hfetched⟩ := copyOf_of_matchOf hm
    obtain ⟨-, hproduces, hreaches, -⟩ := s.accesses_of_matchOf hm
    rw [hexec, runMatch_of_answers ha, if_neg (not_lt.2 hwhole), hcopy, hfetched, hproduces, hreaches]

/-- A whole stream instruction that passes its checks goes on to its copy phase. -/
theorem exec_of_fits {s : State} {i : Instr} (hs : i.isStream = true) (ha : s.plat.Answers)
    (hwhole : s.eng.ip + i.size ≤ s.eng.lslen.toNat)
    (hroom : s.eng.o + produces i ≤ s.eng.ldlen.toNat) (hdist : reaches i ≤ s.eng.o) :
    exec i s = .next (copyOf i (s.inCopy (fetchedBy i) (produces i) (reaches i))) := by
  rw [exec_of_whole hs ha hwhole, if_neg (not_lt.2 hroom), if_neg (not_lt.2 hdist)]

/-- A turn in D_CHECK at an instruction that fails a check (R174). -/
theorem step_of_checkProblem {s : State} (hin : s.inputs = []) (hf : s.eng.fsm = .dCheck)
    {cause : Cause} (hc : s.checkProblem = some cause) :
    NextWith (step s) (fun t => s.EndedWith t cause (BitVec.ofNat 32 s.eng.start)) := by
  refine ⟨_, ?_, s.endedWith_raise_self cause s.eng.start⟩
  rw [step_of_no_inputs hin, engineStep, hf, checked, hc]

theorem checkProblem_of_overrun {s : State} (h : s.eng.ldlen.toNat < s.eng.o + s.eng.len) :
    s.checkProblem = some .overrun :=
  if_pos h

theorem checkProblem_of_far {s : State} (hroom : s.eng.o + s.eng.len ≤ s.eng.ldlen.toNat)
    (hfar : s.eng.o < s.eng.d) : s.checkProblem = some .distBeforeStart :=
  (if_neg (not_lt.2 hroom)).trans (if_pos hfar)

theorem checkProblem_of_fits {s : State} (hroom : s.eng.o + s.eng.len ≤ s.eng.ldlen.toNat)
    (hdist : s.eng.d ≤ s.eng.o) : s.checkProblem = none :=
  (if_neg (not_lt.2 hroom)).trans (if_neg (not_lt.2 hdist))

/-! ### The copy phase -/

theorem withFsm_self {s : State} {f : Fsm} (h : s.eng.fsm = f) : s.withFsm f = s := by
  rw [← h]; rfl

/-- What waited to produce its bytes produces them once it is the engine's turn (R272). -/
theorem step_of_atCopy {s : State} (hin : s.inputs = []) (hat : s.AtCopy)
    (hroom : s.eng.o + s.eng.len ≤ s.eng.ldlen.toNat) (hdist : s.eng.d ≤ s.eng.o) :
    step s = .next (s.withFsm .dCopy).resumeCopy := by
  rw [step_of_no_inputs hin, engineStep]
  rcases hat with hf | hf
  · rw [hf, checked, checkProblem_of_fits hroom hdist]
  · rw [hf, withFsm_self hf]

theorem copyMatch_produces {s : State} (ha : s.plat.Answers) (hd : 1 ≤ s.eng.d)
    (hdist : s.eng.d ≤ s.eng.o) (hroom : s.eng.o + s.eng.len ≤ s.eng.ldlen.toNat) :
    s.copyMatch.eng = { s.eng with o := s.eng.o + s.eng.len, fsm := .dFetch } ∧
      s.ProducedMatch s.copyMatch s.eng.len s.eng.d := by
  have hlt := s.eng.ldlen.isLt
  obtain ⟨hframe, hcopy⟩ :=
    readByte_copyBytes s.eng.d s.eng.len s s.eng.o hd hdist (by omega)
  rw [copyMatch_of_answers ha]
  refine ⟨?_, (sameAround_copyBytes _ _ _ _).trans (sameAround_withEng _ _), hcopy, hframe⟩
  rw [produced, withEng_eng, copyBytes_eng]

theorem copyLiteral_produces {s : State} (ha : s.plat.Answers) {bytes : List Byte}
    (hroom : s.eng.o + bytes.length ≤ s.eng.ldlen.toNat) :
    (s.copyLiteral bytes).eng =
        { s.eng with ip := s.eng.ip + bytes.length, o := s.eng.o + bytes.length, fsm := .dFetch } ∧
      s.ProducedBytes (s.copyLiteral bytes) bytes := by
  have hlt := s.eng.ldlen.isLt
  obtain ⟨hbytes, hframe⟩ := readByte_setOutBytes bytes s s.eng.o (by omega)
  rw [copyLiteral_of_answers ha]
  refine ⟨?_, (sameAround_setOutBytes _ _ _).trans (sameAround_withEng _ _), hbytes, hframe⟩
  rw [produced, withEng_eng, setOutBytes_eng]

/-- A whole match that passes its checks runs, whatever its form (R178, R181 to R189). -/
theorem exec_ranMatch {s : State} {i : Instr} {len d : Nat} (hm : matchOf i = some (len, d))
    (ha : s.plat.Answers) (hwhole : s.eng.ip + i.size ≤ s.eng.lslen.toNat) (hd : 1 ≤ d)
    (hdist : d ≤ s.eng.o) (hroom : s.eng.o + len ≤ s.eng.ldlen.toNat) :
    NextWith (exec i s) (fun t => s.RanMatch t i.size len d) := by
  obtain ⟨hcopy, hfetched⟩ := copyOf_of_matchOf hm
  obtain ⟨-, hproduces, hreaches, -⟩ := s.accesses_of_matchOf hm
  have hexec : exec i s = .next (s.inCopy i.size len d).copyMatch := by
    rw [exec_of_fits (isStream_of_matchOf hm) ha hwhole (hproduces.symm ▸ hroom)
      (hreaches.symm ▸ hdist), hcopy, hfetched, hproduces, hreaches]
  exact ⟨_, hexec, copyMatch_produces (s := s.inCopy i.size len d) ha hd hdist hroom⟩

/-- A match that waited in D_CHECK or D_COPY runs as one that did not wait. -/
theorem step_producedMatch {s : State} (hin : s.inputs = []) (hat : s.AtCopy)
    (ha : s.plat.Answers) (hd : 1 ≤ s.eng.d) (hdist : s.eng.d ≤ s.eng.o)
    (hroom : s.eng.o + s.eng.len ≤ s.eng.ldlen.toNat) :
    NextWith (step s) (fun t =>
      t.eng = { s.eng with o := s.eng.o + s.eng.len, fsm := .dFetch } ∧
        s.ProducedMatch t s.eng.len s.eng.d) := by
  have hresume : (s.withFsm .dCopy).resumeCopy = (s.withFsm .dCopy).copyMatch :=
    if_neg (Nat.pos_iff_ne_zero.1 hd)
  have hstep := step_of_atCopy hin hat hroom hdist
  rw [hresume] at hstep
  exact ⟨_, hstep, copyMatch_produces (s := s.withFsm .dCopy) ha hd hdist hroom⟩

end State

end Sys2Proof.Machine
end

section
/-! PROOF. What the stream decoder says of bytes that end inside an instruction (R173, R180). -/

namespace Sys2Proof
open Machine

/-- How an instruction is cut off: a literal run as TRUNC_LITERAL, a match as TRUNC_MATCH. -/
def cutOffOf (i : Instr) : DecodeError :=
  if (matchOf i).isSome then .truncMatch else .truncLiteral

/-- The decoder read an instruction that is cut off in the given way when bytes of it are missing, or it read
none and says that the bytes are cut off in that way. -/
def CutOffAs (why : DecodeError) : Except DecodeError (Instr × List Byte) → Prop
  | .ok (i, _) => cutOffOf i = why
  | .error why' => why' = why

theorem cutOffAs_decodeLiteral (f : Nat) (bytes : List Byte) :
    CutOffAs .truncLiteral (decodeLiteral f bytes) := by
  unfold decodeLiteral
  split <;> rfl

theorem cutOffAs_decodeShort (t f : Nat) (bytes : List Byte) :
    CutOffAs .truncMatch (decodeShort t f bytes) := by
  cases bytes with
  | nil => rfl
  | cons b rest =>
    obtain ⟨len, hm, -⟩ := shortInstr_spec t (nearDistance f b)
    show cutOffOf (shortInstr t (nearDistance f b)) = .truncMatch
    rw [cutOffOf, hm]
    rfl

theorem cutOffAs_decodeExtended (level : Level) (f : Nat) (bytes : List Byte) :
    CutOffAs .truncMatch (decodeExtended level f bytes) := by
  unfold decodeExtended
  split
  · rfl
  · rfl
  · cases level with
    | one => rfl
    | two =>
      dsimp only
      split
      · split <;> rfl
      · rfl

/-- The opcode byte alone decides how an instruction is cut off. -/
theorem cutOffAs_decode (level : Level) (op : Byte) (bytes : List Byte) :
    CutOffAs (if opcodeT op = 0 then .truncLiteral else .truncMatch) (decode level (op :: bytes)) := by
  rw [decode]
  split
  · exact cutOffAs_decodeLiteral _ _
  · split
    · exact cutOffAs_decodeShort _ _ _
    · exact cutOffAs_decodeExtended _ _ _

/-- What is read from the first bytes of an encoding is the whole of it: a shorter instruction would be read
from all of them too. -/
theorem eq_nil_of_decode_front {level : Level} {i j : Instr} {there missing rest : List Byte}
    (hs : i.isStream = true) (hwf : i.wf) (hlevel : i.atLevel level = true)
    (henc : encodeStream i = there ++ missing) (hdec : decode level there = .ok (j, rest)) :
    missing = [] := by
  obtain ⟨hjs, hjwf, hjlevel, hthere⟩ := encodesTo_of_decode hdec
  have hi : decode level (encodeStream i) = .ok (i, []) := by
    simpa using decode_encodeStream hs hwf hlevel []
  rw [henc, ← hthere, List.append_assoc, decode_encodeStream hjs hjwf hjlevel] at hi
  obtain ⟨-, hnil⟩ := Prod.mk.inj (Except.ok.inj hi)
  exact (List.append_eq_nil_iff.1 hnil).2

/-- An encoding whose last bytes are missing, but not its opcode, is cut off as its instruction is (R173, R180). -/
theorem decode_of_missing {level : Level} {i : Instr} {there missing : List Byte}
    (hs : i.isStream = true) (hwf : i.wf) (hlevel : i.atLevel level = true)
    (henc : encodeStream i = there ++ missing) (hthere : there ≠ []) (hmissing : missing ≠ []) :
    decode level there = .error (cutOffOf i) := by
  obtain ⟨op, bytes, rfl⟩ := List.exists_cons_of_ne_nil hthere
  have hi : decode level (op :: (bytes ++ missing)) = .ok (i, []) := by
    rw [← List.cons_append, ← henc]
    simpa using decode_encodeStream hs hwf hlevel []
  have hwhole := cutOffAs_decode level op (bytes ++ missing)
  have hpart := cutOffAs_decode level op bytes
  rw [hi] at hwhole
  cases hdec : decode level (op :: bytes) with
  | ok read => exact absurd (eq_nil_of_decode_front hs hwf hlevel henc hdec) hmissing
  | error why =>
    rw [hdec] at hpart
    exact congrArg Except.error (hpart.trans hwhole.symm)

end Sys2Proof
end

section
/-! PROOF. The statements about the block decoder and about CHECK (R170 to R193, R204, R205). -/

namespace Sys2Proof.Machine

/-- Settles O8: the turn reads the instruction, which the inputs to come do not change. -/
theorem stepRunsDecodedStream : Obligations.StepRunsDecodedStream := by
  intro s i rest hat hdec
  refine ⟨fun hin => ?_, fun later hin => ?_⟩
  · rw [State.step_of_atInstruction hin hat, State.fetchExec_of_read hdec]
  · rw [State.step_of_input hin]
    rw [← s.streamFrom_withInputs later] at hdec
    exact (State.engineStep_of_atInstruction (s := { s with inputs := later }) hat).trans
      (State.fetchExec_of_read hdec)

/-- Settles O10: the run passes its checks, at once or after a wait, and copyLiteral produces its bytes. -/
theorem literalRuns : Obligations.LiteralRuns := by
  refine ⟨fun s bytes ha hwhole hroom => ?_, fun s hin hat ha hd hroom => ?_⟩
  · have hexec := State.exec_of_fits (i := .lit bytes) rfl ha hwhole hroom (Nat.zero_le _)
    obtain ⟨heng, hbytes⟩ :=
      State.copyLiteral_produces (s := s.inCopy 1 bytes.length 0) ha hroom
    refine ⟨_, hexec, heng.trans ?_, hbytes⟩
    rw [← Nat.add_assoc]
    rfl
  · have hlen := s.length_inBytes s.eng.len s.eng.ip
    have hresume : (s.withFsm .dCopy).resumeCopy =
        (s.withFsm .dCopy).copyLiteral (s.inBytes s.eng.ip s.eng.len) :=
      (if_pos hd).trans (congrArg _ (State.inBytes_congr (s := s) (t := s.withFsm .dCopy)
        (fun _ => rfl) _ _))
    have hstep := State.step_of_atCopy hin hat hroom (hd ▸ Nat.zero_le _)
    rw [hresume] at hstep
    obtain ⟨heng, hbytes⟩ :=
      State.copyLiteral_produces (s := s.withFsm .dCopy) ha (hlen.symm ▸ hroom)
    rw [hlen] at heng
    exact ⟨_, hstep, heng, hbytes⟩

/-- Settles O11: each of the six is a match of two bytes. -/
theorem shortMatchesRun : Obligations.ShortMatchesRun := by
  refine ⟨fun s i len d hi ha hwhole hd hdist hroom => ?_, fun s hin hat ha _ _ hd hdist hroom =>
    State.step_producedMatch hin hat ha hd hdist hroom⟩
  have hspec : matchOf i = some (len, d) ∧ i.size = 2 := by
    simp only [List.mem_cons, Prod.mk.injEq, List.not_mem_nil, or_false] at hi
    rcases hi with ⟨rfl, rfl⟩ | ⟨rfl, rfl⟩ | ⟨rfl, rfl⟩ | ⟨rfl, rfl⟩ | ⟨rfl, rfl⟩ | ⟨rfl, rfl⟩ <;>
      exact ⟨rfl, rfl⟩
  obtain ⟨hm, hsize⟩ := hspec
  rw [← hsize] at hwhole ⊢
  exact State.exec_ranMatch hm ha hwhole hd hdist hroom

/-- Settles O12: each of the three is a match of the size R100 gives. -/
theorem extendedMatchesRun : Obligations.ExtendedMatchesRun := by
  refine ⟨fun s i len d size hi ha hwhole hd hdist hroom => ?_, fun s hin hat ha _ hd hdist hroom =>
    State.step_producedMatch hin hat ha hd hdist hroom⟩
  rcases hi with ⟨rfl | rfl, rfl⟩ | ⟨rfl, rfl⟩
  · exact State.exec_ranMatch (i := .mx1 len d) rfl ha hwhole hd hdist hroom
  · exact State.exec_ranMatch (i := .mx2n len d) rfl ha hwhole hd hdist hroom
  · exact State.exec_ranMatch (i := .mx2f len d) rfl ha hwhole hd hdist hroom

/-- Settles O13: the turn ends as the decoder says, and it says so wherever an encoding ends too soon. -/
theorem truncationIsReported : Obligations.TruncationIsReported := by
  refine ⟨fun s hin ha hat => ⟨fun hdec => ?_, fun hdec => ?_⟩,
    fun level i there missing hs hwf hlevel henc hthere hmissing =>
      decode_of_missing hs hwf hlevel henc hthere hmissing⟩
  · refine ⟨_, ?_, State.endedWith_truncated ha .truncLiteral 1⟩
    rw [State.step_of_atInstruction hin hat, State.fetchExec, hdec]
  · refine ⟨_, ?_, State.endedWith_truncated ha .truncMatch (s.eng.lslen.toNat - s.eng.ip)⟩
    rw [State.step_of_atInstruction hin hat, State.fetchExec, hdec]

/-- Settles O14: the first check fails, in the instruction's turn or in D_CHECK. -/
theorem overrunIsReported : Obligations.OverrunIsReported := by
  refine ⟨fun s i hs ha hwhole hover => ?_, fun s hin hf hover =>
    State.step_of_checkProblem hin hf (State.checkProblem_of_overrun hover)⟩
  have hexec := State.exec_of_whole hs ha hwhole
  rw [if_pos hover] at hexec
  exact ⟨_, hexec, s.endedWith_checked _ _ _ _⟩

/-- Settles O15: the first check passes and the second fails, in the instruction's turn or in D_CHECK. -/
theorem distanceBeforeStartIsReported : Obligations.DistanceBeforeStartIsReported := by
  refine ⟨fun s i hs ha hwhole hroom hfar => ?_, fun s hin hf hroom hfar =>
    State.step_of_checkProblem hin hf (State.checkProblem_of_far hroom hfar)⟩
  have hexec := State.exec_of_whole hs ha hwhole
  rw [if_neg (not_lt.2 hroom), if_pos hfar] at hexec
  exact ⟨_, hexec, s.endedWith_checked _ _ _ _⟩

/-- Settles O19: at each end the turn is the one branch of stepFetch or stepEnd. -/
theorem endsOfTheStream : Obligations.EndsOfTheStream := by
  intro s hin
  rw [State.step_of_no_inputs hin]
  refine ⟨fun hf hmore hip => ?_, fun hf ho => ?_, fun hf hleft => ?_, fun hf hip => ?_⟩
  · have hend := s.endedWith_raise_self .exhausted s.eng.lslen.toNat
    rw [BitVec.ofNat_toNat, BitVec.setWidth_eq] at hend
    refine ⟨_, ?_, hend⟩
    rw [State.engineStep_of_atInstruction (.inl ⟨hf, hmore⟩), State.fetchExec,
      State.streamFrom_of_end hip, decode]
  · rw [State.engineStep, hf]
    exact if_neg (Nat.not_lt.2 ho.ge)
  · refine ⟨_, ?_, s.endedWith_raise_self .trailing s.eng.ip⟩
    rw [State.engineStep, hf]
    exact congrArg _ (if_pos hleft)
  · rw [State.engineStep, hf]
    exact congrArg _ (if_neg (Nat.not_lt.2 hip.ge))

/-- Settles O20: DECODE's loop answers in its first round, before it reads an instruction. -/
theorem zeroLengthStreams : Obligations.ZeroLengthStreams := by
  intro level b rest orig
  refine ⟨rfl, ?_, rfl⟩
  simp [decompressBytes, decodeLoop]

/-- Settles O26: what CHECK does with a valid COMPRESS and with a valid DECOMPRESS. -/
theorem checkPasses : Obligations.CheckPasses := by
  intro s hin hf hvalid
  have hstep : step s = .next s.stepCheck := by
    rw [State.step_of_no_inputs hin, State.engineStep, hf]
  cases hlop : s.eng.lop with
  | compress =>
    rw [State.stepCheck_of_compress hvalid hlop] at hstep
    obtain ⟨-, hsize, -⟩ := configError_none hvalid
    obtain ⟨k, hk⟩ := Option.ne_none_iff_exists'.1 (hsize hlop)
    have hlog : s.eng.lhtab.toNat = 2 ^ (hashLog s.eng.lhtab).getD 0 := by
      rw [hk]
      exact (hashLog_some hk).2
    exact ⟨_, hstep, rfl, rfl, rfl, rfl, rfl, fun _ => ⟨rfl, hlog⟩, nofun⟩
  | decompress =>
    rw [State.stepCheck_of_decompress hvalid hlop] at hstep
    exact ⟨_, hstep, rfl, rfl, rfl, rfl, rfl, nofun, fun _ => ⟨rfl, rfl, rfl⟩⟩

end Sys2Proof.Machine
end

section
/-! PROOF. Register writes, the start of a command, and level resolution (R200 to R205, R210). -/

namespace Sys2Proof.Machine
open Sys2Proof

namespace State

/-! ### Writes in the register window -/

/-- A 32-bit write at a word of the window is a write of that register, answered as performed (R200). -/
theorem step_of_wordWrite {s : State} {off : Nat} {v : Word} {later : List Input}
    (hin : s.inputs = .csrWrite (s.plat.base + BitVec.ofNat 32 off) 4 v :: later) (hoff : off < 64)
    (hword : off % 4 = 0) :
    step s = State.writeReg { s with inputs := later, resp := .done } off v := by
  have hwindow := Platform.windowOffset_base s.plat hoff
  rw [step_of_input hin]
  simp [inputStep, hostCsrWrite, hwindow, accessLegal, hword, answered]

/-- A write of STATUS reaches DONE alone, and reset holds off even that (R210, R260). -/
theorem writeReg_status (s : State) (v : Word) :
    s.writeReg 0x04 v =
      .next (s.withCsr { s.csr with done := s.csr.done && !(v.getLsbD 1 && !s.resetHeld) }) := by
  cases hheld : s.resetHeld with
  | true =>
    rw [writeReg_of_held hheld, Bool.not_true, Bool.and_false, Bool.not_false, Bool.and_true]
    rfl
  | false =>
    have hopen : s.writeReg 0x04 v = .next (if v.getLsbD 1 then s.clearDone else s) := by
      rw [writeReg, hheld]
      rfl
    rw [hopen, Bool.not_false, Bool.and_true]
    cases v.getLsbD 1 with
    | true => rw [Bool.not_true, Bool.and_false]; rfl
    | false => rw [Bool.not_false, Bool.and_true]; rfl

theorem decodeCommand_of_noStart {v : Word} (h : v.getLsbD 0 = false) : decodeCommand v = none := by
  rw [BitVec.getLsbD_eq_extractLsb', beq_eq_false_iff_ne] at h
  rw [decodeCommand, if_neg h]

/-- A CMD write without START has no effect (R202). -/
theorem writeReg_cmd_of_noStart (s : State) {v : Word} (h : v.getLsbD 0 = false) :
    s.writeReg 0x00 v = .next s := by
  cases hheld : s.resetHeld with
  | true => exact writeReg_of_held hheld _ _
  | false => simp [writeReg, hheld, writeCmd, decodeCommand_of_noStart h]

/-- A write past HTAB_SIZE meets no register that a host can write (R200, R38). -/
theorem writeReg_of_readOnly (s : State) {off : Nat} (h : 0x1C < off) (v : Word) :
    s.writeReg off v = .next s := by
  unfold writeReg
  split
  · rfl
  · split
    case h_9 => rfl
    all_goals omega

end State

/-- A value masked to the one bit of IRQ_EN (R30). -/
theorem and_one_eq_ite (v : Word) : (if v.getLsbD 0 then 1 else 0) = v &&& 1 := by
  rw [BitVec.ofNat_eq_ofNat, BitVec.and_one_eq_setWidth_ofBool_getLsbD]
  cases v.getLsbD 0 <;> rfl

/-- The writes of configuration registers: the word of each, and the registers after a value is written there
(R21, R201). -/
def Csr.configWrites (c : Csr) (v : Word) : List (Nat × Csr) :=
  [(0x0C, { c with srcAddr := v }), (0x10, { c with srcLen := v }), (0x14, { c with dstAddr := v }),
    (0x18, { c with dstLen := v }), (0x1C, { c with htabSize := v }),
    (0x08, { c with doneIe := v.getLsbD 0 })]

/-- A configuration register is written at its word and reads back there as written (R200, R201). -/
theorem State.writeReg_config {s : State} {off : Nat} {v : Word} {c : Csr}
    (hmem : (off, c) ∈ s.csr.configWrites v) (hfree : s.resetHeld = false) :
    off < 64 ∧ off % 4 = 0 ∧ s.writeReg off v = .next (s.withCsr c) ∧
      (s.withCsr c).csrValue off = if off = 0x08 then v &&& 1 else v := by
  simp only [Csr.configWrites, List.mem_cons, List.not_mem_nil, or_false, Prod.mk.injEq] at hmem
  rcases hmem with ⟨rfl, rfl⟩ | ⟨rfl, rfl⟩ | ⟨rfl, rfl⟩ | ⟨rfl, rfl⟩ | ⟨rfl, rfl⟩ | ⟨rfl, rfl⟩ <;>
    refine ⟨by decide, rfl, by simp [writeReg, hfree], ?_⟩
  on_goal 6 => exact and_one_eq_ite v
  all_goals rfl

/-! ### Commands -/

/-- A host command is the launch of its operation (R202). -/
theorem exec_of_decodeCommand {v : Word} {i : Instr} (h : decodeCommand v = some i) :
    ∃ op level, ∀ s, exec i s = s.launch op level := by
  unfold decodeCommand at h
  split at h
  · split at h <;> cases h
    · exact ⟨.decompress, _, fun _ => rfl⟩
    · exact ⟨.compress, _, fun _ => rfl⟩
  · cases h

namespace State

/-- While reset is held a command word starts nothing (R260). -/
theorem launch_of_held {s : State} (h : s.resetHeld = true) (op : Op) (level : BitVec 2) :
    s.launch op level = .next s := by
  simp [launch, h]

/-- A command word written to CMD is exec of its command; so it is while reset is held, when exec too changes
nothing (R202, R260). -/
theorem writeReg_cmd {v : Word} {i : Instr} (h : decodeCommand v = some i) (s : State) :
    s.writeReg 0x00 v = exec i s := by
  obtain ⟨op, level, hexec⟩ := exec_of_decodeCommand h
  cases hheld : s.resetHeld with
  | true => rw [writeReg_of_held hheld, hexec, launch_of_held hheld]
  | false => simp [writeReg, hheld, writeCmd, h]

/-- A block that is idle and not held in reset starts every command that a model does not refuse (R202, R203). -/
theorem launch_of_unrefused {s : State} {op : Op} {level : BitVec 2} (hidle : s.eng.fsm = .idle)
    (hfree : s.resetHeld = false) (hnone : (s.start op level).launchRefusal = none) :
    s.launch op level = .next (s.start op level) := by
  simp [launch, busy, hidle, hfree, hnone]

end State

/-- Settles O9: BASE is the word of CMD. -/
theorem stepRunsDecodedCommand : Obligations.StepRunsDecodedCommand := by
  intro s v i later hin hdec
  rw [← BitVec.add_zero s.plat.base] at hin
  rw [State.step_of_wordWrite (off := 0) hin (by decide) rfl, State.writeReg_cmd hdec]

/-- Settles O21: the launch is not refused, so it is the start of the command. -/
theorem commandStarts : Obligations.CommandStarts := by
  intro s op level ignored hidle hfree hlaunch
  have hstart := State.launch_of_unrefused hidle hfree (State.launchRefusal_none hlaunch)
  refine ⟨s.start op level, ?_, rfl, ⟨rfl, rfl, rfl, rfl, rfl⟩, rfl, ⟨rfl, rfl, rfl, rfl, rfl, rfl⟩,
    rfl, rfl, rfl, rfl, rfl, rfl, rfl, rfl, rfl, rfl, rfl, rfl⟩
  cases op <;> exact hstart

/-- Settles O27, by the value of CMD.LEVEL and, for AUTO, by the command whose size decides. -/
theorem levelResolution : Obligations.LevelResolution := by
  intro e
  refine ⟨fun h => by simp [resolveLevel, h], fun h => by simp [resolveLevel, h], fun h => ?_⟩
  cases hlop : e.lop <;> simp [resolveLevel, h, hlop]

/-- Settles O53: each of the six registers is one word of the window. -/
theorem configurationWrites : Obligations.ConfigurationWrites := by
  intro s off v c later hmem hfree hin
  obtain ⟨hoff, hword, hwrite, hvalue⟩ :=
    State.writeReg_config (s := { s with inputs := later, resp := .done }) hmem hfree
  exact ⟨_, (State.step_of_wordWrite hin hoff hword).trans hwrite, rfl, hvalue⟩

/-- Settles O54: STATUS by what a write of it does, the other words because they ignore the value. -/
theorem statusAndReadOnlyWrites : Obligations.StatusAndReadOnlyWrites := by
  intro s v off later hin
  refine ⟨?_, ?_⟩
  · rintro rfl
    rw [State.step_of_wordWrite hin (by decide) rfl, State.writeReg_status]
    rfl
  · rintro (hmem | ⟨rfl, hstart⟩)
    · have hoff : 0x1C < off ∧ off < 64 ∧ off % 4 = 0 := by
        simp only [List.mem_cons, List.not_mem_nil, or_false] at hmem
        omega
      obtain ⟨hro, hlt, hword⟩ := hoff
      rw [State.step_of_wordWrite hin hlt hword, State.writeReg_of_readOnly _ hro]
    · rw [State.step_of_wordWrite hin (by decide) rfl, State.writeReg_cmd_of_noStart _ hstart]

end Sys2Proof.Machine
end

section
/-! PROOF. The configuration checks and the successful end of a command (R204, R208, R209, R236). -/

namespace Sys2Proof.Machine
open Sys2Proof

/-! ### The configuration checks, one by one -/

theorem regionError_ne_badLevel (e : Engine) : regionError e ≠ some .badLevel := by
  unfold regionError
  split_ifs <;> nofun

theorem configError_badLevel_iff {e : Engine} : configError e = some .badLevel ↔ e.llevel = 3 :=
  (regionError_ne_badLevel e).symm.ite_eq_left_iff

theorem configError_of_level {e : Engine} (h : e.llevel ≠ 3) : configError e = regionError e :=
  if_neg h

section
variable {e : Engine}

/-- Check 2 (R204). -/
theorem configError_badHtabSize_iff : configError e = some .badHtabSize ↔
    e.llevel ≠ 3 ∧ e.lop = .compress ∧ ¬∃ k, k ≤ 16 ∧ e.lhtab.toNat = 2 ^ k := by
  rw [← hashLog_none]
  by_cases hlevel : e.llevel = 3
  · simp [configError, hlevel]
  · rw [configError_of_level hlevel, regionError, Ne.ite_eq_left_iff (by split_ifs <;> nofun)]
    exact (and_iff_right hlevel).symm

variable (hlevel : e.llevel ≠ 3) (hsize : ¬(e.lop = .compress ∧ hashLog e.lhtab = none))
include hlevel hsize

/-- Check 3 (R204). -/
theorem configError_srcWrap_iff :
    configError e = some .srcWrap ↔ 2 ^ 32 < e.lsrc.toNat + e.lslen.toNat := by
  rw [configError_of_level hlevel, regionError, if_neg hsize]
  exact Ne.ite_eq_left_iff (by split_ifs <;> nofun)

variable (hsrc : e.lsrc.toNat + e.lslen.toNat ≤ 2 ^ 32)
include hsrc

/-- Check 4 (R204). -/
theorem configError_dstWrap_iff :
    configError e = some .dstWrap ↔ 2 ^ 32 < e.ldst.toNat + e.ldlen.toNat := by
  rw [configError_of_level hlevel, regionError, if_neg hsize, if_neg hsrc.not_gt]
  exact Ne.ite_eq_left_iff (by split_ifs <;> nofun)

variable (hdst : e.ldst.toNat + e.ldlen.toNat ≤ 2 ^ 32)
include hdst

/-- Check 5 (R204). -/
theorem configError_regionOverlap_iff :
    configError e = some .regionOverlap ↔ 0 < e.lslen.toNat ∧ 0 < e.ldlen.toNat ∧
      e.lsrc.toNat < e.ldst.toNat + e.ldlen.toNat ∧
      e.ldst.toNat < e.lsrc.toNat + e.lslen.toNat := by
  rw [configError_of_level hlevel, regionError, if_neg hsize, if_neg hsrc.not_gt,
    if_neg hdst.not_gt]
  exact Ne.ite_eq_left_iff (by split_ifs <;> nofun)

omit hsrc hdst in
/-- Check 6 is the last: what it says is the outcome once the regions are apart (R204). -/
theorem configError_of_regionsApart (hapart : e.RegionsApart) :
    configError e = if e.lop = .compress ∧ e.ldlen.toNat < cbound e.lslen.toNat then
      some .dstTooSmall else none := by
  obtain ⟨hsrc, hdst, hdisjoint⟩ := hapart
  rw [configError_of_level hlevel, regionError, if_neg hsize, if_neg hsrc.not_gt,
    if_neg hdst.not_gt, if_neg (by omega)]

end

/-- Settles O25: one equivalence for each check, given that the checks before it pass. -/
theorem checksInOrder : Obligations.ChecksInOrder := by
  intro e
  refine ⟨configError_badLevel_iff, configError_badHtabSize_iff, fun hlevel hpow => ?_⟩
  have hsize : ¬(e.lop = .compress ∧ hashLog e.lhtab = none) := by
    rintro ⟨hlop, hlog⟩
    exact hpow.elim (by simp [hlop]) (hashLog_none.1 hlog)
  refine ⟨configError_srcWrap_iff hlevel hsize, fun hsrc =>
    ⟨configError_dstWrap_iff hlevel hsize hsrc, fun hdst =>
      ⟨configError_regionOverlap_iff hlevel hsize hsrc hdst, fun hapart => ?_⟩⟩⟩
  rw [configError_of_regionsApart hlevel hsize hapart, cbound]
  cases hlop : e.lop <;> simp

/-! ### A rejected command -/

namespace State

theorem stepCheck_of_badLevel {s : State} (h : s.eng.llevel = 3) :
    s.stepCheck = s.raise .badLevel 0 :=
  if_pos h

/-- A check after the first fails once the level is resolved (R204, R205). -/
theorem stepCheck_of_regionError {s : State} {cause : Cause} (hlevel : s.eng.llevel ≠ 3)
    (h : regionError s.eng = some cause) :
    s.stepCheck =
      ((s.withCsr { s.csr with levelUsed := levelField (resolveLevel s.eng) }).withEng
        { s.eng with level := resolveLevel s.eng }).raise cause 0 := by
  unfold stepCheck
  rw [if_neg hlevel, h]

/-- An INVALID_CONFIGURATION is reported and nothing else: no write was made (R236). -/
theorem raise_of_configuration (s : State) {cause : Cause} (h : cause.code = 2) (pos : Nat) :
    s.raise cause pos = s.report 2 cause.number 0 (BitVec.ofNat 32 pos) := by
  rw [raise, afterError, if_pos h, h]

end State

/-- Every configuration check is reported as INVALID_CONFIGURATION (R230). -/
theorem code_of_configError {e : Engine} {cause : Cause} (h : configError e = some cause) :
    cause.code = 2 := by
  unfold configError regionError at h
  split_ifs at h <;> cases h <;> rfl

/-- Settles O24: BAD_LEVEL is raised before the level is resolved, every other cause after it. -/
theorem checkRejects : Obligations.CheckRejects := by
  intro s cause hin hf hused herror
  have hcode := code_of_configError herror
  have hstep : step s = .next s.stepCheck := by
    rw [State.step_of_no_inputs hin, State.engineStep, hf]
  by_cases hlevel : s.eng.llevel = 3
  · obtain rfl : cause = .badLevel :=
      Option.some.inj (herror.symm.trans (configError_badLevel_iff.2 hlevel))
    rw [State.stepCheck_of_badLevel hlevel, State.raise_of_configuration _ rfl] at hstep
    exact ⟨_, hstep, rfl, rfl, rfl, rfl, rfl, rfl, ⟨rfl, rfl, rfl, rfl, rfl, rfl⟩, hused, rfl, rfl, rfl⟩
  · have hne : cause ≠ .badLevel := by
      rintro rfl
      exact hlevel (configError_badLevel_iff.1 herror)
    rw [configError_of_level hlevel] at herror
    rw [State.stepCheck_of_regionError hlevel herror, State.raise_of_configuration _ hcode] at hstep
    exact ⟨_, hstep, rfl, rfl, rfl, rfl, rfl, rfl, ⟨rfl, rfl, rfl, rfl, rfl, rfl⟩, (if_neg hne).symm,
      rfl, rfl, rfl⟩

/-! ### The successful end -/

namespace State

/-- RESULT_LEN of a success (R208, R209). -/
def successLength (s : State) : Word :=
  match s.eng.lop with
  | .compress => BitVec.ofNat 32 s.eng.o
  | .decompress => s.eng.ldlen

theorem succeed_csr (s : State) :
    s.succeed.csr = { s.csr with
      resultLen := s.successLength, errCode := 0, errCause := 0, errPos := 0, done := true } := by
  cases hlop : s.eng.lop with
  | compress => rw [succeed_of_compress hlop, successLength, hlop]; simp
  | decompress => rw [succeed_of_decompress hlop, successLength, hlop]; simp

theorem succeed_eng (s : State) : s.succeed.eng = { s.eng with fsm := .idle } := by
  unfold succeed
  split <;> simp

/-- A success leaves every byte alone but, after COMPRESS, the tail behind the result (R158, R208, R209). -/
theorem readByte_succeed_of_result {s : State} {a : Nat}
    (h : s.eng.lop = .compress →
      Span.has ⟨s.eng.ldst.toNat + s.eng.o, s.eng.ldlen.toNat - s.eng.o⟩ a = false) :
    s.succeed.readByte a = s.readByte a := by
  cases hlop : s.eng.lop with
  | compress =>
    rw [succeed_of_compress hlop, readByte_report, readByte_markStale, readByte_forget _ _ _ _ (h hlop)]
  | decompress => rw [succeed_of_decompress hlop, readByte_report, readByte_markStale]

end State

/-- Settles O49: the step is the successful end, whose registers, engine and bytes are known. -/
theorem successfulCompletion : Obligations.SuccessfulCompletion := by
  intro s hin hf _
  have hstep : step s = .next s.succeed := by
    rw [State.step_of_no_inputs hin, State.engineStep, hf]
  refine ⟨_, hstep, ?_⟩
  beta_reduce
  rw [State.busy, State.irq, s.succeed_csr, s.succeed_eng]
  exact ⟨rfl, rfl, rfl, rfl, rfl, rfl, ⟨rfl, rfl, rfl, rfl, rfl, rfl⟩, rfl, rfl,
    fun _ => State.readByte_succeed_of_result⟩

end Sys2Proof.Machine
end

section
/-! PROOF. A turn of the decoder at which memory answers an access with an error (R232, R235). -/

namespace Sys2Proof.Machine
open Sys2Proof
namespace State

/-! ### What a turn of the decoder makes of its accesses -/

/-- What a whole stream instruction does, however memory answers: it fetches its bytes, is checked, and copies
(R171, R174). -/
theorem exec_of_isStream {s : State} {i : Instr} (hs : i.isStream = true)
    (hwhole : s.eng.ip + i.size ≤ s.eng.lslen.toNat) :
    exec i s = .next (s.beginAt.access (s.fetchAccesses i) s.beginAt
      ((s.beginAt.operands (fetchedBy i) (produces i) (reaches i)).checked (copyOf i))) := by
  rcases exec_stream_cases hs s with ⟨bytes, rfl, hexec⟩ | ⟨len, d, hm, hexec⟩
  · exact hexec.trans (congrArg _ (if_neg (not_lt.2 hwhole)))
  · obtain ⟨hcopy, hfetched⟩ := copyOf_of_matchOf hm
    obtain ⟨hfetch, hproduces, hreaches, -⟩ := s.accesses_of_matchOf hm
    rw [hexec, hcopy, hfetched, hfetch, hproduces, hreaches, runMatch, if_neg (not_lt.2 hwhole)]

/-- The copy phase of an instruction makes the accesses that produce its bytes, and waits where it stands
(R178, R180). -/
theorem exists_copyOf_eq_access {i : Instr} (hs : i.isStream = true) (s : State) :
    ∃ after, copyOf i (s.inCopy (fetchedBy i) (produces i) (reaches i)) =
      (s.inCopy (fetchedBy i) (produces i) (reaches i)).access (s.dataAccesses i)
        (s.inCopy (fetchedBy i) (produces i) (reaches i)) after := by
  have hcmd := s.sameCommand_inCopy (fetchedBy i) (produces i) (reaches i)
  rcases exec_stream_cases hs s with ⟨bytes, rfl, -⟩ | ⟨len, d, hm, -⟩
  · rw [(s.accesses_of_lit bytes).2.2.2, ← literalAccesses_congr hcmd]
    exact ⟨_, rfl⟩
  · obtain ⟨-, hproduces, hreaches, hdata⟩ := s.accesses_of_matchOf hm
    rw [hdata, (copyOf_of_matchOf hm).1, ← copyAccesses_congr hcmd, ← hreaches, ← hproduces]
    exact ⟨_, rfl⟩

/-- The copy phase of an instruction that waited makes the accesses it waited for (R272). -/
theorem exists_resumeCopy_eq_access (s : State) :
    ∃ after, s.resumeCopy = s.access s.resumeAccesses s after := by
  unfold resumeCopy resumeAccesses
  split
  · rw [copyLiteral, length_inBytes]
    exact ⟨_, rfl⟩
  · exact ⟨_, rfl⟩

/-! ### The first failing access ends the command -/

/-- Accesses made in another engine state of the same command end it with the cause of the one that fails. -/
theorem endedWith_access_withEng {s : State} {e : Engine} {accs : List Access} {cause : Cause}
    (hfail : s.plat.answers accs = .failed cause) (waiting after : State)
    (hldst : e.ldst = s.eng.ldst := by rfl) (hldlen : e.ldlen = s.eng.ldlen := by rfl) :
    s.EndedWith ((s.withEng e).access accs waiting after) cause (Config.freeWord s.freeCtr) := by
  rw [access_of_failed (s := s.withEng e) hfail]
  refine endedWith_raiseBus cause (sameAround_withEng s e) (fun _ => rfl) ?_
  rw [dstSpan, withEng_eng, hldst, hldlen, dstSpan]

/-- A failing access of a whole stream instruction, among those that fetch it or, if it passes its checks, among
those that produce its bytes (R173, R174, R178, R180). -/
theorem exec_endedWith {s : State} {i : Instr} {cause : Cause} (hs : i.isStream = true)
    (hwhole : s.eng.ip + i.size ≤ s.eng.lslen.toNat)
    (hfail : s.plat.answers (s.fetchAccesses i ++
      (if s.eng.o + produces i ≤ s.eng.ldlen.toNat ∧ reaches i ≤ s.eng.o then s.dataAccesses i
      else [])) = .failed cause) :
    NextWith (exec i s) (fun t => s.EndedWith t cause (Config.freeWord s.freeCtr)) := by
  refine ⟨_, exec_of_isStream hs hwhole, ?_⟩
  by_cases hfetch : s.plat.answers (s.fetchAccesses i) = .performed
  · rw [Platform.answers_append, if_pos hfetch] at hfail
    split at hfail
    · rename_i hfits
      obtain ⟨after, hcopy⟩ := exists_copyOf_eq_access hs s
      rw [access_of_performed (s := s.beginAt) hfetch, checked_operands,
        if_neg (not_lt.2 hfits.1), if_neg (not_lt.2 hfits.2), hcopy]
      exact endedWith_access_withEng hfail _ _
    · cases hfail
  · rw [Platform.answers_append, if_neg hfetch] at hfail
    exact endedWith_access_withEng hfail _ _

theorem endedWith_truncated_of_failed {s : State} {fetched : Nat} {cause : Cause}
    (hfail : s.plat.answers (s.srcReads s.eng.ip fetched) = .failed cause) (why : Cause) :
    s.EndedWith (s.truncated why fetched) cause (Config.freeWord s.freeCtr) :=
  endedWith_access_withEng hfail _ _

/-- A failing access of the turn at an instruction, whole or cut off (R171, R173, R180). -/
theorem fetchExec_endedWith {s : State} {cause : Cause}
    (hfail : s.plat.answers s.instructionAccesses = .failed cause) :
    NextWith s.fetchExec (fun t => s.EndedWith t cause (Config.freeWord s.freeCtr)) := by
  cases hdec : decode s.eng.level s.streamFrom with
  | ok read =>
    rw [instructionAccesses_of_decode hdec] at hfail
    rw [fetchExec_of_read hdec]
    obtain ⟨hs, -⟩ := encodesTo_of_decode hdec
    exact exec_endedWith hs (size_le_of_decode hdec) hfail
  | error why =>
    rw [instructionAccesses, hdec] at hfail
    rw [fetchExec, hdec]
    cases why with
    | noOpcode => cases hfail
    | truncLiteral | truncMatch => exact ⟨_, rfl, endedWith_truncated_of_failed hfail _⟩

/-- A failing access of a turn at an instruction that waited to produce its bytes (R178, R180). -/
theorem engineStep_endedWith_of_atCopy {s : State} {cause : Cause} (hat : s.AtCopy)
    (hfail : s.plat.answers s.turnAccesses = .failed cause) :
    NextWith s.engineStep (fun t => s.EndedWith t cause (Config.freeWord s.freeCtr)) := by
  rcases hat with hf | hf <;> simp only [turnAccesses, hf] at hfail <;> rw [engineStep, hf]
  · split at hfail
    · rename_i hnone
      obtain ⟨after, hresume⟩ := exists_resumeCopy_eq_access (s.withFsm .dCopy)
      rw [resumeAccesses_withFsm] at hresume
      refine ⟨_, rfl, ?_⟩
      rw [checked, hnone, hresume]
      exact endedWith_access_withEng hfail _ _
    · cases hfail
  · obtain ⟨after, hresume⟩ := exists_resumeCopy_eq_access s
    refine ⟨_, rfl, ?_⟩
    rw [hresume]
    exact endedWith_access_withEng (e := s.eng) hfail _ _

end State

/-- Settles O16: a turn of the decoder makes its accesses in one or two groups, and the group that fails ends the
command. -/
theorem busErrorIsReported : Obligations.BusErrorIsReported := by
  refine ⟨fun s i acc hs hwhole => ⟨fun hfail => ?_, fun hfetch hroom hdist hfail => ?_⟩,
    fun s acc hin hat hfail => ?_⟩
  · refine State.exec_endedWith hs hwhole ?_
    have hfetch := Platform.answers_of_firstFailure hfail
    rw [Platform.answers_append, hfetch]
    rfl
  · refine State.exec_endedWith hs hwhole ?_
    rw [Platform.answers_append, if_pos (Platform.answers_of_performed hfetch),
      if_pos ⟨hroom, hdist⟩]
    exact Platform.answers_of_firstFailure hfail
  · have hturn := Platform.answers_of_firstFailure hfail
    rw [State.step_of_no_inputs hin]
    rcases hat with hat | hat
    · rw [State.turnAccesses_of_atInstruction hat] at hturn
      rw [State.engineStep_of_atInstruction hat]
      exact State.fetchExec_endedWith hturn
    · exact State.engineStep_endedWith_of_atCopy hat hturn

end Sys2Proof.Machine
end

section
/-! PROOF. Where BUS_ERRORS_POSSIBLE is false, no step reports a BUS_ERROR (R13, R232). -/

namespace Sys2Proof.Machine
open Sys2Proof
namespace State

/-- The platform answers no access with an error, and the report is not one of BUS_ERROR (R232). -/
structure BusErrorFree (s : State) : Prop where
  impossible : s.plat.busErrors = false
  code : s.csr.errCode ≠ 4

section
variable {s : State}

/-! ### The operations that a turn is made of -/

theorem BusErrorFree.congr (h : s.BusErrorFree) {t : State} (hplat : t.plat = s.plat)
    (hcsr : t.csr = s.csr) : t.BusErrorFree :=
  ⟨hplat ▸ h.impossible, hcsr ▸ h.code⟩

theorem BusErrorFree.of_sameAround (h : s.BusErrorFree) {t : State} (ht : s.SameAround t) :
    t.BusErrorFree := by
  obtain ⟨hcsr, -, -, -, -, -, -, hplat, -⟩ := ht
  exact h.congr hplat hcsr

theorem BusErrorFree.withEng (h : s.BusErrorFree) (e : Engine) : (s.withEng e).BusErrorFree :=
  h.congr rfl rfl

/-- Registers other than ERR_CODE may change (R203, R205, R210). -/
theorem BusErrorFree.withCsr (h : s.BusErrorFree) {c : Csr} (hcode : c.errCode = s.csr.errCode) :
    (s.withCsr c).BusErrorFree :=
  ⟨h.impossible, hcode ▸ h.code⟩

/-- No access is answered with an error, so the command goes on or waits (R232). -/
theorem BusErrorFree.access (h : s.BusErrorFree) (accs : List Access) {waiting after : State}
    (hwait : waiting.BusErrorFree) (hafter : after.BusErrorFree) :
    (s.access accs waiting after).BusErrorFree := by
  rcases s.access_cases accs waiting after with ⟨-, ht⟩ | ⟨cause, hfail, -⟩ | ⟨-, ht⟩
  · rw [ht]; exact hafter
  · obtain ⟨-, hpossible⟩ := Platform.answers_failed hfail
    rw [h.impossible] at hpossible
    cases hpossible
  · rw [ht]; exact hwait

/-- An error of another code may end the command (R230). -/
theorem BusErrorFree.raise (h : s.BusErrorFree) {cause : Cause} (hcause : cause.code ≠ 4) (pos : Nat) :
    (s.raise cause pos).BusErrorFree :=
  ⟨(raise_plat s cause pos).symm ▸ h.impossible, by rwa [raise_csr]⟩

/-! ### The turns of COMPRESS -/

theorem BusErrorFree.stepSearch (h : s.BusErrorFree) : s.stepSearch.BusErrorFree := by
  unfold State.stepSearch
  split
  · exact h.withEng _
  · split
    · exact h.access _ h (h.congr rfl rfl)
    · exact h.withEng _

theorem BusErrorFree.pendingFlush (h : s.BusErrorFree) : s.pendingFlush.BusErrorFree :=
  h.of_sameAround s.sameAround_pendingFlush

theorem BusErrorFree.matchToken (h : s.BusErrorFree) : s.matchToken.BusErrorFree := by
  unfold State.matchToken
  split
  · exact h.access _ h (h.congr (by simp) (by simp))
  · exact h.raise (by decide) _

theorem BusErrorFree.stepLiteral (h : s.BusErrorFree) : s.stepLiteral.BusErrorFree := by
  have hinsert : (if isSearch s.inputLen s.eng.p then s else s.insert s.eng.p).BusErrorFree := by
    split
    · exact h
    · exact h.congr rfl rfl
  exact h.access _ h ((hinsert.of_sameAround (sameAround_litToken _ _)).withEng _)

/-! ### The turns of CHECK and DECOMPRESS -/

theorem BusErrorFree.stepCheck (h : s.BusErrorFree) : s.stepCheck.BusErrorFree := by
  have hlevel := (h.withCsr (c := { s.csr with levelUsed := levelField (resolveLevel s.eng) })
    rfl).withEng { s.eng with level := resolveLevel s.eng }
  unfold State.stepCheck
  split
  · exact h.raise (by decide) _
  · rename_i hused
    dsimp only
    split
    · rename_i cause herror
      rw [← configError_of_level hused] at herror
      refine hlevel.raise ?_ _
      rw [code_of_configError herror]
      decide
    · split <;> exact hlevel.withEng _

theorem BusErrorFree.copyMatch (h : s.BusErrorFree) : s.copyMatch.BusErrorFree :=
  h.access _ h ((h.of_sameAround (sameAround_copyBytes _ _ _ _)).withEng _)

theorem BusErrorFree.copyLiteral (h : s.BusErrorFree) (bytes : List Byte) :
    (s.copyLiteral bytes).BusErrorFree :=
  h.access _ h ((h.of_sameAround (sameAround_setOutBytes _ _ _)).withEng _)

theorem BusErrorFree.copyOf (h : s.BusErrorFree) (i : Instr) : (copyOf i s).BusErrorFree := by
  cases i
  case lit bytes => exact h.copyLiteral bytes
  all_goals exact h.copyMatch

theorem BusErrorFree.resumeCopy (h : s.BusErrorFree) : s.resumeCopy.BusErrorFree := by
  unfold State.resumeCopy
  split
  · exact h.copyLiteral _
  · exact h.copyMatch

theorem BusErrorFree.checked (h : s.BusErrorFree) {copy : State → State}
    (hcopy : (copy (s.withFsm .dCopy)).BusErrorFree) : (s.checked copy).BusErrorFree := by
  unfold State.checked
  rcases s.checkProblem_cases with ⟨-, hc⟩ | ⟨-, -, hc⟩ | ⟨-, -, hc⟩ <;> rw [hc]
  · exact h.raise (by decide) _
  · exact h.raise (by decide) _
  · exact hcopy

theorem BusErrorFree.truncated (h : s.BusErrorFree) {cause : Cause} (hcause : cause.code ≠ 4)
    (fetched : Nat) : (s.truncated cause fetched).BusErrorFree :=
  (h.withEng _).access _ (h.withEng _) ((h.withEng _).raise hcause _)

theorem BusErrorFree.fetchExec (h : s.BusErrorFree) {t : State} (ht : s.fetchExec = .next t) :
    t.BusErrorFree := by
  unfold State.fetchExec at ht
  split at ht
  · rename_i i rest hdec
    rw [exec_of_decode hdec (size_le_of_decode hdec)] at ht
    cases ht
    have hbegin : s.beginAt.BusErrorFree := h.withEng _
    have hops : ∀ fetched len d, (s.beginAt.operands fetched len d).BusErrorFree :=
      fun _ _ _ => hbegin.withEng _
    exact hbegin.access _ hbegin ((hops _ _ _).checked (((hops _ _ _).withEng _).copyOf i))
  · cases ht; exact h.raise (by decide) _
  · cases ht; exact h.truncated (by decide) _
  · cases ht; exact h.truncated (by decide) _

theorem BusErrorFree.stepEnd (h : s.BusErrorFree) : s.stepEnd.BusErrorFree := by
  unfold State.stepEnd
  split
  · exact h.raise (by decide) _
  · exact h.withEng _

theorem BusErrorFree.succeed (h : s.BusErrorFree) : s.succeed.BusErrorFree := by
  refine ⟨?_, by simp [succeed_csr]⟩
  unfold State.succeed
  split <;> simpa using h.impossible

/-- No turn of the engine reports a BUS_ERROR. -/
theorem BusErrorFree.engineStep (h : s.BusErrorFree) {t : State} (ht : s.engineStep = .next t) :
    t.BusErrorFree := by
  unfold State.engineStep at ht
  cases hf : s.eng.fsm <;> rw [hf] at ht <;> dsimp only at ht
  case dFetch =>
    unfold stepFetch at ht
    split at ht
    · exact h.fetchExec ht
    · cases ht; exact h.withEng _
  case dOperand => exact h.fetchExec ht
  all_goals cases ht
  case idle => exact h
  case check => exact h.stepCheck
  case htInit => exact h.congr rfl rfl
  case cSearch => exact h.stepSearch
  case cExtend => exact h.access _ h (h.withEng _)
  case cEmit => exact h.access _ h h.pendingFlush.matchToken
  case cLiteral => exact h.stepLiteral
  case cFlush => exact h.access _ h (h.pendingFlush.withEng _)
  case dCheck => exact h.checked (BusErrorFree.resumeCopy (h.withEng _))
  case dCopy => exact h.resumeCopy
  case dEnd => exact h.stepEnd
  case complete => exact h.succeed

/-! ### The host and the platform -/

/-- A register write clears the report or leaves it alone (R200, R203, R210). -/
theorem BusErrorFree.writeReg (h : s.BusErrorFree) {t : State} {off : Nat} {v : Word}
    (ht : s.writeReg off v = .next t) : t.BusErrorFree := by
  unfold State.writeReg at ht
  split at ht
  · cases ht; exact h
  · split at ht
    · rcases writeCmd_next ht with rfl | ⟨op, level, rfl⟩
      · exact h
      · exact ⟨h.impossible, show (0 : BitVec 4) ≠ 4 by decide⟩
    · cases ht
      split
      · exact h.withCsr rfl
      · exact h
    case h_9 => cases ht; exact h
    all_goals cases ht; exact h.withCsr rfl

theorem BusErrorFree.hostCsrWrite (h : s.BusErrorFree) {t : State} {addr : Word} {bytes : Nat}
    {v : Word} (ht : s.hostCsrWrite addr bytes v = .next t) : t.BusErrorFree := by
  have hanswered : ∀ r, (s.answered r).BusErrorFree := fun r => h.congr rfl rfl
  unfold State.hostCsrWrite at ht
  split at ht
  · cases ht; exact hanswered _
  · split at ht
    · exact (hanswered _).writeReg ht
    · cases ht; exact hanswered _

/-- No input changes BUS_ERRORS_POSSIBLE or reports a BUS_ERROR of its own. -/
theorem BusErrorFree.inputStep (h : s.BusErrorFree) {t : State} {i : Input}
    (ht : s.inputStep i = .next t) : t.BusErrorFree := by
  cases i <;> unfold State.inputStep at ht <;> dsimp only at ht
  case engine => exact h.engineStep ht
  case csrWrite => exact h.hostCsrWrite ht
  case memWrite addr v =>
    rcases s.hostMemWrite_cases addr v with ⟨why, hw⟩ | ⟨-, hw⟩ <;> rw [hw] at ht <;> cases ht
    exact h.congr (by simp) (by simp)
  case setOthers =>
    rw [setOthers_eq] at ht
    split at ht <;> cases ht
    exact ⟨h.impossible, h.code⟩
  case resetAssert =>
    cases ht
    exact ⟨(resetAssert_plat s).symm ▸ h.impossible, by rw [resetAssert_csr]; decide⟩
  case csrRead | memRead | irqSample => cases ht; exact h.congr (by simp) (by simp)
  case cacheClean | cacheInvalidate | setBus | resetRelease =>
    cases ht; exact ⟨h.impossible, h.code⟩

theorem BusErrorFree.step (h : s.BusErrorFree) {t : State} (ht : Machine.step s = .next t) :
    t.BusErrorFree := by
  unfold Machine.step at ht
  split at ht
  · exact h.engineStep ht
  · rename_i i rest _
    exact BusErrorFree.inputStep (s := { s with inputs := rest }) (h.congr rfl rfl) ht

end
end State

/-- Settles O45: a report that is not one of BUS_ERROR does not become one where no access can fail. -/
theorem noBusErrorWhereImpossible : Obligations.NoBusErrorWhereImpossible := by
  intro s t _ himpossible ht hreported
  by_contra hfree
  exact (State.BusErrorFree.step ⟨himpossible, hfree⟩ ht).code hreported

end Sys2Proof.Machine
end

section
/-! PROOF. Reset and the hazards of a running command: what a reset leaves, what it holds off, and which writes
of memory are refused (R260 to R268). -/

namespace Sys2Proof.Machine
open Sys2Proof

/-- Settles O22: a launch while the engine is busy changes nothing. -/
theorem commandIgnoredWhileBusy : Obligations.CommandIgnoredWhileBusy := fun _ level _ hb =>
  ⟨State.launch_of_busy hb .compress level, State.launch_of_busy hb .decompress level⟩

/-- Settles O42: the block after reset is idle, its memory and its table are empty, and it reports nothing. -/
theorem resetMeetsInvariant : Obligations.ResetMeetsInvariant :=
  State.inv_of_idle rfl rfl (.inl ⟨rfl, rfl⟩) (by decide) rfl nofun

/-- Settles O60: each word of the window is read from the registers as reset leaves them. -/
theorem resetValues : Obligations.ResetValues := by
  refine ⟨rfl, rfl, rfl, rfl, ?_⟩
  decide

namespace State

/-! ### Writes of memory -/

/-- Memory refuses exactly the writes that meet a region of the running command (R266, R267). -/
theorem hostMemWrite_of_hazard {s : State} {addr : Word} (hb : s.busy = true)
    (hin : (s.srcSpan.has addr.toNat || s.dstSpan.has addr.toNat) = true) (v : Byte) :
    ∃ why, s.hostMemWrite addr v = .refused why := by
  unfold hostMemWrite
  rw [hb, Bool.true_and, Bool.true_and]
  split
  · exact ⟨_, rfl⟩
  · rename_i hsrc
    rw [Bool.not_eq_true] at hsrc
    rw [hsrc, Bool.false_or] at hin
    exact ⟨_, if_pos hin⟩

theorem hostMemWrite_of_clear {s : State} {addr : Word}
    (h : s.busy = false ∨ (s.srcSpan.has addr.toNat || s.dstSpan.has addr.toNat) = false) (v : Byte) :
    s.hostMemWrite addr v =
      .next (((s.writeByte addr.toNat v).markDirty addr.toNat).answered .done) := by
  have hclear : (s.busy && s.srcSpan.has addr.toNat) = false ∧
      (s.busy && s.dstSpan.has addr.toNat) = false := by
    simpa only [Bool.or_eq_false_iff, Bool.and_eq_false_iff, ← or_and_left] using h
  obtain ⟨hsrc, hdst⟩ := hclear
  rw [hostMemWrite, hsrc, hdst, if_neg Bool.false_ne_true, if_neg Bool.false_ne_true]

end State

/-- Settles O56: the write is refused, or it is one byte written and answered. -/
theorem memoryWrites : Obligations.MemoryWrites := by
  intro s addr v later hin
  rw [State.step_of_input hin]
  refine ⟨fun ⟨hb, hmeets⟩ => State.hostMemWrite_of_hazard (s := { s with inputs := later }) hb hmeets v,
    fun hclear => ⟨_, State.hostMemWrite_of_clear (s := { s with inputs := later }) hclear v, ?_⟩⟩
  refine ⟨by simp, by simp, by simp, rfl, fun a => ?_⟩
  rw [State.readByte_answered, State.readByte_markDirty, State.readByte_writeByte]
  exact if_congr eq_comm rfl rfl

namespace State

/-! ### Reset asserted and held -/

/-- Reset makes every destination byte of a running command a free value, and no other byte of memory (R260). -/
theorem readByte_resetAssert_eq (s : State) (a : Nat) :
    s.resetAssert.readByte a =
      if s.busy = true ∧ s.dstSpan.has a = true then Config.freeByte s.freeCtr a else s.readByte a := by
  split
  · rename_i hlost
    obtain ⟨hb, hin⟩ := hlost
    have hmem : s.resetAssert.readByte a = s.loseDestination.readByte a := by
      simp only [resetAssert, hb, if_true]
      rfl
    rw [hmem, loseDestination, readByte_markStale]
    exact readByte_forget_inside s _ _ a hin
  · rename_i hkept
    refine s.readByte_resetAssert a ?_
    rwa [not_and_or, Bool.not_eq_true, Bool.not_eq_true] at hkept

/-- While reset is held a register access is answered and changes nothing of the block (R260). -/
theorem hostCsrWrite_of_held {s : State} (h : s.resetHeld = true) (addr : Word) (bytes : Nat) (v : Word) :
    ∃ r, s.hostCsrWrite addr bytes v = .next (s.answered r) := by
  unfold hostCsrWrite
  split
  · exact ⟨_, rfl⟩
  · split
    · exact ⟨_, writeReg_of_held (s := s.answered .done) h _ _⟩
    · exact ⟨_, rfl⟩

/-- While reset is held no action but its release changes the engine or the hash table, or lets go of reset. -/
theorem inputStep_of_held {s t : State} (hidle : s.eng.fsm = .idle) (h : s.resetHeld = true) {i : Input}
    (hi : i ≠ .resetRelease) (ht : s.inputStep i = .next t) :
    t.resetHeld = true ∧ t.eng = s.eng ∧ t.ht = s.ht := by
  cases i <;> unfold inputStep at ht <;> dsimp only at ht
  case resetRelease => exact absurd rfl hi
  case engine =>
    rw [engineStep, hidle] at ht
    cases ht
    exact ⟨h, rfl, rfl⟩
  case csrWrite addr bytes v =>
    obtain ⟨r, hw⟩ := hostCsrWrite_of_held h addr bytes v
    rw [hw] at ht
    cases ht
    exact ⟨h, rfl, rfl⟩
  case memWrite addr v =>
    rcases s.hostMemWrite_cases addr v with ⟨why, hw⟩ | ⟨-, hw⟩ <;> rw [hw] at ht <;> cases ht
    exact ⟨by simpa using h, by simp, by simp⟩
  case setOthers =>
    rw [setOthers_eq] at ht
    split at ht <;> cases ht
    exact ⟨h, rfl, rfl⟩
  case resetAssert =>
    cases ht
    exact ⟨rfl, by rw [resetAssert_eng, ← hidle], by simp⟩
  case csrRead | memRead | irqSample => cases ht; exact ⟨by simpa using h, by simp, by simp⟩
  case cacheClean | cacheInvalidate | setBus => cases ht; exact ⟨h, rfl, rfl⟩

/-- While reset is held a step of an idle block keeps it held, unless it is the release (R260, R262). -/
theorem step_of_held {s t : State} (hidle : s.eng.fsm = .idle) (h : s.resetHeld = true)
    (hi : ∀ later, s.inputs ≠ .resetRelease :: later) (ht : step s = .next t) :
    t.resetHeld = true ∧ t.eng = s.eng ∧ t.ht = s.ht := by
  cases hin : s.inputs with
  | nil =>
    rw [step_of_no_inputs hin, engineStep, hidle] at ht
    cases ht
    exact ⟨h, rfl, rfl⟩
  | cons i later =>
    rw [step_of_input hin] at ht
    refine inputStep_of_held (s := { s with inputs := later }) hidle h ?_ ht
    rintro rfl
    exact hi later hin

end State

/-- Settles O59: the assertion byte by byte of memory; the hold by the invariant, which every step keeps, and by
what no action changes meanwhile. -/
theorem resetTakesEffect : Obligations.ResetTakesEffect := by
  refine ⟨fun s later hin => ?_, fun s t h hheld ht hi => ?_, fun s h hheld hin => ?_,
    fun s off v later hheld hoff hword hin => ?_, fun s level ignored hheld => ?_, fun s later hin => ?_⟩
  · refine ⟨_, State.step_of_input hin, ?_⟩
    exact ⟨rfl, by simp, rfl, rfl, by simp, by simp, by simp,
      State.readByte_resetAssert_eq { s with inputs := later }⟩
  · obtain ⟨htheld, heng, hht⟩ := State.step_of_held (h.held hheld).2 hheld hi ht
    obtain ⟨hcsr, hidle⟩ := (stepKeepsInvariant s t h ht).held htheld
    exact ⟨htheld, hcsr, heng, hidle, by rw [State.irq, hcsr]; rfl, hht⟩
  · rw [State.step_of_no_inputs hin, State.engineStep, (h.held hheld).2]
  · rw [State.step_of_wordWrite hin hoff hword]
    exact State.writeReg_of_held (s := { s with inputs := later, resp := .done }) hheld off v
  · exact ⟨State.launch_of_held hheld .compress level, State.launch_of_held hheld .decompress level⟩
  · exact State.step_of_input hin

end Sys2Proof.Machine
end

section
/-! PROOF. Every command completes if memory answers: each turn of the engine ends the command or brings it nearer
to its end (R272). -/

namespace Sys2Proof.Machine
open Sys2Proof

/-- A bound on the turns that a command still takes if memory answers. The finder spends at most three on each
input position still ahead of it, the decoder one on each stream byte, for an instruction has at least one. -/
def Engine.turnsLeft (e : Engine) : Nat :=
  match e.fsm with
  | .idle => 0
  | .complete => 1
  | .cFlush | .dEnd => 2
  | .dFetch | .dOperand => (e.lslen.toNat - e.ip) + 3
  | .dCheck | .dCopy => (e.lslen.toNat - e.ip) + 4
  | .cEmit | .cLiteral => 3 * (e.lslen.toNat - e.p) + 1
  | .cExtend => 3 * (e.lslen.toNat - e.p) + 2
  | .cSearch => 3 * (e.lslen.toNat - e.p) + 3
  | .htInit => 3 * e.lslen.toNat + 4
  | .check => 3 * e.lslen.toNat + 5

namespace State

theorem SameAround.inputs {s t : State} (h : s.SameAround t) : t.inputs = s.inputs := by
  obtain ⟨-, -, -, -, -, -, -, -, hinputs, -⟩ := h
  exact hinputs

/-- The command that ran has ended and reported (R236). -/
def Completed (t : State) : Prop := t.eng.fsm = .idle ∧ t.csr.done = true

/-- What a turn from s leads to in t if memory answers: the command has completed, or it goes on with fewer turns
left. -/
def Advances (s t : State) : Prop :=
  t.Completed ∨ t.busy = true ∧ t.inputs = s.inputs ∧ t.eng.turnsLeft < s.eng.turnsLeft

theorem advances_raise (s x : State) (cause : Cause) (pos : Nat) : s.Advances (x.raise cause pos) :=
  .inl ⟨by simp, by simp⟩

theorem advances_of_goesOn {s t : State} (hbusy : t.eng.fsm ≠ .idle) (hinputs : t.inputs = s.inputs)
    (hlt : t.eng.turnsLeft < s.eng.turnsLeft) : s.Advances t :=
  .inr ⟨busy_iff.2 hbusy, hinputs, hlt⟩

/-! ### The turns of COMPRESS -/

theorem stepHtInit_advances {s : State} (hf : s.eng.fsm = .htInit) : s.Advances s.stepHtInit := by
  refine advances_of_goesOn (by simp [stepHtInit]) rfl ?_
  simp [stepHtInit, Engine.turnsLeft, hf]

theorem stepSearch_advances {s : State} (ha : s.plat.Answers) (hf : s.eng.fsm = .cSearch) :
    s.Advances s.stepSearch := by
  by_cases hend : s.inputLen ≤ s.eng.p
  · rw [stepSearch, if_pos hend]
    exact advances_of_goesOn (by simp) rfl (by simp [Engine.turnsLeft, hf])
  cases hsearch : isSearch s.inputLen s.eng.p with
  | false =>
    rw [stepSearch_of_edge (not_le.1 hend) hsearch]
    exact advances_of_goesOn (by simp) rfl (by simp [Engine.turnsLeft, hf])
  | true =>
    rw [stepSearch_of_search ha hsearch]
    split <;> exact advances_of_goesOn (by simp [searched]) rfl (by simp [searched, Engine.turnsLeft, hf])

theorem stepExtend_advances {s : State} (ha : s.plat.Answers) (hf : s.eng.fsm = .cExtend) :
    s.Advances s.stepExtend := by
  rw [stepExtend, access_of_answers ha]
  split <;> exact advances_of_goesOn (by simp) rfl (by simp [Engine.turnsLeft, hf])

/-- A match token takes the finder past at least three positions (R132, R135). -/
theorem stepEmit_advances {s : State} (h : s.Inv) (ha : s.plat.Answers) (hf : s.eng.fsm = .cEmit) :
    s.Advances s.stepEmit := by
  have hp := h.progressing
  simp only [Progressing, hf] at hp
  obtain ⟨-, -, -, hrep, -, htail⟩ := hp
  have hlen := (representable_iff.1 hrep).1
  obtain ⟨-, -, -, heng⟩ := s.pendingFlush_spec
  rw [stepEmit_of_answers ha hrep]
  refine advances_of_goesOn (by simp [afterMatch])
    (by simpa [afterMatch] using s.sameAround_pendingFlush.inputs) ?_
  simp only [afterMatch, withEng_eng, insertMany_eng, emit_eng, heng, Engine.turnsLeft, hf]
  omega

/-- A literal token takes the finder one position on (R131). -/
theorem stepLiteral_advances {s : State} (h : s.Inv) (ha : s.plat.Answers) (hf : s.eng.fsm = .cLiteral) :
    s.Advances s.stepLiteral := by
  have hp := h.progressing
  simp only [Progressing, hf] at hp
  obtain ⟨-, -, -, hlt⟩ := hp
  obtain ⟨hupdated, -, hinputs, -⟩ := s.updated_spec
  obtain ⟨-, -, -, heng⟩ := s.updated.litToken_spec s.eng.p
  rw [stepLiteral_of_answers ha]
  refine advances_of_goesOn (by simp [afterLiteral]) 
    ((s.updated.sameAround_litToken s.eng.p).inputs.trans hinputs) ?_
  simp only [afterLiteral, withEng_eng, heng, hupdated, Engine.turnsLeft, hf]
  omega

theorem stepFlush_advances {s : State} (ha : s.plat.Answers) (hf : s.eng.fsm = .cFlush) :
    s.Advances s.stepFlush := by
  rw [stepFlush_of_answers ha]
  exact advances_of_goesOn (by simp) s.sameAround_pendingFlush.inputs (by simp [Engine.turnsLeft, hf])

/-! ### The turns of DECOMPRESS -/

/-- The end of an instruction, at a stream offset nearer to the end than the turn began. -/
theorem advances_produced {s x : State} {ip n : Nat} (hx : s.SameAround x)
    (hlslen : x.eng.lslen = s.eng.lslen) (hlt : s.eng.lslen.toNat - ip + 3 < s.eng.turnsLeft) :
    s.Advances (x.produced ip n) := by
  refine advances_of_goesOn (by simp [produced]) hx.inputs ?_
  simpa only [produced, withEng_eng, hlslen, Engine.turnsLeft] using hlt

theorem copyMatch_advances {s x : State} (hx : s.SameAround x) (ha : x.plat.Answers)
    (hlslen : x.eng.lslen = s.eng.lslen) (hlt : s.eng.lslen.toNat - x.eng.ip + 3 < s.eng.turnsLeft) :
    s.Advances x.copyMatch := by
  rw [copyMatch_of_answers ha]
  exact advances_produced (hx.trans (sameAround_copyBytes _ _ _ _)) (by rw [copyBytes_eng, hlslen]) hlt

theorem copyLiteral_advances {s x : State} (hx : s.SameAround x) (ha : x.plat.Answers)
    (hlslen : x.eng.lslen = s.eng.lslen) (hlt : s.eng.lslen.toNat - x.eng.ip + 3 < s.eng.turnsLeft)
    (bytes : List Byte) : s.Advances (x.copyLiteral bytes) := by
  rw [copyLiteral_of_answers ha]
  exact advances_produced (hx.trans (sameAround_setOutBytes _ _ _)) (by rw [setOutBytes_eng, hlslen])
    (by omega)

theorem truncated_advances {s : State} (ha : s.plat.Answers) (cause : Cause) (fetched : Nat) :
    s.Advances (s.truncated cause fetched) := by
  rw [truncated, access_of_answers (s := s.beginAt) ha]
  exact advances_raise _ _ _ _

/-- An instruction that is read ends the command or takes the decoder past at least one stream byte (R100). -/
theorem fetchExec_advances {s : State} (ha : s.plat.Answers)
    (hleft : s.eng.turnsLeft = s.eng.lslen.toNat - s.eng.ip + 3) :
    NextWith s.fetchExec s.Advances := by
  cases hdec : decode s.eng.level s.streamFrom with
  | error why =>
    rw [fetchExec, hdec]
    cases why with
    | noOpcode => exact ⟨_, rfl, advances_raise _ _ _ _⟩
    | truncLiteral | truncMatch => exact ⟨_, rfl, truncated_advances ha _ _⟩
  | ok read =>
    obtain ⟨i, rest⟩ := read
    obtain ⟨hs, -⟩ := encodesTo_of_decode hdec
    have hwhole := size_le_of_decode hdec
    rw [fetchExec_of_read hdec, exec_of_whole hs ha hwhole]
    refine ⟨_, rfl, ?_⟩
    split
    · exact advances_raise _ _ _ _
    split
    · exact advances_raise _ _ _ _
    have hsize := i.size_pos
    rcases decode_reads hdec with ⟨op, lits, rfl, -, -⟩ | ⟨len, d, front, hm, -, -, -⟩
    · refine copyLiteral_advances (x := s.inCopy 1 lits.length 0) (sameAround_withEng s _) ha rfl ?_ lits
      change s.eng.lslen.toNat - (s.eng.ip + 1) + 3 < s.eng.turnsLeft
      omega
    · obtain ⟨hcopy, hfetched⟩ := copyOf_of_matchOf hm
      rw [hcopy, hfetched]
      refine copyMatch_advances (sameAround_withEng s _) ha rfl ?_
      change s.eng.lslen.toNat - (s.eng.ip + i.size) + 3 < s.eng.turnsLeft
      omega

theorem stepFetch_advances {s : State} (ha : s.plat.Answers) (hf : s.eng.fsm = .dFetch) :
    NextWith s.stepFetch s.Advances := by
  unfold stepFetch
  split
  · exact fetchExec_advances ha (by simp only [Engine.turnsLeft, hf])
  · exact ⟨_, rfl, advances_of_goesOn (by simp) rfl (by simp [Engine.turnsLeft, hf])⟩

/-- An instruction that waited produces its bytes; ip is past what was fetched, and at most moves on (R178, R180). -/
theorem resumeCopy_advances {s x : State} (hx : s.SameAround x) (ha : x.plat.Answers)
    (hlslen : x.eng.lslen = s.eng.lslen) (hlt : s.eng.lslen.toNat - x.eng.ip + 3 < s.eng.turnsLeft) :
    s.Advances x.resumeCopy := by
  unfold resumeCopy
  split
  · exact copyLiteral_advances hx ha hlslen hlt _
  · exact copyMatch_advances hx ha hlslen hlt

theorem checked_advances {s : State} (ha : s.plat.Answers) (hf : s.eng.fsm = .dCheck) :
    s.Advances (s.checked resumeCopy) := by
  rcases s.checked_cases resumeCopy with ⟨cause, -, hc⟩ | ⟨-, hc⟩ <;> rw [hc]
  · exact advances_raise _ _ _ _
  · exact resumeCopy_advances (sameAround_withEng s _) ha rfl (by simp [Engine.turnsLeft, hf])

theorem stepEnd_advances {s : State} (hf : s.eng.fsm = .dEnd) : s.Advances s.stepEnd := by
  unfold stepEnd
  split
  · exact advances_raise _ _ _ _
  · exact advances_of_goesOn (by simp) rfl (by simp [Engine.turnsLeft, hf])

/-! ### The first turn of a command, and all its turns -/

theorem stepCheck_advances {s : State} (hf : s.eng.fsm = .check) : s.Advances s.stepCheck := by
  cases hcfg : configError s.eng with
  | some cause =>
    obtain ⟨c, e, hstep, -⟩ := stepCheck_of_invalid hcfg
    rw [hstep]
    exact advances_raise _ _ _ _
  | none =>
    cases hlop : s.eng.lop with
    | compress =>
      rw [stepCheck_of_compress hcfg hlop]
      exact advances_of_goesOn (by simp) rfl (by simp [Engine.turnsLeft, hf])
    | decompress =>
      rw [stepCheck_of_decompress hcfg hlop]
      exact advances_of_goesOn (by simp) rfl (by simp [Engine.turnsLeft, hf]; omega)

/-- If memory answers, every turn of a running command ends it or brings it nearer to its end (R272). -/
theorem engineStep_advances {s : State} (h : s.Inv) (hb : s.busy = true) (ha : s.plat.Answers) :
    NextWith s.engineStep s.Advances := by
  unfold engineStep
  cases hf : s.eng.fsm <;> dsimp only
  case idle => exact absurd hf (busy_iff.1 hb)
  case check => exact ⟨_, rfl, stepCheck_advances hf⟩
  case htInit => exact ⟨_, rfl, stepHtInit_advances hf⟩
  case cSearch => exact ⟨_, rfl, stepSearch_advances ha hf⟩
  case cExtend => exact ⟨_, rfl, stepExtend_advances ha hf⟩
  case cEmit => exact ⟨_, rfl, stepEmit_advances h ha hf⟩
  case cLiteral => exact ⟨_, rfl, stepLiteral_advances h ha hf⟩
  case cFlush => exact ⟨_, rfl, stepFlush_advances ha hf⟩
  case dFetch => exact stepFetch_advances ha hf
  case dOperand => exact fetchExec_advances ha (by simp only [Engine.turnsLeft, hf])
  case dCheck => exact ⟨_, rfl, checked_advances ha hf⟩
  case dCopy =>
    exact ⟨_, rfl, resumeCopy_advances (sameAround_withEng s s.eng) ha rfl
      (by simp [Engine.turnsLeft, hf])⟩
  case dEnd => exact ⟨_, rfl, stepEnd_advances hf⟩
  case complete => exact ⟨_, rfl, .inl ⟨by rw [succeed_eng], by rw [succeed_csr]⟩⟩

/-- A running command completes within the turns it has left, each of which keeps the invariant. -/
theorem reaches_completed (turns : Nat) : ∀ {s : State}, s.Inv → s.busy = true → s.inputs = [] →
    s.plat.Answers → s.eng.turnsLeft < turns → ∃ t, s.Reaches t ∧ t.Completed := by
  induction turns with
  | zero => intro s _ _ _ _ hturns; exact absurd hturns (Nat.not_lt_zero _)
  | succ turns ih =>
    intro s h hb hin ha hturns
    obtain ⟨t, hturn, hdone | ⟨htb, htin, hlt⟩⟩ := engineStep_advances h hb ha
    all_goals have hstep : step s = .next t := (step_of_no_inputs hin).trans hturn
    · exact ⟨t, .step hstep (.refl t), hdone⟩
    · have hplat := ((engineStep_result hb hturn).onward htb).plat
      obtain ⟨u, hu, hdone⟩ := ih (engineStep_inv h hturn) htb (htin.trans hin) (hplat ▸ ha) (by omega)
      exact ⟨u, .step hstep hu, hdone⟩

end State

/-- Settles O41, by induction on the turns that the command has left at most. -/
theorem commandsTerminate : Obligations.CommandsTerminate := by
  intro s h hb hin ha
  obtain ⟨t, ⟨steps, hrun⟩, hdone⟩ :=
    State.reaches_completed (s.eng.turnsLeft + 1) h hb hin ha (Nat.lt_succ_self _)
  exact ⟨steps, t, hrun, hdone⟩

end Sys2Proof.Machine
end

section
/-! PROOF. A turn of the decoder at which memory leaves an access unanswered: the engine waits in D_OPERAND or in
D_COPY, and what it does later is what it would have done at once (R272). -/

namespace Sys2Proof.Machine
open Sys2Proof

/-- A well-formed match reaches back at least one byte (R94, R97, R98). -/
theorem one_le_of_wf_match {i : Instr} {len d : Nat} (h : i.wf) (hm : matchOf i = some (len, d)) :
    1 ≤ d := by
  rw [Nat.one_le_iff_ne_zero]
  rintro rfl
  cases i <;> cases hm <;> simp [Instr.wf, Instr.problem, distanceProblem, Config.farBase] at h
  all_goals split at h <;> cases h

namespace State

/-- t is s waiting for an access: only the engine differs, it stands in D_OPERAND or D_COPY at the same output
offset, and as memory answers its next turn changes nothing (R272). -/
structure Waits (s t : State) : Prop where
  engine : t = s.withEng t.eng
  phase : t.eng.fsm = .dOperand ∨ t.eng.fsm = .dCopy
  offset : t.eng.o = s.eng.o
  stays : t.engineStep = .next t

theorem Waits.frame {s t : State} (h : s.Waits t) :
    s.SameAround t ∧ t.mem = s.mem ∧ t.unspec = s.unspec ∧ t.busy = true := by
  have hbusy : t.busy = true := busy_iff.2 (by rcases h.phase with hf | hf <;> rw [hf] <;> decide)
  refine ⟨?_, ?_, ?_, hbusy⟩ <;> rw [h.engine]
  · exact sameAround_withEng s _
  · rfl
  · rfl

/-! ### Waiting for the bytes of an instruction -/

/-- A read of the opcode that is not answered holds up the fetch (R173, R180). -/
theorem answers_srcReads_of_opcode {s : State} {n : Nat} (hn : 0 < n)
    (h : s.plat.answer (.srcRead (s.srcAddr s.eng.ip)) = .pending) :
    s.plat.answers (s.srcReads s.eng.ip n) = .pending := by
  obtain ⟨m, rfl⟩ := Nat.exists_eq_succ_of_ne_zero (Nat.pos_iff_ne_zero.1 hn)
  rw [srcReads_succ, Platform.answers, h]

theorem fetchAccesses_eq_srcReads (s : State) (i : Instr) :
    s.fetchAccesses i = s.srcReads s.eng.ip (fetchedBy i) := by
  cases i <;> rfl

theorem fetchedBy_pos (i : Instr) : 0 < fetchedBy i := by
  unfold fetchedBy
  split
  · exact Nat.zero_lt_one
  · exact i.size_pos

theorem truncated_of_pending {s : State} {fetched : Nat}
    (h : s.plat.answers (s.srcReads s.eng.ip fetched) = .pending) (cause : Cause) :
    s.truncated cause fetched = s.beginAt :=
  access_of_pending (s := s.beginAt) h _ _

theorem exec_of_pending_fetch {s : State} {i : Instr} (hs : i.isStream = true)
    (hwhole : s.eng.ip + i.size ≤ s.eng.lslen.toNat)
    (h : s.plat.answers (s.fetchAccesses i) = .pending) : exec i s = .next s.beginAt := by
  rw [exec_of_isStream hs hwhole, access_of_pending (s := s.beginAt) h]

/-- An instruction whose opcode is not read waits, whole or cut off (R171, R173, R180). -/
theorem exec_of_pending_opcode {s : State} {i : Instr} (hs : i.isStream = true)
    (hip : s.eng.ip < s.eng.lslen.toNat)
    (h : s.plat.answer (.srcRead (s.srcAddr s.eng.ip)) = .pending) : exec i s = .next s.beginAt := by
  by_cases hwhole : s.eng.ip + i.size ≤ s.eng.lslen.toNat
  · exact exec_of_pending_fetch hs hwhole
      (s.fetchAccesses_eq_srcReads i ▸ answers_srcReads_of_opcode (fetchedBy_pos i) h)
  · have hcut := not_le.1 hwhole
    rcases exec_stream_cases hs s with ⟨bytes, rfl, hexec⟩ | ⟨len, d, -, hexec⟩
    · exact hexec.trans (congrArg _ ((if_pos hcut).trans
        (truncated_of_pending (answers_srcReads_of_opcode Nat.zero_lt_one h) _)))
    · exact hexec.trans (congrArg _ ((if_pos hcut).trans
        (truncated_of_pending (answers_srcReads_of_opcode (Nat.sub_pos_of_lt hip) h) _)))

/-- Begun once or begun again, an instruction does the same. -/
theorem exec_beginAt {i : Instr} (hs : i.isStream = true) (s : State) :
    exec i s.beginAt = exec i s := by
  rcases exec_stream_cases hs s with ⟨bytes, rfl, -⟩ | ⟨len, d, hm, -⟩
  · rfl
  · rw [exec_of_matchOf hm, exec_of_matchOf hm]
    rfl

theorem streamFrom_beginAt (s : State) : s.beginAt.streamFrom = s.streamFrom :=
  inBytes_congr (s := s) (t := s.beginAt) (fun _ => rfl) _ _

/-- The decoder waits in D_OPERAND if its next turn is held up too. -/
theorem waits_beginAt {s : State} (h : s.beginAt.fetchExec = .next s.beginAt) : s.Waits s.beginAt :=
  ⟨rfl, .inl rfl, rfl, h⟩

/-! ### Waiting to produce the bytes of an instruction -/

/-- What an instruction waits for in D_COPY are the accesses that produce its bytes (R178, R180). -/
theorem resumeAccesses_inCopy {i : Instr} (hs : i.isStream = true) (hwf : i.wf) (s : State) :
    (s.inCopy (fetchedBy i) (produces i) (reaches i)).resumeAccesses = s.dataAccesses i := by
  have hcmd := s.sameCommand_inCopy (fetchedBy i) (produces i) (reaches i)
  rcases exec_stream_cases hs s with ⟨bytes, rfl, -⟩ | ⟨len, d, hm, -⟩
  · rw [(s.accesses_of_lit bytes).2.2.2, ← literalAccesses_congr hcmd]
    rfl
  · obtain ⟨-, hproduces, hreaches, hdata⟩ := s.accesses_of_matchOf hm
    have hd : reaches i ≠ 0 := hreaches ▸ Nat.one_le_iff_ne_zero.1 (one_le_of_wf_match hwf hm)
    rw [hdata, ← copyAccesses_congr hcmd, ← hproduces, ← hreaches]
    exact if_neg hd

theorem resumeCopy_of_pending {s : State} (h : s.plat.answers s.resumeAccesses = .pending) :
    s.resumeCopy = s := by
  obtain ⟨after, hcopy⟩ := exists_resumeCopy_eq_access s
  rw [hcopy, access_of_pending h]

/-- In D_COPY the engine stays while an access of its copy is not answered. -/
theorem engineStep_of_pending_copy {s : State} (hf : s.eng.fsm = .dCopy)
    (h : s.plat.answers s.resumeAccesses = .pending) : s.engineStep = .next s := by
  rw [engineStep, hf]
  exact congrArg _ (resumeCopy_of_pending h)

/-- A whole instruction that is fetched and passes its checks goes to its copy phase, however memory answers
there (R174). -/
theorem exec_of_fetched {s : State} {i : Instr} (hs : i.isStream = true)
    (hwhole : s.eng.ip + i.size ≤ s.eng.lslen.toNat)
    (hfetch : s.plat.answers (s.fetchAccesses i) = .performed)
    (hroom : s.eng.o + produces i ≤ s.eng.ldlen.toNat) (hdist : reaches i ≤ s.eng.o) :
    exec i s = .next (copyOf i (s.inCopy (fetchedBy i) (produces i) (reaches i))) := by
  rw [exec_of_isStream hs hwhole, access_of_performed (s := s.beginAt) hfetch, checked_operands,
    if_neg (not_lt.2 hroom), if_neg (not_lt.2 hdist)]

/-- The state in which an instruction waits to produce its bytes. -/
theorem waits_inCopy {s : State} {i : Instr} (hs : i.isStream = true) (hwf : i.wf)
    (h : s.plat.answers (s.dataAccesses i) = .pending) :
    copyOf i (s.inCopy (fetchedBy i) (produces i) (reaches i)) =
        s.inCopy (fetchedBy i) (produces i) (reaches i) ∧
      s.Waits (s.inCopy (fetchedBy i) (produces i) (reaches i)) := by
  obtain ⟨after, hcopy⟩ := exists_copyOf_eq_access hs s
  refine ⟨hcopy.trans (access_of_pending (s := s.inCopy _ _ _) h _ _), rfl, .inr rfl, rfl, ?_⟩
  exact engineStep_of_pending_copy rfl (by rw [resumeAccesses_inCopy hs hwf]; exact h)

/-! ### A turn at an instruction -/

/-- An instruction that is read and held up waits in D_OPERAND, or in D_COPY once it has passed its checks. -/
theorem exec_of_pending {s : State} {i : Instr} (hs : i.isStream = true) (hwf : i.wf)
    (hwhole : s.eng.ip + i.size ≤ s.eng.lslen.toNat)
    (h : s.plat.answers (s.fetchAccesses i ++
      (if s.eng.o + produces i ≤ s.eng.ldlen.toNat ∧ reaches i ≤ s.eng.o then s.dataAccesses i
      else [])) = .pending) :
    exec i s = .next s.beginAt ∨
      exec i s = .next (s.inCopy (fetchedBy i) (produces i) (reaches i)) ∧
        s.Waits (s.inCopy (fetchedBy i) (produces i) (reaches i)) ∧
        s.eng.o + produces i ≤ s.eng.ldlen.toNat ∧ reaches i ≤ s.eng.o := by
  by_cases hfetch : s.plat.answers (s.fetchAccesses i) = .performed
  · rw [Platform.answers_append, if_pos hfetch] at h
    split at h
    · rename_i hfits
      obtain ⟨hroom, hdist⟩ := hfits
      obtain ⟨hcopy, hwaits⟩ := waits_inCopy hs hwf h
      exact .inr ⟨(exec_of_fetched hs hwhole hfetch hroom hdist).trans (congrArg _ hcopy), hwaits,
        hroom, hdist⟩
    · cases h
  · rw [Platform.answers_append, if_neg hfetch] at h
    exact .inl (exec_of_pending_fetch hs hwhole h)

/-- The turn at an instruction, whole or cut off, that memory holds up (R171, R272). -/
theorem fetchExec_waits {s : State} (h : s.plat.answers s.instructionAccesses = .pending) :
    NextWith s.fetchExec s.Waits := by
  cases hdec : decode s.eng.level s.streamFrom with
  | ok read =>
    obtain ⟨i, rest⟩ := read
    obtain ⟨hs, hwf, -⟩ := encodesTo_of_decode hdec
    have hbegun : s.beginAt.fetchExec = exec i s.beginAt :=
      fetchExec_of_read (by rw [streamFrom_beginAt]; exact hdec)
    rw [instructionAccesses_of_decode hdec] at h
    rw [fetchExec_of_read hdec]
    rcases exec_of_pending hs hwf (size_le_of_decode hdec) h with hexec | ⟨hexec, hwaits, -⟩
    · exact ⟨_, hexec, waits_beginAt (by rw [hbegun, exec_beginAt hs, hexec])⟩
    · exact ⟨_, hexec, hwaits⟩
  | error why =>
    have hbegun : decode s.beginAt.eng.level s.beginAt.streamFrom = .error why := by
      rw [streamFrom_beginAt]; exact hdec
    rw [instructionAccesses, hdec] at h
    cases why with
    | noOpcode => cases h
    | truncLiteral | truncMatch =>
      refine ⟨s.beginAt, ?_, waits_beginAt ?_⟩
      · rw [fetchExec, hdec]
        exact congrArg _ (truncated_of_pending h _)
      · rw [fetchExec, hbegun]
        exact congrArg _ (truncated_of_pending (s := s.beginAt) h _)

/-- The turn of an instruction that waited to produce its bytes, held up again (R178, R180, R272). -/
theorem engineStep_waits_of_atCopy {s : State} (hat : s.AtCopy)
    (h : s.plat.answers s.turnAccesses = .pending) : NextWith s.engineStep s.Waits := by
  have hcopy : s.plat.answers (s.withFsm .dCopy).resumeAccesses = .pending ∧
      s.engineStep = .next (s.withFsm .dCopy).resumeCopy := by
    rw [resumeAccesses_withFsm]
    rcases hat with hf | hf <;> simp only [turnAccesses, hf] at h <;> rw [engineStep, hf]
    · split at h
      · rename_i hnone
        exact ⟨h, by rw [checked, hnone]⟩
      · cases h
    · exact ⟨h, by rw [withFsm_self hf]⟩
  obtain ⟨hpending, hstep⟩ := hcopy
  rw [resumeCopy_of_pending (s := s.withFsm .dCopy) hpending] at hstep
  exact ⟨_, hstep, rfl, .inr rfl, rfl, engineStep_of_pending_copy rfl hpending⟩

/-! ### The same instruction when memory answers otherwise -/

theorem take_inBytes (s : State) (i n k : Nat) : (s.inBytes i (n + k)).take n = s.inBytes i n := by
  simp [inBytes_eq_map, ← List.map_take, List.take_range]

/-- The bytes of a literal run are those of the stream behind its opcode (R93, R180). -/
theorem inBytes_of_literal {s : State} {op : Byte} {lits rest : List Byte}
    (h : s.streamFrom = op :: lits ++ rest) : s.inBytes (s.eng.ip + 1) lits.length = lits := by
  have hlen : s.eng.lslen.toNat - s.eng.ip = lits.length + rest.length + 1 := by
    have hlength := congrArg List.length h
    rw [streamFrom, length_inBytes] at hlength
    simpa [Nat.add_right_comm] using hlength
  rw [streamFrom, hlen, inBytes, List.cons_append, List.cons.injEq] at h
  rw [← take_inBytes _ _ _ rest.length, h.2, List.take_left]

/-- In D_COPY the engine knows what it needs of the instruction it has read: it copies as it would have at once. -/
theorem resumeCopy_inCopy {s : State} {level : Level} {i : Instr} {rest : List Byte}
    (hdec : decode level s.streamFrom = .ok (i, rest)) :
    (s.inCopy (fetchedBy i) (produces i) (reaches i)).resumeCopy =
      copyOf i (s.inCopy (fetchedBy i) (produces i) (reaches i)) := by
  rcases decode_reads hdec with ⟨op, lits, rfl, -, hstream⟩ | ⟨len, d, front, hm, -, hd, -⟩
  · have hbytes : (s.inCopy 1 lits.length 0).inBytes (s.eng.ip + 1) lits.length = lits :=
      (inBytes_congr (s := s) (t := s.inCopy 1 lits.length 0) (fun _ => rfl) _ _).trans (inBytes_of_literal hstream)
    exact (if_pos rfl).trans (congrArg _ hbytes)
  · obtain ⟨-, -, hreaches, -⟩ := s.accesses_of_matchOf hm
    rw [(copyOf_of_matchOf hm).1]
    exact if_neg (hreaches ▸ Nat.one_le_iff_ne_zero.1 hd)

/-- An instruction that is held up does later, when memory answers otherwise, what it would have done at once. -/
theorem step_withBus_of_waiting {s t : State} {i : Instr} {rest : List Byte} {rules : List BusRule}
    (hin : s.inputs = []) (hat : s.AtInstruction)
    (hdec : decode s.eng.level s.streamFrom = .ok (i, rest))
    (hpending : s.plat.answers s.turnAccesses = .pending) (ht : step s = .next t)
    (hfetch : (s.withBus rules).plat.answers (s.fetchAccesses i) = .performed) :
    step (t.withBus rules) = step (s.withBus rules) := by
  obtain ⟨hs, hwf, -⟩ := encodesTo_of_decode hdec
  have hwhole := size_le_of_decode hdec
  have hread : decode s.eng.level (s.withBus rules).streamFrom = .ok (i, rest) := by
    rw [withBus_streamFrom]; exact hdec
  rw [turnAccesses_of_atInstruction hat, instructionAccesses_of_decode hdec] at hpending
  rw [step_of_atInstruction hin hat, fetchExec_of_read hdec] at ht
  rw [step_of_atInstruction (s := s.withBus rules) hin hat, fetchExec_of_read hread]
  rcases exec_of_pending hs hwf hwhole hpending with hexec | ⟨hexec, -, hroom, hdist⟩ <;>
    rw [hexec] at ht <;> cases ht
  · calc step (s.withBus rules).beginAt
      _ = (s.withBus rules).beginAt.fetchExec :=
        step_of_atInstruction (s := (s.withBus rules).beginAt) hin (.inr rfl)
      _ = exec i (s.withBus rules).beginAt :=
        fetchExec_of_read (by rw [streamFrom_beginAt]; exact hread)
      _ = exec i (s.withBus rules) := exec_beginAt hs _
  · rw [exec_of_fetched (s := s.withBus rules) hs hwhole hfetch hroom hdist, ← resumeCopy_inCopy hread]
    exact step_of_no_inputs
      (s := (s.withBus rules).inCopy (fetchedBy i) (produces i) (reaches i)) hin

end State

/-- Settles O17: an instruction held up waits in D_OPERAND or D_COPY, where its next turn is held up too, and does
later what it would have done at once. -/
theorem unansweredReadWaits : Obligations.UnansweredReadWaits := by
  refine ⟨fun s i hs => ⟨fun hpending => ?_, fun hwf hwhole hfetch hroom hdist hpending => ?_⟩,
    fun s hin hat hpending => ?_, fun s t i rest rules hin hat hdec hpending ht hfetch => ?_⟩
  · have hexec : exec i s = .next s.beginAt := by
      rcases hpending with ⟨hip, hopcode⟩ | ⟨hwhole, hpending⟩
      · exact State.exec_of_pending_opcode hs hip hopcode
      · exact State.exec_of_pending_fetch hs hwhole (Platform.answers_of_firstPending hpending)
    exact ⟨_, hexec, rfl, State.sameAround_withEng s _, rfl, rfl, rfl,
      (State.exec_beginAt hs s).trans hexec⟩
  · obtain ⟨hcopy, hwaits⟩ :=
      State.waits_inCopy hs hwf (Platform.answers_of_firstPending hpending)
    obtain ⟨haround, hmem, hunspec, hbusy⟩ := hwaits.frame
    have hexec :=
      State.exec_of_fetched hs hwhole (Platform.answers_of_performed hfetch) hroom hdist
    exact ⟨_, hexec.trans (congrArg _ hcopy), rfl, rfl, rfl, haround, hmem, hunspec, hbusy,
      hwaits.stays⟩
  · have hturn := Platform.answers_of_firstPending hpending
    have hstep : NextWith (step s) s.Waits := by
      rw [State.step_of_no_inputs hin]
      rcases hat with hat | hat
      · rw [State.turnAccesses_of_atInstruction hat] at hturn
        rw [State.engineStep_of_atInstruction hat]
        exact State.fetchExec_waits hturn
      · exact State.engineStep_waits_of_atCopy hat hturn
    obtain ⟨t, ht, hwaits⟩ := hstep
    obtain ⟨haround, hmem, hunspec, hbusy⟩ := hwaits.frame
    exact ⟨t, ht, hwaits.phase, hwaits.offset, haround, hmem, hunspec, hbusy,
      (State.step_of_no_inputs (haround.inputs.trans hin)).trans hwaits.stays⟩
  · exact State.step_withBus_of_waiting hin hat hdec (Platform.answers_of_firstPending hpending) ht
      (Platform.answers_of_performed hfetch)

end Sys2Proof.Machine
end
